-- ==== Sys2Proof/Word.lean ====
section
/-! DEFINITION. The word types of the engine: a byte, the 64-bit bit buffers, 32-bit records and tokens, 16-bit
table entries. Shifts of `BitVec` by a natural amount already are those of rule R12: a shift by the width or more
gives 0, left shifts drop the bits above the width, right shifts are logical. -/

namespace Sys2Proof

/-- One byte of a stream or of a byte memory (rule R70). -/
abbrev Byte := BitVec 8

/-- A 16-bit value: a small-table entry, a large `long_lookup` entry, a hash slot (rules R42, R43, R45). -/
abbrev Half := BitVec 16

/-- A 32-bit value: a token, a code record, a histogram slot, a large short entry (rules R107, R112, R128, R132). -/
abbrev Word := BitVec 32

/-- A 64-bit value: the decode and the encode bit buffer (rules R20, R49). -/
abbrev Wide := BitVec 64

end Sys2Proof
end

