-- ==== Sys2Proof/Config.lean ====
section
/-! DEFINITION. What is fixed for the machine: the constants of rule R9, the open parameters of rule R10 (taken as
data, with the defaults of 92_eei_decisions.md), and the free values. -/

namespace Sys2Proof.Config

/-- `HISTORY_SIZE`, written `H` (rule R9). -/
abbrev historySize : Nat := 32768
/-- `LOOKAHEAD` (rule R9). -/
abbrev lookahead : Nat := 288
/-- `HIST_BUF_SIZE = 2*H + LOOKAHEAD` (rule R9). -/
abbrev histBufSize : Nat := 65824
/-- `DIST_LOOKUP_BITS` (rule R9). -/
abbrev distLookupBits : Nat := 10
/-- `LITLEN_LOOKUP_BITS` (rule R9). -/
abbrev litlenLookupBits : Nat := 12
/-- `HDR_BUF_SIZE` (rule R9). -/
abbrev hdrBufSize : Nat := 328
/-- `MAX_LITLEN_SYMS` (rule R9). -/
abbrev maxLitlenSyms : Nat := 286
/-- `MAX_DIST_SYMS` (rule R9). -/
abbrev maxDistSyms : Nat := 30
/-- `CLC_SYMS` (rule R9). -/
abbrev clcSyms : Nat := 19
/-- `MAX_CODE_LEN` (rule R9). -/
abbrev maxCodeLen : Nat := 15
/-- `MAX_CLC_LEN` (rule R9). -/
abbrev maxClcLen : Nat := 7
/-- `MIN_MATCH` (rule R9). -/
abbrev minMatch : Nat := 3
/-- `MAX_MATCH` (rule R9). -/
abbrev maxMatch : Nat := 258
/-- `LEN_OFFSET`: `litlen = match_len + 254` (rule R9). -/
abbrev lenOffset : Nat := 254
/-- `EOB`, the end-of-block symbol (rule R9). -/
abbrev eobSymbol : Nat := 256
/-- `INVALID_DIST`, the token `dist` value meaning "literal" (rule R9). -/
abbrev invalidDist : Nat := 30
/-- `TOKEN_CAP` (rule R9). -/
abbrev tokenCap : Nat := 32767
/-- Entries of `TOK`: `TOKEN_CAP` tokens plus the end-of-block token (rules R48, R70). -/
abbrev tokBufSize : Nat := 32768
/-- `HASH_PRIME` (rule R9). -/
abbrev hashPrime : Nat := 0xB2D06057
/-- `REFILL_MAIN` (rule R9). -/
abbrev refillMain : Nat := 57
/-- `REFILL_HDR` (rule R9). -/
abbrev refillHdr : Nat := 15
/-- `MULTISYM_T1` (rule R9). -/
abbrev multisymT1 : Nat := 2048
/-- `MULTISYM_T2` (rule R9). -/
abbrev multisymT2 : Nat := 4096
/-- The full deflate window (rule R9, `WINDOW_SIZE`). -/
abbrev windowFull : Nat := 32768
/-- The 4 KiB deflate window (rule R9, `WINDOW_SIZE`). -/
abbrev window4k : Nat := 4096

/-- The open parameters of rule R10, held as data: a claim about every state is a claim about every value of them.
`codeLengths` is `CodeLengths` of rule R188 as far as a finite run can use it: pairs of a sorted frequency list and
the length list chosen for it; for a list that is not there (or whose choice breaks rule R188's contract) the
reference instance is used. `multisymOverride` is the host's override of the selection of rule R221 (93 U14).
DESIGN CHOICE (log 8, log 9): parameters are plain data of the state. -/
structure Params where
  /-- `SLICE_MAX`, any value of at least 9 (D32). -/
  sliceMax : Nat := 4096
  /-- `OUT_BUF_SIZE`, any value of at least 16 (D33). -/
  outBufSize : Nat := 4096
  /-- `HASH_BITS_4K(1)`, 1 to 16 (D34). -/
  hashBits4k1 : Nat := 12
  /-- `HASH_BITS_4K(2)`, 1 to 16 (D34). -/
  hashBits4k2 : Nat := 15
  /-- `CodeLengths` (D21). -/
  codeLengths : List (List Nat × List Nat) := []
  /-- The `multisym` override, 1, 2 or 3 (93 U14). -/
  multisymOverride : Option Nat := none
deriving DecidableEq, Repr

/-- The ranges 92_eei_decisions.md gives the open parameters. -/
def Params.inRange (p : Params) : Bool :=
  decide (9 ≤ p.sliceMax) && decide (16 ≤ p.outBufSize)
    && decide (1 ≤ p.hashBits4k1) && decide (p.hashBits4k1 ≤ 16)
    && decide (1 ≤ p.hashBits4k2) && decide (p.hashBits4k2 ≤ 16)
    && (match p.multisymOverride with
        | none => true
        | some m => decide (1 ≤ m) && decide (m ≤ 3))

/-- FREE VALUE. The `k`-th natural of the `n`-th draw: a register of the deflate side after a sink error (rule R392,
93 U7). It has no body, so nothing can be proved of its value (log 11). -/
opaque freeNat : Nat → Nat → Nat

/-- FREE VALUE. The slots of a zero-default table of the deflate side after a sink error (rule R392, log 11). -/
opaque freeSlots (w : Nat) : Nat → Nat → List (Nat × BitVec w)

/-- FREE VALUE. A list of naturals of the code-generation scratch after a sink error (rule R392, log 11). -/
opaque freeNats : Nat → Nat → List Nat

/-- FREE VALUE. A list of pairs of the code-generation scratch after a sink error (rule R392, log 11). -/
opaque freePairs : Nat → Nat → List (Nat × Nat)

/-- FREE VALUE. The `rle` list of the code-generation scratch after a sink error (rule R392, log 11). -/
opaque freeRle : Nat → List (Nat × Nat × Nat)

/-- FREE VALUE. The code-length-code records of the scratch after a sink error (rule R392, log 11). -/
opaque freeWords : Nat → List Word

end Sys2Proof.Config
end

