-- ==== Sys2Proof/Machine/Bits.lean ====
section
/-! DEFINITION. Bit-field and byte-order helpers of rules R13, R76 and R182. -/

namespace Sys2Proof.Machine

/-- `mask(k) = (1 << k) - 1` (rule R13). -/
def mask (k : Nat) : Nat := 2 ^ k - 1

/-- The field `v[hi:lo]` (rule R11), given as its lowest bit and its width. -/
def field (v lo width : Nat) : Nat := (v >>> lo) % 2 ^ width

/-- `bitrev(v, n)` (rule R182): bit `i` of the result is bit `n-1-i` of `v`, higher bits 0. -/
def bitrev : Nat → Nat → Nat
  | _, 0 => 0
  | v, n + 1 => (v % 2) * 2 ^ n + bitrev (v / 2) n

/-- `bitlen(v)`: number of significant bits, 0 for 0 (rule R13). -/
def bitlen (v : Nat) : Nat := if v = 0 then 0 else Nat.log2 v + 1

/-- Trailing zero bits of `v` among its low `n` bits, `n` when they are all 0. -/
def ctzUpTo : Nat → Nat → Nat
  | 0, _ => 0
  | n + 1, v => if v % 2 = 1 then 0 else ctzUpTo n (v / 2) + 1

/-- `ctz64(v)` (rule R13): 64 when `v = 0`. -/
def ctz64 (v : Wide) : Nat := ctzUpTo 64 v.toNat

/-- The little-endian value of a byte string (rule R76): byte `j` counts `2^(8j)`. -/
def leValue : List Byte → Nat
  | [] => 0
  | b :: bs => b.toNat + 256 * leValue bs

/-- The `n` little-endian bytes of `v` (rule R76). -/
def leBytes : Nat → Nat → List Byte
  | 0, _ => []
  | n + 1, v => BitVec.ofNat 8 v :: leBytes n (v / 256)

/-- `[f i, f (i+1), .., f (i+n-1)]`: a table written as a function of its index. -/
def tabulateFrom {α : Type} (f : Nat → α) : Nat → Nat → List α
  | 0, _ => []
  | n + 1, i => f i :: tabulateFrom f n (i + 1)

/-- `[f 0, .., f (n-1)]`. -/
def tabulate {α : Type} (n : Nat) (f : Nat → α) : List α := tabulateFrom f n 0

end Sys2Proof.Machine
end

