-- ==== Sys2Proof/Machine/Operands.lean ====
section
/-! DEFINITION. The operand forms of rules R103 to R105 and R120 to R129: length symbols, distance symbols, expanded
symbols, the code-length order, the token's fields. -/

namespace Sys2Proof.Machine

/-- `CLC_ORDER` (rule R104). -/
def clcOrder : List Nat := [16, 17, 18, 0, 8, 7, 9, 6, 10, 5, 11, 4, 12, 3, 13, 2, 14, 1, 15]

/-- The rows of rule R121, symbol 257 first: (extra-bit count, first length). -/
def lenRows : List (Nat × Nat) :=
  [(0, 3), (0, 4), (0, 5), (0, 6), (0, 7), (0, 8), (0, 9), (0, 10), (1, 11), (1, 13)]
  ++ [(1, 15), (1, 17), (2, 19), (2, 23), (2, 27), (2, 31), (3, 35), (3, 43), (3, 51), (3, 59)]
  ++ [(4, 67), (4, 83), (4, 99), (4, 115), (5, 131), (5, 163), (5, 195), (5, 227), (0, 258)]

/-- `LenExtra[s]` (rule R121); 0 for a symbol that is no length symbol (rule R124). -/
def lenExtra (s : Nat) : Nat := if s < 257 then 0 else (lenRows.getD (s - 257) (0, 0)).1

/-- `LenBase[s]` (rule R121). -/
def lenBase (s : Nat) : Nat := if s < 257 then 0 else (lenRows.getD (s - 257) (0, 0)).2

/-- The first symbol from `s` on, among `n`, whose row of rule R121 contains the length. -/
def lenSymFrom (len : Nat) : Nat → Nat → Nat
  | 0, s => s
  | n + 1, s => if len < lenBase s + 2 ^ lenExtra s then s else lenSymFrom len n (s + 1)

/-- `LenSym(len)` (rule R320): 258 maps to symbol 285, not 284. -/
def lenSym (len : Nat) : Nat := if len = Config.maxMatch then 285 else lenSymFrom len 28 257

/-- `DistExtraBitCount[s]` (rule R123). -/
def distExtraBits (s : Nat) : Nat := if s ≤ 1 then 0 else s / 2 - 1

/-- `DistStart[s]` (rule R123). -/
def distStart (s : Nat) : Nat := if s ≤ 1 then s + 1 else (2 + s % 2) * 2 ^ distExtraBits s + 1

/-- What `DistSym` gives (rule R122). -/
structure DistCode where
  sym : Nat
  nExtra : Nat
  extra : Nat
deriving DecidableEq, Repr

/-- `DistSym(dist)` (rule R122). -/
def distSym (dist : Nat) : DistCode :=
  if dist ≤ 2 then ⟨dist - 1, 0, 0⟩
  else
    let nExtra := bitlen (dist - 1) - 2
    ⟨2 * nExtra + (dist - 1) >>> nExtra, nExtra, (dist - 1) % 2 ^ nExtra⟩

/-- The expanded symbol of literal/length symbol `s` with extra value `e` (rule R124): 286 and 287 give 513, 514. -/
def expandedSym (s e : Nat) : Nat :=
  if s ≤ 256 then s else if s = 286 then 513 else if s = 287 then 514 else Config.lenOffset + lenBase s + e

/-- The 32-bit token with the three fields of rule R128. -/
def packToken (litlen dist distExtra : Nat) : Word :=
  BitVec.ofNat 32 (litlen ||| (dist <<< 10) ||| (distExtra <<< 19))

/-- `litlen = t[9:0]` (rule R128). -/
def tokenLitlen (t : Word) : Nat := field t.toNat 0 10
/-- `dist = t[18:10]` (rule R128). -/
def tokenDist (t : Word) : Nat := field t.toNat 10 9
/-- `distExtra = t[31:19]` (rule R128). -/
def tokenExtra (t : Word) : Nat := field t.toNat 19 13

/-- The literal token of rule R129. -/
def litToken (b : Byte) : Word := packToken b.toNat Config.invalidDist 0
/-- The end-of-block token of rule R129. -/
def eobToken : Word := packToken Config.eobSymbol Config.invalidDist 0
/-- The match token of rule R129. -/
def matchToken (len dist : Nat) : Word :=
  packToken (len + Config.lenOffset) (distSym dist).sym (distSym dist).extra

end Sys2Proof.Machine
end

