-- ==== Sys2Proof/Syntax.lean ====
section
/-! DEFINITION. The instruction set: one constructor per row of spec/opcode_table.json (rule R158). Stream elements
carry the operands that decoding has already taken (the literal, the length's extra bits, `bfinal`); the extra bits
of code-length and of distance symbols are read from the stream by the instruction itself (rules R245, R266).
Commands carry their operands (rule R151). -/

namespace Sys2Proof

/-- One instruction of the engine: a stream element, a token or a host command. -/
inductive Instr where
  /-- BLK_STORED, the 3-bit header with `btype = 00` (rule R236). -/
  | blkStored (bfinal : Bool)
  /-- BLK_STATIC, `btype = 01` (rule R238). -/
  | blkStatic (bfinal : Bool)
  /-- BLK_DYNAMIC, `btype = 10` (rule R239). -/
  | blkDynamic (bfinal : Bool)
  /-- BLK_RESERVED, `btype = 11` (rule R235). -/
  | blkReserved (bfinal : Bool)
  /-- CL_LEN, code-length-code symbols 0..15 (rule R245). -/
  | clLen (len : BitVec 4)
  /-- CL_COPY_PREV, symbol 16 (rule R245). -/
  | clCopyPrev
  /-- CL_ZEROS_3_10, symbol 17 (rule R245). -/
  | clZeros3To10
  /-- CL_ZEROS_11_138, symbol 18 (rule R245). -/
  | clZeros11To138
  /-- LIT, a literal byte (rule R264). -/
  | lit (b : Byte)
  /-- EOB, the end of a block (rule R265). -/
  | eob
  /-- LEN_257 (rules R121, R266). -/
  | len257
  /-- LEN_258 (rules R121, R266). -/
  | len258
  /-- LEN_259 (rules R121, R266). -/
  | len259
  /-- LEN_260 (rules R121, R266). -/
  | len260
  /-- LEN_261 (rules R121, R266). -/
  | len261
  /-- LEN_262 (rules R121, R266). -/
  | len262
  /-- LEN_263 (rules R121, R266). -/
  | len263
  /-- LEN_264 (rules R121, R266). -/
  | len264
  /-- LEN_265, 1 extra bit (rules R121, R266). -/
  | len265 (e : BitVec 1)
  /-- LEN_266, 1 extra bit (rules R121, R266). -/
  | len266 (e : BitVec 1)
  /-- LEN_267, 1 extra bit (rules R121, R266). -/
  | len267 (e : BitVec 1)
  /-- LEN_268, 1 extra bit (rules R121, R266). -/
  | len268 (e : BitVec 1)
  /-- LEN_269, 2 extra bits (rules R121, R266). -/
  | len269 (e : BitVec 2)
  /-- LEN_270, 2 extra bits (rules R121, R266). -/
  | len270 (e : BitVec 2)
  /-- LEN_271, 2 extra bits (rules R121, R266). -/
  | len271 (e : BitVec 2)
  /-- LEN_272, 2 extra bits (rules R121, R266). -/
  | len272 (e : BitVec 2)
  /-- LEN_273, 3 extra bits (rules R121, R266). -/
  | len273 (e : BitVec 3)
  /-- LEN_274, 3 extra bits (rules R121, R266). -/
  | len274 (e : BitVec 3)
  /-- LEN_275, 3 extra bits (rules R121, R266). -/
  | len275 (e : BitVec 3)
  /-- LEN_276, 3 extra bits (rules R121, R266). -/
  | len276 (e : BitVec 3)
  /-- LEN_277, 4 extra bits (rules R121, R266). -/
  | len277 (e : BitVec 4)
  /-- LEN_278, 4 extra bits (rules R121, R266). -/
  | len278 (e : BitVec 4)
  /-- LEN_279, 4 extra bits (rules R121, R266). -/
  | len279 (e : BitVec 4)
  /-- LEN_280, 4 extra bits (rules R121, R266). -/
  | len280 (e : BitVec 4)
  /-- LEN_281, 5 extra bits (rules R121, R266). -/
  | len281 (e : BitVec 5)
  /-- LEN_282, 5 extra bits (rules R121, R266). -/
  | len282 (e : BitVec 5)
  /-- LEN_283, 5 extra bits (rules R121, R266). -/
  | len283 (e : BitVec 5)
  /-- LEN_284, 5 extra bits (rules R121, R266). -/
  | len284 (e : BitVec 5)
  /-- LEN_285 (rules R121, R266). -/
  | len285
  /-- LL_RESERVED_286 (rule R271). -/
  | llReserved286
  /-- LL_RESERVED_287 (rule R271). -/
  | llReserved287
  /-- DIST_0 (rules R123, R266). -/
  | dist0
  /-- DIST_1 (rules R123, R266). -/
  | dist1
  /-- DIST_2 (rules R123, R266). -/
  | dist2
  /-- DIST_3 (rules R123, R266). -/
  | dist3
  /-- DIST_4 (rules R123, R266). -/
  | dist4
  /-- DIST_5 (rules R123, R266). -/
  | dist5
  /-- DIST_6 (rules R123, R266). -/
  | dist6
  /-- DIST_7 (rules R123, R266). -/
  | dist7
  /-- DIST_8 (rules R123, R266). -/
  | dist8
  /-- DIST_9 (rules R123, R266). -/
  | dist9
  /-- DIST_10 (rules R123, R266). -/
  | dist10
  /-- DIST_11 (rules R123, R266). -/
  | dist11
  /-- DIST_12 (rules R123, R266). -/
  | dist12
  /-- DIST_13 (rules R123, R266). -/
  | dist13
  /-- DIST_14 (rules R123, R266). -/
  | dist14
  /-- DIST_15 (rules R123, R266). -/
  | dist15
  /-- DIST_16 (rules R123, R266). -/
  | dist16
  /-- DIST_17 (rules R123, R266). -/
  | dist17
  /-- DIST_18 (rules R123, R266). -/
  | dist18
  /-- DIST_19 (rules R123, R266). -/
  | dist19
  /-- DIST_20 (rules R123, R266). -/
  | dist20
  /-- DIST_21 (rules R123, R266). -/
  | dist21
  /-- DIST_22 (rules R123, R266). -/
  | dist22
  /-- DIST_23 (rules R123, R266). -/
  | dist23
  /-- DIST_24 (rules R123, R266). -/
  | dist24
  /-- DIST_25 (rules R123, R266). -/
  | dist25
  /-- DIST_26 (rules R123, R266). -/
  | dist26
  /-- DIST_27 (rules R123, R266). -/
  | dist27
  /-- DIST_28 (rules R123, R266). -/
  | dist28
  /-- DIST_29 (rules R123, R266). -/
  | dist29
  /-- DIST_RESERVED_30 (rules R224, R266). -/
  | distReserved30
  /-- DIST_RESERVED_31 (rules R224, R266). -/
  | distReserved31
  /-- TLIT, a literal token (rules R129, R341). -/
  | tlit (b : Byte)
  /-- TEOB, the end-of-block token (rules R129, R341, R347). -/
  | teob
  /-- TMATCH, a match token with its three fields (rules R128, R129, R341). -/
  | tmatch (litlen : BitVec 10) (dist : BitVec 9) (distExtra : BitVec 13)
  /-- IN_RESET (rule R281). -/
  | inReset
  /-- IN_STEP with the slice the host lends (rule R288). -/
  | inStep (slice : List Byte)
  /-- IN_READ of at most `n` bytes (rule R284). -/
  | inRead (n : Nat)
  /-- IN_CLOSE (rule R298). -/
  | inClose
  /-- DF_RESET with level and window size (rule R377). -/
  | dfReset (level : Int) (windowSize : Nat)
  /-- DF_WRITE of a byte string (rule R381). -/
  | dfWrite (data : List Byte)
  /-- DF_FLUSH (rule R388). -/
  | dfFlush
  /-- DF_CLOSE (rule R389). -/
  | dfClose
deriving DecidableEq, Repr

end Sys2Proof
end

