-- ==== Sys2Proof/WellFormed.lean ====
section
/-! DEFINITION. Which instructions have an encoding: the operand widths are in the types; what is left is the match
token, whose three fields hold only the values of rule R129 (every other token value is reserved, rule R130). -/

namespace Sys2Proof

/-- `litlen` of a match token is a match length 3..258 plus 254 (rule R129). -/
def Instr.matchLitlenOk (litlen : BitVec 10) : Bool :=
  decide (257 ≤ litlen.toNat) && decide (litlen.toNat ≤ 512)

/-- `dist` of a match token is a distance symbol 0..29 (rule R129). -/
def Instr.matchDistOk (dist : BitVec 9) : Bool := decide (dist.toNat ≤ 29)

/-- `distExtra` of a match token fits the symbol's extra bits (rules R122, R129). -/
def Instr.matchExtraOk (dist : BitVec 9) (distExtra : BitVec 13) : Bool :=
  decide (distExtra.toNat < 2 ^ Machine.distExtraBits dist.toNat)

/-- The instruction is one that the encodings of the spec can hold. -/
def Instr.wf : Instr → Bool
  | .tmatch litlen dist distExtra =>
    Instr.matchLitlenOk litlen && Instr.matchDistOk dist && Instr.matchExtraOk dist distExtra
  | _ => true

end Sys2Proof
end

