-- ==== Sys2Proof/Decode.lean ====
section
/-! DEFINITION. The decoder: total on any bytes, rejecting by name, and the encoder written from the same encodings
(rules R101, R105, R120, R122, R128 to R130, R150, R158). A word is numbered as spec/opcode_table.json numbers it, bit 0
first. The literal/length, distance and code-length formats hold the SYMBOL NUMBER that Huffman decoding yields
(rule R158); the extra value of a length symbol stands right above its 9-bit number (DESIGN CHOICE, log 3). A command
has its 3-bit code and, beside it, its operands, which have no binary encoding (rule R151, log 3). -/

namespace Sys2Proof

/-- The six formats of the opcode table (rule R158). -/
inductive Format where
  | blkhdr | clsym | llsym | dsym | token | cmd
deriving DecidableEq, Repr

/-- The operands that stand beside a command's code (rules R150, R151): all zero or empty where a command has none. -/
structure CmdArgs where
  /-- `n` of `IN_READ`. -/
  n : Nat := 0
  /-- `level` of `DF_RESET`. -/
  level : Int := 0
  /-- `windowSize` of `DF_RESET`. -/
  windowSize : Nat := 0
  /-- The slice of `IN_STEP`, the bytes of `DF_WRITE`. -/
  data : List Byte := []
deriving DecidableEq, Repr

/-- One instruction word, with the operands beside it if it is a command. -/
structure Code where
  fmt : Format
  bits : Nat
  args : CmdArgs := {}
deriving DecidableEq, Repr

/-- Why a word is no instruction. -/
inductive DecodeError where
  /-- Bits are set above the format's fields. -/
  | bitsAboveFields
  /-- A code-length-code symbol of 19 or more (rule R105). -/
  | noSuchClSymbol
  /-- A literal/length symbol of 288 or more (rule R120). -/
  | noSuchLlSymbol
  /-- An extra value that the length symbol's extra bits cannot hold (rule R121). -/
  | extraTooWide
  /-- A token value outside rule R129 (rule R130). -/
  | reservedToken
  /-- Fewer bytes than the format has. -/
  | truncated
deriving DecidableEq, Repr

/-- How many whole bytes a word of the format has. -/
def Format.nbytes : Format → Nat
  | .blkhdr => 1 | .clsym => 1 | .llsym => 2 | .dsym => 1 | .token => 4 | .cmd => 1

/-- `BLKHDR` (rule R101): `h[0]` is `bfinal`, `h[2:1]` is `btype`. -/
def decodeBlkhdr (h : Nat) : Except DecodeError Instr :=
  let bfinal := h % 2 == 1
  match h / 2 with
  | 0 => .ok (.blkStored bfinal)
  | 1 => .ok (.blkStatic bfinal)
  | 2 => .ok (.blkDynamic bfinal)
  | 3 => .ok (.blkReserved bfinal)
  | _ => .error .bitsAboveFields

/-- `CLSYM` (rule R105). -/
def decodeClsym (s : Nat) : Except DecodeError Instr :=
  if s < 16 then .ok (.clLen (BitVec.ofNat 4 s))
  else match s with
  | 16 => .ok .clCopyPrev
  | 17 => .ok .clZeros3To10
  | 18 => .ok .clZeros11To138
  | _ => if s < 32 then .error .noSuchClSymbol else .error .bitsAboveFields

/-- The length instruction of symbol `s` with extra value `e` (rules R120, R121). -/
def lengthInstr (s e : Nat) : Option Instr :=
  match s with
  | 257 => some .len257
  | 258 => some .len258
  | 259 => some .len259
  | 260 => some .len260
  | 261 => some .len261
  | 262 => some .len262
  | 263 => some .len263
  | 264 => some .len264
  | 265 => some (.len265 (BitVec.ofNat 1 e))
  | 266 => some (.len266 (BitVec.ofNat 1 e))
  | 267 => some (.len267 (BitVec.ofNat 1 e))
  | 268 => some (.len268 (BitVec.ofNat 1 e))
  | 269 => some (.len269 (BitVec.ofNat 2 e))
  | 270 => some (.len270 (BitVec.ofNat 2 e))
  | 271 => some (.len271 (BitVec.ofNat 2 e))
  | 272 => some (.len272 (BitVec.ofNat 2 e))
  | 273 => some (.len273 (BitVec.ofNat 3 e))
  | 274 => some (.len274 (BitVec.ofNat 3 e))
  | 275 => some (.len275 (BitVec.ofNat 3 e))
  | 276 => some (.len276 (BitVec.ofNat 3 e))
  | 277 => some (.len277 (BitVec.ofNat 4 e))
  | 278 => some (.len278 (BitVec.ofNat 4 e))
  | 279 => some (.len279 (BitVec.ofNat 4 e))
  | 280 => some (.len280 (BitVec.ofNat 4 e))
  | 281 => some (.len281 (BitVec.ofNat 5 e))
  | 282 => some (.len282 (BitVec.ofNat 5 e))
  | 283 => some (.len283 (BitVec.ofNat 5 e))
  | 284 => some (.len284 (BitVec.ofNat 5 e))
  | 285 => some .len285
  | 286 => some .llReserved286
  | 287 => some .llReserved287
  | _ => none

/-- `LLSYM` (rules R120, R121): the symbol number in bits `[8:0]`, the extra value above it. -/
def decodeLlsym (w : Nat) : Except DecodeError Instr :=
  let s := w % 512
  let e := w / 512
  if s ≤ 256 then
    if e ≠ 0 then .error .bitsAboveFields
    else if s < 256 then .ok (.lit (BitVec.ofNat 8 s)) else .ok .eob
  else if 2 ^ Machine.lenExtra s ≤ e then .error .extraTooWide
  else match lengthInstr s e with
  | some i => .ok i
  | none => .error .noSuchLlSymbol

/-- The distance instruction of symbol `s` (rule R122). -/
def distanceInstr (s : Nat) : Option Instr :=
  match s with
  | 0 => some .dist0
  | 1 => some .dist1
  | 2 => some .dist2
  | 3 => some .dist3
  | 4 => some .dist4
  | 5 => some .dist5
  | 6 => some .dist6
  | 7 => some .dist7
  | 8 => some .dist8
  | 9 => some .dist9
  | 10 => some .dist10
  | 11 => some .dist11
  | 12 => some .dist12
  | 13 => some .dist13
  | 14 => some .dist14
  | 15 => some .dist15
  | 16 => some .dist16
  | 17 => some .dist17
  | 18 => some .dist18
  | 19 => some .dist19
  | 20 => some .dist20
  | 21 => some .dist21
  | 22 => some .dist22
  | 23 => some .dist23
  | 24 => some .dist24
  | 25 => some .dist25
  | 26 => some .dist26
  | 27 => some .dist27
  | 28 => some .dist28
  | 29 => some .dist29
  | 30 => some .distReserved30
  | 31 => some .distReserved31
  | _ => none

/-- `DSYM` (rule R158). -/
def decodeDsym (w : Nat) : Except DecodeError Instr :=
  match distanceInstr w with
  | some i => .ok i
  | none => .error .bitsAboveFields

/-- `TOKEN` (rules R128 to R130): literal, end of block, match; every other value is reserved. -/
def decodeToken (w : Nat) : Except DecodeError Instr :=
  if 2 ^ 32 ≤ w then .error .bitsAboveFields
  else
    let litlen := Machine.field w 0 10
    let dist := Machine.field w 10 9
    let extra := Machine.field w 19 13
    if dist = Config.invalidDist ∧ extra = 0 ∧ litlen < 256 then .ok (.tlit (BitVec.ofNat 8 litlen))
    else if dist = Config.invalidDist ∧ extra = 0 ∧ litlen = Config.eobSymbol then .ok .teob
    else if 257 ≤ litlen ∧ litlen ≤ 512 ∧ dist ≤ 29 ∧ extra < 2 ^ Machine.distExtraBits dist then
      .ok (.tmatch (BitVec.ofNat 10 litlen) (BitVec.ofNat 9 dist) (BitVec.ofNat 13 extra))
    else .error .reservedToken

/-- `CMD` (rule R150): the 3-bit code, with the operands beside it. -/
def decodeCmd (w : Nat) (a : CmdArgs) : Except DecodeError Instr :=
  match w with
  | 0 => .ok .inReset
  | 1 => .ok (.inStep a.data)
  | 2 => .ok (.inRead a.n)
  | 3 => .ok .inClose
  | 4 => .ok (.dfReset a.level a.windowSize)
  | 5 => .ok (.dfWrite a.data)
  | 6 => .ok .dfFlush
  | 7 => .ok .dfClose
  | _ => .error .bitsAboveFields

/-- The instruction a word stands for. -/
def decode (c : Code) : Except DecodeError Instr :=
  match c.fmt with
  | .blkhdr => decodeBlkhdr c.bits
  | .clsym => decodeClsym c.bits
  | .llsym => decodeLlsym c.bits
  | .dsym => decodeDsym c.bits
  | .token => decodeToken c.bits
  | .cmd => decodeCmd c.bits c.args

/-- The same from bytes: the format's bytes, little-endian (rule R76), and what is left of the list. -/
def decodeBytes (fmt : Format) (args : CmdArgs) (bytes : List Byte) : Except DecodeError (Instr × List Byte) :=
  if bytes.length < fmt.nbytes then .error .truncated
  else match decode ⟨fmt, Machine.leValue (bytes.take fmt.nbytes), args⟩ with
  | .ok i => .ok (i, bytes.drop fmt.nbytes)
  | .error e => .error e

/-- The format in which a word of spec/opcode_table.json is read when nothing but its bits is known. Words of one
length in several formats share values; a machine at rest fetches commands, so an 8-bit word below 8 is a command and
any other a distance symbol (DESIGN CHOICE, log 3). In the machine the format is never in doubt: the phase gives it. -/
def tableFormat (nbits w : Nat) : Option Format :=
  if nbits ≤ 8 then (if w < 8 then some .cmd else some .dsym)
  else if nbits ≤ 16 then some .llsym
  else if nbits ≤ 32 then some .token
  else none

/-- The instruction the decoder reads from a word as the opcode table numbers it, its operand words all zero. -/
def decodeTableWord (nbits w : Nat) : Option Instr :=
  match tableFormat nbits w with
  | none => none
  | some fmt =>
    if 2 ^ (8 * fmt.nbytes) ≤ w then none
    else match decodeBytes fmt {} (Machine.leBytes fmt.nbytes w) with
    | .ok (i, _) => some i
    | .error _ => none

/-- The word of an instruction of the format `LLSYM` (rules R120, R121). -/
def llCode (s e : Nat) : Code := ⟨.llsym, s + 512 * e, {}⟩

/-- The word of a well-formed instruction, from the same encodings. -/
def encode : Instr → Code
  | .blkStored f => ⟨.blkhdr, f.toNat, {}⟩
  | .blkStatic f => ⟨.blkhdr, f.toNat + 2, {}⟩
  | .blkDynamic f => ⟨.blkhdr, f.toNat + 4, {}⟩
  | .blkReserved f => ⟨.blkhdr, f.toNat + 6, {}⟩
  | .clLen l => ⟨.clsym, l.toNat, {}⟩
  | .clCopyPrev => ⟨.clsym, 16, {}⟩
  | .clZeros3To10 => ⟨.clsym, 17, {}⟩
  | .clZeros11To138 => ⟨.clsym, 18, {}⟩
  | .lit b => llCode b.toNat 0
  | .eob => llCode 256 0
  | .len257 => llCode 257 0
  | .len258 => llCode 258 0
  | .len259 => llCode 259 0
  | .len260 => llCode 260 0
  | .len261 => llCode 261 0
  | .len262 => llCode 262 0
  | .len263 => llCode 263 0
  | .len264 => llCode 264 0
  | .len265 e => llCode 265 e.toNat
  | .len266 e => llCode 266 e.toNat
  | .len267 e => llCode 267 e.toNat
  | .len268 e => llCode 268 e.toNat
  | .len269 e => llCode 269 e.toNat
  | .len270 e => llCode 270 e.toNat
  | .len271 e => llCode 271 e.toNat
  | .len272 e => llCode 272 e.toNat
  | .len273 e => llCode 273 e.toNat
  | .len274 e => llCode 274 e.toNat
  | .len275 e => llCode 275 e.toNat
  | .len276 e => llCode 276 e.toNat
  | .len277 e => llCode 277 e.toNat
  | .len278 e => llCode 278 e.toNat
  | .len279 e => llCode 279 e.toNat
  | .len280 e => llCode 280 e.toNat
  | .len281 e => llCode 281 e.toNat
  | .len282 e => llCode 282 e.toNat
  | .len283 e => llCode 283 e.toNat
  | .len284 e => llCode 284 e.toNat
  | .len285 => llCode 285 0
  | .llReserved286 => llCode 286 0
  | .llReserved287 => llCode 287 0
  | .dist0 => ⟨.dsym, 0, {}⟩
  | .dist1 => ⟨.dsym, 1, {}⟩
  | .dist2 => ⟨.dsym, 2, {}⟩
  | .dist3 => ⟨.dsym, 3, {}⟩
  | .dist4 => ⟨.dsym, 4, {}⟩
  | .dist5 => ⟨.dsym, 5, {}⟩
  | .dist6 => ⟨.dsym, 6, {}⟩
  | .dist7 => ⟨.dsym, 7, {}⟩
  | .dist8 => ⟨.dsym, 8, {}⟩
  | .dist9 => ⟨.dsym, 9, {}⟩
  | .dist10 => ⟨.dsym, 10, {}⟩
  | .dist11 => ⟨.dsym, 11, {}⟩
  | .dist12 => ⟨.dsym, 12, {}⟩
  | .dist13 => ⟨.dsym, 13, {}⟩
  | .dist14 => ⟨.dsym, 14, {}⟩
  | .dist15 => ⟨.dsym, 15, {}⟩
  | .dist16 => ⟨.dsym, 16, {}⟩
  | .dist17 => ⟨.dsym, 17, {}⟩
  | .dist18 => ⟨.dsym, 18, {}⟩
  | .dist19 => ⟨.dsym, 19, {}⟩
  | .dist20 => ⟨.dsym, 20, {}⟩
  | .dist21 => ⟨.dsym, 21, {}⟩
  | .dist22 => ⟨.dsym, 22, {}⟩
  | .dist23 => ⟨.dsym, 23, {}⟩
  | .dist24 => ⟨.dsym, 24, {}⟩
  | .dist25 => ⟨.dsym, 25, {}⟩
  | .dist26 => ⟨.dsym, 26, {}⟩
  | .dist27 => ⟨.dsym, 27, {}⟩
  | .dist28 => ⟨.dsym, 28, {}⟩
  | .dist29 => ⟨.dsym, 29, {}⟩
  | .distReserved30 => ⟨.dsym, 30, {}⟩
  | .distReserved31 => ⟨.dsym, 31, {}⟩
  | .tlit b => ⟨.token, b.toNat + 1024 * 30, {}⟩
  | .teob => ⟨.token, 256 + 1024 * 30, {}⟩
  | .tmatch litlen dist extra => ⟨.token, litlen.toNat + 2 ^ 10 * dist.toNat + 2 ^ 19 * extra.toNat, {}⟩
  | .inReset => ⟨.cmd, 0, {}⟩
  | .inStep slice => ⟨.cmd, 1, { data := slice }⟩
  | .inRead n => ⟨.cmd, 2, { n := n }⟩
  | .inClose => ⟨.cmd, 3, {}⟩
  | .dfReset level windowSize => ⟨.cmd, 4, { level := level, windowSize := windowSize }⟩
  | .dfWrite data => ⟨.cmd, 5, { data := data }⟩
  | .dfFlush => ⟨.cmd, 6, {}⟩
  | .dfClose => ⟨.cmd, 7, {}⟩

/-- The bytes of a well-formed instruction's word, first byte at the lowest address. -/
def encodeBytes (i : Instr) : List Byte := Machine.leBytes (encode i).fmt.nbytes (encode i).bits

end Sys2Proof
end

