-- ==== Sys2Proof/Machine/State.lean ====
section
/-! DEFINITION. The state of the machine as plain data: the inflate side and the deflate side (10_state.md), the
memory spaces (20_memory.md), the host's side of the interface, the open parameters; the faults and refusals; the
state after reset (rules R60, R61, R440). -/

namespace Sys2Proof.Machine

/-- The memory spaces of rule R70. -/
inductive Space where
  | inp | hist | hdr | win | tok | out
deriving DecidableEq, Repr

/-- Why the machine stops. The hardware of the spec reaches none of these (rule R84, 93 U3, U4, U9): each is raised by
the model, and each is safe. -/
inductive Fault where
  /-- An access at an offset that the space does not have (rule R84, 93 U3); raised by every memory operation; safe. -/
  | outOfSpace (space : Space) (addr : Nat)
  /-- An access that far below offset 0 of the space (rule R84, 93 U3): a copy whose distance exceeds what lies before it;
  raised by `copyHistory`; safe. -/
  | belowSpace (space : Space) (below : Nat)
  /-- A read of a cell that nothing has written since reset (93 U2, log 7); raised by every memory read; safe. -/
  | unwritten (space : Space) (addr : Nat)
  /-- The token encoder met a value outside rule R129 (rule R348, 93 U4); raised by the token loop; safe. -/
  | reservedToken (t : Word)
  /-- The machine was asked to run a word that is no instruction; raised by `step` and by the loops of the two
  engines; no table or token the engine builds gives one; safe. -/
  | undecodable (e : DecodeError)
  /-- `Decode()` did not end within the model's bound on its elements (rule R275 says it ends, log 19); safe. -/
  | decodeBoundExceeded
  /-- `compressBlock` or `DF_WRITE` did not end within the model's bound on its rounds (log 19); safe. -/
  | driverBoundExceeded
  /-- A command's code was met where a stream element is expected (rule R454, 93 U9); safe. -/
  | commandInsideCommand
deriving DecidableEq, Repr

/-- Why an instruction has no meaning. -/
inductive Refusal where
  /-- The instruction has no meaning in this model yet; raised by `exec`'s arm alone; safe. -/
  | notModelled (mnemonic : String)
deriving DecidableEq, Repr

/-- A sparse array: the written cells by index. The canonical form is `Cells.wf`: indices strictly rising. -/
structure Cells (w : Nat) where
  list : List (Nat × BitVec w)
deriving DecidableEq, Repr

/-- A byte memory: its cells are `Host.Cell`s. An address that is not listed has no value (log 7). -/
abbrev Memory := Cells 8

/-- The empty sparse array. -/
def Cells.empty {w : Nat} : Cells w := ⟨[]⟩

/-- The terminal error kinds (rules R34, R400). -/
inductive ErrKind where
  | invalidBlock | invalidSymbol | invalidLookBack
deriving DecidableEq, Repr

/-- The statuses of rules R152 and R400. -/
inductive Status where
  | ok | endInput | outputOverflow | invalidBlock | invalidSymbol | invalidLookBack
  | eof | unexpectedEOF | corruptInput (offset : Nat) | refused | sinkError (e : Nat)
deriving DecidableEq, Repr

/-- The six phases of rule R28, in its order. -/
inductive Phase where
  | newBlock | decodingHeader | litBlock | headerDecoded | streamEnd | finish
deriving DecidableEq, Repr

/-- MODEL'S OWN (log 2). Where inside `Decode()` the inflate engine stands: not decoding; before a stream element
that `phase` selects (rule R233); inside the code-length sequence of a dynamic header (rule R243); between the length
and the distance of a match (rule R266). -/
inductive InStage where
  | idle | parse | clSeq | dist
deriving DecidableEq, Repr

/-- MODEL'S OWN (log 2). Whether the token loop of `EmitBlock` is running (rule R386). -/
inductive DfStage where
  | idle | tokens
deriving DecidableEq, Repr

/-- A small decode table (rule R43): entries that are not listed are invalid (rule R115). -/
structure SmallTable where
  short : List Half
  long : List Half
deriving DecidableEq, Repr

/-- A large decode table (rule R42). -/
structure LargeTable where
  short : List Word
  long : List Half
deriving DecidableEq, Repr

/-- The dynamic-header scratch of rule R44 with the variables of rules R239 to R246 that live while a header is
parsed. -/
structure HeaderScratch where
  /-- `clcLen[0..18]` (rule R241). -/
  clcLen : List Nat
  /-- `clcTable` (rules R44, R242). -/
  clcTable : SmallTable
  /-- `nlit` (rule R239). -/
  nlit : Nat
  /-- `ndist` (rule R239). -/
  ndist : Nat
  /-- `L[0..i-1]`, the code lengths decoded so far (rule R243). -/
  lens : List Nat
  /-- `codeRec[316]`: 286 literal/length records, then 30 distance records (rule R44). -/
  codeRec : List Word
  /-- `nextCode[16]`, as the last `GenerateCode` left it (rules R44, R181). -/
  nextCode : List Nat
  /-- `litCount` (rule R44). -/
  litCount : List Nat
  /-- `distCount` (rule R44). -/
  distCount : List Nat
  /-- The expanded count vector, one counter per total length 0..20 (rule R44). -/
  expCount : List Nat
deriving DecidableEq, Repr

/-- What the last inflate command returned (rules R41, R150). -/
structure InReturn where
  status : Status
  /-- `consumed` of `IN_STEP` (rule R291). -/
  consumed : Int
  /-- The bytes `IN_READ` delivered. -/
  data : List Byte
deriving DecidableEq, Repr

/-- The inflate side (10_state.md sections 1 to 6). -/
structure Inflate where
  bits : Wide
  bitsLen : Int
  inPos : Nat
  inLen : Nat
  /-- The space `IN`. -/
  inBuf : Memory
  snapBits : Wide
  snapBitsLen : Int
  snapInPos : Nat
  snapWritePos : Nat
  litBlockLength : Nat
  readPos : Nat
  writePos : Nat
  writeOverflowLits : Word
  writeOverflowLen : Nat
  copyOverflowLength : Nat
  copyOverflowDistance : Nat
  phase : Phase
  totalIn : Nat
  bfinal : Bool
  btype : BitVec 2
  multisym : Nat
  /-- `inErr` with its `errOffset`. -/
  inErr : Option (ErrKind × Nat)
  outLimit : Nat
  litLenTable : LargeTable
  distTable : SmallTable
  scratch : HeaderScratch
  /-- The space `HIST`. -/
  histBuf : Memory
  /-- The space `HDR`. -/
  hdrBuf : Memory
  hdrLen : Nat
  hdrPos : Nat
  /-- Retry mode (rule R252). -/
  retry : Bool
  /-- The literals of the current table entry that are not stored yet, the next one lowest (rule R264). -/
  nextLits : Word
  /-- How many of them there are (rule R264). -/
  symCount : Nat
  /-- `repeatLength` (rule R266). -/
  repeatLength : Nat
  stage : InStage
  ret : InReturn
deriving DecidableEq, Repr

/-- The code-generation scratch of rule R47. -/
structure CodeGenScratch where
  /-- The sorted frequency list of the last `LimitedLengths`: symbol, frequency (rule R187). -/
  sorted : List (Nat × Nat)
  /-- `lenCount[16]`, as the last Kraft repair left it (rule R190). -/
  lenCount : List Nat
  /-- The deflate side's `nextCode`, as the last `GenerateCode` left it (rule R181; rule R47 does not list it, log 31). -/
  nextCode : List Nat
  /-- `llLen[0..285]` (rule R386). -/
  llLen : List Nat
  /-- `dLen[0..29]` (rules R357, R386). -/
  dLen : List Nat
  /-- The run-length-encoded sequence: symbol, extra value, extra bits (rule R359). -/
  rle : List (Nat × Nat × Nat)
  /-- The 19-entry code-length-code histogram (rule R362). -/
  clFreq : List Nat
  /-- The 19-entry code-length-code table (rule R362). -/
  clRec : List Word
deriving DecidableEq, Repr

/-- What the last deflate command returned (rule R150). -/
structure DfReturn where
  status : Status
  accepted : Nat
deriving DecidableEq, Repr

/-- The host's sink (rule R376): the bytes it has taken since `DF_RESET`, and its answers to the drains to come, an
error or none; a drain beyond the list is taken without an error (log 10). -/
structure Sink where
  bytes : List Byte
  answers : List (Option Nat)
deriving DecidableEq, Repr

/-- The deflate side (10_state.md sections 3, 4, 5 and 7). -/
structure Deflate where
  level : Int
  windowSize : Nat
  hashMask : Nat
  /-- `hashTable`: a slot that is not listed holds 0. -/
  hashTable : Cells 16
  /-- `hist.literalCodes`: a slot that is not listed holds 0. -/
  litCodes : Cells 32
  /-- `hist.distanceCodes`: a slot that is not listed holds 0. -/
  distCodes : Cells 32
  scratch : CodeGenScratch
  ebits : Wide
  ebitLen : Nat
  oidx : Nat
  oend : Nat
  /-- The space `OUT`. -/
  outBuf : Memory
  /-- The space `WIN`. -/
  winBuf : Memory
  widx : Nat
  wend : Nat
  processed : Nat
  /-- The space `TOK`. -/
  tokBuf : Cells 32
  tokCount : Nat
  tokNext : Nat
  closed : Bool
  outErr : Option Nat
  stage : DfStage
  ret : DfReturn
  sink : Sink
deriving DecidableEq, Repr

/-- A command the host has queued: its code and operands (rules R150, R151, log 1). -/
structure Command where
  code : Nat
  args : CmdArgs
deriving DecidableEq, Repr

/-- The whole machine: the two sides share nothing (rules R1, R422). -/
structure State where
  params : Config.Params
  inf : Inflate
  df : Deflate
  /-- The host's commands not yet run, oldest first (log 1). -/
  commands : List Command
  /-- MODEL'S OWN. How many times free values have been drawn (log 11). -/
  freeDraws : Nat
deriving DecidableEq, Repr

/-- Every entry invalid: what the decode tables hold at reset is not in the spec (rules R42, R43; DESIGN CHOICE, log 6). -/
def SmallTable.empty : SmallTable := ⟨[], []⟩
/-- Every entry invalid (DESIGN CHOICE, log 6). -/
def LargeTable.empty : LargeTable := ⟨[], []⟩

/-- The header scratch at reset: not in the spec (rule R44; DESIGN CHOICE, log 6). -/
def HeaderScratch.empty : HeaderScratch where
  clcLen := List.replicate 19 0
  clcTable := SmallTable.empty
  nlit := 0
  ndist := 0
  lens := []
  codeRec := List.replicate 316 0
  nextCode := List.replicate 16 0
  litCount := List.replicate 16 0
  distCount := List.replicate 16 0
  expCount := List.replicate 21 0

/-- The code-generation scratch at reset: not in the spec (rule R47; DESIGN CHOICE, log 6). -/
def CodeGenScratch.empty : CodeGenScratch where
  sorted := []
  lenCount := List.replicate 16 0
  nextCode := List.replicate 16 0
  llLen := List.replicate 286 0
  dLen := List.replicate 30 0
  rle := []
  clFreq := List.replicate 19 0
  clRec := List.replicate 19 0

/-- The inflate side after `IN_RESET` (rule R60). The registers rule R60 leaves unspecified hold the values of log 6. -/
def Inflate.reset : Inflate where
  bits := 0
  bitsLen := 0
  inPos := 0
  inLen := 0
  inBuf := Cells.empty
  snapBits := 0
  snapBitsLen := 0
  snapInPos := 0
  snapWritePos := 0
  litBlockLength := 0
  readPos := 0
  writePos := 0
  writeOverflowLits := 0
  writeOverflowLen := 0
  copyOverflowLength := 0
  copyOverflowDistance := 0
  phase := .newBlock
  totalIn := 0
  bfinal := false
  btype := 0
  multisym := 3
  inErr := none
  outLimit := 0
  litLenTable := LargeTable.empty
  distTable := SmallTable.empty
  scratch := HeaderScratch.empty
  histBuf := Cells.empty
  hdrBuf := Cells.empty
  hdrLen := 0
  hdrPos := 0
  retry := false
  nextLits := 0
  symCount := 0
  repeatLength := 0
  stage := .idle
  ret := ⟨.ok, 0, []⟩

/-- The deflate side after `DF_RESET(2, 32768)` with the default `OUT_BUF_SIZE` (rule R61; level and window at power-on
are log 5). -/
def Deflate.reset : Deflate where
  level := 2
  windowSize := 32768
  hashMask := 0x7FFF
  hashTable := Cells.empty
  litCodes := Cells.empty
  distCodes := Cells.empty
  scratch := CodeGenScratch.empty
  ebits := 0
  ebitLen := 0
  oidx := 0
  oend := 4096
  outBuf := Cells.empty
  winBuf := Cells.empty
  widx := 0
  wend := 0
  processed := 0
  tokBuf := Cells.empty
  tokCount := 0
  tokNext := 0
  closed := false
  outErr := none
  stage := .idle
  ret := ⟨.ok, 0⟩
  sink := ⟨[], []⟩

/-- The machine right after reset: each side in the state its reset command produces (rule R440, D13), no command
queued, the parameters at the defaults of 92_eei_decisions.md (log 8). -/
def State.reset : State where
  params := {}
  inf := Inflate.reset
  df := Deflate.reset
  commands := []
  freeDraws := 0

end Sys2Proof.Machine
end

