-- ==== Sys2Proof/Machine/Ops.lean ====
section
/-! DEFINITION. The named operations over memory and registers: sparse arrays and memory spaces (20_memory.md), the
decode bit buffer and the encode accumulator (40_bit_io.md), history copies and the drain (rules R270, R290), and what
ends a `Decode()`: the two recoverable statuses and the terminal latch (60_exceptions.md). -/

namespace Sys2Proof.Machine

/-! ### Sparse arrays and memory spaces -/

/-- The value listed for an index, in a list with rising indices. -/
def Cells.lookup {w : Nat} : List (Nat × BitVec w) → Nat → Option (BitVec w)
  | [], _ => none
  | (k, v) :: r, a => if a = k then some v else if a < k then none else Cells.lookup r a

/-- The list with the index set to the value, indices kept rising. -/
def Cells.insert {w : Nat} : List (Nat × BitVec w) → Nat → BitVec w → List (Nat × BitVec w)
  | [], a, v => [(a, v)]
  | (k, u) :: r, a, v =>
    if a < k then (a, v) :: (k, u) :: r else if a = k then (a, v) :: r else (k, u) :: Cells.insert r a v

/-- The list without the index. -/
def Cells.remove {w : Nat} : List (Nat × BitVec w) → Nat → List (Nat × BitVec w)
  | [], _ => []
  | (k, u) :: r, a => if a = k then r else if a < k then (k, u) :: r else (k, u) :: Cells.remove r a

/-- Every index of the list is at least the bound, and they rise strictly. -/
def Cells.rising {w : Nat} : Nat → List (Nat × BitVec w) → Bool
  | _, [] => true
  | lo, (k, _) :: r => decide (lo ≤ k) && Cells.rising (k + 1) r

/-- The canonical form of a sparse array: indices strictly rising. -/
def Cells.wf {w : Nat} (m : Cells w) : Bool := Cells.rising 0 m.list

/-- The canonical form of a byte memory: addresses strictly rising. No entry can equal what an unlisted address
reads as, since an unlisted address has no value (log 7). -/
def Memory.wf (m : Memory) : Bool := Cells.wf m

/-- The cell at an index, `none` if nothing has written it. -/
def Cells.get? {w : Nat} (m : Cells w) (a : Nat) : Option (BitVec w) := Cells.lookup m.list a

/-- The array with the cell written. -/
def Cells.put {w : Nat} (m : Cells w) (a : Nat) (v : BitVec w) : Cells w := ⟨Cells.insert m.list a v⟩

/-- A slot of a table whose reset value is 0 (rules R45, R46). -/
def Cells.slot {w : Nat} (m : Cells w) (a : Nat) : BitVec w := (m.get? a).getD 0

/-- Writing a slot of a table whose reset value is 0: a zero slot is not listed. -/
def Cells.setSlot {w : Nat} (m : Cells w) (a : Nat) (v : BitVec w) : Cells w :=
  if v = 0 then ⟨Cells.remove m.list a⟩ else m.put a v

/-- The canonical form of a zero-default table: indices strictly rising, no slot listed as 0. -/
def Cells.slotsWf {w : Nat} (m : Cells w) : Bool := m.wf && m.list.all (fun c => c.2 != 0)

/-- `values` at consecutive indices from `a` on. -/
def Cells.listFrom {w : Nat} : Nat → List (BitVec w) → List (Nat × BitVec w)
  | _, [] => []
  | a, v :: vs => (a, v) :: Cells.listFrom (a + 1) vs

/-- The array that holds the values from index 0 on. -/
def Cells.ofList {w : Nat} (vs : List (BitVec w)) : Cells w := ⟨Cells.listFrom 0 vs⟩

/-- One cell read of a space (rules R83, R84). -/
def readCell {w : Nat} (sp : Space) (size : Nat) (m : Cells w) (a : Nat) : Except Fault (BitVec w) :=
  if a < size then
    match m.get? a with
    | some v => .ok v
    | none => .error (.unwritten sp a)
  else .error (.outOfSpace sp a)

/-- One cell written of a space (rule R84). -/
def writeCell {w : Nat} (sp : Space) (size : Nat) (m : Cells w) (a : Nat) (v : BitVec w) :
    Except Fault (Cells w) :=
  if a < size then .ok (m.put a v) else .error (.outOfSpace sp a)

/-- The bytes at `a, .., a+n-1`. -/
def readBytes (sp : Space) (size : Nat) (m : Memory) : Nat → Nat → Except Fault (List Byte)
  | _, 0 => .ok []
  | a, n + 1 => do
    let b ← readCell sp size m a
    let bs ← readBytes sp size m (a + 1) n
    .ok (b :: bs)

/-- The memory with the bytes written from `a` on, ascending. -/
def writeBytes (sp : Space) (size : Nat) : Memory → Nat → List Byte → Except Fault Memory
  | m, _, [] => .ok m
  | m, a, b :: bs => do
    let m ← writeCell sp size m a b
    writeBytes sp size m (a + 1) bs

/-- `MemRead(space, a, n)` (rule R76). -/
def readLE (sp : Space) (size : Nat) (m : Memory) (a n : Nat) : Except Fault Nat := do
  let bs ← readBytes sp size m a n
  .ok (leValue bs)

/-- `MemWrite(space, a, n, v)` (rule R76). -/
def writeLE (sp : Space) (size : Nat) (m : Memory) (a n v : Nat) : Except Fault Memory :=
  writeBytes sp size m a (leBytes n v)

/-- The one copy inside a space of rule R92: for `j = 0..n-1`, ascending, `m[dst + j] <- m[src + j]`. -/
def copyAscending (sp : Space) (size : Nat) : Memory → Nat → Nat → Nat → Except Fault Memory
  | m, _, _, 0 => .ok m
  | m, src, dst, n + 1 => do
    let b ← readCell sp size m src
    let m ← writeCell sp size m dst b
    copyAscending sp size m (src + 1) (dst + 1) n

/-! ### The decode bit buffer (40_bit_io.md section 1) -/

/-- How an operation of the inflate side can end early: a model fault; an underflow before the caller's restore
(rule R164); `EndInput` with progress kept (rule R258); `OutputOverflow` (rule R410); a terminal error (rule R412). -/
inductive Halt where
  | fault (f : Fault)
  | underflow (d : Inflate)
  | endInput (d : Inflate)
  | overflow (d : Inflate)
  | raise (k : ErrKind) (d : Inflate)
deriving DecidableEq, Repr

/-- An operation inside `Decode()`. -/
abbrev Parse (α : Type) := Except Halt α

/-- A memory operation inside `Decode()`. -/
def orFault {α : Type} : Except Fault α → Parse α
  | .ok a => .ok a
  | .error f => .error (.fault f)

/-- Where `refill` reads: `HDR` in retry mode, else `IN` (rule R252). -/
def Inflate.srcPos (d : Inflate) : Nat := if d.retry then d.hdrPos else d.inPos
/-- Where what `refill` reads ends (rule R252). -/
def Inflate.srcLen (d : Inflate) : Nat := if d.retry then d.hdrLen else d.inLen
/-- The cursor of what `refill` reads, moved. -/
def Inflate.setSrcPos (d : Inflate) (p : Nat) : Inflate :=
  if d.retry then { d with hdrPos := p } else { d with inPos := p }
/-- The bytes `refill` reads. -/
def Inflate.srcBytes (d : Inflate) (a n : Nat) : Except Fault (List Byte) :=
  if d.retry then readBytes .hdr Config.hdrBufSize d.hdrBuf a n else readBytes .inp d.inLen d.inBuf a n

/-- `n` whole bytes moved into `bits` (rule R160). -/
def Inflate.moveIn (d : Inflate) (n : Nat) (bits : Wide) : Inflate :=
  let d := d.setSrcPos (d.srcPos + n)
  { d with bits := bits, bitsLen := d.bitsLen + 8 * n, totalIn := d.totalIn + n }

/-- The slow mode of `refill`, at most `n` bytes (rule R161). -/
def Inflate.refillSlow (minBits : Nat) : Nat → Inflate → Except Fault Inflate
  | 0, d => .ok d
  | n + 1, d =>
    if (minBits : Int) ≤ d.bitsLen then .ok d
    else do
      let bs ← d.srcBytes d.srcPos 1
      Inflate.refillSlow minBits n
        (d.moveIn 1 (d.bits ||| (BitVec.ofNat 64 (leValue bs) <<< d.bitsLen.toNat)))

/-- The fast mode of `refill`: one 8-byte load, of which the whole bytes that fit are taken (rules R160, R161). -/
def Inflate.refillFast (d : Inflate) : Except Fault Inflate := do
  let len := d.bitsLen.toNat
  let n := 8 - (len + 7) / 8
  let bs ← d.srcBytes d.srcPos 8
  .ok (d.moveIn n
    ((d.bits ||| (BitVec.ofNat 64 (leValue bs) <<< len)) &&& BitVec.ofNat 64 (mask (len + 8 * n))))

/-- `refill(min_bits)` (rules R160, R161). -/
def Inflate.refill (minBits : Nat) (d : Inflate) : Except Fault Inflate :=
  if (minBits : Int) ≤ d.bitsLen then .ok d
  else if 8 ≤ d.srcLen - d.srcPos then d.refillFast
  else d.refillSlow minBits (d.srcLen - d.srcPos)

/-- `peek(k)` (rule R162). -/
def Inflate.peek (d : Inflate) (k : Nat) : Nat := d.bits.toNat % 2 ^ k

/-- `consume(k)` (rule R163). -/
def Inflate.consume (d : Inflate) (k : Nat) : Inflate :=
  { d with bits := d.bits >>> k, bitsLen := d.bitsLen - k }

/-- The one predicate the data path tests: the sign of `bitsLen` after a `consume` (rule R36). -/
def Inflate.underflowed (d : Inflate) : Bool := decide (d.bitsLen < 0)

/-- `take(k)` (rule R164). -/
def Inflate.take (k : Nat) (d : Inflate) : Parse (Nat × Inflate) := do
  let d ← orFault (d.refill (max k 1))
  let v := d.peek k
  let d := d.consume k
  if d.underflowed then .error (.underflow d) else .ok (v, d)

/-- `snapshot` (rule R165; in retry mode `hdrPos` in place of `inPos`, rule R252). -/
def Inflate.snapshot (d : Inflate) : Inflate :=
  { d with snapBits := d.bits, snapBitsLen := d.bitsLen, snapInPos := d.srcPos, snapWritePos := d.writePos }

/-- `restore` (rule R166). -/
def Inflate.restore (d : Inflate) : Inflate :=
  let back := { d with
    totalIn := d.totalIn - (d.srcPos - d.snapInPos)
    bits := d.snapBits
    bitsLen := d.snapBitsLen
    writePos := d.snapWritePos }
  back.setSrcPos d.snapInPos

/-- `align_to_byte` (rule R167). -/
def Inflate.alignToByte (d : Inflate) : Inflate := d.consume (d.bitsLen % 8).toNat

/-- `bitPos` (rule R29). -/
def Inflate.bitPos (d : Inflate) : Nat := 8 * d.totalIn - d.bitsLen.toNat

/-! ### History (rules R270, R290) -/

/-- `HIST[writePos] <- b ; writePos <- writePos + 1`. -/
def Inflate.storeByte (d : Inflate) (b : Byte) : Except Fault Inflate := do
  let m ← writeCell .hist Config.histBufSize d.histBuf d.writePos b
  .ok { d with histBuf := m, writePos := d.writePos + 1 }

/-- `Copy(n, dist)` (rule R270); a source below offset 0 is no access the space has (rule R84). -/
def Inflate.copyHistory (d : Inflate) (n dist : Nat) : Except Fault Inflate :=
  if 0 < n ∧ d.writePos < dist then .error (.belowSpace .hist (dist - d.writePos))
  else do
    let m ← copyAscending .hist Config.histBufSize d.histBuf (d.writePos - dist) d.writePos n
    .ok { d with histBuf := m, writePos := d.writePos + n }

/-- The overflow-literal part of `Drain()` (rule R290): 4 bytes written, `writeOverflowLen` of them counted. -/
def Inflate.drainLits (d : Inflate) : Except Fault Inflate :=
  if 0 < d.writeOverflowLen then do
    let m ← writeLE .hist Config.histBufSize d.histBuf d.writePos 4 d.writeOverflowLits.toNat
    .ok { d with
      histBuf := m
      writePos := d.writePos + d.writeOverflowLen
      writeOverflowLits := 0
      writeOverflowLen := 0 }
  else .ok d

/-- The copy part of `Drain()` (rule R290). -/
def Inflate.drainCopy (d : Inflate) : Except Fault Inflate :=
  if 0 < d.copyOverflowLength then do
    let d ← d.copyHistory d.copyOverflowLength d.copyOverflowDistance
    .ok { d with copyOverflowLength := 0, copyOverflowDistance := 0 }
  else .ok d

/-- `Drain()` (rule R290). -/
def Inflate.drain (d : Inflate) : Except Fault Inflate := do
  let d ← d.drainLits
  d.drainCopy

/-! ### What ends a `Decode()` (60_exceptions.md) -/

/-- What `IN_STEP` returns when `Decode()` ended with a status: `CorruptInput(errOffset)` if an error is latched
(rule R288). -/
def Inflate.surfaced (d : Inflate) (st : Status) : Status :=
  match d.inErr with
  | some (_, off) => .corruptInput off
  | none => st

/-- The end of `Decode()` inside `IN_STEP` (rule R288): the drain, `consumed` (rule R291), the return. The slice was
lent for the step only, so `IN` holds nothing afterwards (rule R71, log 18). -/
def Inflate.endDecode (st : Status) (d : Inflate) : Except Fault Inflate := do
  let d ← d.drain
  .ok { d with
    inBuf := Cells.empty
    retry := false
    stage := .idle
    ret := ⟨d.surfaced st, (d.inPos : Int) - d.bitsLen / 8, []⟩ }

/-- The terminal latch (rules R404, R412). -/
def Inflate.latch (k : ErrKind) (d : Inflate) : Inflate := { d with inErr := some (k, d.bitPos / 8) }

/-- `raise X` for a terminal kind (rule R412): latch, restore nothing, end `Decode()`. -/
def Inflate.raiseTerminal (k : ErrKind) (d : Inflate) : Except Fault Inflate :=
  (d.latch k).endDecode .ok

/-- The unread rest of the slice put into `HDR` from its start (rule R253). -/
def Inflate.parkHeader (d : Inflate) : Except Fault Inflate := do
  let c := d.inLen - d.inPos
  let bs ← readBytes .inp d.inLen d.inBuf d.inPos c
  let m ← writeBytes .hdr Config.hdrBufSize d.hdrBuf 0 bs
  .ok { d with hdrBuf := m, hdrLen := c, inPos := d.inLen }

/-- An underflow inside a header (rule R253): restore, keep the bytes in `HDR`, `DECODING_HEADER`, `EndInput`. -/
def Inflate.headerUnderflow (d : Inflate) : Except Fault Inflate := do
  let d := d.restore
  let d ← if d.retry then .ok d else d.parkHeader
  Inflate.endDecode .endInput { d with phase := .decodingHeader }

/-- An underflow inside a Huffman block (rules R261, R262, R266): restore, `EndInput`. -/
def Inflate.bodyUnderflow (d : Inflate) : Except Fault Inflate := d.restore.endDecode .endInput

/-- How an operation inside a header leaves the engine (rules R253, R409, R410, R412). -/
def settleHeader : Parse Inflate → Except Fault Inflate
  | .ok d => .ok d
  | .error (.fault f) => .error f
  | .error (.underflow d) => d.headerUnderflow
  | .error (.endInput d) => d.endDecode .endInput
  | .error (.overflow d) => d.endDecode .outputOverflow
  | .error (.raise k d) => d.raiseTerminal k

/-- How an operation inside a block's body leaves the engine (rules R262 to R271, R409, R410, R412). -/
def settleBody : Parse Inflate → Except Fault Inflate
  | .ok d => .ok d
  | .error (.fault f) => .error f
  | .error (.underflow d) => d.bodyUnderflow
  | .error (.endInput d) => d.endDecode .endInput
  | .error (.overflow d) => d.endDecode .outputOverflow
  | .error (.raise k d) => d.raiseTerminal k

/-- An outcome of the machine from an operation of the inflate side. -/
def State.onInf (s : State) (r : Except Fault Inflate) : Host.Outcome State Fault Refusal :=
  match r with
  | .ok d => .next { s with inf := d }
  | .error f => .fault f

/-! ### The encode accumulator (40_bit_io.md section 2) -/

/-- How an operation of the deflate side can end early: a model fault, or the sink's error (rule R392; the command
stops at once, log 11). -/
inductive DfHalt where
  | fault (f : Fault)
  | sink (e : Nat) (d : Deflate)
deriving DecidableEq, Repr

/-- An operation of the deflate side. -/
abbrev Emit := Except DfHalt

/-- A memory operation of the deflate side. -/
def orDfFault {α : Type} : Except Fault α → Emit α
  | .ok a => .ok a
  | .error f => .error (.fault f)

/-- `putbits(code, len)` (rule R170); the store is that of rule R171. -/
def Deflate.putbits (d : Deflate) (code len : Nat) : Except Fault Deflate :=
  let ebits := d.ebits ||| (BitVec.ofNat 64 code <<< d.ebitLen)
  let ebitLen := d.ebitLen + len
  if 64 < ebitLen then do
    let m ← writeLE .out d.oend d.outBuf d.oidx 8 ebits.toNat
    .ok { d with
      outBuf := m
      oidx := d.oidx + 8
      ebitLen := ebitLen - 64
      ebits := BitVec.ofNat 64 code >>> (len - (ebitLen - 64)) }
  else .ok { d with ebits := ebits, ebitLen := ebitLen }

/-- `flush_to_byte` (rule R173). -/
def Deflate.flushToByte (d : Deflate) : Except Fault Deflate := do
  let nb := (d.ebitLen + 7) / 8
  let m ← writeLE .out d.oend d.outBuf d.oidx nb d.ebits.toNat
  .ok { d with outBuf := m, oidx := d.oidx + nb, ebits := 0, ebitLen := 0 }

/-- The host's answer to a drain, and the sink after it (rules R376, R453, log 10). -/
def Sink.accept (k : Sink) (bs : List Byte) : Option Nat × Sink :=
  match k.answers with
  | [] => (none, { k with bytes := k.bytes ++ bs })
  | none :: r => (none, ⟨k.bytes ++ bs, r⟩)
  | some e :: r => (some e, { k with answers := r })

/-- `drain_out` (rules R174, R392). -/
def Deflate.drainOut (d : Deflate) : Emit Deflate := do
  let bs ← orDfFault (readBytes .out d.oend d.outBuf 0 d.oidx)
  match d.sink.accept bs with
  | (none, k) => .ok { d with oidx := 0, sink := k }
  | (some e, k) => .error (.sink e { d with oidx := 0, sink := k, outErr := some e })

/-- `guard()` (rule R383). -/
def Deflate.guardOut (d : Deflate) : Emit Deflate := if d.oend - 8 ≤ d.oidx then d.drainOut else .ok d

/-- `hput(v, n)` (rule R364): the guard, then `putbits`. -/
def Deflate.hput (d : Deflate) (v n : Nat) : Emit Deflate := do
  let d ← d.guardOut
  orDfFault (d.putbits v n)

/-- The guard, then `flush_to_byte` (rules R383, R388, R389). -/
def Deflate.hflush (d : Deflate) : Emit Deflate := do
  let d ← d.guardOut
  orDfFault d.flushToByte

end Sys2Proof.Machine
end

