-- ==== Sys2Proof/Machine/Flags.lean ====
section
/-! DEFINITION. The flags of 10_state.md section 3 and every rule that computes one: `bfinal` and `btype` (rules R31,
R32, R101, R232), the phase a block's end selects (rules R258, R265), `multisym` (rules R33, R221). There are no
condition codes (rule R36); the sign test of `bitsLen` is `Inflate.underflowed`, the error latches are
`Inflate.latch` and `Deflate.drainOut`. -/

namespace Sys2Proof.Machine

/-- `bfinal <- h[0] ; btype <- h[2:1]` (rule R232). -/
def Inflate.setBlockFlags (d : Inflate) (bfinal : Bool) (btype : BitVec 2) : Inflate :=
  { d with bfinal := bfinal, btype := btype }

/-- `phase <- STREAM_END if bfinal = 1 else NEW_BLOCK` (rules R258, R265). -/
def Inflate.endBlock (d : Inflate) : Inflate :=
  { d with phase := if d.bfinal then .streamEnd else .newBlock }

/-- The selection of `multisym` (rule R221), unless the host overrides it (93 U14, log 9). -/
def selectMultisym (p : Config.Params) (bfinal : Bool) (rem : Nat) : Nat :=
  match p.multisymOverride with
  | some m => m
  | none =>
    if bfinal ∧ rem ≤ Config.multisymT1 then 1
    else if bfinal ∧ rem ≤ Config.multisymT2 then 2
    else 3

end Sys2Proof.Machine
end

