-- ==== Sys2Proof/Machine/Huffman.lean ====
section
/-! DEFINITION. The sub-block canonical_huffman_encoder (41_huffman_codes.md): canonical codes, the over-subscription
check, length-limited code lengths. -/

namespace Sys2Proof.Machine

/-! ### Canonical codes -/

/-- A `HUFFREC` (rule R107). -/
def huffRec (code len : Nat) : Word := BitVec.ofNat 32 (code ||| (len <<< 24))
/-- `code` of a `HUFFREC` (rule R107). -/
def recCode (r : Word) : Nat := field r.toNat 0 24
/-- `length` of a `HUFFREC` (rule R107). -/
def recLen (r : Word) : Nat := field r.toNat 24 8

/-- `count[l]`, with `count[0]` taken as 0 (rule R180). -/
def countLen (lens : List Nat) (l : Nat) : Nat := if l = 0 then 0 else lens.count l

/-- `nextCode[l], nextCode[l+1], ..` for `n` lengths, from `nextCode[l-1]` (rule R181). -/
def nextCodesFrom (lens : List Nat) : Nat → Nat → Nat → List Nat
  | 0, _, _ => []
  | n + 1, l, prev =>
    let c := (prev + countLen lens (l - 1)) * 2
    c :: nextCodesFrom lens n (l + 1) c

/-- `nextCode[0..maxLen]` (rule R181). -/
def nextCodes (maxLen : Nat) (lens : List Nat) : List Nat := 0 :: nextCodesFrom lens maxLen 1 0

/-- The per-symbol loop of `GenerateCode` (rule R181). -/
def assignCodes : List Nat → List Nat → List Word
  | [], _ => []
  | l :: ls, next =>
    if l = 0 then 0 :: assignCodes ls next
    else
      let c := next.getD l 0
      huffRec (bitrev c l) l :: assignCodes ls (next.set l (c + 1))

/-- `GenerateCode` (rule R181). -/
def generateCode (maxLen : Nat) (lens : List Nat) : List Word := assignCodes lens (nextCodes maxLen lens)

/-- `nextCode` after the per-symbol loop of `GenerateCode`: one added for each symbol of a length (rule R181). -/
def codesAfter : List Nat → List Nat → List Nat
  | [], next => next
  | l :: ls, next => if l = 0 then codesAfter ls next else codesAfter ls (next.set l (next.getD l 0 + 1))

/-- The register `nextCode` after `GenerateCode`: entries `0..maxLen` written, the others kept (rule R181). -/
def nextCodeAfter (maxLen : Nat) (lens old : List Nat) : List Nat :=
  codesAfter lens (nextCodes maxLen lens) ++ old.drop (maxLen + 1)

/-- The over-subscription check (rule R184): `nextCode[maxLen] + count[maxLen] > 1 << maxLen`. -/
def overSubscribed (maxLen : Nat) (lens : List Nat) : Bool :=
  decide (2 ^ maxLen < (nextCodes maxLen lens).getD maxLen 0 + countLen lens maxLen)

/-! ### Length-limited code lengths -/

/-- One symbol with its frequency put into a list sorted by descending frequency, ties by ascending symbol (rule R187). -/
def insertByFreq (s : Nat × Nat) : List (Nat × Nat) → List (Nat × Nat)
  | [] => [s]
  | t :: r => if t.2 < s.2 ∨ (t.2 = s.2 ∧ s.1 < t.1) then s :: t :: r else t :: insertByFreq s r

/-- The symbols from `s` on with their frequencies, zero frequencies left out, sorted (rule R187). -/
def sortedFreqsFrom : Nat → List Nat → List (Nat × Nat)
  | _, [] => []
  | s, f :: fs => if f = 0 then sortedFreqsFrom (s + 1) fs else insertByFreq (s, f) (sortedFreqsFrom (s + 1) fs)

/-- `S` of rule R187. -/
def sortedFreqs (freq : List Nat) : List (Nat × Nat) := sortedFreqsFrom 0 freq

/-- The running values of the first pass of the reference generator (rule R188). -/
structure MkState where
  a : List Nat
  root : Nat
  leaf : Nat
deriving DecidableEq, Repr

/-- First half of one turn of pass 1: node `next` gets its first child (rule R188). -/
def mkFirst (m next : Nat) (q : MkState) : MkState :=
  if m ≤ q.leaf ∨ q.a.getD q.root 0 < q.a.getD q.leaf 0 then
    ⟨(q.a.set next (q.a.getD q.root 0)).set q.root next, q.root + 1, q.leaf⟩
  else ⟨q.a.set next (q.a.getD q.leaf 0), q.root, q.leaf + 1⟩

/-- Second half of one turn of pass 1: node `next` gets its second child (rule R188). -/
def mkSecond (m next : Nat) (q : MkState) : MkState :=
  if m ≤ q.leaf ∨ (q.root < next ∧ q.a.getD q.root 0 < q.a.getD q.leaf 0) then
    ⟨(q.a.set next (q.a.getD next 0 + q.a.getD q.root 0)).set q.root next, q.root + 1, q.leaf⟩
  else ⟨q.a.set next (q.a.getD next 0 + q.a.getD q.leaf 0), q.root, q.leaf + 1⟩

/-- Pass 1, parent pointers, for `n` turns from `next` on (rule R188). -/
def mkPass1 (m : Nat) : Nat → Nat → MkState → MkState
  | 0, _, q => q
  | n + 1, next, q => mkPass1 m n (next + 1) (mkSecond m next (mkFirst m next q))

/-- Pass 2, internal depths, for `next = n-1` down to 0 (rule R188). -/
def mkPass2 : Nat → List Nat → List Nat
  | 0, a => a
  | n + 1, a => mkPass2 n (a.set n (a.getD (a.getD n 0) 0 + 1))

/-- How many of the internal nodes below `r` have the depth, counted from the top while they do (rule R188). -/
def mkCountDepth (a : List Nat) (depth : Nat) : Nat → Nat
  | 0 => 0
  | r + 1 => if a.getD r 0 = depth then mkCountDepth a depth r + 1 else 0

/-- `n` leaves of the depth written at `next`, `next-1`, .. (rule R188); `next` is one above the index. -/
def mkFillLeaves (depth : Nat) : Nat → Nat → List Nat → List Nat
  | 0, _, a => a
  | n + 1, next, a => mkFillLeaves depth n (next - 1) (a.set (next - 1) depth)

/-- Pass 3, leaf depths, at most `n` levels (rule R188); `root` and `next` are one above the indices of the rule. -/
def mkPass3 : Nat → Nat → Nat → Nat → Nat → List Nat → List Nat
  | 0, _, _, _, _, a => a
  | n + 1, avbl, depth, root, next, a =>
    if avbl = 0 then a
    else
      let used := mkCountDepth a depth root
      mkPass3 n (2 * used) (depth + 1) (root - used) (next - (avbl - used))
        (mkFillLeaves depth (avbl - used) next a)

/-- The reference instance of `CodeLengths` on ascending frequencies, two or more (rule R188). -/
def codeLengthsAsc (a : List Nat) : List Nat :=
  let m := a.length
  let q := mkPass1 m (m - 2) 1 ⟨a.set 0 (a.getD 0 0 + a.getD 1 0), 0, 2⟩
  let a := mkPass2 (m - 2) (q.a.set (m - 2) 0)
  mkPass3 (m + 1) 1 0 (m - 1) m a

/-- The reference instance on frequencies in descending order (rule R188). -/
def codeLengthsRef (sorted : List Nat) : List Nat := (codeLengthsAsc sorted.reverse).reverse

/-- Σ 2^(top - l) over the lengths. -/
def kraftScaled (top : Nat) (ls : List Nat) : Nat := (ls.map (fun l => 2 ^ (top - l))).sum

/-- Σ frequency · length. -/
def codeCost (sorted ls : List Nat) : Nat := (List.zipWith (· * ·) sorted ls).sum

/-- The contract of `CodeLengths` (rule R188): one length of at least 1 for each symbol, not decreasing along the
list, Kraft sum exactly 1, and no more redundancy than the reference instance. -/
def codeLengthsContract (sorted ls : List Nat) : Bool :=
  (ls.length == sorted.length) && ls.all (fun l => decide (1 ≤ l))
    && (List.zipWith (fun a b => decide (a ≤ b)) ls (ls.drop 1)).all id
    && (kraftScaled (ls.foldl max 0) ls == 2 ^ ls.foldl max 0)
    && decide (codeCost sorted ls ≤ codeCost sorted (codeLengthsRef sorted))

/-- The choice the parameter makes for a sorted list, if it makes one. -/
def chosenLengths (sorted : List Nat) : List (List Nat × List Nat) → Option (List Nat)
  | [] => none
  | (f, ls) :: r => if f = sorted then some ls else chosenLengths sorted r

/-- `CodeLengths` (rule R188, D21, log 8), on two or more frequencies. -/
def codeLengths (p : Config.Params) (sorted : List Nat) : List Nat :=
  match chosenLengths sorted p.codeLengths with
  | some ls => if codeLengthsContract sorted ls then ls else codeLengthsRef sorted
  | none => codeLengthsRef sorted

/-- `lenCount[0..limit]` after the over-limit entries are moved to `limit` (rule R190). -/
def foldedLenCount (limit : Nat) (ls : List Nat) : List Nat :=
  tabulate (limit + 1) (fun l => if l = 0 then 0 else (ls.map (fun x => min x limit)).count l)

/-- Σ lenCount[l] << (limit - l) over `l = 1..limit` (rule R190). -/
def lenCountTotal (limit : Nat) (lc : List Nat) : Nat :=
  (tabulate limit (fun i => lc.getD (i + 1) 0 * 2 ^ (limit - (i + 1)))).sum

/-- The largest `l` in `1..n` with `lenCount[l] > 0`, 0 if there is none (rule R190). -/
def largestUsed (lc : List Nat) : Nat → Nat
  | 0 => 0
  | n + 1 => if 0 < lc.getD (n + 1) 0 then n + 1 else largestUsed lc n

/-- One turn of the Kraft repair (rule R190). -/
def kraftStep (limit : Nat) (lc : List Nat) : List Nat :=
  let lc := lc.set limit (lc.getD limit 0 - 1)
  let l := largestUsed lc (limit - 1)
  let lc := lc.set l (lc.getD l 0 - 1)
  lc.set (l + 1) (lc.getD (l + 1) 0 + 2)

/-- `n` turns of the Kraft repair (rule R190). -/
def kraftRepair (limit : Nat) : Nat → List Nat → List Nat
  | 0, lc => lc
  | n + 1, lc => kraftRepair limit n (kraftStep limit lc)

/-- `lenCount` after the repair: one turn for each unit of `total` above `1 << limit` (rule R190). -/
def repairedLenCount (limit : Nat) (ls : List Nat) : List Nat :=
  let lc := foldedLenCount limit ls
  kraftRepair limit (lenCountTotal limit lc - 2 ^ limit) lc

/-- Lengths by scanning `lenCount` for `n` lengths from `l` on (rule R190). -/
def expandLenCount (lc : List Nat) : Nat → Nat → List Nat
  | 0, _ => []
  | n + 1, l => List.replicate (lc.getD l 0) l ++ expandLenCount lc n (l + 1)

/-- Lengths along the sorted list, limited (rules R189, R190). -/
def limitLengths (limit : Nat) (ls : List Nat) : List Nat :=
  if ls.all (fun l => decide (l ≤ limit)) then ls
  else expandLenCount (repairedLenCount limit ls) limit 1

/-- Lengths along the sorted list, degenerate alphabets included (rules R188 to R191). -/
def sortedLengths (p : Config.Params) (limit : Nat) (sorted : List Nat) : List Nat :=
  match sorted with
  | [] => []
  | [_] => [1]
  | _ => limitLengths limit (codeLengths p sorted)

/-- The length a sorted list of symbols gives a symbol, 0 if it is not there. -/
def lengthOf (s : Nat) : List (Nat × Nat) → List Nat → Nat
  | (t, _) :: r, l :: ls => if t = s then l else lengthOf s r ls
  | _, _ => 0

/-- `LimitedLengths(freq, n, limit)` (rule R186). -/
def limitedLengths (p : Config.Params) (limit n : Nat) (freq : List Nat) : List Nat :=
  let sorted := sortedFreqs freq
  let ls := sortedLengths p limit (sorted.map (·.2))
  tabulate n (fun s => lengthOf s sorted ls)

/-- The scratch `LimitedLengths(freq, n, limit)` writes (rules R47, R186): the sorted list, and `lenCount[1..limit]` where
the lengths have to be repaired (rules R189 to R191). -/
def CodeGenScratch.afterLimited (p : Config.Params) (limit : Nat) (freq : List Nat) (c : CodeGenScratch) :
    CodeGenScratch :=
  let sorted := sortedFreqs freq
  let ls := codeLengths p (sorted.map (·.2))
  { c with
    sorted := sorted
    lenCount :=
      if sorted.length ≤ 1 ∨ ls.all (fun l => decide (l ≤ limit)) = true then c.lenCount
      else c.lenCount.take 1 ++ (repairedLenCount limit ls).drop 1 ++ c.lenCount.drop (limit + 1) }

end Sys2Proof.Machine
end

