-- ==== Sys2Proof/Machine/Tables.lean ====
section
/-! DEFINITION. The sub-blocks huffman_decode_table_small and huffman_decode_table_large (42_decode_tables.md): the
tables' contents as functions of the code (rules R205 to R210, R214 to R220), and one lookup (rules R212, R223). -/

namespace Sys2Proof.Machine

/-- A code a table holds: `code` with bit 0 the first stream bit, its length, and the value a leaf carries. The codes
of a small table are those of its symbols (rule R200), those of the large table the expanded codes (rule R214). -/
structure TableCode where
  code : Nat
  len : Nat
  value : Nat
deriving DecidableEq, Repr

/-- The bit string starts with the code (rule R201). -/
def TableCode.startsAt (c : TableCode) (x : Nat) : Bool := decide (0 < c.len) && (x % 2 ^ c.len == c.code)

/-- The code of at most `n` bits that starts a bit string, if there is one (rule R201). -/
def startingCode (codes : List TableCode) (n x : Nat) : Option TableCode :=
  codes.find? (fun c => decide (c.len ≤ n) && c.startsAt x)

/-! ### Long groups (rules R208, R209, R220) -/

/-- A long group: the codes longer than the index whose low bits are `low`. -/
structure Group where
  low : Nat
  maxLen : Nat
  offset : Nat
deriving DecidableEq, Repr

/-- The members of `G_p` (rules R208, R220). -/
def groupMembers (n : Nat) (codes : List TableCode) (p : Nat) : List TableCode :=
  codes.filter (fun c => decide (n < c.len) && (c.code % 2 ^ n == p))

/-- A number put into an ascending list without repeats. -/
def insertUniq (x : Nat) : List Nat → List Nat
  | [] => [x]
  | y :: r => if x < y then x :: y :: r else if x = y then y :: r else y :: insertUniq x r

/-- The prefixes that have a group, ascending (rule R209). -/
def groupPrefixes (n : Nat) (codes : List TableCode) : List Nat :=
  (codes.filter (fun c => decide (n < c.len))).foldr (fun c acc => insertUniq (c.code % 2 ^ n) acc) []

/-- The groups with their offsets, packed in ascending prefix order from the offset on (rules R208, R209). -/
def layoutGroups (n : Nat) (codes : List TableCode) : Nat → List Nat → List Group
  | _, [] => []
  | off, p :: ps =>
    let m := (groupMembers n codes p).foldl (fun m c => max m c.len) 0
    ⟨p, m, off⟩ :: layoutGroups n codes (off + 2 ^ (m - n)) ps

/-- The groups of a table with an `n`-bit index. -/
def longGroups (n : Nat) (codes : List TableCode) : List Group := layoutGroups n codes 0 (groupPrefixes n codes)

/-- The leaf at slot `h` of a group: the member whose bits above the index start `h` (rules R208, R220); a slot no
member reaches is 0, invalid. -/
def longSlot (n : Nat) (members : List TableCode) (h : Nat) : Half :=
  match members.find? (fun c => h % 2 ^ (c.len - n) == c.code >>> n) with
  | some c => BitVec.ofNat 16 ((c.len <<< 10) ||| c.value)
  | none => 0

/-- `long_lookup`: the slots of the groups, one group after the other (rules R208, R209, R220). Its size is what the
groups need: the capacities 80 and 1264 are not a limit here (rule R210, D40, log 12). -/
def longLookup (n : Nat) (codes : List TableCode) (gs : List Group) : List Half :=
  gs.flatMap (fun g => tabulate (2 ^ (g.maxLen - n)) (longSlot n (groupMembers n codes g.low)))

/-- The group of an index, if it has one. -/
def groupAt (gs : List Group) (p : Nat) : Option Group := gs.find? (fun g => g.low == p)

/-! ### The small table -/

/-- Entry `x` of a small `short_lookup` (rules R206, R208): a leaf, a pointer, or invalid. -/
def smallShortEntry (codes : List TableCode) (gs : List Group) (x : Nat) : Half :=
  match startingCode codes Config.distLookupBits x with
  | some c => BitVec.ofNat 16 ((c.len <<< 11) ||| c.value)
  | none =>
    match groupAt gs x with
    | some g => BitVec.ofNat 16 ((g.maxLen <<< 11) ||| (1 <<< 10) ||| g.offset)
    | none => 0

/-- The small table of a code (rules R205 to R210). -/
def buildSmall (codes : List TableCode) : SmallTable :=
  let gs := longGroups Config.distLookupBits codes
  ⟨tabulate (2 ^ Config.distLookupBits) (smallShortEntry codes gs), longLookup Config.distLookupBits codes gs⟩

/-- The codes of the symbols from `s` on, with the value a leaf of the symbol carries. -/
def symbolCodes (value : Nat → Nat) : Nat → List Word → List TableCode
  | _, [] => []
  | s, r :: rs => ⟨recCode r, recLen r, value s⟩ :: symbolCodes value (s + 1) rs

/-- The leaf value of a distance symbol: the extra-bit count above the symbol (rules R111, R205). -/
def distLeafValue (s : Nat) : Nat := s ||| (distExtraBits s <<< 5)

/-- `clcTable` of code lengths (rules R205, R242). -/
def buildClcTable (lens : List Nat) : SmallTable := buildSmall (symbolCodes id 0 (generateCode Config.maxClcLen lens))

/-- `distTable` of code lengths (rules R205, R247). -/
def buildDistTable (lens : List Nat) : SmallTable :=
  buildSmall (symbolCodes distLeafValue 0 (generateCode Config.maxCodeLen lens))

/-- What a small lookup returns (rule R212): the 9-bit symbol field and the length, 0 when the entry is invalid. -/
structure SmallHit where
  sym9 : Nat
  len : Nat
deriving DecidableEq, Repr

/-- `SmallLookup(T)` on the unread bits (rule R212). -/
def SmallTable.find (t : SmallTable) (bits : Nat) : SmallHit :=
  let e := (t.short.getD (bits % 2 ^ Config.distLookupBits) 0).toNat
  if field e 10 1 = 0 then ⟨field e 0 9, field e 11 5⟩
  else
    let y := bits % 2 ^ field e 11 5
    let e2 := (t.long.getD (field e 0 10 + (y >>> Config.distLookupBits)) 0).toNat
    ⟨field e2 0 9, field e2 10 6⟩

/-! ### The large table -/

/-- The expanded codes of one symbol, for `n` extra values from `e` on (rules R124, R214). -/
def expandSymbol (s code len k : Nat) : Nat → Nat → List TableCode
  | 0, _ => []
  | n + 1, e => ⟨code ||| (e <<< len), len + k, expandedSym s e⟩ :: expandSymbol s code len k n (e + 1)

/-- `E`, the expanded codes of the symbols from `s` on (rule R214). -/
def expandedCodes : Nat → List Word → List TableCode
  | _, [] => []
  | s, r :: rs =>
    if recLen r = 0 then expandedCodes (s + 1) rs
    else expandSymbol s (recCode r) (recLen r) (lenExtra s) (2 ^ lenExtra s) 0 ++ expandedCodes (s + 1) rs

/-- A `LARGE_SHORT_SYMS` entry (rule R112). -/
def symsEntry (nextLits symCount bitCount : Nat) : Word :=
  BitVec.ofNat 32 ((bitCount <<< 28) ||| (symCount <<< 26) ||| nextLits)

/-- The literal of at most `n` bits that starts a bit string (rule R218). -/
def startingLiteral (codes : List TableCode) (n x : Nat) : Option TableCode :=
  codes.find? (fun c => decide (c.value < 256) && decide (c.len ≤ n) && c.startsAt x)

/-- Entry `x` of the large `short_lookup` (rule R218, the contents rules R215 to R217 and R220 give). -/
def largeShortEntry (multisym : Nat) (codes : List TableCode) (gs : List Group) (x : Nat) : Word :=
  match startingCode codes Config.litlenLookupBits x with
  | none =>
    match groupAt gs x with
    | some g => BitVec.ofNat 32 ((g.maxLen <<< 26) ||| (1 <<< 25) ||| g.offset)
    | none => 0
  | some c1 =>
    if 255 < c1.value ∨ multisym = 1 then symsEntry c1.value 1 c1.len
    else match startingLiteral codes (Config.litlenLookupBits - c1.len) (x >>> c1.len) with
    | none => symsEntry c1.value 1 c1.len
    | some c2 =>
      let t2 := c1.len + c2.len
      if multisym = 2 then symsEntry (c1.value ||| (c2.value <<< 8)) 2 t2
      else match startingLiteral codes (Config.litlenLookupBits - t2) (x >>> t2) with
      | none => symsEntry (c1.value ||| (c2.value <<< 8)) 2 t2
      | some c3 => symsEntry (c1.value ||| (c2.value <<< 8) ||| (c3.value <<< 16)) 3 (t2 + c3.len)

/-- The large table of an expanded code (rules R214 to R220). -/
def buildLarge (multisym : Nat) (codes : List TableCode) : LargeTable :=
  let gs := longGroups Config.litlenLookupBits codes
  ⟨tabulate (2 ^ Config.litlenLookupBits) (largeShortEntry multisym codes gs),
    longLookup Config.litlenLookupBits codes gs⟩

/-- `litLenTable` of code lengths (rules R214, R247). -/
def buildLitLenTable (multisym : Nat) (lens : List Nat) : LargeTable :=
  buildLarge multisym (expandedCodes 0 (generateCode Config.maxCodeLen lens))

/-- What a large lookup returns (rule R223): `bitCount = 0` when the entry is invalid. -/
structure LargeHit where
  bitCount : Nat
  symCount : Nat
  nextLits : Nat
deriving DecidableEq, Repr

/-- `LargeLookup()` on the unread bits (rule R223). -/
def LargeTable.find (t : LargeTable) (bits : Nat) : LargeHit :=
  let e := (t.short.getD (bits % 2 ^ Config.litlenLookupBits) 0).toNat
  if field e 25 1 = 0 then ⟨field e 28 4, field e 26 2, field e 0 25⟩
  else
    let y := bits % 2 ^ field e 26 6
    let e2 := (t.long.getD (field e 0 25 + (y >>> Config.litlenLookupBits)) 0).toNat
    ⟨field e2 10 6, 1, field e2 0 10⟩

/-! ### The static tables (rules R106, R224) -/

/-- The fixed literal/length code lengths (rule R106). -/
def staticLitLens : List Nat :=
  List.replicate 144 8 ++ (List.replicate 112 9 ++ (List.replicate 24 7 ++ List.replicate 8 8))

/-- The fixed distance code lengths: 30 symbols (rules R106, R224). -/
def staticDistLens : List Nat := List.replicate 30 5

/-- The static large table (rule R224). No static entry packs two literals, whatever `multisym`. -/
def staticLitLenTable : LargeTable := buildLitLenTable 3 staticLitLens

/-- The static small table (rule R224). -/
def staticDistTable : SmallTable := buildDistTable staticDistLens

end Sys2Proof.Machine
end

