-- ==== Sys2Proof/Machine/Block.lean ====
section
/-! DEFINITION. The block headers BLK_STORED, BLK_STATIC, BLK_DYNAMIC, BLK_RESERVED (43_block_parser.md sections 2
and 3): what each does once its three header bits have been taken. -/

namespace Sys2Proof.Machine

/-- A header accepted (rules R230, R254): the phase moves on; in retry mode the unread rest of `HDR` goes back to the
slice and the engine leaves retry mode. -/
def Inflate.acceptHeader (d : Inflate) (ph : Phase) : Inflate :=
  let d := if d.retry then
      { d with inPos := d.inPos - (d.hdrLen - d.hdrPos), hdrLen := 0, retry := false }
    else d
  { d with phase := ph, stage := .parse }

/-- The stored header (rule R236). -/
def Inflate.storedHeader (d : Inflate) : Parse Inflate := do
  let (len, d) ← d.alignToByte.take 16
  let (nlen, d) ← d.take 16
  if len ^^^ nlen ≠ 0xFFFF then .error (.raise .invalidBlock d)
  else .ok (Inflate.acceptHeader { d with litBlockLength := len } .litBlock)

/-- The static header (rule R238). The register `multisym` is not written: rule R33 has it chosen when a static table is
built, rule R238 installs a precomputed one and writes no register but these (DESIGN CHOICE, log 29). -/
def Inflate.staticHeader (d : Inflate) : Inflate :=
  Inflate.acceptHeader { d with litLenTable := staticLitLenTable, distTable := staticDistTable } .headerDecoded

/-- `n` fields of `k` bits, in stream order. -/
def Inflate.takeMany (k : Nat) : Nat → Inflate → Parse (List Nat × Inflate)
  | 0, d => .ok ([], d)
  | n + 1, d => do
    let (v, d) ← d.take k
    let (vs, d) ← Inflate.takeMany k n d
    .ok (v :: vs, d)

/-- `clcLen` from the lengths in `CLC_ORDER` (rule R241): the symbols not listed have length 0. -/
def placeClcLens : List Nat → List Nat → List Nat → List Nat
  | i :: order, v :: vs, acc => placeClcLens order vs (acc.set i v)
  | _, _, acc => acc

/-- The dynamic header up to the code-length sequence (rules R239 to R242). -/
def Inflate.dynamicHeader (d : Inflate) : Parse Inflate := do
  let (hlit, d) ← d.take 5
  let (hdist, d) ← d.take 5
  let (hclen, d) ← d.take 4
  let nlit := hlit + 257
  let ndist := hdist + 1
  if Config.maxLitlenSyms < nlit ∨ Config.maxDistSyms < ndist then .error (.raise .invalidBlock d)
  else do
    let (vs, d) ← Inflate.takeMany 3 (hclen + 4) d
    let clcLen := placeClcLens clcOrder vs (List.replicate Config.clcSyms 0)
    if overSubscribed Config.maxClcLen clcLen then .error (.raise .invalidBlock d)
    else .ok { d with
      scratch := { d.scratch with
        clcLen := clcLen
        clcTable := buildClcTable clcLen
        nlit := nlit
        ndist := ndist
        lens := []
        nextCode := nextCodeAfter Config.maxClcLen clcLen d.scratch.nextCode }
      stage := .clSeq }

/-- BLK_STORED (rules R232, R236). -/
def execBlkStored (bfinal : Bool) (s : State) : Host.Outcome State Fault Refusal :=
  s.onInf (settleHeader (s.inf.setBlockFlags bfinal 0b00).storedHeader)

/-- BLK_STATIC (rules R232, R238). -/
def execBlkStatic (bfinal : Bool) (s : State) : Host.Outcome State Fault Refusal :=
  s.onInf (settleHeader (.ok (s.inf.setBlockFlags bfinal 0b01).staticHeader))

/-- BLK_DYNAMIC (rules R232, R239 to R242). -/
def execBlkDynamic (bfinal : Bool) (s : State) : Host.Outcome State Fault Refusal :=
  s.onInf (settleHeader (s.inf.setBlockFlags bfinal 0b10).dynamicHeader)

/-- BLK_RESERVED (rules R232, R235): `InvalidBlock`, nothing else changes. -/
def execBlkReserved (bfinal : Bool) (s : State) : Host.Outcome State Fault Refusal :=
  s.onInf (settleHeader (.error (.raise .invalidBlock (s.inf.setBlockFlags bfinal 0b11))))

end Sys2Proof.Machine
end

