-- ==== Sys2Proof/Machine/CodeLength.lean ====
section
/-! DEFINITION. The code-length-code symbols CL_LEN, CL_COPY_PREV, CL_ZEROS_3_10, CL_ZEROS_11_138 (rule R245), and the end
of a dynamic header (rules R246 to R248). -/

namespace Sys2Proof.Machine

/-- How many lengths the sequence has (rule R243). -/
def HeaderScratch.total (h : HeaderScratch) : Nat := h.nlit + h.ndist

/-- Lengths appended to `L` (rule R245). -/
def Inflate.appendLens (d : Inflate) (ls : List Nat) : Inflate :=
  { d with scratch := { d.scratch with lens := d.scratch.lens ++ ls } }

/-- A repeat: `k` extra bits are taken and `base + extra` lengths `v` appended, unless they run past the total
(rule R245). -/
def Inflate.repeatLens (d : Inflate) (k base v : Nat) : Parse Inflate := do
  let (e, d) ← d.take k
  let n := base + e
  if d.scratch.total < d.scratch.lens.length + n then .error (.raise .invalidBlock d)
  else .ok (d.appendLens (List.replicate n v))

/-- Symbol 16: the previous length repeated, `InvalidBlock` when there is none (rule R245). -/
def Inflate.copyPrevLen (d : Inflate) : Parse Inflate :=
  match d.scratch.lens.getLast? with
  | none => .error (.raise .invalidBlock d)
  | some v => d.repeatLens 2 3 v

/-- CL_LEN: `L[i] <- sym` (rule R245). -/
def execClLen (len : BitVec 4) (s : State) : Host.Outcome State Fault Refusal :=
  s.onInf (settleHeader (.ok (s.inf.appendLens [len.toNat])))

/-- CL_COPY_PREV: 2 extra bits, 3 to 6 copies (rule R245). -/
def execClCopyPrev (s : State) : Host.Outcome State Fault Refusal :=
  s.onInf (settleHeader s.inf.copyPrevLen)

/-- CL_ZEROS_3_10: 3 extra bits, 3 to 10 zeros (rule R245). -/
def execClZeros3To10 (s : State) : Host.Outcome State Fault Refusal :=
  s.onInf (settleHeader (s.inf.repeatLens 3 3 0))

/-- CL_ZEROS_11_138: 7 extra bits, 11 to 138 zeros (rule R245). -/
def execClZeros11To138 (s : State) : Host.Outcome State Fault Refusal :=
  s.onInf (settleHeader (s.inf.repeatLens 7 11 0))

/-- A list brought to `n` entries with zeros (rule R246). -/
def padZeros (n : Nat) (ls : List Nat) : List Nat := ls ++ List.replicate (n - ls.length) 0

/-- `litLen` and `distLen` (rule R246). -/
def splitLens (h : HeaderScratch) : List Nat × List Nat :=
  (padZeros Config.maxLitlenSyms (h.lens.take h.nlit), padZeros Config.maxDistSyms (h.lens.drop h.nlit))

/-- How many of the lengths are `l`, for `l` below `n` (rule R44). -/
def countVector (n : Nat) (ls : List Nat) : List Nat := tabulate n (countLen ls)

/-- The end of a dynamic header (rules R246 to R248): split, check, choose `multisym`, build both tables, accept. -/
def Inflate.finishDynamic (p : Config.Params) (d : Inflate) : Parse Inflate :=
  let litLen := (splitLens d.scratch).1
  let distLen := (splitLens d.scratch).2
  if overSubscribed Config.maxCodeLen distLen ∨ overSubscribed Config.maxCodeLen litLen then
    .error (.raise .invalidBlock d)
  else
    let m := selectMultisym p d.bfinal (d.inLen - d.inPos)
    let litRec := generateCode Config.maxCodeLen litLen
    let distRec := generateCode Config.maxCodeLen distLen
    let codes := expandedCodes 0 litRec
    .ok (Inflate.acceptHeader { d with
      multisym := m
      distTable := buildDistTable distLen
      litLenTable := buildLarge m codes
      scratch := { d.scratch with
        codeRec := litRec ++ distRec
        nextCode := nextCodeAfter Config.maxCodeLen litLen (nextCodeAfter Config.maxCodeLen distLen d.scratch.nextCode)
        litCount := countVector 16 litLen
        distCount := countVector 16 distLen
        expCount := countVector 21 (codes.map (·.len)) } } .headerDecoded)

end Sys2Proof.Machine
end

