-- ==== Sys2Proof/Machine/LitLen.lean ====
section
/-! DEFINITION. The literal/length symbols LIT, EOB, LEN_257 to LEN_285, LL_RESERVED_286, LL_RESERVED_287
(43_block_parser.md section 5): what each does once its code, a length's extra bits included, has been taken. -/

namespace Sys2Proof.Machine

/-- One literal (rule R264): stored if there is room; else it and the literals of its entry that follow it are stashed
and the output has overflowed. -/
def Inflate.literal (b : Byte) (d : Inflate) : Parse Inflate :=
  if d.writePos < d.outLimit then do
    let d ← orFault (d.storeByte b)
    .ok { d with stage := .parse }
  else .error (.overflow { d with
    writeOverflowLits := BitVec.ofNat 32 ((b.toNat ||| (d.nextLits.toNat <<< 8)) % 2 ^ (8 * (d.symCount + 1)))
    writeOverflowLen := d.symCount + 1
    nextLits := 0
    symCount := 0 })

/-- A match length: `repeatLength` is set and the distance is read next (rules R266, R267). -/
def Inflate.lengthSymbol (s e : Nat) (d : Inflate) : Inflate :=
  { d with repeatLength := expandedSym s e - Config.lenOffset, stage := .dist }

/-- LIT (rule R264). -/
def execLit (b : Byte) (s : State) : Host.Outcome State Fault Refusal :=
  s.onInf (settleBody (s.inf.literal b))

/-- EOB (rule R265). -/
def execEob (s : State) : Host.Outcome State Fault Refusal :=
  s.onInf (settleBody (.ok { s.inf.endBlock with stage := .parse }))

/-- LEN_257 (rules R121, R266). -/
def execLen257 (s : State) : Host.Outcome State Fault Refusal :=
  s.onInf (settleBody (.ok (s.inf.lengthSymbol 257 0)))

/-- LEN_258 (rules R121, R266). -/
def execLen258 (s : State) : Host.Outcome State Fault Refusal :=
  s.onInf (settleBody (.ok (s.inf.lengthSymbol 258 0)))

/-- LEN_259 (rules R121, R266). -/
def execLen259 (s : State) : Host.Outcome State Fault Refusal :=
  s.onInf (settleBody (.ok (s.inf.lengthSymbol 259 0)))

/-- LEN_260 (rules R121, R266). -/
def execLen260 (s : State) : Host.Outcome State Fault Refusal :=
  s.onInf (settleBody (.ok (s.inf.lengthSymbol 260 0)))

/-- LEN_261 (rules R121, R266). -/
def execLen261 (s : State) : Host.Outcome State Fault Refusal :=
  s.onInf (settleBody (.ok (s.inf.lengthSymbol 261 0)))

/-- LEN_262 (rules R121, R266). -/
def execLen262 (s : State) : Host.Outcome State Fault Refusal :=
  s.onInf (settleBody (.ok (s.inf.lengthSymbol 262 0)))

/-- LEN_263 (rules R121, R266). -/
def execLen263 (s : State) : Host.Outcome State Fault Refusal :=
  s.onInf (settleBody (.ok (s.inf.lengthSymbol 263 0)))

/-- LEN_264 (rules R121, R266). -/
def execLen264 (s : State) : Host.Outcome State Fault Refusal :=
  s.onInf (settleBody (.ok (s.inf.lengthSymbol 264 0)))

/-- LEN_265 (rules R121, R266). -/
def execLen265 (e : BitVec 1) (s : State) : Host.Outcome State Fault Refusal :=
  s.onInf (settleBody (.ok (s.inf.lengthSymbol 265 e.toNat)))

/-- LEN_266 (rules R121, R266). -/
def execLen266 (e : BitVec 1) (s : State) : Host.Outcome State Fault Refusal :=
  s.onInf (settleBody (.ok (s.inf.lengthSymbol 266 e.toNat)))

/-- LEN_267 (rules R121, R266). -/
def execLen267 (e : BitVec 1) (s : State) : Host.Outcome State Fault Refusal :=
  s.onInf (settleBody (.ok (s.inf.lengthSymbol 267 e.toNat)))

/-- LEN_268 (rules R121, R266). -/
def execLen268 (e : BitVec 1) (s : State) : Host.Outcome State Fault Refusal :=
  s.onInf (settleBody (.ok (s.inf.lengthSymbol 268 e.toNat)))

/-- LEN_269 (rules R121, R266). -/
def execLen269 (e : BitVec 2) (s : State) : Host.Outcome State Fault Refusal :=
  s.onInf (settleBody (.ok (s.inf.lengthSymbol 269 e.toNat)))

/-- LEN_270 (rules R121, R266). -/
def execLen270 (e : BitVec 2) (s : State) : Host.Outcome State Fault Refusal :=
  s.onInf (settleBody (.ok (s.inf.lengthSymbol 270 e.toNat)))

/-- LEN_271 (rules R121, R266). -/
def execLen271 (e : BitVec 2) (s : State) : Host.Outcome State Fault Refusal :=
  s.onInf (settleBody (.ok (s.inf.lengthSymbol 271 e.toNat)))

/-- LEN_272 (rules R121, R266). -/
def execLen272 (e : BitVec 2) (s : State) : Host.Outcome State Fault Refusal :=
  s.onInf (settleBody (.ok (s.inf.lengthSymbol 272 e.toNat)))

/-- LEN_273 (rules R121, R266). -/
def execLen273 (e : BitVec 3) (s : State) : Host.Outcome State Fault Refusal :=
  s.onInf (settleBody (.ok (s.inf.lengthSymbol 273 e.toNat)))

/-- LEN_274 (rules R121, R266). -/
def execLen274 (e : BitVec 3) (s : State) : Host.Outcome State Fault Refusal :=
  s.onInf (settleBody (.ok (s.inf.lengthSymbol 274 e.toNat)))

/-- LEN_275 (rules R121, R266). -/
def execLen275 (e : BitVec 3) (s : State) : Host.Outcome State Fault Refusal :=
  s.onInf (settleBody (.ok (s.inf.lengthSymbol 275 e.toNat)))

/-- LEN_276 (rules R121, R266). -/
def execLen276 (e : BitVec 3) (s : State) : Host.Outcome State Fault Refusal :=
  s.onInf (settleBody (.ok (s.inf.lengthSymbol 276 e.toNat)))

/-- LEN_277 (rules R121, R266). -/
def execLen277 (e : BitVec 4) (s : State) : Host.Outcome State Fault Refusal :=
  s.onInf (settleBody (.ok (s.inf.lengthSymbol 277 e.toNat)))

/-- LEN_278 (rules R121, R266). -/
def execLen278 (e : BitVec 4) (s : State) : Host.Outcome State Fault Refusal :=
  s.onInf (settleBody (.ok (s.inf.lengthSymbol 278 e.toNat)))

/-- LEN_279 (rules R121, R266). -/
def execLen279 (e : BitVec 4) (s : State) : Host.Outcome State Fault Refusal :=
  s.onInf (settleBody (.ok (s.inf.lengthSymbol 279 e.toNat)))

/-- LEN_280 (rules R121, R266). -/
def execLen280 (e : BitVec 4) (s : State) : Host.Outcome State Fault Refusal :=
  s.onInf (settleBody (.ok (s.inf.lengthSymbol 280 e.toNat)))

/-- LEN_281 (rules R121, R266). -/
def execLen281 (e : BitVec 5) (s : State) : Host.Outcome State Fault Refusal :=
  s.onInf (settleBody (.ok (s.inf.lengthSymbol 281 e.toNat)))

/-- LEN_282 (rules R121, R266). -/
def execLen282 (e : BitVec 5) (s : State) : Host.Outcome State Fault Refusal :=
  s.onInf (settleBody (.ok (s.inf.lengthSymbol 282 e.toNat)))

/-- LEN_283 (rules R121, R266). -/
def execLen283 (e : BitVec 5) (s : State) : Host.Outcome State Fault Refusal :=
  s.onInf (settleBody (.ok (s.inf.lengthSymbol 283 e.toNat)))

/-- LEN_284 (rules R121, R266). -/
def execLen284 (e : BitVec 5) (s : State) : Host.Outcome State Fault Refusal :=
  s.onInf (settleBody (.ok (s.inf.lengthSymbol 284 e.toNat)))

/-- LEN_285 (rules R121, R266). -/
def execLen285 (s : State) : Host.Outcome State Fault Refusal :=
  s.onInf (settleBody (.ok (s.inf.lengthSymbol 285 0)))

/-- LL_RESERVED_286 (rule R271): `InvalidSymbol` after its code bits. -/
def execLlReserved286 (s : State) : Host.Outcome State Fault Refusal :=
  s.onInf (settleBody (.error (.raise .invalidSymbol s.inf)))

/-- LL_RESERVED_287 (rule R271): `InvalidSymbol` after its code bits. -/
def execLlReserved287 (s : State) : Host.Outcome State Fault Refusal :=
  s.onInf (settleBody (.error (.raise .invalidSymbol s.inf)))

end Sys2Proof.Machine
end

