-- ==== Sys2Proof/Machine/Distance.lean ====
section
/-! DEFINITION. The distance symbols DIST_0 to DIST_29, DIST_RESERVED_30, DIST_RESERVED_31 (rules R266 to R270): what
each does once its code has been taken. -/

namespace Sys2Proof.Machine

/-- The copy of a match (rule R269): what fits is copied, the rest is owed and the output has overflowed. -/
def Inflate.copyMatch (dist : Nat) (d : Inflate) : Parse Inflate := do
  let n := min d.repeatLength (d.outLimit - d.writePos)
  let d' ← orFault (d.copyHistory n dist)
  if n < d.repeatLength then
    .error (.overflow { d' with
      copyOverflowLength := d.repeatLength - n
      copyOverflowDistance := dist
      stage := .parse })
  else .ok { d' with stage := .parse }

/-- A distance symbol (rules R266 to R269): its extra bits, the look-back check, the copy. -/
def Inflate.distanceSymbol (sym : Nat) (d : Inflate) : Parse Inflate := do
  let d ← orFault (d.refill Config.refillMain)
  let extra := d.peek (distExtraBits sym)
  let d := d.consume (distExtraBits sym)
  if d.underflowed then .error (.underflow d)
  else
    let dist := distStart sym + extra
    if d.writePos < dist then .error (.raise .invalidLookBack d)
    else d.copyMatch dist

/-- DIST_0 (rules R123, R266). -/
def execDist0 (s : State) : Host.Outcome State Fault Refusal :=
  s.onInf (settleBody (s.inf.distanceSymbol 0))

/-- DIST_1 (rules R123, R266). -/
def execDist1 (s : State) : Host.Outcome State Fault Refusal :=
  s.onInf (settleBody (s.inf.distanceSymbol 1))

/-- DIST_2 (rules R123, R266). -/
def execDist2 (s : State) : Host.Outcome State Fault Refusal :=
  s.onInf (settleBody (s.inf.distanceSymbol 2))

/-- DIST_3 (rules R123, R266). -/
def execDist3 (s : State) : Host.Outcome State Fault Refusal :=
  s.onInf (settleBody (s.inf.distanceSymbol 3))

/-- DIST_4 (rules R123, R266). -/
def execDist4 (s : State) : Host.Outcome State Fault Refusal :=
  s.onInf (settleBody (s.inf.distanceSymbol 4))

/-- DIST_5 (rules R123, R266). -/
def execDist5 (s : State) : Host.Outcome State Fault Refusal :=
  s.onInf (settleBody (s.inf.distanceSymbol 5))

/-- DIST_6 (rules R123, R266). -/
def execDist6 (s : State) : Host.Outcome State Fault Refusal :=
  s.onInf (settleBody (s.inf.distanceSymbol 6))

/-- DIST_7 (rules R123, R266). -/
def execDist7 (s : State) : Host.Outcome State Fault Refusal :=
  s.onInf (settleBody (s.inf.distanceSymbol 7))

/-- DIST_8 (rules R123, R266). -/
def execDist8 (s : State) : Host.Outcome State Fault Refusal :=
  s.onInf (settleBody (s.inf.distanceSymbol 8))

/-- DIST_9 (rules R123, R266). -/
def execDist9 (s : State) : Host.Outcome State Fault Refusal :=
  s.onInf (settleBody (s.inf.distanceSymbol 9))

/-- DIST_10 (rules R123, R266). -/
def execDist10 (s : State) : Host.Outcome State Fault Refusal :=
  s.onInf (settleBody (s.inf.distanceSymbol 10))

/-- DIST_11 (rules R123, R266). -/
def execDist11 (s : State) : Host.Outcome State Fault Refusal :=
  s.onInf (settleBody (s.inf.distanceSymbol 11))

/-- DIST_12 (rules R123, R266). -/
def execDist12 (s : State) : Host.Outcome State Fault Refusal :=
  s.onInf (settleBody (s.inf.distanceSymbol 12))

/-- DIST_13 (rules R123, R266). -/
def execDist13 (s : State) : Host.Outcome State Fault Refusal :=
  s.onInf (settleBody (s.inf.distanceSymbol 13))

/-- DIST_14 (rules R123, R266). -/
def execDist14 (s : State) : Host.Outcome State Fault Refusal :=
  s.onInf (settleBody (s.inf.distanceSymbol 14))

/-- DIST_15 (rules R123, R266). -/
def execDist15 (s : State) : Host.Outcome State Fault Refusal :=
  s.onInf (settleBody (s.inf.distanceSymbol 15))

/-- DIST_16 (rules R123, R266). -/
def execDist16 (s : State) : Host.Outcome State Fault Refusal :=
  s.onInf (settleBody (s.inf.distanceSymbol 16))

/-- DIST_17 (rules R123, R266). -/
def execDist17 (s : State) : Host.Outcome State Fault Refusal :=
  s.onInf (settleBody (s.inf.distanceSymbol 17))

/-- DIST_18 (rules R123, R266). -/
def execDist18 (s : State) : Host.Outcome State Fault Refusal :=
  s.onInf (settleBody (s.inf.distanceSymbol 18))

/-- DIST_19 (rules R123, R266). -/
def execDist19 (s : State) : Host.Outcome State Fault Refusal :=
  s.onInf (settleBody (s.inf.distanceSymbol 19))

/-- DIST_20 (rules R123, R266). -/
def execDist20 (s : State) : Host.Outcome State Fault Refusal :=
  s.onInf (settleBody (s.inf.distanceSymbol 20))

/-- DIST_21 (rules R123, R266). -/
def execDist21 (s : State) : Host.Outcome State Fault Refusal :=
  s.onInf (settleBody (s.inf.distanceSymbol 21))

/-- DIST_22 (rules R123, R266). -/
def execDist22 (s : State) : Host.Outcome State Fault Refusal :=
  s.onInf (settleBody (s.inf.distanceSymbol 22))

/-- DIST_23 (rules R123, R266). -/
def execDist23 (s : State) : Host.Outcome State Fault Refusal :=
  s.onInf (settleBody (s.inf.distanceSymbol 23))

/-- DIST_24 (rules R123, R266). -/
def execDist24 (s : State) : Host.Outcome State Fault Refusal :=
  s.onInf (settleBody (s.inf.distanceSymbol 24))

/-- DIST_25 (rules R123, R266). -/
def execDist25 (s : State) : Host.Outcome State Fault Refusal :=
  s.onInf (settleBody (s.inf.distanceSymbol 25))

/-- DIST_26 (rules R123, R266). -/
def execDist26 (s : State) : Host.Outcome State Fault Refusal :=
  s.onInf (settleBody (s.inf.distanceSymbol 26))

/-- DIST_27 (rules R123, R266). -/
def execDist27 (s : State) : Host.Outcome State Fault Refusal :=
  s.onInf (settleBody (s.inf.distanceSymbol 27))

/-- DIST_28 (rules R123, R266). -/
def execDist28 (s : State) : Host.Outcome State Fault Refusal :=
  s.onInf (settleBody (s.inf.distanceSymbol 28))

/-- DIST_29 (rules R123, R266). -/
def execDist29 (s : State) : Host.Outcome State Fault Refusal :=
  s.onInf (settleBody (s.inf.distanceSymbol 29))

/-- DIST_RESERVED_30 (rules R224, R266): its pattern is an invalid entry, `InvalidSymbol` before its bits are
consumed. -/
def execDistReserved30 (s : State) : Host.Outcome State Fault Refusal :=
  s.onInf (settleBody (.error (.raise .invalidSymbol s.inf)))

/-- DIST_RESERVED_31 (rules R224, R266): its pattern is an invalid entry, `InvalidSymbol` before its bits are
consumed. -/
def execDistReserved31 (s : State) : Host.Outcome State Fault Refusal :=
  s.onInf (settleBody (.error (.raise .invalidSymbol s.inf)))

end Sys2Proof.Machine
end

