-- ==== Sys2Proof/Machine/Parser.lean ====
section
/-! DEFINITION. The sub-block block_parser_fsm (43_block_parser.md): how the next stream element is fetched, the parts
of `Decode()` that no element of the opcode table stands for (the stored copy, the end of a header, the end of the
stream), and the loop `Decode()` (rule R233). -/

namespace Sys2Proof.Machine

/-- Entering retry mode (rule R252): the new slice's bytes are appended to `HDR`. -/
def Inflate.enterRetry (d : Inflate) : Except Fault Inflate := do
  let k := min (d.inLen - d.inPos) (Config.hdrBufSize - d.hdrLen)
  let bs ← readBytes .inp d.inLen d.inBuf d.inPos k
  let m ← writeBytes .hdr Config.hdrBufSize d.hdrBuf d.hdrLen bs
  .ok { d with
    hdrBuf := m
    hdrLen := d.hdrLen + k
    inPos := d.inPos + k
    hdrPos := 0
    retry := true }

/-- The header snapshot and the 3 header bits (rules R231, R232, R234). -/
def Inflate.fetchHeader (d : Inflate) : Parse (Code × Inflate) := do
  let d ← if d.phase = .decodingHeader then orFault d.enterRetry else .ok d
  let (h, d) ← d.snapshot.take 3
  .ok (⟨.blkhdr, h, {}⟩, d)

/-- One code-length-code symbol (rules R243, R244). -/
def Inflate.fetchClSymbol (d : Inflate) : Parse (Code × Inflate) := do
  let d ← orFault (d.refill Config.refillHdr)
  let hit := d.scratch.clcTable.find d.bits.toNat
  if hit.len = 0 then .error (.raise .invalidBlock d)
  else
    let d := d.consume hit.len
    if d.underflowed then .error (.underflow d) else .ok (⟨.clsym, hit.sym9, {}⟩, d)

/-- The word of an expanded symbol above 256 (rules R124, R266, R271). A length stands for the symbol `LenSym` gives
it; 258 may have been coded with symbol 284, which has the same effect (log 13). -/
def expandedCode (y : Nat) : Option Code :=
  if y ≤ 512 then
    let len := y - Config.lenOffset
    some (llCode (lenSym len) (len - lenBase (lenSym len)))
  else if y = 513 then some (llCode 286 0)
  else if y = 514 then some (llCode 287 0)
  else none

/-- The literals of the entry that are left after the next one (rule R264). -/
def Inflate.holdLits (d : Inflate) (lits count : Nat) : Inflate :=
  { d with nextLits := BitVec.ofNat 32 lits, symCount := count }

/-- One literal/length lookup (rules R260 to R262, R271, R273); a packed entry gives its first literal and holds the
others (log 16). -/
def Inflate.fetchSymbol (d : Inflate) : Parse (Code × Inflate) :=
  if d.outLimit ≤ d.writePos then .error (.overflow d)
  else do
    let d ← orFault (d.refill Config.refillMain)
    let d := d.snapshot
    let hit := d.litLenTable.find d.bits.toNat
    if hit.bitCount = 0 then .error (.raise .invalidSymbol d)
    else
      let d := d.consume hit.bitCount
      if d.underflowed then .error (.underflow d)
      else if 1 < hit.symCount ∨ hit.nextLits < 256 then
        .ok (llCode (hit.nextLits % 256) 0, d.holdLits (hit.nextLits >>> 8) (hit.symCount - 1))
      else if hit.nextLits = Config.eobSymbol then .ok (llCode 256 0, d)
      else match expandedCode hit.nextLits with
      | some c => .ok (c, d)
      | none => .error (.raise .invalidSymbol d)

/-- The next literal of the entry being stored (rule R264). -/
def Inflate.fetchHeldLit (d : Inflate) : Code × Inflate :=
  (llCode (d.nextLits.toNat % 256) 0, d.holdLits (d.nextLits.toNat >>> 8) (d.symCount - 1))

/-- The word of a bit pattern that matches no distance code: in a static block the two patterns of symbols 30 and 31
(rules R106, R224), else none (log 15). -/
def reservedDistance (btype : BitVec 2) (bits : Nat) : Option Code :=
  if btype ≠ 0b01 then none
  else if bits % 32 = 0b01111 then some ⟨.dsym, 30, {}⟩
  else if bits % 32 = 0b11111 then some ⟨.dsym, 31, {}⟩
  else none

/-- One distance lookup (rule R266). -/
def Inflate.fetchDistance (d : Inflate) : Parse (Code × Inflate) := do
  let d ← orFault (d.refill Config.refillMain)
  let hit := d.distTable.find d.bits.toNat
  if hit.len = 0 then
    match reservedDistance d.btype d.bits.toNat with
    | some c => .ok (c, d)
    | none => .error (.raise .invalidSymbol d)
  else
    let d := d.consume hit.len
    if d.underflowed then .error (.underflow d) else .ok (⟨.dsym, hit.sym9 % 32, {}⟩, d)

/-- The first loop of `CopyStored()`, at most `n` bytes: from the bit buffer (rule R258). -/
def Inflate.storedFromBits : Nat → Inflate → Except Fault Inflate
  | 0, d => .ok d
  | n + 1, d =>
    if 0 < d.litBlockLength ∧ 8 ≤ d.bitsLen ∧ d.writePos < d.outLimit then do
      let d ← d.storeByte (BitVec.ofNat 8 d.bits.toNat)
      Inflate.storedFromBits n { d.consume 8 with litBlockLength := d.litBlockLength - 1 }
    else .ok d

/-- The direct copy of `CopyStored()` (rule R258). -/
def Inflate.storedFromSlice (d : Inflate) : Except Fault Inflate :=
  if 0 < d.litBlockLength ∧ d.bitsLen = 0 then do
    let n := min d.litBlockLength (min (d.inLen - d.inPos) (d.outLimit - d.writePos))
    let bs ← readBytes .inp d.inLen d.inBuf d.inPos n
    let m ← writeBytes .hist Config.histBufSize d.histBuf d.writePos bs
    .ok { d with
      histBuf := m
      inPos := d.inPos + n
      totalIn := d.totalIn + n
      writePos := d.writePos + n
      litBlockLength := d.litBlockLength - n }
  else .ok d

/-- `CopyStored()` (rule R258). -/
def Inflate.copyStored (d : Inflate) : Parse Inflate := do
  let d ← orFault (Inflate.storedFromBits d.litBlockLength d)
  let d ← orFault d.storedFromSlice
  if d.litBlockLength = 0 then .ok d.endBlock
  else if d.outLimit ≤ d.writePos then .error (.overflow d)
  else .error (.endInput d)

/-- What the parser finds next: an element's word, or a part of `Decode()` that no element stands for, done. -/
inductive Fetched where
  | word (c : Code) (d : Inflate)
  | inside (d : Inflate)
deriving DecidableEq, Repr

/-- An element fetched, or the way its fetch ended `Decode()`. -/
def fetchedBy (settle : Parse Inflate → Except Fault Inflate) (r : Parse (Code × Inflate)) : Except Fault Fetched :=
  match r with
  | .ok (c, d) => .ok (.word c d)
  | .error h => do
    let d ← settle (.error h)
    .ok (.inside d)

/-- A part of `Decode()` that is no element. -/
def insideBy (r : Except Fault Inflate) : Except Fault Fetched := do
  let d ← r
  .ok (.inside d)

/-- What `Decode()` meets next (rules R233, R234, R243, R260). -/
def fetchElement (p : Config.Params) (d : Inflate) : Except Fault Fetched :=
  match d.stage with
  | .idle => .ok (.inside d)
  | .clSeq =>
    if d.scratch.lens.length < d.scratch.total then fetchedBy settleHeader d.fetchClSymbol
    else insideBy (settleHeader (d.finishDynamic p))
  | .dist => fetchedBy settleBody d.fetchDistance
  | .parse =>
    match d.phase with
    | .newBlock => fetchedBy settleHeader d.fetchHeader
    | .decodingHeader => fetchedBy settleHeader d.fetchHeader
    | .litBlock => insideBy (settleBody d.copyStored)
    | .headerDecoded =>
      if 0 < d.symCount then .ok (.word d.fetchHeldLit.1 d.fetchHeldLit.2)
      else fetchedBy settleBody d.fetchSymbol
    | .streamEnd => insideBy (d.endDecode .ok)
    | .finish => insideBy (d.endDecode .ok)

/-- The meaning of a stream element inside `Decode()`. -/
def runElement (i : Instr) (s : State) : Host.Outcome State Fault Refusal :=
  match i with
  | .blkStored f => execBlkStored f s
  | .blkStatic f => execBlkStatic f s
  | .blkDynamic f => execBlkDynamic f s
  | .blkReserved f => execBlkReserved f s
  | .clLen l => execClLen l s
  | .clCopyPrev => execClCopyPrev s
  | .clZeros3To10 => execClZeros3To10 s
  | .clZeros11To138 => execClZeros11To138 s
  | .lit b => execLit b s
  | .eob => execEob s
  | .len257 => execLen257 s
  | .len258 => execLen258 s
  | .len259 => execLen259 s
  | .len260 => execLen260 s
  | .len261 => execLen261 s
  | .len262 => execLen262 s
  | .len263 => execLen263 s
  | .len264 => execLen264 s
  | .len265 e => execLen265 e s
  | .len266 e => execLen266 e s
  | .len267 e => execLen267 e s
  | .len268 e => execLen268 e s
  | .len269 e => execLen269 e s
  | .len270 e => execLen270 e s
  | .len271 e => execLen271 e s
  | .len272 e => execLen272 e s
  | .len273 e => execLen273 e s
  | .len274 e => execLen274 e s
  | .len275 e => execLen275 e s
  | .len276 e => execLen276 e s
  | .len277 e => execLen277 e s
  | .len278 e => execLen278 e s
  | .len279 e => execLen279 e s
  | .len280 e => execLen280 e s
  | .len281 e => execLen281 e s
  | .len282 e => execLen282 e s
  | .len283 e => execLen283 e s
  | .len284 e => execLen284 e s
  | .len285 => execLen285 s
  | .llReserved286 => execLlReserved286 s
  | .llReserved287 => execLlReserved287 s
  | .dist0 => execDist0 s
  | .dist1 => execDist1 s
  | .dist2 => execDist2 s
  | .dist3 => execDist3 s
  | .dist4 => execDist4 s
  | .dist5 => execDist5 s
  | .dist6 => execDist6 s
  | .dist7 => execDist7 s
  | .dist8 => execDist8 s
  | .dist9 => execDist9 s
  | .dist10 => execDist10 s
  | .dist11 => execDist11 s
  | .dist12 => execDist12 s
  | .dist13 => execDist13 s
  | .dist14 => execDist14 s
  | .dist15 => execDist15 s
  | .dist16 => execDist16 s
  | .dist17 => execDist17 s
  | .dist18 => execDist18 s
  | .dist19 => execDist19 s
  | .dist20 => execDist20 s
  | .dist21 => execDist21 s
  | .dist22 => execDist22 s
  | .dist23 => execDist23 s
  | .dist24 => execDist24 s
  | .dist25 => execDist25 s
  | .dist26 => execDist26 s
  | .dist27 => execDist27 s
  | .dist28 => execDist28 s
  | .dist29 => execDist29 s
  | .distReserved30 => execDistReserved30 s
  | .distReserved31 => execDistReserved31 s
  | .tlit _ => .fault .commandInsideCommand
  | .teob => .fault .commandInsideCommand
  | .tmatch _ _ _ => .fault .commandInsideCommand
  | .inReset => .fault .commandInsideCommand
  | .inStep _ => .fault .commandInsideCommand
  | .inRead _ => .fault .commandInsideCommand
  | .inClose => .fault .commandInsideCommand
  | .dfReset _ _ => .fault .commandInsideCommand
  | .dfWrite _ => .fault .commandInsideCommand
  | .dfFlush => .fault .commandInsideCommand
  | .dfClose => .fault .commandInsideCommand

/-- One element (or one part that is no element) of `Decode()`. -/
def elementStep (s : State) : Host.Outcome State Fault Refusal :=
  match fetchElement s.params s.inf with
  | .error f => .fault f
  | .ok (.inside d) => .next { s with inf := d }
  | .ok (.word c d) =>
    match decode c with
    | .ok i => runElement i { s with inf := d }
    | .error e => .fault (.undecodable e)

/-- `Decode()` (rule R233): elements until the engine has left it, at most `n`. -/
def decodeLoop : Nat → State → Host.Outcome State Fault Refusal
  | 0, s => if s.inf.stage = .idle then .next s else .fault .decodeBoundExceeded
  | n + 1, s =>
    if s.inf.stage = .idle then .next s
    else match elementStep s with
    | .next t => decodeLoop n t
    | .fault f => .fault f
    | .refused r => .refused r

/-- A bound on the elements of one `Decode()` (rule R275, log 19): every element but the last consumes a stream bit, or
follows one that did, and at most three follow one bit. -/
def decodeBound (d : Inflate) : Nat :=
  4 * (d.bitsLen.toNat + 8 * (d.inLen - d.inPos) + 8 * d.hdrLen) + 8

end Sys2Proof.Machine
end

