-- ==== Sys2Proof/Machine/InflateCmd.lean ====
section
/-! DEFINITION. The inflate commands IN_RESET, IN_STEP, IN_READ, IN_CLOSE (44_history_window.md). -/

namespace Sys2Proof.Machine

/-- The return of an inflate command. -/
def Inflate.returns (d : Inflate) (st : Status) (consumed : Int) (data : List Byte) : Inflate :=
  { d with ret := ⟨st, consumed, data⟩ }

/-- The registers rule R60 sets. Memories and the registers it leaves unspecified are not written (rule R281,
log 6). -/
def Inflate.clear (d : Inflate) : Inflate :=
  { d with
    bits := 0
    bitsLen := 0
    inPos := 0
    inLen := 0
    inBuf := Cells.empty
    litBlockLength := 0
    readPos := 0
    writePos := 0
    writeOverflowLits := 0
    writeOverflowLen := 0
    copyOverflowLength := 0
    copyOverflowDistance := 0
    phase := .newBlock
    totalIn := 0
    bfinal := false
    btype := 0
    multisym := 3
    inErr := none
    hdrLen := 0
    retry := false
    nextLits := 0
    symCount := 0
    stage := .idle }

/-- `Fold()` (rule R286). -/
def Inflate.fold (d : Inflate) : Except Fault Inflate := do
  let m ← copyAscending .hist Config.histBufSize d.histBuf (d.writePos - Config.historySize) 0 Config.historySize
  .ok { d with histBuf := m, readPos := Config.historySize, writePos := Config.historySize }

/-- The fold, if one is due (rules R286, R288). -/
def Inflate.foldIfDue (d : Inflate) : Except Fault Inflate :=
  if 2 * Config.historySize ≤ d.writePos then d.fold else .ok d

/-- `skip`, the whole bytes held back from the previous slice (rule R288). -/
def Inflate.skip (d : Inflate) : Nat := (d.bitsLen / 8).toNat

/-- The preconditions of `IN_STEP` fail (rule R289; a slice above `SLICE_MAX`: 93 U10). -/
def Inflate.stepRefused (p : Config.Params) (d : Inflate) (n : Nat) : Bool :=
  decide (d.readPos ≠ d.writePos) || decide (n < d.skip) || decide (p.sliceMax < n)

/-- The entry of `IN_STEP` (rule R288): the fold, `outLimit` (rule R287), the slice, then `Decode()` begins. -/
def Inflate.enterDecode (d : Inflate) (slice : List Byte) : Except Fault Inflate := do
  let skip := d.skip
  let d ← d.foldIfDue
  .ok { d with
    outLimit := min (2 * Config.historySize) (d.writePos + Config.historySize)
    inBuf := Cells.ofList slice
    inLen := slice.length
    inPos := skip
    stage := .parse }

/-- IN_RESET (rule R281). -/
def execInReset (s : State) : Host.Outcome State Fault Refusal :=
  .next { s with inf := s.inf.clear.returns .ok 0 [] }

/-- IN_STEP (rule R288). -/
def execInStep (slice : List Byte) (s : State) : Host.Outcome State Fault Refusal :=
  match s.inf.inErr with
  | some (_, off) => .next { s with inf := s.inf.returns (.corruptInput off) 0 [] }
  | none =>
    if s.inf.stepRefused s.params slice.length then .next { s with inf := s.inf.returns .refused 0 [] }
    else match s.inf.enterDecode slice with
    | .error f => .fault f
    | .ok d => decodeLoop (decodeBound d) { s with inf := d }

/-- What `IN_READ` returns when it has nothing to deliver (rule R284). -/
def Inflate.readNothing (d : Inflate) : Inflate :=
  match d.inErr with
  | some (_, off) => d.returns (.corruptInput off) 0 []
  | none =>
    if d.phase = .streamEnd ∨ d.phase = .finish then Inflate.returns { d with phase := .finish } .eof 0 []
    else d.returns .ok 0 []

/-- `IN_READ(n)` (rule R284). -/
def Inflate.read (n : Nat) (d : Inflate) : Except Fault Inflate := do
  let k := min n (d.writePos - d.readPos)
  let data ← readBytes .hist Config.histBufSize d.histBuf d.readPos k
  if 0 < k ∨ n = 0 then .ok (Inflate.returns { d with readPos := d.readPos + k } .ok 0 data)
  else .ok d.readNothing

/-- IN_READ (rule R284). -/
def execInRead (n : Nat) (s : State) : Host.Outcome State Fault Refusal := s.onInf (s.inf.read n)

/-- IN_CLOSE (rule R298): changes nothing, returns `Ok`. -/
def execInClose (s : State) : Host.Outcome State Fault Refusal :=
  .next { s with inf := s.inf.returns .ok 0 [] }

end Sys2Proof.Machine
end

