-- ==== Sys2Proof/Machine/Token.lean ====
section
/-! DEFINITION. The sub-block token_encoder (46_token_encoder.md): the tokens TLIT, TEOB, TMATCH, and `BuildCodes`. -/

namespace Sys2Proof.Machine

/-- An outcome of the machine from a memory operation of the deflate side. -/
def State.onDf (s : State) (r : Except Fault Deflate) : Host.Outcome State Fault Refusal :=
  match r with
  | .ok d => .next { s with df := d }
  | .error f => .fault f

/-- The code field of a `literalCodes` slot (rule R132). -/
def litSlotCode (r : Word) : Nat := field r.toNat 0 24
/-- The code field of a `distanceCodes` slot (rule R132). -/
def distSlotCode (r : Word) : Nat := field r.toNat 0 16
/-- The `extraLen` field of a `distanceCodes` slot (rule R132). -/
def distSlotExtra (r : Word) : Nat := field r.toNat 16 8
/-- The length field of a slot (rule R132). -/
def slotLen (r : Word) : Nat := field r.toNat 24 8

/-- One token through the accumulator (rules R341, R342): exactly three bit groups. -/
def Deflate.encodeToken (litlen dist extra : Nat) (d : Deflate) : Except Fault Deflate := do
  let d := { d with tokNext := d.tokNext + 1 }
  let r := d.litCodes.slot litlen
  let q := d.distCodes.slot dist
  let d ← d.putbits (litSlotCode r) (slotLen r)
  let d ← d.putbits (distSlotCode q) (slotLen q)
  d.putbits extra (distSlotExtra q)

/-- TLIT (rules R129, R341, R342). -/
def execTlit (b : Byte) (s : State) : Host.Outcome State Fault Refusal :=
  s.onDf (s.df.encodeToken b.toNat Config.invalidDist 0)

/-- TEOB (rules R129, R341, R347). -/
def execTeob (s : State) : Host.Outcome State Fault Refusal :=
  s.onDf (s.df.encodeToken Config.eobSymbol Config.invalidDist 0)

/-- TMATCH (rules R129, R341, R342, R345). -/
def execTmatch (litlen : BitVec 10) (dist : BitVec 9) (distExtra : BitVec 13) (s : State) :
    Host.Outcome State Fault Refusal :=
  s.onDf (s.df.encodeToken litlen.toNat dist.toNat distExtra.toNat)

/-- The slots from index `i` on, zero slots left out. -/
def slotsFrom : Nat → List Word → List (Nat × Word)
  | _, [] => []
  | i, v :: vs => if v = 0 then slotsFrom (i + 1) vs else (i, v) :: slotsFrom (i + 1) vs

/-- The slot of match length `len` (rule R344): the length symbol's code with the extra bits above it. -/
def lengthSlot (recLL : List Word) (len : Nat) : Word :=
  let s := lenSym len
  let r := recLL.getD s 0
  huffRec (recCode r ||| ((len - lenBase s) <<< recLen r)) (recLen r + lenExtra s)

/-- The slot of distance symbol `s` (rule R344). -/
def distanceSlot (recD : List Word) (s : Nat) : Word :=
  let r := recD.getD s 0
  BitVec.ofNat 32 (recCode r ||| (distExtraBits s <<< 16) ||| (recLen r <<< 24))

/-- `BuildCodes()` (rule R344): slots 0..256 from the records, 257..512 per match length, the distance symbols, and 0 in
slot 30. -/
def Deflate.buildCodes (recLL recD : List Word) (d : Deflate) : Deflate :=
  { d with
    litCodes := ⟨slotsFrom 0 (recLL.take 257 ++ tabulateFrom (lengthSlot recLL) 256 3)⟩
    distCodes := ⟨slotsFrom 0 (tabulate 30 (distanceSlot recD))⟩ }

end Sys2Proof.Machine
end

