-- ==== Sys2Proof/Machine/Matcher.lean ====
section
/-! DEFINITION. The sub-block lz77_hash_matcher (45_lz77_matcher.md). -/

namespace Sys2Proof.Machine

/-- The size of `WIN`: `2*WINDOW_SIZE + MAX_MATCH + MIN_MATCH` (rules R9, R70). -/
def Deflate.winSize (d : Deflate) : Nat := 2 * d.windowSize + Config.maxMatch + Config.minMatch

/-- One round of `hash4` (rule R312). -/
def hashRound (a : Nat) : Nat := (a * Config.hashPrime % 2 ^ 64) >>> 16

/-- `hash4(x)` (rule R312). -/
def hash4 (x : Nat) : Nat := hashRound (hashRound x) % 2 ^ 32

/-- The hash slot of the 4 bytes at `p` (rules R312, R324). -/
def Deflate.hashIndex (d : Deflate) (p : Nat) : Except Fault Nat := do
  let w ← readLE .win d.winSize d.winBuf p 4
  .ok (hash4 w &&& d.hashMask)

/-- `(relative + p) mod 65536` (rule R313). -/
def fingerprint (relative : Int) (p : Nat) : Half := BitVec.ofInt 16 (relative + p)

/-- `Store(t)` (rule R322). -/
def Deflate.storeToken (d : Deflate) (t : Word) : Except Fault Deflate := do
  let m ← writeCell .tok Config.tokBufSize d.tokBuf d.tokCount t
  .ok { d with tokBuf := m, tokCount := d.tokCount + 1 }

/-- `hist.literalCodes[i] += 1`. -/
def Deflate.countLit (d : Deflate) (i : Nat) : Deflate :=
  { d with litCodes := d.litCodes.setSlot i (d.litCodes.slot i + 1) }

/-- `hist.distanceCodes[i] += 1`. -/
def Deflate.countDist (d : Deflate) (i : Nat) : Deflate :=
  { d with distCodes := d.distCodes.setSlot i (d.distCodes.slot i + 1) }

/-- `EmitMatch(len, dist)` (rule R321). -/
def Deflate.emitMatch (d : Deflate) (len dist : Nat) : Except Fault Deflate := do
  let d ← d.storeToken (matchToken len dist)
  .ok ((d.countLit (lenSym len)).countDist (distSym dist).sym)

/-- `EmitLiteral(b)` (rule R323). -/
def Deflate.emitLiteral (d : Deflate) (b : Byte) : Except Fault Deflate := do
  let d ← d.storeToken (litToken b)
  .ok (d.countLit b.toNat)

/-- `EmitLiteral(WIN[p])`. -/
def Deflate.emitWinByte (d : Deflate) (p : Nat) : Except Fault Deflate := do
  let b ← readCell .win d.winSize d.winBuf p
  d.emitLiteral b

/-- The comparison loop of `MatchLength`: equal bytes from `a` and `b` on, at most `n` (rules R316, R317). -/
def Deflate.compareFrom (d : Deflate) : Nat → Nat → Nat → Except Fault Nat
  | 0, _, _ => .ok 0
  | n + 1, a, b => do
    let x ← readCell .win d.winSize d.winBuf a
    let y ← readCell .win d.winSize d.winBuf b
    if x = y then do
      let c ← d.compareFrom n (a + 1) (b + 1)
      .ok (c + 1)
    else .ok 0

/-- `MatchLength(prev, offset)` (rules R316, R317). -/
def Deflate.matchLength (d : Deflate) (prev offset : Nat) : Except Fault Nat := do
  let u ← readLE .win d.winSize d.winBuf prev 8
  let v ← readLE .win d.winSize d.winBuf offset 8
  let x : Wide := BitVec.ofNat 64 u ^^^ BitVec.ofNat 64 v
  let m := if x = 0 then 8 else ctz64 x / 8
  if m = 8 then do
    let c ← d.compareFrom (d.wend - (offset + 8)) (prev + 8) (offset + 8)
    .ok (8 + c)
  else .ok m

/-- The 258s of `EmitMatches`, at most `fuel`, with `n` bytes covered so far (rule R319). -/
def Deflate.emitLong (matchLen dist : Nat) : Nat → Nat → Deflate → Except Fault (Nat × Deflate)
  | 0, n, d => .ok (n, d)
  | fuel + 1, n, d =>
    if Config.maxMatch ≤ matchLen - n ∧ d.tokCount < Config.tokenCap then do
      let d ← d.emitMatch Config.maxMatch dist
      Deflate.emitLong matchLen dist fuel (n + Config.maxMatch) d
    else .ok (n, d)

/-- `EmitMatches` (rule R319): the bytes covered. -/
def Deflate.emitMatches (d : Deflate) (matchLen dist : Nat) : Except Fault (Nat × Deflate) := do
  let (n, d) ← Deflate.emitLong matchLen dist matchLen 0 d
  let r := matchLen - n
  if 3 ≤ r ∧ r < Config.maxMatch ∧ d.tokCount < Config.tokenCap then do
    let d ← d.emitMatch r dist
    .ok (n + r, d)
  else .ok (n, d)

/-- `hashTable[hash of WIN[p..p+3]] <- fingerprint of p`. -/
def Deflate.enterHash (relative : Int) (p : Nat) (d : Deflate) : Except Fault Deflate := do
  let h ← d.hashIndex p
  .ok { d with hashTable := d.hashTable.setSlot h (fingerprint relative p) }

/-- `UpdateHash3(offset)` (rule R324). -/
def Deflate.updateHash3 (relative : Int) (offset : Nat) (d : Deflate) : Except Fault Deflate := do
  let d ← Deflate.enterHash relative (offset + 1) d
  let d ← Deflate.enterHash relative (offset + 2) d
  Deflate.enterHash relative (offset + 3) d

/-- The candidate of a position after its slot is read and overwritten (rules R312 to R315): the distance, if it is
one the test accepts. -/
def Deflate.candidate (relative : Int) (offset : Nat) (d : Deflate) : Except Fault (Option Nat × Deflate) := do
  let h ← d.hashIndex offset
  let fp := fingerprint relative offset
  let dist := (fp - d.hashTable.slot h).toNat
  let d := { d with hashTable := d.hashTable.setSlot h fp }
  if 1 ≤ dist ∧ dist ≤ d.windowSize ∧ dist ≤ offset then .ok (some dist, d) else .ok (none, d)

/-- What the matcher emits for a candidate at a distance (rules R315, R316, R319, R324): the bytes covered, 0 when the
position is to be a literal. -/
def Deflate.tryMatch (relative : Int) (offset dist : Nat) (d : Deflate) : Except Fault (Nat × Deflate) := do
  let matchLen ← d.matchLength (offset - dist) offset
  if Config.minMatch ≤ matchLen then do
    let (n, d) ← d.emitMatches matchLen dist
    if 0 < n then do
      let d ← Deflate.updateHash3 relative offset d
      .ok (n, d)
    else .ok (0, d)
  else .ok (0, d)

/-- One position of the matcher (rule R310): the next offset. -/
def Deflate.matchStep (relative : Int) (offset : Nat) (d : Deflate) : Except Fault (Nat × Deflate) := do
  let (c, d) ← Deflate.candidate relative offset d
  let (n, d) ← match c with
    | some dist => Deflate.tryMatch relative offset dist d
    | none => .ok (0, d)
  if 0 < n then .ok (offset + n, d)
  else do
    let d ← d.emitWinByte offset
    .ok (offset + 1, d)

/-- The loop of rule R310, at most `fuel` positions; the loop bound is rule R311. -/
def Deflate.matchLoop (relative : Int) : Nat → Nat → Deflate → Except Fault (Nat × Deflate)
  | 0, offset, d => .ok (offset, d)
  | fuel + 1, offset, d =>
    if offset + 8 < d.wend ∧ d.tokCount < Config.tokenCap then do
      let (offset, d) ← Deflate.matchStep relative offset d
      Deflate.matchLoop relative fuel offset d
    else .ok (offset, d)

/-- `Tail()` (rule R325), and the whole matcher at level -2 (rule R326): literals, at most `fuel`. -/
def Deflate.literalLoop : Nat → Nat → Deflate → Except Fault (Nat × Deflate)
  | 0, offset, d => .ok (offset, d)
  | fuel + 1, offset, d =>
    if offset < d.wend ∧ d.tokCount < Config.tokenCap then do
      let d ← d.emitWinByte offset
      Deflate.literalLoop fuel (offset + 1) d
    else .ok (offset, d)

/-- The positions `Match(flush)` covers (rules R310, R325, R326): the offset it stops at. -/
def Deflate.matchFrom (flush : Bool) (d : Deflate) : Except Fault (Nat × Deflate) :=
  let n := d.wend - d.widx
  if d.level = -2 then Deflate.literalLoop n d.widx d
  else do
    let (offset, d) ← Deflate.matchLoop ((d.processed : Int) - d.widx) n d.widx d
    if flush then Deflate.literalLoop (d.wend - offset) offset d else .ok (offset, d)

/-- `Match(flush)` (rules R310, R327). -/
def Deflate.runMatcher (flush : Bool) (d : Deflate) : Except Fault Deflate := do
  let start := d.widx
  let (offset, d) ← Deflate.matchFrom flush d
  .ok { d with processed := d.processed + (offset - start), widx := offset }

end Sys2Proof.Machine
end

