-- ==== Sys2Proof/Machine/HeaderWriter.lean ====
section
/-! DEFINITION. The sub-block dynamic_header_writer (47_dynamic_header_writer.md). -/

namespace Sys2Proof.Machine

/-- One more than the largest index with a non-zero entry, 0 when all are zero (rules R356, R357, R363). -/
def usedLength : List Nat → Nat
  | [] => 0
  | l :: ls =>
    let n := usedLength ls
    if n = 0 then (if l = 0 then 0 else 1) else n + 1

/-- `nlit` (rule R356). -/
def headerNlit (llLen : List Nat) : Nat := max 257 (usedLength llLen)

/-- `dLen` with the forced entry of a block with no match (rule R357). -/
def forcedDLen (dLen : List Nat) : List Nat := if usedLength dLen = 0 then dLen.set 0 1 else dLen

/-- `ndist`, from the lengths after the forced entry (rule R357). -/
def headerNdist (dLen : List Nat) : Nat := usedLength dLen

/-- `seq` (rule R358). -/
def headerSeq (llLen dLen : List Nat) : List Nat :=
  llLen.take (headerNlit llLen) ++ dLen.take (headerNdist dLen)

/-- The maximal runs of equal values, left to right: value and length (rule R359). -/
def maximalRuns : List Nat → List (Nat × Nat)
  | [] => []
  | v :: vs =>
    match maximalRuns vs with
    | [] => [(v, 1)]
    | (u, r) :: rs => if u = v then (v, r + 1) :: rs else (v, 1) :: (u, r) :: rs

/-- A code-length symbol with its extra value and extra-bit count (rule R359). -/
abbrev Rle := Nat × Nat × Nat

/-- The rest of a non-zero run after its first length, at most `fuel` chunks (rule R360). -/
def rleCopies (v : Nat) : Nat → Nat → List Rle
  | 0, _ => []
  | fuel + 1, rem =>
    if 6 < rem then (16, 3, 2) :: rleCopies v fuel (rem - 6)
    else if 3 ≤ rem then [(16, rem - 3, 2)]
    else List.replicate rem (v, 0, 0)

/-- A zero run, at most `fuel` chunks (rule R361). -/
def rleZeros : Nat → Nat → List Rle
  | 0, _ => []
  | fuel + 1, r =>
    if 138 < r then (18, 127, 7) :: rleZeros fuel (r - 138)
    else if 11 ≤ r then [(18, r - 11, 7)]
    else if 3 ≤ r then [(17, r - 3, 3)]
    else List.replicate r (0, 0, 0)

/-- One run (rules R360, R361). -/
def rleRun (run : Nat × Nat) : List Rle :=
  if run.1 = 0 then rleZeros run.2 run.2 else (run.1, 0, 0) :: rleCopies run.1 run.2 (run.2 - 1)

/-- `rle` (rule R359). -/
def rleOf (seq : List Nat) : List Rle := (maximalRuns seq).flatMap rleRun

/-- `clFreq` (rule R362). -/
def clFreqOf (rle : List Rle) : List Nat := tabulate Config.clcSyms (fun s => (rle.map (·.1)).count s)

/-- The code-length-code lengths in `CLC_ORDER`. -/
def inClcOrder (clLen : List Nat) : List Nat := clcOrder.map (fun s => clLen.getD s 0)

/-- `nclen` (rule R363). -/
def headerNclen (clLen : List Nat) : Nat := max 4 (usedLength (inClcOrder clLen))

/-- The fields of a header as (value, width) groups, in stream order (rule R368). -/
def headerGroups (bfinal : Bool) (llLen dLen clLen : List Nat) (clRec : List Word) (rle : List Rle) :
    List (Nat × Nat) :=
  [(0b100 ||| bfinal.toNat, 3), (headerNlit llLen - 257, 5), (headerNdist dLen - 1, 5), (headerNclen clLen - 4, 4)]
  ++ ((inClcOrder clLen).take (headerNclen clLen)).map (fun l => (l, 3))
  ++ rle.flatMap (fun t =>
    [(recCode (clRec.getD t.1 0), recLen (clRec.getD t.1 0)), (t.2.1, t.2.2)])

/-- Groups written one after the other (rules R364, R368). -/
def Deflate.hputAll : List (Nat × Nat) → Deflate → Emit Deflate
  | [], d => .ok d
  | (v, n) :: r, d => do
    let d ← d.hput v n
    Deflate.hputAll r d

/-- `WriteDynamicHeader(bfinal)` on the lengths in the scratch (rules R355 to R368); `dLen` there may get its forced
entry. -/
def Deflate.writeDynamicHeader (bfinal : Bool) (p : Config.Params) (d : Deflate) : Emit Deflate :=
  let llLen := d.scratch.llLen
  let dLen := forcedDLen d.scratch.dLen
  let rle := rleOf (headerSeq llLen dLen)
  let clFreq := clFreqOf rle
  let clLen := limitedLengths p Config.maxClcLen Config.clcSyms clFreq
  let clRec := generateCode Config.maxClcLen clLen
  Deflate.hputAll (headerGroups bfinal llLen dLen clLen clRec rle)
    { d with scratch := { d.scratch.afterLimited p Config.maxClcLen clFreq with
        dLen := dLen
        rle := rle
        clFreq := clFreq
        clRec := clRec
        nextCode := nextCodeAfter Config.maxClcLen clLen d.scratch.nextCode } }

end Sys2Proof.Machine
end

