-- ==== Sys2Proof/Machine/DeflateCmd.lean ====
section
/-! DEFINITION. The deflate driver and the deflate commands DF_RESET, DF_WRITE, DF_FLUSH, DF_CLOSE
(48_deflate_driver.md). -/

namespace Sys2Proof.Machine

/-! ### The window (rules R379, R380) -/

/-- `Shift()` (rule R379). -/
def Deflate.shift (d : Deflate) : Except Fault Deflate :=
  if 2 * d.windowSize ≤ d.widx then do
    let k := d.widx - d.windowSize
    let m ← copyAscending .win d.winSize d.winBuf k 0 (d.wend - k)
    .ok { d with winBuf := m, widx := d.windowSize, wend := d.wend - k }
  else .ok d

/-- `fill = 2*W + MAX_MATCH` (rule R380). -/
def Deflate.fill (d : Deflate) : Nat := 2 * d.windowSize + Config.maxMatch

/-- `Accumulate(data)` (rule R380): the bytes taken; the trigger is `wend = fill` afterwards. -/
def Deflate.accumulate (data : List Byte) (d : Deflate) : Except Fault (Nat × Deflate) := do
  let d ← d.shift
  let n := min data.length (d.fill - d.wend)
  let m ← writeBytes .win d.winSize d.winBuf d.wend (data.take n)
  .ok (n, { d with winBuf := m, wend := d.wend + n })

/-! ### Block assembly (rules R383 to R387) -/

/-- The frequencies of `n` slots. -/
def slotFreqs (n : Nat) (c : Cells 32) : List Nat := tabulate n (fun i => (c.slot i).toNat)

/-- The end-of-block token appended and counted (rule R386). -/
def Deflate.appendEob (d : Deflate) : Except Fault Deflate := do
  let d ← d.storeToken eobToken
  .ok (d.countLit Config.eobSymbol)

/-- The code lengths of the block, with what led to them in the scratch (rules R186, R386). -/
def Deflate.generateLengths (p : Config.Params) (d : Deflate) : Deflate :=
  let llFreq := slotFreqs Config.maxLitlenSyms d.litCodes
  let dFreq := slotFreqs Config.maxDistSyms d.distCodes
  let llLen := limitedLengths p Config.maxCodeLen Config.maxLitlenSyms llFreq
  let dLen := limitedLengths p Config.maxCodeLen Config.maxDistSyms dFreq
  let scratch := (d.scratch.afterLimited p Config.maxCodeLen llFreq).afterLimited p Config.maxCodeLen dFreq
  { d with scratch := { scratch with llLen := llLen, dLen := dLen } }

/-- `EmitBlock` up to its token loop (rule R386). -/
def Deflate.beginBlock (bfinal : Bool) (p : Config.Params) (d : Deflate) : Emit Deflate := do
  let d ← orDfFault d.appendEob
  let d ← (d.generateLengths p).writeDynamicHeader bfinal p
  let recLL := generateCode Config.maxCodeLen d.scratch.llLen
  let recD := generateCode Config.maxCodeLen d.scratch.dLen
  let nextCode := nextCodeAfter Config.maxCodeLen d.scratch.dLen
    (nextCodeAfter Config.maxCodeLen d.scratch.llLen d.scratch.nextCode)
  .ok { d.buildCodes recLL recD with
    scratch := { d.scratch with nextCode := nextCode }
    tokNext := 0
    stage := .tokens }

/-- The end of `EmitBlock`: tokens and histogram reset (rule R386). -/
def Deflate.finishBlock (d : Deflate) : Deflate :=
  { d with tokCount := 0, tokNext := 0, litCodes := Cells.empty, distCodes := Cells.empty, stage := .idle }

/-- The next token, after the guard (rules R341, R346, R386). -/
def Deflate.fetchToken (d : Deflate) : Emit (Word × Deflate) := do
  let d ← d.guardOut
  let t ← orDfFault (readCell .tok Config.tokBufSize d.tokBuf d.tokNext)
  .ok (t, d)

/-- The meaning of a token inside the token loop. -/
def runToken (i : Instr) (s : State) : Host.Outcome State Fault Refusal :=
  match i with
  | .tlit b => execTlit b s
  | .teob => execTeob s
  | .tmatch litlen dist distExtra => execTmatch litlen dist distExtra s
  | _ => .fault .commandInsideCommand

/-- How the driver can end early: a stop of the machine, or the sink's error (rule R392). -/
inductive Stop where
  | fault (f : Fault)
  | refused (r : Refusal)
  | sink (e : Nat) (s : State)
deriving DecidableEq, Repr

/-- An operation of the driver. -/
abbrev Drive := Except Stop

/-- An operation of the deflate side, as one of the driver. -/
def State.drive (s : State) (r : Emit Deflate) : Drive State :=
  match r with
  | .ok d => .ok { s with df := d }
  | .error (.fault f) => .error (.fault f)
  | .error (.sink e d) => .error (.sink e { s with df := d })

/-- An instruction's outcome, as an operation of the driver. -/
def driveOutcome : Host.Outcome State Fault Refusal → Drive State
  | .next s => .ok s
  | .fault f => .error (.fault f)
  | .refused r => .error (.refused r)

/-- One token fetched and run (rules R341, R348). -/
def tokenStep (s : State) : Drive State :=
  match s.df.fetchToken with
  | .error (.fault f) => .error (.fault f)
  | .error (.sink e d) => .error (.sink e { s with df := d })
  | .ok (t, d) =>
    match decode ⟨.token, t.toNat, {}⟩ with
    | .ok i => driveOutcome (runToken i { s with df := d })
    | .error _ => .error (.fault (.reservedToken t))

/-- The token loop of `EmitBlock`, at most `n` tokens (rules R341, R386). -/
def tokenLoop : Nat → State → Drive State
  | 0, s => .ok s
  | n + 1, s =>
    if s.df.tokNext < s.df.tokCount then do
      let s ← tokenStep s
      tokenLoop n s
    else .ok s

/-- `EmitBlock(bfinal)` (rule R386). -/
def emitBlock (bfinal : Bool) (s : State) : Drive State := do
  let s ← s.drive (s.df.beginBlock bfinal s.params)
  let s ← tokenLoop s.df.tokCount s
  .ok { s with df := s.df.finishBlock }

/-- `EmptyFinal()` (rule R387). -/
def Deflate.emptyFinal (d : Deflate) : Emit Deflate := do
  let d ← d.hput 0b011 3
  d.hput 0 7

/-- `exhausted` of rule R385. -/
def Deflate.exhausted (flush : Bool) (d : Deflate) : Bool :=
  if flush ∨ d.level = -2 then decide (d.widx = d.wend) else decide (d.wend ≤ d.widx + 8)

/-- The block a round of `compressBlock` emits, if it emits one (rule R385): its `bfinal`. -/
def Deflate.blockDue (flush final : Bool) (d : Deflate) : Option Bool :=
  if d.tokCount = Config.tokenCap then some (final && d.exhausted flush)
  else if flush ∧ d.exhausted flush ∧ (0 < d.tokCount ∨ final) then some final
  else none

/-- The loop of `compressBlock`, at most `n` rounds (rule R385). -/
def compressLoop (flush final : Bool) : Nat → State → Drive State
  | 0, _ => .error (.fault .driverBoundExceeded)
  | n + 1, s => do
    let s ← s.drive (orDfFault (s.df.runMatcher flush))
    let exhausted := s.df.exhausted flush
    let s ← match s.df.blockDue flush final with
      | some bfinal => emitBlock bfinal s
      | none => .ok s
    if exhausted then .ok s else compressLoop flush final n s

/-- `compressBlock(flush, final)` (rule R385); each round but the last covers a byte (log 19). -/
def compressBlock (flush final : Bool) (s : State) : Drive State :=
  if final ∧ s.df.wend = 0 then s.drive s.df.emptyFinal
  else compressLoop flush final (s.df.wend - s.df.widx + 2) s

/-! ### The commands -/

/-- The return of a deflate command. -/
def Deflate.returns (d : Deflate) (st : Status) (accepted : Nat) : Deflate := { d with ret := ⟨st, accepted⟩ }

/-- The zero-default table with the slots of a list, in canonical form. -/
def Cells.ofSlots {w : Nat} (l : List (Nat × BitVec w)) : Cells w :=
  l.foldr (fun c m => m.setSlot c.1 c.2) Cells.empty

/-- The code-generation scratch after a sink error: free values (rule R392, log 11). -/
def freeScratch (n : Nat) : CodeGenScratch where
  sorted := Config.freePairs n 0
  lenCount := Config.freeNats n 0
  nextCode := Config.freeNats n 4
  llLen := Config.freeNats n 1
  dLen := Config.freeNats n 2
  rle := Config.freeRle n
  clFreq := Config.freeNats n 3
  clRec := Config.freeWords n

/-- The deflate side after a sink error (rule R392, 93 U7): `outErr` and the host's sink are what they are, every
other register and slot is a free value, the memories hold nothing that could be read (log 11). -/
def Deflate.afterSinkError (n : Nat) (e : Nat) (d : Deflate) : Deflate where
  level := (Config.freeNat n 0 : Int) - Config.freeNat n 13
  windowSize := Config.freeNat n 1
  hashMask := Config.freeNat n 2
  hashTable := Cells.ofSlots (Config.freeSlots 16 n 0)
  litCodes := Cells.ofSlots (Config.freeSlots 32 n 1)
  distCodes := Cells.ofSlots (Config.freeSlots 32 n 2)
  scratch := freeScratch n
  ebits := BitVec.ofNat 64 (Config.freeNat n 3)
  ebitLen := Config.freeNat n 4
  oidx := Config.freeNat n 5
  oend := Config.freeNat n 6
  outBuf := Cells.empty
  winBuf := Cells.empty
  widx := Config.freeNat n 7
  wend := Config.freeNat n 8
  processed := Config.freeNat n 9
  tokBuf := Cells.empty
  tokCount := Config.freeNat n 10
  tokNext := Config.freeNat n 11
  closed := Config.freeNat n 12 % 2 == 1
  outErr := some e
  stage := .idle
  ret := ⟨.sinkError e, d.ret.accepted⟩
  sink := d.sink

/-- The end of a deflate command (rules R381, R388, R389, R392). -/
def finishDf : Drive State → Host.Outcome State Fault Refusal
  | .ok s => .next s
  | .error (.fault f) => .fault f
  | .error (.refused r) => .refused r
  | .error (.sink e s) => .next { s with df := s.df.afterSinkError s.freeDraws e, freeDraws := s.freeDraws + 1 }

/-- `HASH_BITS(level)`, or `HASH_BITS_4K(level)` with the 4 KiB window (rules R9, R10, R329, R378). -/
def hashBits (p : Config.Params) (level : Int) (windowSize : Nat) : Nat :=
  if windowSize = Config.window4k then (if level = 1 then p.hashBits4k1 else p.hashBits4k2)
  else if level = 1 then 12 else 15

/-- `hashMask` (rule R40); at level -2 it is unused and 0 here (log 21). -/
def hashMaskOf (p : Config.Params) (level : Int) (windowSize : Nat) : Nat :=
  if level = -2 then 0 else mask (hashBits p level windowSize)

/-- The operands `DF_RESET` accepts (rule R377). -/
def resetAccepted (level : Int) (windowSize : Nat) : Bool :=
  (level == -2 || level == 1 || level == 2) && (windowSize == Config.windowFull || windowSize == Config.window4k)

/-- The registers rule R61 sets; memories and scratch are not written (log 6). The new stream has a new sink record
(log 10). -/
def Deflate.clear (p : Config.Params) (level : Int) (windowSize : Nat) (d : Deflate) : Deflate :=
  { d with
    level := level
    windowSize := windowSize
    hashMask := hashMaskOf p level windowSize
    hashTable := Cells.empty
    litCodes := Cells.empty
    distCodes := Cells.empty
    ebits := 0
    ebitLen := 0
    oidx := 0
    oend := p.outBufSize
    widx := 0
    wend := 0
    processed := 0
    tokCount := 0
    tokNext := 0
    closed := false
    outErr := none
    stage := .idle
    sink := { d.sink with bytes := [] } }

/-- DF_RESET (rule R377). -/
def execDfReset (level : Int) (windowSize : Nat) (s : State) : Host.Outcome State Fault Refusal :=
  if resetAccepted level windowSize then
    .next { s with df := (s.df.clear s.params level windowSize).returns .ok 0 }
  else .next { s with df := s.df.returns .refused 0 }

/-- The loop of `DF_WRITE`, at most `n` rounds, `pos` bytes accepted so far (rule R381). -/
def writeLoop : Nat → Nat → List Byte → State → Drive State
  | 0, _, data, s => if data = [] then .ok s else .error (.fault .driverBoundExceeded)
  | n + 1, pos, data, s =>
    if data = [] then .ok s
    else match s.df.accumulate data with
    | .error f => .error (.fault f)
    | .ok (k, d) => do
      let pos := pos + k
      let s := { s with df := d.returns .ok pos }
      let s ← if d.wend = d.fill then compressBlock false false s else .ok s
      writeLoop n pos (data.drop k) s

/-- What `DF_WRITE`, `DF_FLUSH` and `DF_CLOSE` answer without doing anything (rules R381, R388, R389, R393): a latched
sink error wins over `closed` (rule R415). -/
def Deflate.barred (d : Deflate) : Option Status :=
  match d.outErr with
  | some e => some (.sinkError e)
  | none => if d.closed then some .ok else none

/-- DF_WRITE (rule R381). -/
def execDfWrite (data : List Byte) (s : State) : Host.Outcome State Fault Refusal :=
  match s.df.barred with
  | some st => .next { s with df := s.df.returns st 0 }
  | none => finishDf (writeLoop (2 * data.length + 2) 0 data { s with df := s.df.returns .ok 0 })

/-- The sync marker of `DF_FLUSH` (rule R388). -/
def Deflate.syncMarker (d : Deflate) : Emit Deflate := do
  let d ← d.hput 0b000 3
  let d ← d.hflush
  let d ← d.hput 0xFFFF0000 32
  let d ← d.hflush
  d.drainOut

/-- DF_FLUSH (rule R388). -/
def execDfFlush (s : State) : Host.Outcome State Fault Refusal :=
  match s.df.barred with
  | some st => .next { s with df := s.df.returns st 0 }
  | none => finishDf (do
    let s ← compressBlock true false { s with df := s.df.returns .ok 0 }
    s.drive s.df.syncMarker)

/-- The last bits of a stream (rule R389). -/
def Deflate.sealStream (d : Deflate) : Emit Deflate := do
  let d ← d.hflush
  let d ← d.drainOut
  .ok { d with closed := true }

/-- DF_CLOSE (rule R389). -/
def execDfClose (s : State) : Host.Outcome State Fault Refusal :=
  match s.df.barred with
  | some st => .next { s with df := s.df.returns st 0 }
  | none => finishDf (do
    let s ← compressBlock true true { s with df := s.df.returns .ok 0 }
    s.drive s.df.sealStream)

end Sys2Proof.Machine
end

