-- ==== Sys2Proof/Machine/Place.lean ====
section
/-! DEFINITION. Where the machine fetches each kind of instruction, and a state in which its next step fetches a given
word (log 4): a block header and a symbol from the bit buffer, with the phase, the stage and the table that make
the parser read that format; a token from `TOK`; a command from the host's queue. -/

namespace Sys2Proof.Machine

/-- The bit buffer holding the bits, with zeros above, and an empty slice. -/
def Inflate.placeBits (d : Inflate) (v : Nat) : Inflate :=
  { d with
    bits := BitVec.ofNat 64 v
    bitsLen := 57
    inPos := 0
    inLen := 0
    inBuf := Cells.empty
    retry := false
    symCount := 0
    stage := .parse }

/-- The parser before a block header (rule R232). -/
def Inflate.placeHeader (d : Inflate) (h : Nat) : Inflate :=
  { d.placeBits h with phase := .newBlock }

/-- The parser inside a code-length sequence whose code has the one symbol, with the code `0` (rule R243). -/
def Inflate.placeClSymbol (d : Inflate) (s : Nat) : Inflate :=
  { d.placeBits 0 with
    phase := .newBlock
    stage := .clSeq
    scratch := { d.scratch with
      clcTable := buildClcTable (List.replicate s 0 ++ [1])
      nlit := 257
      ndist := 1
      lens := if d.scratch.lens.length < 258 then d.scratch.lens else [] } }

/-- The parser before a literal/length symbol of a static block, the symbol's static code and its extra value next
(rules R106, R124). -/
def Inflate.placeSymbol (d : Inflate) (s e : Nat) : Inflate :=
  let r := (generateCode Config.maxCodeLen staticLitLens).getD s 0
  { d.placeBits (recCode r ||| (e <<< recLen r)) with
    phase := .headerDecoded
    litLenTable := staticLitLenTable
    distTable := staticDistTable
    btype := 0b01
    outLimit := min (2 * Config.historySize) (d.writePos + Config.historySize) }

/-- The parser before a distance symbol of a static block, the symbol's 5-bit code next (rules R106, R266). -/
def Inflate.placeDistance (d : Inflate) (s : Nat) : Inflate :=
  { d.placeBits (bitrev s 5) with
    phase := .headerDecoded
    stage := .dist
    litLenTable := staticLitLenTable
    distTable := staticDistTable
    btype := 0b01
    outLimit := min (2 * Config.historySize) (d.writePos + Config.historySize) }

/-- The token loop with the token next and last (rule R341). -/
def Deflate.placeToken (d : Deflate) (t : Word) : Deflate :=
  { d with tokBuf := d.tokBuf.put d.tokNext t, tokCount := d.tokNext + 1, stage := .tokens }

/-- The state whose next step fetches the word. -/
def State.place (s : State) (c : Code) : State :=
  match c.fmt with
  | .blkhdr => { s with inf := s.inf.placeHeader c.bits }
  | .clsym => { s with inf := s.inf.placeClSymbol c.bits }
  | .llsym => { s with inf := s.inf.placeSymbol (c.bits % 512) (c.bits / 512) }
  | .dsym => { s with inf := s.inf.placeDistance c.bits }
  | .token => { s with
      inf := { s.inf with stage := .idle }
      df := s.df.placeToken (BitVec.ofNat 32 c.bits) }
  | .cmd => { s with
      inf := { s.inf with stage := .idle }
      df := { s.df with stage := .idle }
      commands := ⟨c.bits, c.args⟩ :: s.commands }

end Sys2Proof.Machine
end

