-- ==== Sys2Proof/Machine/Step.lean ====
section
/-! DEFINITION. One step of the machine (log 1, log 2). An inflate engine that stands inside `Decode()` takes its next
element; else a deflate engine that stands inside `EmitBlock` takes its next token; else the oldest command of the
host runs, whole (rule R19). With no command the machine is idle and holds its state (rule R419). -/

namespace Sys2Proof.Machine

/-- The instruction of a fetched word, run; a word that is no instruction stops the machine. -/
def runWord (c : Code) (s : State) : Host.Outcome State Fault Refusal :=
  match decode c with
  | .ok i => exec i s
  | .error e => .fault (.undecodable e)

/-- A step inside `Decode()` (rule R233). -/
def stepElement (s : State) : Host.Outcome State Fault Refusal :=
  match fetchElement s.params s.inf with
  | .error f => .fault f
  | .ok (.inside d) => .next { s with inf := d }
  | .ok (.word c d) => runWord c { s with inf := d }

/-- A step inside the token loop of `EmitBlock` (rules R341, R386). -/
def stepToken (s : State) : Host.Outcome State Fault Refusal :=
  if s.df.tokNext < s.df.tokCount then
    match s.df.fetchToken with
    | .error (.fault f) => .fault f
    | .error (.sink e d) => finishDf (.error (.sink e { s with df := d }))
    | .ok (t, d) => runWord ⟨.token, t.toNat, {}⟩ { s with df := d }
  else .next { s with df := s.df.finishBlock }

/-- A step between commands (rule R150): the oldest command runs. -/
def stepCommand (s : State) : Host.Outcome State Fault Refusal :=
  match s.commands with
  | [] => .next s
  | c :: cs => runWord ⟨.cmd, c.code, c.args⟩ { s with commands := cs }

/-- One step of the machine. -/
def step (s : State) : Host.Outcome State Fault Refusal :=
  if s.inf.stage ≠ .idle then stepElement s
  else if s.df.stage ≠ .idle then stepToken s
  else stepCommand s

/-- The state with the word, numbered as spec/opcode_table.json numbers it, where the next step fetches (log 4). -/
def State.withFetchWord (s : State) (nbits w : Nat) : State :=
  match tableFormat nbits w with
  | none => s
  | some fmt => s.place ⟨fmt, w % 2 ^ (8 * fmt.nbytes), {}⟩

end Sys2Proof.Machine
end

