-- ==== Sys2Proof/Machine/ReadLoop.lean ====
section
/-! DEFINITION. The host's side of the inflate interface: the loop `read(dst)` of rule R292, in terms of the commands,
over an upstream byte source. It is no part of `step`: it is what a host does with the commands (log 23). -/

namespace Sys2Proof.Machine

/-- What one `read(dst)` gives back: the bytes, the final status, the undiscarded upstream bytes, the machine. -/
structure ReadResult where
  data : List Byte
  status : Status
  upstream : List Byte
  state : State
deriving DecidableEq, Repr

/-- Decoded bytes wait to be delivered. -/
def Inflate.pending (d : Inflate) : Bool := decide (d.readPos < d.writePos)

/-- `read(dst)` with `len(dst) = n` (rules R292, R293), at most `fuel` turns. Every `Peek` asks for `SLICE_MAX` bytes,
which rule R300 says always suffices; upstream has ended when a slice holds all of it. -/
def readLoop (n : Nat) : Nat → List Byte → State → Host.Outcome ReadResult Fault Refusal
  | 0, _, _ => .fault .driverBoundExceeded
  | fuel + 1, up, s =>
    match execInRead n s with
    | .fault f => .fault f
    | .refused r => .refused r
    | .next s =>
      if s.inf.ret.data ≠ [] ∨ s.inf.ret.status ≠ .ok then
        .next ⟨s.inf.ret.data, s.inf.ret.status, up, s⟩
      else
        match execInStep (up.take s.params.sliceMax) s with
        | .fault f => .fault f
        | .refused r => .refused r
        | .next t =>
          let rest := up.drop t.inf.ret.consumed.toNat
          if t.inf.ret.status = .endInput ∧ up.length ≤ s.params.sliceMax ∧ t.inf.pending = false then
            .next ⟨[], .unexpectedEOF, rest, t⟩
          else readLoop n fuel rest t

/-- `read(dst)` repeated until a final status (rule R425): all delivered bytes and that status. -/
def readAll (n : Nat) : Nat → List Byte → State → List Byte → Host.Outcome ReadResult Fault Refusal
  | 0, _, _, _ => .fault .driverBoundExceeded
  | fuel + 1, up, s, acc =>
    match readLoop n (fuel + 1) up s with
    | .fault f => .fault f
    | .refused r => .refused r
    | .next r =>
      if r.status = .ok then readAll n fuel r.upstream r.state (acc ++ r.data)
      else .next { r with data := acc ++ r.data }

end Sys2Proof.Machine
end

