-- ==== Sys2Proof/Safety.lean ====
section
/-! DEFINITION. What counts as a safe run, in the terms the statements use: the canonical form of every memory, the
stream as the bit reader sees it, the states the inflate and the deflate side can be in between two steps, and what a
token sequence stands for. -/

namespace Sys2Proof.Machine

/-! ### Canonical memories -/

/-- Every memory and every table of the inflate side is in canonical form. -/
def Inflate.memoriesWf (d : Inflate) : Bool := d.inBuf.wf && d.histBuf.wf && d.hdrBuf.wf

/-- Every memory and every table of the deflate side is in canonical form. -/
def Deflate.memoriesWf (d : Deflate) : Bool :=
  d.outBuf.wf && d.winBuf.wf && d.tokBuf.wf && d.hashTable.slotsWf && d.litCodes.slotsWf && d.distCodes.slotsWf

/-- Every memory of the machine is in canonical form. -/
def State.memoriesWf (s : State) : Bool := s.inf.memoriesWf && s.df.memoriesWf

/-- Every cell from `a` up to, not including, `b` has been written. -/
def Cells.readable {w : Nat} (m : Cells w) (a b : Nat) : Prop := ∀ k, a ≤ k → k < b → (m.get? k).isSome = true

/-- The cells `a, .., a+n-1` as a list, a cell nothing has written counted as 0. -/
def Cells.window {w : Nat} (m : Cells w) (a n : Nat) : List (BitVec w) := tabulateFrom (fun k => (m.get? k).getD 0) n a

/-! ### The stream the bit reader reads -/

/-- Rules R21 and R23 for a bit buffer and its count: at most 64 valid bits, the bits above them 0. -/
def bufferOk (bits : Wide) (len : Int) : Prop := 0 ≤ len ∧ len ≤ 64 ∧ bits.toNat < 2 ^ len.toNat

/-- The memory `refill` reads: `HDR` in retry mode, else `IN` (rule R252). -/
def Inflate.srcMem (d : Inflate) : Memory := if d.retry then d.hdrBuf else d.inBuf

/-- The bit buffer keeps its invariant and what `refill` would read can be read (rules R22, R23, R252). -/
def Inflate.readerOk (d : Inflate) : Prop :=
  bufferOk d.bits d.bitsLen ∧ d.srcPos ≤ d.srcLen ∧ d.srcMem.readable d.srcPos d.srcLen
    ∧ (d.retry = true → d.hdrLen ≤ Config.hdrBufSize)

/-- How many stream bits are at hand, in `bits` and behind it. -/
def Inflate.avail (d : Inflate) : Nat := d.bitsLen.toNat + 8 * (d.srcLen - d.srcPos)

/-- The stream bits at hand as one number, the next bit lowest (rule R14). -/
def Inflate.streamNum (d : Inflate) : Nat :=
  d.bits.toNat + 2 ^ d.bitsLen.toNat * leValue (d.srcMem.window d.srcPos (d.srcLen - d.srcPos))

/-- `d'` is `d` but for the bit buffer and the cursors of the bit reader. -/
def Inflate.sameButReader (d d' : Inflate) : Prop :=
  d' = { d with bits := d'.bits, bitsLen := d'.bitsLen, inPos := d'.inPos, hdrPos := d'.hdrPos, totalIn := d'.totalIn }

/-- `d'` is `d` after the next `k` stream bits have been read: the stream at hand is what follows them, the stream
position is `k` further (rule R29), nothing but the bit reader has changed. -/
structure Inflate.ReadBits (k : Nat) (d d' : Inflate) : Prop where
  ok : d'.readerOk
  enough : d.avail = d'.avail + k
  rest : d'.streamNum = d.streamNum / 2 ^ k
  position : 8 * (d'.totalIn : Int) - d'.bitsLen = 8 * (d.totalIn : Int) - d.bitsLen + k
  same : d.sameButReader d'

/-- Both overflow records are empty, as they are between any two steps (rules R290, R425). -/
def Inflate.drained (d : Inflate) : Prop := d.writeOverflowLen = 0 ∧ d.copyOverflowLength = 0

/-! ### The states of the inflate side -/

/-- What every state of the inflate side keeps (rules R21 to R27, R48): the bit buffer, the cursors of `HIST` and what
has been written below them, empty overflow records. -/
structure Inflate.AlwaysOk (d : Inflate) : Prop where
  buffer : bufferOk d.bits d.bitsLen
  cursors : d.readPos ≤ d.writePos ∧ d.writePos ≤ Config.histBufSize
  history : d.histBuf.readable 0 d.writePos
  drained : d.drained
  header : d.phase = .decodingHeader ∨ d.retry = true →
    d.hdrLen ≤ Config.hdrBufSize ∧ d.hdrBuf.readable 0 d.hdrLen
  held : d.symCount ≤ 2

/-- What holds besides while the engine stands inside `Decode()`: the slice, the output limit (rule R62). -/
structure Inflate.DecodingOk (d : Inflate) : Prop where
  limit : d.outLimit ≤ 2 * Config.historySize ∧ d.writePos ≤ d.outLimit
  slice : d.inPos ≤ d.inLen ∧ d.inBuf.readable 0 d.inLen
  retryPos : d.retry = true → d.hdrPos ≤ d.hdrLen

/-- The snapshot is that of an element begun at the present output position (rules R165, R231, R261). -/
def Inflate.snapshotOk (d : Inflate) : Prop :=
  bufferOk d.snapBits d.snapBitsLen ∧ d.snapWritePos = d.writePos ∧ d.snapInPos ≤ d.srcPos

/-- How many stream bits lay ahead at the snapshot. -/
def Inflate.snapAvail (d : Inflate) : Nat := d.snapBitsLen.toNat + 8 * (d.srcLen - d.snapInPos)

/-- The code-length-code table gives only code-length-code symbols, of at most 7 bits (rules R105, R210). -/
def SmallTable.clcOk (t : SmallTable) : Prop := ∀ x, (t.find x).sym9 < Config.clcSyms ∧ (t.find x).len ≤ Config.maxClcLen

/-- A large table whose lookups look at the next 57 bits only, and give no more (what one refill is sure to have, rule
R160): so is every table the engine builds (rules R218, R222). -/
def LargeTable.narrow (t : LargeTable) : Prop := ∀ x, t.find x = t.find (x % 2 ^ 57) ∧ (t.find x).bitCount ≤ 57

/-- The same of a small table, for a number of bits (rules R211, R243, R266). -/
def SmallTable.narrow (n : Nat) (t : SmallTable) : Prop := ∀ x, t.find x = t.find (x % 2 ^ n) ∧ (t.find x).len ≤ n

/-- What the fetch of a symbol relies on: the code lengths read so far have at most 15 bits (rule R245), and each table
in use looks at no more bits than the refill before its lookup brings (rules R243, R261, R266). -/
structure Inflate.TablesOk (d : Inflate) : Prop where
  lens : ∀ l ∈ d.scratch.lens, l ≤ Config.maxCodeLen
  clc : d.stage = .clSeq → d.scratch.clcTable.narrow Config.refillHdr
  litLen : d.litLenTable.narrow
  dist : d.distTable.narrow Config.refillMain

/-- The state is one of those between two steps: what each stage of `Decode()` relies on. The last line of the
code-length stage is rule R249: how many bits the header can have used so far; the last field is rule R236's alignment. -/
structure Inflate.Sound (d : Inflate) : Prop where
  always : d.AlwaysOk
  idle : d.stage = .idle → d.retry = false ∧ d.symCount = 0
  decoding : d.stage ≠ .idle → d.DecodingOk
  parse : d.stage = .parse → d.retry = false ∧ (d.phase ≠ .headerDecoded → d.symCount = 0)
  clSeq : d.stage = .clSeq → d.snapshotOk ∧ d.scratch.clcTable.clcOk ∧ d.symCount = 0
    ∧ (d.phase = .newBlock ∨ d.phase = .decodingHeader)
    ∧ d.scratch.nlit ≤ Config.maxLitlenSyms ∧ d.scratch.ndist ≤ Config.maxDistSyms
    ∧ d.scratch.lens.length ≤ d.scratch.nlit + d.scratch.ndist
    ∧ d.snapAvail ≤ d.avail + 74 + 7 * d.scratch.lens.length
  dist : d.stage = .dist → d.snapshotOk ∧ d.retry = false ∧ d.phase = .headerDecoded ∧ d.symCount = 0
    ∧ d.repeatLength ≤ Config.maxMatch
  aligned : d.phase = .litBlock → d.bitsLen % 8 = 0

/-! ### How `Decode()` ends -/

/-- The state in which a terminal error leaves the engine when nothing is owed to the output (rule R412): the error
latched with its offset, `IN_STEP` returned. -/
def Inflate.failed (k : ErrKind) (d : Inflate) : Inflate :=
  { d with
    inErr := some (k, d.bitPos / 8)
    inBuf := Cells.empty
    retry := false
    stage := .idle
    ret := ⟨.corruptInput (d.bitPos / 8), (d.inPos : Int) - d.bitsLen / 8, []⟩ }

/-- The state in which a status that is no error leaves the engine when nothing is owed to the output (rule R288). -/
def Inflate.suspended (st : Status) (d : Inflate) : Inflate :=
  { d with
    inBuf := Cells.empty
    retry := false
    stage := .idle
    ret := ⟨st, (d.inPos : Int) - d.bitsLen / 8, []⟩ }

/-- What of the slice would have to be kept fits in `HDR` and can be read (rule R249); in retry mode it is kept already. -/
def Inflate.parkable (d : Inflate) : Prop :=
  d.retry = false → d.inLen - d.snapInPos ≤ Config.hdrBufSize ∧ d.inBuf.readable d.snapInPos d.inLen

/-- `t` is the state in which a header cut short leaves the engine `d` (rules R253, R409): back at the snapshot, suspended
with `EndInput` in `DECODING_HEADER`, `bfinal` and `btype` as the abandoned parse left them. The bytes of the slice from
the snapshot on are kept in `HDR`; in retry mode they are there already. -/
structure Inflate.HeaderCut (bfinal : Bool) (btype : BitVec 2) (d t : Inflate) : Prop where
  fromSlice : d.retry = false → ∃ m : Memory,
    (∀ a, a < d.inLen - d.snapInPos → m.get? a = d.inBuf.get? (d.snapInPos + a))
    ∧ (∀ a, d.inLen - d.snapInPos ≤ a → m.get? a = d.hdrBuf.get? a)
    ∧ t = Inflate.suspended .endInput { d.restore with
        bfinal := bfinal, btype := btype, inPos := d.inLen, hdrBuf := m, hdrLen := d.inLen - d.snapInPos,
        phase := .decodingHeader }
  fromHdr : d.retry = true →
    t = Inflate.suspended .endInput { d.restore with bfinal := bfinal, btype := btype, phase := .decodingHeader }

/-- The state in which a slice has been appended to `HDR` and the header is parsed again from there (rule R252). -/
structure Inflate.Resumed (d t : Inflate) : Prop where
  regs : t = { d with
    hdrBuf := t.hdrBuf, hdrLen := d.hdrLen + min (d.inLen - d.inPos) (Config.hdrBufSize - d.hdrLen),
    inPos := d.inPos + min (d.inLen - d.inPos) (Config.hdrBufSize - d.hdrLen), hdrPos := 0, retry := true }
  kept : ∀ a, a < d.hdrLen → t.hdrBuf.get? a = d.hdrBuf.get? a
  appended : ∀ j, j < min (d.inLen - d.inPos) (Config.hdrBufSize - d.hdrLen) →
    t.hdrBuf.get? (d.hdrLen + j) = d.inBuf.get? (d.inPos + j)
  above : ∀ a, t.hdrLen ≤ a → t.hdrBuf.get? a = d.hdrBuf.get? a

/-- `Decode()` as steps of the machine (rule R233): from a state inside it, one step after the other, to the state in which
the engine has left it. -/
inductive Decodes : State → State → Prop
  | left (s : State) : s.inf.stage = .idle → Decodes s s
  | step (s t u : State) : s.inf.stage ≠ .idle → Sys2Proof.Machine.step s = .next t → Decodes t u → Decodes s u

/-- The inflate side where `IN_STEP` begins `Decode()` on a slice (rules R287, R288): `f` is the engine after the fold, if
one was due; `skip` bytes of the slice are in the bit buffer already. -/
def Inflate.entered (f : Inflate) (slice : List Byte) (skip : Nat) : Inflate :=
  { f with
    outLimit := min (2 * Config.historySize) (f.writePos + Config.historySize)
    inBuf := Cells.ofList slice
    inLen := slice.length
    inPos := skip
    stage := .parse }

/-- The transitions of `phase` that rule R230 lists, and staying in a phase. -/
def Phase.canBecome : Phase → Phase → Bool
  | .newBlock, .litBlock | .newBlock, .headerDecoded | .newBlock, .decodingHeader => true
  | .decodingHeader, .litBlock | .decodingHeader, .headerDecoded => true
  | .litBlock, .newBlock | .litBlock, .streamEnd => true
  | .headerDecoded, .newBlock | .headerDecoded, .streamEnd => true
  | .streamEnd, .finish => true
  | p, q => p == q

/-! ### The states of the deflate side -/

/-- The accumulator at rest and the bytes below the output cursor (rules R49, R397). -/
structure Deflate.AccOk (d : Deflate) : Prop where
  len : d.ebitLen ≤ 64
  bits : d.ebits.toNat < 2 ^ d.ebitLen
  cursor : d.oidx ≤ d.oend
  written : d.outBuf.readable 0 d.oidx

/-- All output bits since `DF_RESET` as one number, the first bit lowest: the sink's bytes, the bytes in `OUT`, the
accumulator (rule R175). -/
def Deflate.outNum (d : Deflate) : Nat :=
  leValue (d.sink.bytes ++ d.outBuf.window 0 d.oidx)
    + 2 ^ (8 * (d.sink.bytes.length + d.oidx)) * d.ebits.toNat

/-- How many output bits there are since `DF_RESET`. -/
def Deflate.outBits (d : Deflate) : Nat := 8 * (d.sink.bytes.length + d.oidx) + d.ebitLen

/-- Bit groups (value, width) as one number, the first group lowest (rule R175). -/
def groupsNum : List (Nat × Nat) → Nat
  | [] => 0
  | (v, n) :: r => v + 2 ^ n * groupsNum r

/-- How many bits the groups have. -/
def groupsBits (gs : List (Nat × Nat)) : Nat := (gs.map (·.2)).sum

/-- The sink reports no error at any drain to come. -/
def Sink.willing (k : Sink) : Prop := ∀ a ∈ k.answers, a = none

/-- A token the encoder takes (rules R129, R130). -/
def isToken (t : Word) : Prop := ∃ i, decode ⟨.token, t.toNat, {}⟩ = .ok i

/-- The states of the deflate side between two commands (rules R51, R53, R375, R380, R397). -/
structure Deflate.Sound (d : Deflate) : Prop where
  stage : d.stage = .idle
  acc : d.AccOk
  room : 16 ≤ d.oend
  window : d.windowSize = Config.windowFull ∨ d.windowSize = Config.window4k
  cursors : d.widx ≤ d.wend ∧ d.wend ≤ d.fill
  shiftable : d.wend = d.fill → 2 * d.windowSize ≤ d.widx
  filled : d.winBuf.readable 0 d.wend
  tokens : d.tokCount ≤ Config.tokenCap ∧ d.tokBuf.readable 0 d.tokCount
  fresh : d.wend = 0 → d.tokCount = 0
  kinds : ∀ k, k < d.tokCount → ∀ t, d.tokBuf.get? k = some t → isToken t

/-! ### What tokens and code-length symbols stand for -/

/-- `n` bytes copied from `dist` back, one after the other (rule R92), behind a list of bytes. -/
def copyBack (dist : Nat) : Nat → List Byte → List Byte
  | 0, out => out
  | n + 1, out => copyBack dist n (out ++ [out.getD (out.length - dist) 0])

/-- The bytes after one token, behind those that were there (rules R129, R270, R342). -/
def expandToken (out : List Byte) (t : Word) : List Byte :=
  if tokenDist t = Config.invalidDist then out ++ [BitVec.ofNat 8 (tokenLitlen t)]
  else copyBack (distStart (tokenDist t) + tokenExtra t) (tokenLitlen t - Config.lenOffset) out

/-- The bytes after a list of tokens. -/
def expandTokens (out : List Byte) (ts : List Word) : List Byte := ts.foldl expandToken out

/-- The code lengths after one code-length symbol, behind those that were there (rule R245). -/
def expandRleSymbol (lens : List Nat) (t : Rle) : List Nat :=
  if t.1 < 16 then lens ++ [t.1]
  else if t.1 = 16 then lens ++ List.replicate (3 + t.2.1) (lens.getLastD 0)
  else if t.1 = 17 then lens ++ List.replicate (3 + t.2.1) 0
  else lens ++ List.replicate (11 + t.2.1) 0

/-- The code lengths a list of code-length symbols stands for. -/
def expandRle (ts : List Rle) : List Nat := ts.foldl expandRleSymbol []

/-! ### Codes -/

/-- Neither of two codes is the beginning of the other; a code of length 0 is no code (rules R183, R201). -/
def TableCode.apart (a b : TableCode) : Prop :=
  0 < a.len → 0 < b.len → a.code % 2 ^ min a.len b.len ≠ b.code % 2 ^ min a.len b.len

/-- The codes that start a bit string one after the other (rule R201), each found in the bits behind the one before. -/
def readsFrom (codes : List TableCode) (n : Nat) : Nat → List TableCode → Prop
  | _, [] => True
  | x, c :: cs => startingCode codes n x = some c ∧ readsFrom codes n (x >>> c.len) cs

/-- Literals packed as a large-table entry packs them, the first lowest (rule R112). -/
def packLits : List TableCode → Nat
  | [] => 0
  | c :: cs => c.value + 256 * packLits cs

/-- A list of codes that a table can be built from: prefix-free, each code no longer than its length says, at most
`maxLen` bits, a value of at most `valueBits` bits (rules R183, R200). -/
def tableCodesOk (maxLen valueBits : Nat) (codes : List TableCode) : Prop :=
  codes.Pairwise TableCode.apart ∧ ∀ c ∈ codes, c.len ≤ maxLen ∧ c.code < 2 ^ c.len ∧ c.value < 2 ^ valueBits

/-! ### Rows of the operand tables -/

/-- What a length symbol does (rule R266): the match length is held, the distance is read next. -/
def State.withLength (s : State) (len : Nat) : State :=
  { s with inf := { s.inf with repeatLength := len, stage := .dist } }

/-- The distance symbols with their extra-bit counts and first distances (rule R123's table). -/
def distanceRows : List (Instr × Nat × Nat) :=
  [(.dist0, 0, 1), (.dist1, 0, 2), (.dist2, 0, 3), (.dist3, 0, 4), (.dist4, 1, 5), (.dist5, 1, 7), (.dist6, 2, 9),
    (.dist7, 2, 13), (.dist8, 3, 17), (.dist9, 3, 25)]
  ++ [(.dist10, 4, 33), (.dist11, 4, 49), (.dist12, 5, 65), (.dist13, 5, 97), (.dist14, 6, 129), (.dist15, 6, 193),
    (.dist16, 7, 257), (.dist17, 7, 385), (.dist18, 8, 513), (.dist19, 8, 769)]
  ++ [(.dist20, 9, 1025), (.dist21, 9, 1537), (.dist22, 10, 2049), (.dist23, 10, 3073), (.dist24, 11, 4097),
    (.dist25, 11, 6145), (.dist26, 12, 8193), (.dist27, 12, 12289), (.dist28, 13, 16385), (.dist29, 13, 24577)]

/-! ### Commands and finished runs -/

/-- The instruction is a command to the inflate side or a stream element. -/
def onInflateSide : Instr → Bool
  | .tlit _ | .teob | .tmatch _ _ _ | .dfReset _ _ | .dfWrite _ | .dfFlush | .dfClose => false
  | _ => true

/-- What a host has seen of the inflate side: a command with the status it returned, or a return of its own loop
`read(dst)` (rules R150, R292). -/
inductive Reply where
  | command (i : Instr) (st : Status)
  | loop (st : Status)
deriving DecidableEq, Repr

/-- The statuses that end a run (rule R425). -/
def Status.endsRun : Status → Bool
  | .eof | .unexpectedEOF | .corruptInput _ => true
  | _ => false

/-- The final status after an IN_STEP that returned `st`: `UnexpectedEOF` is not latched, so a step that was not refused
takes the run up again (rule R293); `EOF` and `CorruptInput` stand until IN_RESET (rules R284, R412). -/
def resumedBy (st : Status) : Option Status → Option Status
  | some .unexpectedEOF => if st = .refused then some .unexpectedEOF else none
  | f => f

/-- The final status of the run, if it has been returned and still stands: by an IN_READ since the last IN_RESET, or by
the host's loop (rules R293, R425). The newest reply comes first. -/
def finalStatus : List Reply → Option Status
  | [] => none
  | .loop st :: _ => if st.endsRun then some st else none
  | .command i st :: r =>
    match i with
    | .inReset => none
    | .inStep _ => resumedBy st (finalStatus r)
    | .inRead _ => if st.endsRun then some st else finalStatus r
    | _ => finalStatus r

/-- Work in flight on the inflate side (rules R59, R425): bytes not delivered, a header in pieces, stream bits not
interpreted, a stored block not copied to its end, an overflow record not drained. -/
def Inflate.inFlight (d : Inflate) : Prop :=
  d.readPos < d.writePos ∨ 0 < d.hdrLen ∨ d.phase = .decodingHeader
    ∨ (0 < d.bitsLen ∧ d.phase ≠ .streamEnd ∧ d.phase ≠ .finish) ∨ 0 < d.litBlockLength ∨ ¬ d.drained

/-- A run of the inflate side is finished (rules R59, R425): its final status has been returned, and nothing is in
flight. Both sentences of rule R425 hold of every final status, an error's too (log 30). -/
def Inflate.finished (replies : List Reply) (d : Inflate) : Prop := (finalStatus replies).isSome ∧ ¬ d.inFlight

/-- A run of the deflate side is finished (rule R425): the stream is closed, or its sink has failed. -/
def Deflate.finished (d : Deflate) : Prop := d.closed = true ∨ d.outErr ≠ none

end Sys2Proof.Machine
end

