-- ==== Sys2Proof/Certificates/Slice0/Obligations.lean ====
section
/-! DEFINITION. The statements for the provers. Each docstring names the rules it formalises. A clause that rests on a
choice of the model says so and names its log entry. -/

open Sys2Proof Sys2Proof.Machine

/-! ### Encodings -/

/-- Rules R101, R105, R120, R121, R128, R129, R150: every well-formed instruction, written with the encoder, is read back
by the decoder, and the bytes behind it are left alone (the word layout of LLSYM and CMD is log 3). -/
def Obligations.DecodeInvertsEncode : Prop :=
  ∀ (i : Instr) (rest : List Byte), i.wf = true →
    decodeBytes (encode i).fmt (encode i).args (encodeBytes i ++ rest) = .ok (i, rest)

/-- The other direction: a word that decodes is the word of the instruction it decodes to, so each word has one
meaning (the word layout is log 3). -/
def Obligations.EncodeInvertsDecode : Prop :=
  ∀ (c : Code) (i : Instr), decode c = .ok i →
    i.wf = true ∧ (encode i).fmt = c.fmt ∧ (encode i).bits = c.bits

/-- One word per format, written from rules R101, R105, R120, R121, R129, R150. -/
def Obligations.DecodeSamples : Prop :=
  decode ⟨.blkhdr, 0b101, {}⟩ = .ok (.blkDynamic true)
  ∧ decode ⟨.clsym, 17, {}⟩ = .ok .clZeros3To10
  ∧ decode ⟨.llsym, 256, {}⟩ = .ok .eob
  ∧ decode ⟨.llsym, 269 + 512 * 2, {}⟩ = .ok (.len269 2)
  ∧ decode ⟨.dsym, 29, {}⟩ = .ok .dist29
  ∧ decode ⟨.token, 0x01F83E00, {}⟩ = .ok (.tmatch 512 15 63)
  ∧ decode ⟨.cmd, 6, {}⟩ = .ok .dfFlush

/-- Rules R129, R130: the 32-bit values that are tokens are the literals, the end of block and the matches with a length
3..258 and a distance 1..32768 (by `DistSym`, rule R122); every other value is rejected as reserved. -/
def Obligations.TokenKinds : Prop :=
  (∀ b : Byte, decode ⟨.token, (litToken b).toNat, {}⟩ = .ok (.tlit b))
  ∧ decode ⟨.token, eobToken.toNat, {}⟩ = .ok .teob
  ∧ (∀ len dist : Nat, 3 ≤ len → len ≤ 258 → 1 ≤ dist → dist ≤ 32768 →
      decode ⟨.token, (matchToken len dist).toNat, {}⟩
        = .ok (.tmatch (BitVec.ofNat 10 (len + 254)) (BitVec.ofNat 9 (distSym dist).sym)
            (BitVec.ofNat 13 (distSym dist).extra)))
  ∧ ∀ t : Word, decode ⟨.token, t.toNat, {}⟩ = .error .reservedToken ↔
      (∀ b, t ≠ litToken b) ∧ t ≠ eobToken
        ∧ ∀ len dist : Nat, 3 ≤ len → len ≤ 258 → 1 ≤ dist → dist ≤ 32768 → t ≠ matchToken len dist

/-- Rules R122, R123, R320: a distance is the start of its symbol plus its extra value, which its extra bits hold; a match
length is the base of its symbol plus an extra value that its extra bits hold. -/
def Obligations.OperandMapsInvert : Prop :=
  (∀ dist : Nat, 1 ≤ dist → dist ≤ 32768 →
    distStart (distSym dist).sym + (distSym dist).extra = dist ∧ (distSym dist).sym ≤ 29
      ∧ (distSym dist).nExtra = distExtraBits (distSym dist).sym
      ∧ (distSym dist).extra < 2 ^ distExtraBits (distSym dist).sym)
  ∧ ∀ len : Nat, 3 ≤ len → len ≤ 258 →
    257 ≤ lenSym len ∧ lenSym len ≤ 285 ∧ lenBase (lenSym len) ≤ len
      ∧ len < lenBase (lenSym len) + 2 ^ lenExtra (lenSym len)

/-! ### The step -/

/-- A step runs the instruction that is fetched: the next element inside `Decode()`, else the next token inside
`EmitBlock`, else the oldest command; with no command the machine holds its state (rules R233, R341, R150, R419; the order is
log 1, the small steps log 2). -/
def Obligations.StepRunsInstruction : Prop :=
  (∀ (s : State) (c : Code) (d : Inflate) (i : Instr), s.inf.stage ≠ .idle →
    fetchElement s.params s.inf = .ok (.word c d) → decode c = .ok i → step s = exec i { s with inf := d })
  ∧ (∀ (s : State) (t : Word) (d : Deflate) (i : Instr), s.inf.stage = .idle → s.df.stage = .tokens →
    s.df.tokNext < s.df.tokCount → s.df.fetchToken = .ok (t, d) → decode ⟨.token, t.toNat, {}⟩ = .ok i →
    step s = exec i { s with df := d })
  ∧ (∀ (s : State) (c : Command) (cs : List Command) (i : Instr), s.inf.stage = .idle → s.df.stage = .idle →
    s.commands = c :: cs → decode ⟨.cmd, c.code, c.args⟩ = .ok i → step s = exec i { s with commands := cs })
  ∧ ∀ s : State, s.inf.stage = .idle → s.df.stage = .idle → s.commands = [] → step s = .next s

/-- Rules R231, R232, R234, R252, R253: before a block the next three stream bits are taken as the header's word, after a
snapshot; in `DECODING_HEADER` the slice is first appended to `HDR` and they are read from the bit buffer and then `HDR`;
with fewer than three bits at hand the header is cut short. -/
def Obligations.HeaderFetch : Prop :=
  ∀ (p : Config.Params) (d : Inflate), d.stage = .parse → d.retry = false → d.readerOk →
    (d.phase = .newBlock → 3 ≤ d.avail →
      ∃ d', fetchElement p d = .ok (.word ⟨.blkhdr, d.streamNum % 8, {}⟩ d') ∧ Inflate.ReadBits 3 d.snapshot d')
    ∧ (d.phase = .newBlock → d.avail < 3 → d.drained → d.inErr = none →
      ∃ t, fetchElement p d = .ok (.inside t) ∧ Inflate.HeaderCut d.bfinal d.btype d.snapshot t)
    ∧ (d.phase = .decodingHeader → d.hdrLen ≤ Config.hdrBufSize → d.hdrBuf.readable 0 d.hdrLen →
      ∃ r, Inflate.Resumed d r ∧ r.readerOk
        ∧ (3 ≤ r.avail → ∃ d', fetchElement p d = .ok (.word ⟨.blkhdr, r.streamNum % 8, {}⟩ d')
            ∧ Inflate.ReadBits 3 r.snapshot d')
        ∧ (r.avail < 3 → d.drained → d.inErr = none →
            ∃ t, fetchElement p d = .ok (.inside t) ∧ Inflate.HeaderCut d.bfinal d.btype r.snapshot t))

/-- Rules R260 to R262, R264, R271 to R273: inside a Huffman block a literal held from the last entry is the next element
(log 16); else a full output is reported before anything is consumed; a bit string that no entry fits fails with
`InvalidSymbol`; too few bits at hand suspend with `EndInput` where the lookup began; else the table entry that the next
stream bits select is taken, its bits are consumed, and the element is its first literal (the others are held), the end of
block, the match length it stands for, or a reserved symbol. The premise on the table is kept by every step
(StepKeepsTables). -/
def Obligations.SymbolFetch : Prop :=
  ∀ (p : Config.Params) (d : Inflate), d.stage = .parse → d.phase = .headerDecoded →
    (0 < d.symCount → fetchElement p d = .ok (.word ⟨.llsym, d.nextLits.toNat % 256, {}⟩
      { d with nextLits := BitVec.ofNat 32 (d.nextLits.toNat / 256), symCount := d.symCount - 1 }))
    ∧ ∀ hit : LargeHit, d.symCount = 0 → d.retry = false → d.readerOk → d.drained → d.inErr = none →
    d.litLenTable.narrow → hit = d.litLenTable.find d.streamNum →
    (d.outLimit ≤ d.writePos → fetchElement p d = .ok (.inside (d.suspended .outputOverflow)))
    ∧ (d.writePos < d.outLimit → hit.bitCount = 0 →
      ∃ d0, Inflate.ReadBits 0 d d0 ∧ fetchElement p d = .ok (.inside (d0.snapshot.failed .invalidSymbol)))
    ∧ (d.writePos < d.outLimit → d.avail < hit.bitCount →
      ∃ d0, Inflate.ReadBits 0 d d0 ∧ fetchElement p d = .ok (.inside (d0.snapshot.suspended .endInput)))
    ∧ (d.writePos < d.outLimit → 0 < hit.bitCount → hit.bitCount ≤ d.avail →
      ∃ d0 d', Inflate.ReadBits 0 d d0 ∧ Inflate.ReadBits hit.bitCount d0.snapshot d'
        ∧ (1 < hit.symCount ∨ hit.nextLits < 256 →
            fetchElement p d = .ok (.word ⟨.llsym, hit.nextLits % 256, {}⟩
              { d' with nextLits := BitVec.ofNat 32 (hit.nextLits / 256), symCount := hit.symCount - 1 }))
        ∧ (hit.symCount ≤ 1 → hit.nextLits = 256 → fetchElement p d = .ok (.word ⟨.llsym, 256, {}⟩ d'))
        ∧ (hit.symCount ≤ 1 → 257 ≤ hit.nextLits → hit.nextLits ≤ 512 →
            ∃ s e, expandedSym s e = hit.nextLits ∧ 257 ≤ s ∧ s ≤ 285 ∧ e < 2 ^ lenExtra s
              ∧ fetchElement p d = .ok (.word ⟨.llsym, s + 512 * e, {}⟩ d'))
        ∧ (hit.symCount ≤ 1 → hit.nextLits = 513 → fetchElement p d = .ok (.word ⟨.llsym, 286, {}⟩ d'))
        ∧ (hit.symCount ≤ 1 → hit.nextLits = 514 → fetchElement p d = .ok (.word ⟨.llsym, 287, {}⟩ d')))

/-- Rules R243, R244, R253, R266: the code-length symbol, or the distance symbol, whose code the next stream bits hold is the
element fetched, and its code has been read; a bit string that no code starts fails, a code-length symbol with
`InvalidBlock`, a distance with `InvalidSymbol` (in a static block the two patterns of the reserved symbols are those
symbols, their code not read: log 15); a code cut short goes back to the snapshot and suspends with `EndInput`, a
code-length symbol as any cut header does.
The premises on the tables are kept by every step (StepKeepsTables). -/
def Obligations.CodeFetch : Prop :=
  ∀ (p : Config.Params) (d : Inflate) (hit : SmallHit), d.readerOk → d.drained → d.inErr = none →
    (d.stage = .clSeq → d.scratch.lens.length < d.scratch.nlit + d.scratch.ndist →
      d.scratch.clcTable.narrow Config.refillHdr → hit = d.scratch.clcTable.find d.streamNum →
      (hit.len = 0 → ∃ d0, Inflate.ReadBits 0 d d0 ∧ fetchElement p d = .ok (.inside (d0.failed .invalidBlock)))
      ∧ (0 < hit.len → hit.len ≤ d.avail →
        ∃ d', Inflate.ReadBits hit.len d d' ∧ fetchElement p d = .ok (.word ⟨.clsym, hit.sym9, {}⟩ d'))
      ∧ (d.avail < hit.len → d.snapInPos ≤ d.srcPos → d.parkable →
        ∃ t, fetchElement p d = .ok (.inside t) ∧ Inflate.HeaderCut d.bfinal d.btype d t))
    ∧ (d.stage = .dist → d.retry = false → d.distTable.narrow Config.refillMain → hit = d.distTable.find d.streamNum →
      (hit.len = 0 → ∃ d0, Inflate.ReadBits 0 d d0
        ∧ (d.btype ≠ 0b01 → fetchElement p d = .ok (.inside (d0.failed .invalidSymbol)))
        ∧ (d.btype = 0b01 → d.streamNum % 32 = 0b01111 → fetchElement p d = .ok (.word ⟨.dsym, 30, {}⟩ d0))
        ∧ (d.btype = 0b01 → d.streamNum % 32 = 0b11111 → fetchElement p d = .ok (.word ⟨.dsym, 31, {}⟩ d0)))
      ∧ (d.avail < hit.len → d.snapInPos ≤ d.inPos →
        fetchElement p d = .ok (.inside (d.restore.suspended .endInput)))
      ∧ (0 < hit.len → hit.len ≤ d.avail →
        ∃ d', Inflate.ReadBits hit.len d d' ∧ fetchElement p d = .ok (.word ⟨.dsym, hit.sym9 % 32, {}⟩ d')))

/-! ### The bit reader and the bit writer -/

/-- Rule R160: a refill reads no bit; afterwards the threshold is reached or the source is empty. -/
def Obligations.RefillKeepsStream : Prop :=
  ∀ (d : Inflate) (m : Nat), 1 ≤ m → m ≤ 57 → d.readerOk →
    ∃ d', d.refill m = .ok d' ∧ Inflate.ReadBits 0 d d' ∧ ((m : Int) ≤ d'.bitsLen ∨ d'.srcPos = d'.srcLen)

/-- Rule R164: `take(k)` returns the next `k` stream bits and moves past them; it underflows exactly when fewer than
`k` bits are at hand. -/
def Obligations.TakeReadsStream : Prop :=
  ∀ (d : Inflate) (k : Nat), k ≤ 32 → d.readerOk →
    (k ≤ d.avail → ∃ d', d.take k = .ok (d.streamNum % 2 ^ k, d') ∧ Inflate.ReadBits k d d')
    ∧ (d.avail < k → ∃ d', d.take k = .error (.underflow d') ∧ d.sameButReader d')

/-- Rule R166: after any number of fields read behind a snapshot, complete or cut short, `restore` puts the engine back
where the snapshot was taken. -/
def Obligations.RestoreUndoesReads : Prop :=
  ∀ (d d' : Inflate) (k n : Nat), k ≤ 32 → d.readerOk →
    (Inflate.takeMany k n d.snapshot = .error (.underflow d')
      ∨ ∃ vs, Inflate.takeMany k n d.snapshot = .ok (vs, d')) →
    d'.restore = d.snapshot

/-- Rules R170, R171: `putbits` appends the bits of the code, bit 0 first, to the output, and keeps the accumulator's
invariant. -/
def Obligations.PutbitsAppends : Prop :=
  ∀ (d : Deflate) (code len : Nat), d.AccOk → len ≤ 32 → code < 2 ^ len →
    (64 < d.ebitLen + len → d.oidx + 8 ≤ d.oend) →
    ∃ d', d.putbits code len = .ok d' ∧ d'.AccOk ∧ d'.outBits = d.outBits + len
      ∧ d'.outNum = d.outNum + 2 ^ d.outBits * code
      ∧ d' = { d with ebits := d'.ebits, ebitLen := d'.ebitLen, oidx := d'.oidx, outBuf := d'.outBuf }

/-- Rule R173: `flush_to_byte` pads the output with zero bits to a byte boundary and empties the accumulator. -/
def Obligations.FlushPadsToByte : Prop :=
  ∀ d : Deflate, d.AccOk → d.oidx + 8 ≤ d.oend →
    ∃ d', d.flushToByte = .ok d' ∧ d'.AccOk ∧ d'.outBits = 8 * ((d.outBits + 7) / 8) ∧ d'.outNum = d.outNum
      ∧ d' = { d with ebits := 0, ebitLen := 0, oidx := d'.oidx, outBuf := d'.outBuf }

/-- Rule R174: `drain_out` hands the bytes in `OUT` to the sink and empties it; an error of the sink is latched (what a
failing sink has taken is log 10). -/
def Obligations.DrainHandsOver : Prop :=
  ∀ d : Deflate, d.oidx ≤ d.oend → d.outBuf.readable 0 d.oidx →
    (d.sink.answers = [] → d.drainOut = .ok { d with
      oidx := 0, sink := ⟨d.sink.bytes ++ d.outBuf.window 0 d.oidx, []⟩ })
    ∧ (∀ r, d.sink.answers = none :: r → d.drainOut = .ok { d with
      oidx := 0, sink := ⟨d.sink.bytes ++ d.outBuf.window 0 d.oidx, r⟩ })
    ∧ ∀ e r, d.sink.answers = some e :: r →
      ∃ d', d.drainOut = .error (.sink e d') ∧ d'.outErr = some e ∧ d'.oidx = 0 ∧ d'.ebits = d.ebits
        ∧ d'.ebitLen = d.ebitLen

/-- Rule R175, the bit-exactness law of the encode side: any sequence of guarded writes, with the drains the guard
makes, then a flush and a drain, leaves at the sink the little-endian bytes of the number the groups make, behind what
was there, padded with zeros to a whole byte. -/
def Obligations.OutputIsBitExact : Prop :=
  ∀ (d : Deflate) (gs : List (Nat × Nat)), d.AccOk → 16 ≤ d.oend → d.sink.willing →
    (∀ g ∈ gs, g.2 ≤ 32 ∧ g.1 < 2 ^ g.2) →
    ∃ d1 d2 d3, Deflate.hputAll gs d = .ok d1 ∧ d1.hflush = .ok d2 ∧ d2.drainOut = .ok d3
      ∧ d1.outBits = d.outBits + groupsBits gs ∧ d1.outNum = d.outNum + 2 ^ d.outBits * groupsNum gs
      ∧ d3.sink.bytes = leBytes ((d.outBits + groupsBits gs + 7) / 8) (d.outNum + 2 ^ d.outBits * groupsNum gs)
      ∧ d3.oidx = 0 ∧ d3.ebitLen = 0

/-! ### Huffman codes -/

/-- Rule R183: the canonical codes of lengths that are not over-subscribed are prefix-free, and each fits its length. -/
def Obligations.CanonicalCodesPrefixFree : Prop :=
  ∀ (maxLen valueBits : Nat) (lens : List Nat), maxLen ≤ 15 → (∀ l ∈ lens, l ≤ maxLen) →
    lens.length ≤ 2 ^ valueBits → overSubscribed maxLen lens = false →
    tableCodesOk maxLen valueBits (symbolCodes id 0 (generateCode maxLen lens))

/-- Rule R184: the check rejects exactly the lengths whose Kraft sum is above 1. -/
def Obligations.OverSubscriptionIsKraft : Prop :=
  ∀ (maxLen : Nat) (lens : List Nat), (∀ l ∈ lens, l ≤ maxLen) →
    (overSubscribed maxLen lens = true ↔ 2 ^ maxLen < kraftScaled maxLen (lens.filter (fun l => decide (0 < l))))

/-- Rule R214: the expanded codes of literal/length lengths that are not over-subscribed are a prefix-free code of at
most 20 bits. -/
def Obligations.ExpandedCodesPrefixFree : Prop :=
  ∀ lens : List Nat, lens.length ≤ 288 → (∀ l ∈ lens, l ≤ 15) → overSubscribed 15 lens = false →
    tableCodesOk 20 10 (expandedCodes 0 (generateCode 15 lens))

/-- Rule R211, the contents theorem of the small table: a lookup finds the code that starts the bit string, with its
value and length, and is invalid when there is none. The premise on the size is rule R109's offset field. -/
def Obligations.SmallTableContents : Prop :=
  ∀ (codes : List TableCode) (x : Nat), tableCodesOk 15 9 codes →
    (longLookup Config.distLookupBits codes (longGroups Config.distLookupBits codes)).length ≤ 1024 →
    (∀ c, startingCode codes 15 x = some c → (buildSmall codes).find x = ⟨c.value, c.len⟩)
    ∧ (startingCode codes 15 x = none → ((buildSmall codes).find x).len = 0)

/-- Rules R218, R222, R225, the contents theorem of the large table, for every `multisym`: a lookup is invalid exactly
when no code starts the bit string; else it returns that code, or, when it is a literal, up to `multisym` literals that
follow one another in the bit string, in at most 12 bits together. -/
def Obligations.LargeTableContents : Prop :=
  ∀ (multisym : Nat) (codes : List TableCode) (x : Nat), 1 ≤ multisym → multisym ≤ 3 → tableCodesOk 20 10 codes →
    (startingCode codes 20 x = none → ((buildLarge multisym codes).find x).bitCount = 0)
    ∧ ∀ c, startingCode codes 20 x = some c →
      ∃ more : List TableCode, readsFrom codes 20 x (c :: more) ∧ more.length < multisym
        ∧ (more ≠ [] → ∀ b ∈ c :: more, b.value < 256)
        ∧ (more ≠ [] → ((c :: more).map (·.len)).sum ≤ 12)
        ∧ (buildLarge multisym codes).find x
            = ⟨((c :: more).map (·.len)).sum, 1 + more.length, packLits (c :: more)⟩

/-- Rules R186, R192: the generated lengths are within the limit, one for each symbol, none for a symbol that does not
occur; when the limit leaves codes enough for the symbols that occur, each of them has a length of at least 1, the scaled
Kraft sum is `1 << limit` for two or more of them and half of it for one, and a more frequent symbol is not longer. All of
it holds whatever `CodeLengths` the parameter chooses. -/
def Obligations.LengthsWithinLimit : Prop :=
  ∀ (p : Config.Params) (limit n used : Nat) (freq lens : List Nat), 1 ≤ limit → lens = limitedLengths p limit n freq →
    used = (freq.filter (fun f => decide (0 < f))).length →
    lens.length = n ∧ (∀ l ∈ lens, l ≤ limit) ∧ (∀ s, freq.getD s 0 = 0 → lens.getD s 0 = 0)
    ∧ (freq.length ≤ n → used ≤ 2 ^ limit →
      (∀ s, 0 < freq.getD s 0 → 1 ≤ lens.getD s 0)
      ∧ (2 ≤ used → kraftScaled limit (lens.filter (fun l => decide (0 < l))) = 2 ^ limit)
      ∧ (used = 1 → kraftScaled limit (lens.filter (fun l => decide (0 < l))) = 2 ^ (limit - 1))
      ∧ ∀ s t, 0 < freq.getD s 0 → freq.getD s 0 < freq.getD t 0 → lens.getD t 0 ≤ lens.getD s 0)

/-- Rule R190: the repair brings the scaled Kraft sum to exactly `1 << limit` and keeps the number of symbols. The
premises hold of every folded complete code: no more symbols than codes of the limit's length, and the codes shorter
than the limit take no more than everything. -/
def Obligations.KraftRepairIsExact : Prop :=
  ∀ (limit : Nat) (lc : List Nat), lc.length = limit + 1 → lc.getD 0 0 = 0 → lc.sum ≤ 2 ^ limit →
    2 ^ limit ≤ lenCountTotal limit lc → lenCountTotal limit (lc.set limit 0) ≤ 2 ^ limit →
    lenCountTotal limit (kraftRepair limit (lenCountTotal limit lc - 2 ^ limit) lc) = 2 ^ limit
    ∧ (kraftRepair limit (lenCountTotal limit lc - 2 ^ limit) lc).sum = lc.sum

/-! ### Block headers -/

/-- Rule R238: BLK_STATIC installs the static tables and reads no bit beyond its own; in retry mode (rule R254, the spec's own
mechanism, D11) the unread rest of `HDR` goes back to the slice. Everything else is unchanged (`multisym` among it: log 29). -/
def Obligations.StaticHeader : Prop :=
  ∀ (s : State) (f : Bool),
    (s.inf.retry = false → exec (.blkStatic f) s = .next { s with inf := { s.inf with
      bfinal := f, btype := 0b01, litLenTable := staticLitLenTable, distTable := staticDistTable,
      phase := .headerDecoded, stage := .parse } })
    ∧ (s.inf.retry = true → exec (.blkStatic f) s = .next { s with inf := { s.inf with
      bfinal := f, btype := 0b01, litLenTable := staticLitLenTable, distTable := staticDistTable,
      inPos := s.inf.inPos - (s.inf.hdrLen - s.inf.hdrPos), hdrLen := 0, retry := false,
      phase := .headerDecoded, stage := .parse } })

/-- Rules R236, R254: BLK_STORED skips to the byte boundary, reads the length and its complement, and enters `LIT_BLOCK`
with the length, in retry mode giving the unread rest of `HDR` back; when they do not agree it fails with
`InvalidBlock` (rule R412). -/
def Obligations.StoredHeader : Prop :=
  ∀ (s : State) (f : Bool) (pad len nlen : Nat), s.inf.readerOk → pad = (s.inf.bitsLen % 8).toNat →
    pad + 32 ≤ s.inf.avail → len = s.inf.streamNum / 2 ^ pad % 2 ^ 16 →
    nlen = s.inf.streamNum / 2 ^ (pad + 16) % 2 ^ 16 →
    ∃ d, Inflate.ReadBits (pad + 32) (s.inf.setBlockFlags f 0b00) d
      ∧ (len ^^^ nlen = 0xFFFF → s.inf.retry = false → exec (.blkStored f) s = .next { s with inf := { d with
          litBlockLength := len, phase := .litBlock, stage := .parse } })
      ∧ (len ^^^ nlen = 0xFFFF → s.inf.retry = true → exec (.blkStored f) s = .next { s with inf := { d with
          litBlockLength := len, inPos := d.inPos - (d.hdrLen - d.hdrPos), hdrLen := 0, retry := false,
          phase := .litBlock, stage := .parse } })
      ∧ (len ^^^ nlen ≠ 0xFFFF → s.inf.drained →
          exec (.blkStored f) s = .next { s with inf := d.failed .invalidBlock })

/-- Rules R239 to R242: BLK_DYNAMIC reads the three counts, checks them, reads the code-length-code lengths in their
fixed order, checks them, and builds the code-length-code table. That the scratch, `nextCode` among it, keeps what it held
when a check fails is the model's choice (log 22); the spec allows any value there (93 U8). -/
def Obligations.DynamicHeader : Prop :=
  ∀ (s : State) (f : Bool) (hlit hdist hclen : Nat), s.inf.readerOk → s.inf.drained → 14 ≤ s.inf.avail →
    hlit = s.inf.streamNum % 32 → hdist = s.inf.streamNum / 32 % 32 → hclen = s.inf.streamNum / 2 ^ 10 % 16 →
    (286 < hlit + 257 ∨ 30 < hdist + 1 →
      ∃ d, Inflate.ReadBits 14 (s.inf.setBlockFlags f 0b10) d
        ∧ exec (.blkDynamic f) s = .next { s with inf := d.failed .invalidBlock })
    ∧ (hlit + 257 ≤ 286 → hdist + 1 ≤ 30 → 14 + 3 * (hclen + 4) ≤ s.inf.avail →
      ∃ d clcLen, Inflate.ReadBits (14 + 3 * (hclen + 4)) (s.inf.setBlockFlags f 0b10) d
        ∧ clcLen.length = 19
        ∧ (∀ i, i < 19 → clcLen.getD (clcOrder.getD i 0) 0
            = if i < hclen + 4 then s.inf.streamNum / 2 ^ (14 + 3 * i) % 8 else 0)
        ∧ (overSubscribed 7 clcLen = true →
            exec (.blkDynamic f) s = .next { s with inf := d.failed .invalidBlock })
        ∧ (overSubscribed 7 clcLen = false → exec (.blkDynamic f) s = .next { s with inf := { d with
            scratch := { d.scratch with
              clcLen := clcLen, clcTable := buildClcTable clcLen, nlit := hlit + 257, ndist := hdist + 1, lens := [],
              nextCode := nextCodeAfter 7 clcLen s.inf.scratch.nextCode }
            stage := .clSeq } }))

/-- Rules R235, R266, R271, R412: BLK_RESERVED fails with `InvalidBlock`; the reserved literal/length and distance symbols
fail with `InvalidSymbol` where the engine stands. Nothing else changes. -/
def Obligations.ReservedElementsFail : Prop :=
  ∀ s : State, s.inf.drained →
    (∀ f, exec (.blkReserved f) s = .next { s with inf := (s.inf.setBlockFlags f 0b11).failed .invalidBlock })
    ∧ exec .llReserved286 s = .next { s with inf := s.inf.failed .invalidSymbol }
    ∧ exec .llReserved287 s = .next { s with inf := s.inf.failed .invalidSymbol }
    ∧ exec .distReserved30 s = .next { s with inf := s.inf.failed .invalidSymbol }
    ∧ exec .distReserved31 s = .next { s with inf := s.inf.failed .invalidSymbol }

/-- Rules R243, R253, R409: a header cut short anywhere is put back to its snapshot, kept in `HDR` and suspended with
`EndInput`: in its three first bits (here from `NEW_BLOCK`; from `DECODING_HEADER` in HeaderFetch), inside BLK_STORED's
padding and two fields, inside BLK_DYNAMIC's counts or code-length-code lengths, inside the code of a code-length symbol, and
inside the extra bits of a repeat. -/
def Obligations.HeaderSuspends : Prop :=
  ∀ s : State, s.inf.readerOk → s.inf.drained → s.inf.inErr = none →
    (∀ (i : Instr) (f : Bool) (b : BitVec 2), s.inf.snapInPos ≤ s.inf.srcPos → s.inf.parkable →
      (i = .blkStored f ∧ b = 0b00 ∧ s.inf.avail < (s.inf.bitsLen % 8).toNat + 32
        ∨ i = .blkDynamic f ∧ b = 0b10 ∧ (s.inf.avail < 14 ∨ s.inf.streamNum % 32 ≤ 29 ∧ s.inf.streamNum / 32 % 32 ≤ 29
            ∧ s.inf.avail < 14 + 3 * (s.inf.streamNum / 2 ^ 10 % 16 + 4))
        ∨ f = s.inf.bfinal ∧ b = s.inf.btype ∧ (i = .clCopyPrev ∧ s.inf.scratch.lens ≠ [] ∧ s.inf.avail < 2
            ∨ i = .clZeros3To10 ∧ s.inf.avail < 3 ∨ i = .clZeros11To138 ∧ s.inf.avail < 7)) →
      ∃ t, exec i s = .next { s with inf := t } ∧ Inflate.HeaderCut f b s.inf t)
    ∧ (s.inf.stage = .parse → s.inf.phase = .newBlock → s.inf.retry = false → s.inf.avail < 3 →
      ∃ t, step s = .next { s with inf := t } ∧ Inflate.HeaderCut s.inf.bfinal s.inf.btype s.inf.snapshot t)
    ∧ (s.inf.stage = .clSeq → s.inf.scratch.lens.length < s.inf.scratch.nlit + s.inf.scratch.ndist →
      s.inf.scratch.clcTable.narrow Config.refillHdr → s.inf.snapInPos ≤ s.inf.srcPos → s.inf.parkable →
      s.inf.avail < (s.inf.scratch.clcTable.find s.inf.streamNum).len →
      ∃ t, step s = .next { s with inf := t } ∧ Inflate.HeaderCut s.inf.bfinal s.inf.btype s.inf t)

/-- Rule R245: what each code-length symbol appends, the extra bits it reads, and when it fails with `InvalidBlock`. -/
def Obligations.CodeLengthSymbols : Prop :=
  (∀ (s : State) (l : BitVec 4), exec (.clLen l) s = .next { s with inf := { s.inf with
    scratch := { s.inf.scratch with lens := s.inf.scratch.lens ++ [l.toNat] } } })
  ∧ (∀ s : State, s.inf.drained → s.inf.scratch.lens = [] →
    exec .clCopyPrev s = .next { s with inf := s.inf.failed .invalidBlock })
  ∧ ∀ (s : State) (i : Instr) (k base v e : Nat), s.inf.readerOk → s.inf.drained →
    (i = .clCopyPrev ∧ k = 2 ∧ base = 3 ∧ s.inf.scratch.lens.getLast? = some v
      ∨ i = .clZeros3To10 ∧ k = 3 ∧ base = 3 ∧ v = 0 ∨ i = .clZeros11To138 ∧ k = 7 ∧ base = 11 ∧ v = 0) →
    k ≤ s.inf.avail → e = s.inf.streamNum % 2 ^ k →
    ∃ d, Inflate.ReadBits k s.inf d
      ∧ (s.inf.scratch.lens.length + (base + e) ≤ s.inf.scratch.nlit + s.inf.scratch.ndist →
          exec i s = .next { s with inf := { d with
            scratch := { d.scratch with lens := s.inf.scratch.lens ++ List.replicate (base + e) v } } })
      ∧ (s.inf.scratch.nlit + s.inf.scratch.ndist < s.inf.scratch.lens.length + (base + e) →
          exec i s = .next { s with inf := d.failed .invalidBlock })

/-- Rules R221, R246 to R248, R254: after the last code length the vector is split, both parts padded with zeros, both tables
built, and the parser enters `HEADER_DECODED`, in retry mode giving the unread rest of `HDR` back to the slice; over-subscribed
lengths fail with `InvalidBlock`. That the scratch keeps what it held where they fail is the model's choice (log 22); the
spec allows any value there (93 U8). After success the scratch is left open. -/
def Obligations.DynamicHeaderEnds : Prop :=
  ∀ (s : State) (litLen distLen : List Nat) (m : Nat), s.inf.stage = .clSeq → s.inf.drained →
    s.inf.scratch.lens.length = s.inf.scratch.nlit + s.inf.scratch.ndist →
    s.inf.scratch.nlit ≤ 286 → s.inf.scratch.ndist ≤ 30 →
    litLen = s.inf.scratch.lens.take s.inf.scratch.nlit ++ List.replicate (286 - s.inf.scratch.nlit) 0 →
    distLen = s.inf.scratch.lens.drop s.inf.scratch.nlit ++ List.replicate (30 - s.inf.scratch.ndist) 0 →
    m = selectMultisym s.params s.inf.bfinal (s.inf.inLen - s.inf.inPos) →
    (overSubscribed 15 distLen = true ∨ overSubscribed 15 litLen = true →
      step s = .next { s with inf := s.inf.failed .invalidBlock })
    ∧ (overSubscribed 15 distLen = false → overSubscribed 15 litLen = false →
      ∃ scratch,
        (s.inf.retry = false → step s = .next { s with inf := { s.inf with
          multisym := m, distTable := buildDistTable distLen, litLenTable := buildLitLenTable m litLen,
          scratch := scratch, phase := .headerDecoded, stage := .parse } })
        ∧ (s.inf.retry = true → step s = .next { s with inf := { s.inf with
          multisym := m, distTable := buildDistTable distLen, litLenTable := buildLitLenTable m litLen,
          scratch := scratch, phase := .headerDecoded, stage := .parse,
          inPos := s.inf.inPos - (s.inf.hdrLen - s.inf.hdrPos), hdrLen := 0, retry := false } }))

/-! ### The body of a block -/

/-- Rule R264: LIT stores its byte at the write position, if there is room, and changes nothing else. -/
def Obligations.LiteralStored : Prop :=
  ∀ (s : State) (b : Byte), s.inf.writePos < s.inf.outLimit → s.inf.outLimit ≤ Config.histBufSize →
    ∃ m : Memory, exec (.lit b) s = .next { s with inf := { s.inf with
        histBuf := m, writePos := s.inf.writePos + 1, stage := .parse } }
      ∧ m.get? s.inf.writePos = some b ∧ ∀ a, a ≠ s.inf.writePos → m.get? a = s.inf.histBuf.get? a

/-- Rules R264, R290, R410: a literal that finds the output full suspends with `OutputOverflow`; it and the literals of
its entry behind it (at most two, held in `nextLits`, log 16) are stored by the drain, and nothing stays owed. -/
def Obligations.LiteralOverflow : Prop :=
  ∀ (s : State) (b : Byte), s.inf.outLimit ≤ s.inf.writePos → s.inf.writePos + 4 ≤ Config.histBufSize →
    s.inf.drained → s.inf.inErr = none → s.inf.symCount ≤ 2 →
    ∃ m : Memory, exec (.lit b) s = .next { s with inf := Inflate.suspended .outputOverflow { s.inf with
        histBuf := m, writePos := s.inf.writePos + (s.inf.symCount + 1), writeOverflowLits := 0,
        nextLits := 0, symCount := 0 } }
      ∧ m.get? s.inf.writePos = some b
      ∧ (∀ j, j < s.inf.symCount → m.get? (s.inf.writePos + 1 + j)
          = some (BitVec.ofNat 8 (s.inf.nextLits.toNat / 2 ^ (8 * j))))
      ∧ ∀ a, a < s.inf.writePos ∨ s.inf.writePos + 4 ≤ a → m.get? a = s.inf.histBuf.get? a

/-- Rule R265: EOB ends the block: `STREAM_END` after the final block, else `NEW_BLOCK`. Nothing else changes. -/
def Obligations.EndOfBlock : Prop :=
  ∀ s : State, exec .eob s = .next { s with inf := { s.inf with
    phase := if s.inf.bfinal = true then .streamEnd else .newBlock, stage := .parse } }

/-- Rules R121, R266: the match length of each length symbol and extra value. Nothing else changes. -/
def Obligations.MatchLengths : Prop :=
  ∀ (s : State) (a : BitVec 1) (b : BitVec 2) (c : BitVec 3) (d : BitVec 4) (e : BitVec 5),
    exec .len257 s = .next (s.withLength 3) ∧ exec .len258 s = .next (s.withLength 4)
    ∧ exec .len259 s = .next (s.withLength 5) ∧ exec .len260 s = .next (s.withLength 6)
    ∧ exec .len261 s = .next (s.withLength 7) ∧ exec .len262 s = .next (s.withLength 8)
    ∧ exec .len263 s = .next (s.withLength 9) ∧ exec .len264 s = .next (s.withLength 10)
    ∧ exec (.len265 a) s = .next (s.withLength (11 + a.toNat))
    ∧ exec (.len266 a) s = .next (s.withLength (13 + a.toNat))
    ∧ exec (.len267 a) s = .next (s.withLength (15 + a.toNat))
    ∧ exec (.len268 a) s = .next (s.withLength (17 + a.toNat))
    ∧ exec (.len269 b) s = .next (s.withLength (19 + b.toNat))
    ∧ exec (.len270 b) s = .next (s.withLength (23 + b.toNat))
    ∧ exec (.len271 b) s = .next (s.withLength (27 + b.toNat))
    ∧ exec (.len272 b) s = .next (s.withLength (31 + b.toNat))
    ∧ exec (.len273 c) s = .next (s.withLength (35 + c.toNat))
    ∧ exec (.len274 c) s = .next (s.withLength (43 + c.toNat))
    ∧ exec (.len275 c) s = .next (s.withLength (51 + c.toNat))
    ∧ exec (.len276 c) s = .next (s.withLength (59 + c.toNat))
    ∧ exec (.len277 d) s = .next (s.withLength (67 + d.toNat))
    ∧ exec (.len278 d) s = .next (s.withLength (83 + d.toNat))
    ∧ exec (.len279 d) s = .next (s.withLength (99 + d.toNat))
    ∧ exec (.len280 d) s = .next (s.withLength (115 + d.toNat))
    ∧ exec (.len281 e) s = .next (s.withLength (131 + e.toNat))
    ∧ exec (.len282 e) s = .next (s.withLength (163 + e.toNat))
    ∧ exec (.len283 e) s = .next (s.withLength (195 + e.toNat))
    ∧ exec (.len284 e) s = .next (s.withLength (227 + e.toNat))
    ∧ exec .len285 s = .next (s.withLength 258)

/-- Rules R123, R266 to R270, for DIST_0 to DIST_29: the distance is the symbol's start plus its extra bits; a match that
fits is copied byte by byte, each byte from that far back, new bytes included; no other byte of `HIST` changes, and
nothing else but the bit reader. -/
def Obligations.MatchCopies : Prop :=
  ∀ (s : State) (i : Instr) (k start dist : Nat), (i, k, start) ∈ distanceRows → s.inf.readerOk →
    k ≤ s.inf.avail → dist = start + s.inf.streamNum % 2 ^ k → dist ≤ s.inf.writePos →
    s.inf.writePos + s.inf.repeatLength ≤ s.inf.outLimit → s.inf.outLimit ≤ Config.histBufSize →
    s.inf.histBuf.readable (s.inf.writePos - dist) s.inf.writePos →
    ∃ (d : Inflate) (m : Memory), Inflate.ReadBits k s.inf d
      ∧ exec i s = .next { s with inf := { d with
          histBuf := m, writePos := s.inf.writePos + s.inf.repeatLength, stage := .parse } }
      ∧ (∀ j, j < s.inf.repeatLength → m.get? (s.inf.writePos + j) = m.get? (s.inf.writePos + j - dist))
      ∧ ∀ a, a < s.inf.writePos ∨ s.inf.writePos + s.inf.repeatLength ≤ a → m.get? a = s.inf.histBuf.get? a

/-- Rules R269, R290, R410, for DIST_0 to DIST_29: a match longer than the room left suspends with `OutputOverflow`; the
drain has copied what was owed, so the whole match is in `HIST` and nothing stays owed. -/
def Obligations.MatchOverflow : Prop :=
  ∀ (s : State) (i : Instr) (k start dist : Nat), (i, k, start) ∈ distanceRows → s.inf.readerOk →
    s.inf.drained → s.inf.inErr = none →
    k ≤ s.inf.avail → dist = start + s.inf.streamNum % 2 ^ k → dist ≤ s.inf.writePos →
    s.inf.writePos ≤ s.inf.outLimit → s.inf.outLimit < s.inf.writePos + s.inf.repeatLength →
    s.inf.writePos + s.inf.repeatLength ≤ Config.histBufSize →
    s.inf.histBuf.readable (s.inf.writePos - dist) s.inf.writePos →
    ∃ (d : Inflate) (m : Memory), Inflate.ReadBits k s.inf d
      ∧ exec i s = .next { s with inf := Inflate.suspended .outputOverflow { d with
          histBuf := m, writePos := s.inf.writePos + s.inf.repeatLength, copyOverflowDistance := 0 } }
      ∧ (∀ j, j < s.inf.repeatLength → m.get? (s.inf.writePos + j) = m.get? (s.inf.writePos + j - dist))
      ∧ ∀ a, a < s.inf.writePos ∨ s.inf.writePos + s.inf.repeatLength ≤ a → m.get? a = s.inf.histBuf.get? a

/-- Rules R266, R268, R409, for DIST_0 to DIST_29: a distance whose extra bits are not at hand puts the engine back to its
snapshot and suspends with `EndInput`; a distance above the bytes written fails with `InvalidLookBack`, after the distance
bits and before anything is copied. -/
def Obligations.DistanceStops : Prop :=
  ∀ (s : State) (i : Instr) (k start : Nat), (i, k, start) ∈ distanceRows → s.inf.readerOk → s.inf.drained →
    (s.inf.avail < k → s.inf.inErr = none → s.inf.snapInPos ≤ s.inf.srcPos →
      exec i s = .next { s with inf := s.inf.restore.suspended .endInput })
    ∧ (k ≤ s.inf.avail → s.inf.writePos < start + s.inf.streamNum % 2 ^ k →
      ∃ d, Inflate.ReadBits k s.inf d ∧ exec i s = .next { s with inf := d.failed .invalidLookBack })

/-- Rule R258: inside a stored block the next stream bytes go to the output, as many as the block, the input and the
output allow; then the block has ended, or the output is full, or the input is used up. -/
def Obligations.StoredCopy : Prop :=
  ∀ (s : State) (n : Nat), s.inf.stage = .parse → s.inf.phase = .litBlock → s.inf.retry = false → s.inf.readerOk →
    s.inf.drained → s.inf.inErr = none → s.inf.bitsLen % 8 = 0 →
    s.inf.writePos ≤ s.inf.outLimit → s.inf.outLimit ≤ Config.histBufSize →
    n = min s.inf.litBlockLength (min (s.inf.avail / 8) (s.inf.outLimit - s.inf.writePos)) →
    ∃ (d : Inflate) (m : Memory), Inflate.ReadBits (8 * n) s.inf d
      ∧ (∀ j, j < n → m.get? (s.inf.writePos + j) = some (BitVec.ofNat 8 (s.inf.streamNum / 2 ^ (8 * j))))
      ∧ (∀ a, a < s.inf.writePos ∨ s.inf.writePos + n ≤ a → m.get? a = s.inf.histBuf.get? a)
      ∧ (n = s.inf.litBlockLength → step s = .next { s with inf := { d with
          histBuf := m, writePos := s.inf.writePos + n, litBlockLength := 0,
          phase := if s.inf.bfinal = true then .streamEnd else .newBlock } })
      ∧ (n < s.inf.litBlockLength → s.inf.outLimit ≤ s.inf.writePos + n →
          step s = .next { s with inf := Inflate.suspended .outputOverflow { d with
            histBuf := m, writePos := s.inf.writePos + n, litBlockLength := s.inf.litBlockLength - n } })
      ∧ (n < s.inf.litBlockLength → s.inf.writePos + n < s.inf.outLimit →
          step s = .next { s with inf := Inflate.suspended .endInput { d with
            histBuf := m, writePos := s.inf.writePos + n, litBlockLength := s.inf.litBlockLength - n } })

/-- Rule R230: inside `Decode()` the phase changes only as the rule lists. The premise rules out states no run reaches;
it is kept by every step (StepKeepsInflateSound). -/
def Obligations.PhaseTransitions : Prop :=
  ∀ s t : State, s.inf.Sound → s.inf.stage ≠ .idle → step s = .next t → s.inf.phase.canBecome t.inf.phase = true

/-! ### The inflate commands -/

/-- Rule R281 with the values of rule R60: IN_RESET. The fields not named are kept, memories among them (log 6). -/
def Obligations.InResetClears : Prop :=
  ∀ s : State, ∃ d, exec .inReset s = .next { s with inf := d }
    ∧ d = { s.inf with
        bits := 0, bitsLen := 0, inPos := 0, inLen := 0, inBuf := Cells.empty, litBlockLength := 0, readPos := 0,
        writePos := 0, writeOverflowLits := 0, writeOverflowLen := 0, copyOverflowLength := 0,
        copyOverflowDistance := 0, phase := .newBlock, totalIn := 0, bfinal := false, btype := 0, multisym := 3,
        inErr := none, hdrLen := 0, retry := false, nextLits := 0, symCount := 0, stage := .idle, ret := ⟨.ok, 0, []⟩ }

/-- Rule R298: IN_CLOSE changes nothing and returns `Ok`. -/
def Obligations.InCloseKeepsState : Prop :=
  ∀ s : State, exec .inClose s = .next { s with inf := { s.inf with ret := ⟨.ok, 0, []⟩ } }

/-- Rule R284: IN_READ delivers decoded bytes in order, before an error or the end of the stream is reported. -/
def Obligations.ReadDelivers : Prop :=
  ∀ (s : State) (n k : Nat), k = min n (s.inf.writePos - s.inf.readPos) →
    s.inf.writePos ≤ Config.histBufSize → s.inf.histBuf.readable s.inf.readPos s.inf.writePos →
    (0 < k ∨ n = 0 → exec (.inRead n) s = .next { s with inf := { s.inf with
      readPos := s.inf.readPos + k, ret := ⟨.ok, 0, s.inf.histBuf.window s.inf.readPos k⟩ } })
    ∧ (k = 0 → 0 < n → ∀ kind off, s.inf.inErr = some (kind, off) →
      exec (.inRead n) s = .next { s with inf := { s.inf with ret := ⟨.corruptInput off, 0, []⟩ } })
    ∧ (k = 0 → 0 < n → s.inf.inErr = none → s.inf.phase = .streamEnd ∨ s.inf.phase = .finish →
      exec (.inRead n) s = .next { s with inf := { s.inf with phase := .finish, ret := ⟨.eof, 0, []⟩ } })
    ∧ (k = 0 → 0 < n → s.inf.inErr = none → s.inf.phase ≠ .streamEnd → s.inf.phase ≠ .finish →
      exec (.inRead n) s = .next { s with inf := { s.inf with ret := ⟨.ok, 0, []⟩ } })

/-- Rules R288, R289, R412: IN_STEP reports a latched error and does nothing; it is refused, and does nothing, while
decoded bytes wait or when the slice is too short (rule R289), and when it is longer than `SLICE_MAX` (93 U10). -/
def Obligations.StepRefuses : Prop :=
  ∀ (s : State) (slice : List Byte),
    (∀ kind off, s.inf.inErr = some (kind, off) →
      exec (.inStep slice) s = .next { s with inf := { s.inf with ret := ⟨.corruptInput off, 0, []⟩ } })
    ∧ (s.inf.inErr = none → s.inf.readPos ≠ s.inf.writePos ∨ slice.length < (s.inf.bitsLen / 8).toNat
        ∨ s.params.sliceMax < slice.length →
      exec (.inStep slice) s = .next { s with inf := { s.inf with ret := ⟨.refused, 0, []⟩ } })

/-- Rules R233, R275, R286 to R289: from every state between two commands IN_STEP completes, on any slice; no fault of the model
and no bound is met, the state is again one between commands, and only the inflate side has changed. When its
preconditions hold (rule R289; 93 U10 for a long slice) it is the fold, if one is due, then `Decode()` run step by step to its
end, begun with the output limit, the slice and the position of rules R287 and R288; it returns `Ok` at the end of the
stream, `EndInput`, `OutputOverflow` or the error latched. Only otherwise it is refused, or reports an earlier error. -/
def Obligations.StepCompletes : Prop :=
  ∀ (s : State) (slice : List Byte) (skip : Nat), s.inf.Sound → s.inf.stage = .idle → skip = (s.inf.bitsLen / 8).toNat →
    ∃ t, exec (.inStep slice) s = .next t ∧ t = { s with inf := t.inf } ∧ t.inf.Sound ∧ t.inf.stage = .idle
      ∧ (s.inf.inErr = none → s.inf.readPos = s.inf.writePos → skip ≤ slice.length → slice.length ≤ s.params.sliceMax →
        (∃ f, s.inf.foldIfDue = .ok f ∧ (s.inf.writePos < 2 * Config.historySize → f = s.inf)
          ∧ Decodes { s with inf := f.entered slice skip } t)
        ∧ (t.inf.ret.status = .ok ∧ (t.inf.phase = .streamEnd ∨ t.inf.phase = .finish) ∨ t.inf.ret.status = .endInput
          ∨ t.inf.ret.status = .outputOverflow
          ∨ ∃ kind off, t.inf.inErr = some (kind, off) ∧ t.inf.ret.status = .corruptInput off))
      ∧ (¬ (s.inf.inErr = none ∧ s.inf.readPos = s.inf.writePos ∧ skip ≤ slice.length
          ∧ slice.length ≤ s.params.sliceMax) →
        ∃ st, t.inf = { s.inf with ret := ⟨st, 0, []⟩ } ∧ (st = .refused ∨ ∃ off, st = .corruptInput off))

/-- Rule R286: the fold moves the last 32768 bytes of the output to the start of `HIST` and both cursors behind them. -/
def Obligations.FoldKeepsHistory : Prop :=
  ∀ d : Inflate, 2 * Config.historySize ≤ d.writePos → d.writePos ≤ Config.histBufSize →
    d.histBuf.readable (d.writePos - Config.historySize) d.writePos →
    ∃ m : Memory, d.foldIfDue = .ok { d with
        histBuf := m, readPos := Config.historySize, writePos := Config.historySize }
      ∧ (∀ j, j < Config.historySize → m.get? j = d.histBuf.get? (d.writePos - Config.historySize + j))
      ∧ ∀ a, Config.historySize ≤ a → m.get? a = d.histBuf.get? a

/-! ### The deflate side -/

/-- Rules R341, R342, R345: a token appends exactly three bit groups, the slot of `litlen`, the distance code, the
distance extra bits, and nothing else changes but the token cursor. The premises are rule R343's: the codes fit their
lengths and the token has at most 64 bits. -/
def Obligations.TokensEmitBits : Prop :=
  ∀ (s : State) (i : Instr) (litlen dist extra : Nat) (r q : Word),
    ((∃ b, i = .tlit b ∧ litlen = b.toNat ∧ dist = 30 ∧ extra = 0) ∨ (i = .teob ∧ litlen = 256 ∧ dist = 30 ∧ extra = 0)
      ∨ ∃ l d x, i = .tmatch l d x ∧ litlen = l.toNat ∧ dist = d.toNat ∧ extra = x.toNat) →
    s.df.AccOk → s.df.oidx + 8 ≤ s.df.oend → r = s.df.litCodes.slot litlen → q = s.df.distCodes.slot dist →
    litSlotCode r < 2 ^ slotLen r → distSlotCode q < 2 ^ slotLen q → extra < 2 ^ distSlotExtra q →
    slotLen r + slotLen q + distSlotExtra q ≤ 64 →
    ∃ d, exec i s = .next { s with df := d } ∧ d.AccOk
      ∧ d.outBits = s.df.outBits + (slotLen r + slotLen q + distSlotExtra q)
      ∧ d.outNum = s.df.outNum + 2 ^ s.df.outBits
          * (litSlotCode r + 2 ^ slotLen r * (distSlotCode q + 2 ^ slotLen q * extra))
      ∧ d = { s.df with
          tokNext := s.df.tokNext + 1, ebits := d.ebits, ebitLen := d.ebitLen, oidx := d.oidx, outBuf := d.outBuf }

/-- Rule R344: what the slots hold once codes have been built from the records; that the slots 257..512 stand per match length
is the spec's own reading there. -/
def Obligations.CodesFromRecords : Prop :=
  ∀ (d : Deflate) (recLL recD : List Word), recLL.length = 286 → recD.length = 30 →
    (∀ i, i ≤ 256 → (d.buildCodes recLL recD).litCodes.slot i = recLL.getD i 0)
    ∧ (∀ len, 3 ≤ len → len ≤ 258 → (d.buildCodes recLL recD).litCodes.slot (254 + len)
        = BitVec.ofNat 32 ((recCode (recLL.getD (lenSym len) 0)
            ||| ((len - lenBase (lenSym len)) <<< recLen (recLL.getD (lenSym len) 0)))
          ||| ((recLen (recLL.getD (lenSym len) 0) + lenExtra (lenSym len)) <<< 24)))
    ∧ (∀ k, k < 30 → (d.buildCodes recLL recD).distCodes.slot k
        = BitVec.ofNat 32 (recCode (recD.getD k 0) ||| (distExtraBits k <<< 16) ||| (recLen (recD.getD k 0) <<< 24)))
    ∧ (d.buildCodes recLL recD).distCodes.slot 30 = 0

/-- Rules R358 to R361 against rule R245: the run-length code of a sequence of code lengths stands for that sequence. -/
def Obligations.RunLengthsExpand : Prop :=
  ∀ seq : List Nat, (∀ l ∈ seq, l < 16) → expandRle (rleOf seq) = seq

/-- Rules R310, R315, R316, R319, R325, R326: whatever the hash table holds, the tokens the matcher appends stand for
exactly the window bytes it has moved past; window and earlier tokens are unchanged. -/
def Obligations.MatcherTokensExpand : Prop :=
  ∀ (flush : Bool) (d : Deflate), d.Sound →
    ∃ d', d.runMatcher flush = .ok d' ∧ d.widx ≤ d'.widx ∧ d'.widx ≤ d.wend ∧ d.tokCount ≤ d'.tokCount
      ∧ d'.tokCount ≤ Config.tokenCap ∧ d'.processed = d.processed + (d'.widx - d.widx)
      ∧ d'.winBuf = d.winBuf ∧ (∀ k, k < d.tokCount → d'.tokBuf.get? k = d.tokBuf.get? k)
      ∧ expandTokens (d.winBuf.window 0 d.widx) (d'.tokBuf.window d.tokCount (d'.tokCount - d.tokCount))
          = d.winBuf.window 0 d'.widx

/-- Rule R377 with the values of rules R40, R61, R329: DF_RESET takes the levels -2, 1, 2 and the windows 32768 and 4096 and
clears the deflate side (at level -2 the unused `hashMask` is 0, log 21; the sink's record begins anew, log 10); any other
operand is refused and nothing changes. That the memories `WIN`, `TOK`, `OUT` and the code-generation scratch keep what they
held is the model's choice (log 6); rule R61 leaves them unspecified. -/
def Obligations.DfResetClears : Prop :=
  ∀ (s : State) (level : Int) (window hashMask : Nat),
    hashMask = (if level = -2 then 0
      else if window = 4096 then 2 ^ (if level = 1 then s.params.hashBits4k1 else s.params.hashBits4k2) - 1
      else if level = 1 then 0x0FFF else 0x7FFF) →
    ((level = -2 ∨ level = 1 ∨ level = 2) → (window = 32768 ∨ window = 4096) →
      exec (.dfReset level window) s = .next { s with df := { s.df with
        level := level, windowSize := window, hashMask := hashMask, hashTable := Cells.empty, litCodes := Cells.empty,
        distCodes := Cells.empty, ebits := 0, ebitLen := 0, oidx := 0, oend := s.params.outBufSize, widx := 0,
        wend := 0, processed := 0, tokCount := 0, tokNext := 0, closed := false, outErr := none, stage := .idle,
        ret := ⟨.ok, 0⟩, sink := { s.df.sink with bytes := [] } } })
    ∧ (¬ ((level = -2 ∨ level = 1 ∨ level = 2) ∧ (window = 32768 ∨ window = 4096)) →
      exec (.dfReset level window) s = .next { s with df := { s.df with ret := ⟨.refused, 0⟩ } })

/-- Rules R392, R393, R415: after a sink error DF_WRITE, DF_FLUSH and DF_CLOSE return it, after a close they return `Ok`,
the error first; they do nothing. -/
def Obligations.ClosedOrFailedAnswers : Prop :=
  ∀ (s : State) (i : Instr), ((∃ data, i = .dfWrite data) ∨ i = .dfFlush ∨ i = .dfClose) →
    (∀ e, s.df.outErr = some e → exec i s = .next { s with df := { s.df with ret := ⟨.sinkError e, 0⟩ } })
    ∧ (s.df.outErr = none → s.df.closed = true → exec i s = .next { s with df := { s.df with ret := ⟨.ok, 0⟩ } })

/-- Rules R375, R379 to R381, R385, R388, R389, R397: from every state between two commands, with a sink that takes
everything: the window shift keeps the last `W` tokenised bytes and all that follow them, and DF_WRITE's bytes go behind them,
as many as fit, which is all that DF_WRITE does while the window is not full; DF_WRITE takes all its bytes; DF_FLUSH
leaves everything tokenised and drained, the output ending in the sync marker `00 00 FF FF`; DF_CLOSE leaves everything
drained and the stream closed. The state is again one between commands, and only the deflate side has changed. -/
def Obligations.DeflateCompletes : Prop :=
  ∀ s : State, s.df.Sound → s.df.outErr = none → s.df.closed = false → s.df.sink.willing →
    (∀ (data : List Byte) (b n : Nat), b = (if 2 * s.df.windowSize ≤ s.df.widx then s.df.widx - s.df.windowSize else 0) →
      n = min data.length (s.df.fill - (s.df.wend - b)) →
      ∃ (d : Deflate) (m : Memory), s.df.accumulate data = .ok (n, d)
        ∧ d = { s.df with winBuf := m, widx := s.df.widx - b, wend := s.df.wend - b + n }
        ∧ (∀ j, j < s.df.wend - b → m.get? j = s.df.winBuf.get? (b + j))
        ∧ (∀ j, j < n → m.get? (s.df.wend - b + j) = data[j]?)
        ∧ (∀ a, s.df.wend - b + n ≤ a → m.get? a = s.df.winBuf.get? a)
        ∧ (data ≠ [] → s.df.wend - b + n < s.df.fill →
            exec (.dfWrite data) s = .next { s with df := { d with ret := ⟨.ok, n⟩ } }))
    ∧ (∀ data, ∃ d, exec (.dfWrite data) s = .next { s with df := d } ∧ d.Sound ∧ d.ret = ⟨.ok, data.length⟩
      ∧ d.outErr = none ∧ d.closed = false)
    ∧ (∃ d, exec .dfFlush s = .next { s with df := d } ∧ d.Sound ∧ d.ret = ⟨.ok, 0⟩ ∧ d.outErr = none
      ∧ d.closed = false ∧ d.widx = d.wend ∧ d.ebitLen = 0 ∧ d.oidx = 0 ∧ d.tokCount = 0
      ∧ ∃ before, d.sink.bytes = before ++ [0x00, 0x00, 0xFF, 0xFF])
    ∧ ∃ d, exec .dfClose s = .next { s with df := d } ∧ d.Sound ∧ d.ret = ⟨.ok, 0⟩ ∧ d.outErr = none
      ∧ d.closed = true ∧ d.ebitLen = 0 ∧ d.oidx = 0 ∧ d.tokCount = 0

/-! ### Whole-machine rules -/

/-- Rules R87, R422: an inflate command or element leaves the deflate side alone, a deflate command or token the inflate
side; neither changes the parameters or the queue of commands. -/
def Obligations.SidesIndependent : Prop :=
  ∀ (i : Instr) (s t : State), exec i s = .next t →
    t.params = s.params ∧ t.commands = s.commands
    ∧ (onInflateSide i = true → t.df = s.df ∧ t.freeDraws = s.freeDraws) ∧ (onInflateSide i = false → t.inf = s.inf)

/-- Rules R87, R422 as isolation: what an instruction does to its own side does not depend on the other side, nor on the
commands to come. -/
def Obligations.SidesDoNotLeak : Prop :=
  ∀ (i : Instr) (s1 s2 t1 : State), exec i s1 = .next t1 → s1.params = s2.params →
    (onInflateSide i = true → s1.inf = s2.inf → ∃ t2, exec i s2 = .next t2 ∧ t2.inf = t1.inf)
    ∧ (onInflateSide i = false → s1.df = s2.df → s1.freeDraws = s2.freeDraws →
        ∃ t2, exec i s2 = .next t2 ∧ t2.df = t1.df)

/-- Rules R34, R35, R281, R377, R392, R412: only IN_RESET takes the inflate side out of a latched error, only DF_RESET the
deflate side out of its own. -/
def Obligations.ErrorsAreSticky : Prop :=
  ∀ (i : Instr) (s t : State), exec i s = .next t →
    (s.inf.inErr ≠ none → i ≠ .inReset → t.inf.inErr ≠ none)
    ∧ (s.df.outErr ≠ none → (∀ level window, i ≠ .dfReset level window) → t.df.outErr = s.df.outErr)

/-- Every step keeps every memory and table in canonical form (the form is the model's, log 7). -/
def Obligations.StepKeepsMemories : Prop :=
  ∀ s t : State, s.memoriesWf = true → step s = .next t → t.memoriesWf = true

/-- Rule R23: the bits above the valid ones are 0, in the bit buffer and in its snapshot, and every step keeps it. -/
def Obligations.StepKeepsBitBuffer : Prop :=
  ∀ s t : State, bufferOk s.inf.bits s.inf.bitsLen → bufferOk s.inf.snapBits s.inf.snapBitsLen → step s = .next t →
    bufferOk t.inf.bits t.inf.bitsLen ∧ bufferOk t.inf.snapBits t.inf.snapBitsLen

/-- Rules R21 to R27, R62, R249: what holds of the inflate side between steps is kept by every step, and no step inside
`Decode()` stops the machine. -/
def Obligations.StepKeepsInflateSound : Prop :=
  ∀ s : State, s.inf.Sound →
    (∀ t, step s = .next t → t.inf.Sound) ∧ (s.inf.stage ≠ .idle → ∃ t, step s = .next t)

/-- Rules R210, R211, R222, R245: what the fetch of a symbol relies on is kept by every step: code lengths of at most 15
bits, tables whose lookups look at no more bits than the refill before them brings. -/
def Obligations.StepKeepsTables : Prop :=
  ∀ s t : State, s.inf.Sound → s.inf.TablesOk → step s = .next t → t.inf.TablesOk

/-- Rules R60, R61, R440: the state after reset is one between two commands, on both sides, with nothing owed and no error
latched. Clauses of it rest on the model's choices: the canonical form of the memories (log 7); the window of 32768 bytes, which
those rules do not name before a DF_RESET (log 5), and the default `OUT_BUF_SIZE` (log 8); and, of what those rules leave
unspecified, the snapshot registers, 0 and so without stray bits, the tables and code lengths, empty and so meeting
`TablesOk`, and the retry mode and held literals, none (log 6). -/
def Obligations.ResetIsSound : Prop :=
  State.reset.inf.Sound ∧ State.reset.df.Sound ∧ State.reset.memoriesWf = true ∧ State.reset.inf.stage = .idle
  ∧ State.reset.inf.phase = .newBlock ∧ State.reset.inf.inErr = none ∧ State.reset.df.outErr = none
  ∧ State.reset.df.closed = false ∧ bufferOk State.reset.inf.snapBits State.reset.inf.snapBitsLen
  ∧ State.reset.inf.TablesOk
end

