-- ==== Sys2Proof/Laws/Bits.lean ====
section
/-! SUPPORT. Arithmetic of byte strings and bit fields. -/

namespace Sys2Proof.Machine

@[simp] theorem leValue_nil : leValue [] = 0 := rfl

theorem leValue_cons (b : Byte) (bs : List Byte) : leValue (b :: bs) = b.toNat + 2 ^ 8 * leValue bs := rfl

theorem leValue_append (as bs : List Byte) :
    leValue (as ++ bs) = leValue as + 2 ^ (8 * as.length) * leValue bs := by
  induction as with
  | nil => simp
  | cons a as ih =>
    rw [List.cons_append, leValue_cons, ih, leValue_cons, List.length_cons, Nat.mul_add 8, pow_add]
    ring

theorem leValue_lt (bs : List Byte) : leValue bs < 2 ^ (8 * bs.length) := by
  induction bs with
  | nil => simp
  | cons b bs ih =>
    have hb : b.toNat < 2 ^ 8 := b.isLt
    rw [leValue_cons, List.length_cons, Nat.mul_add 8, pow_add]
    generalize 2 ^ (8 * bs.length) = p at ih ⊢
    have : 2 ^ 8 * leValue bs + 2 ^ 8 ≤ 2 ^ 8 * p := by
      rw [← Nat.mul_succ]; exact Nat.mul_le_mul_left _ ih
    omega

@[simp] theorem leBytes_length (n v : Nat) : (leBytes n v).length = n := by
  induction n generalizing v with
  | zero => rfl
  | succ n ih => simp [leBytes, ih]

theorem leValue_leBytes (n v : Nat) : leValue (leBytes n v) = v % 2 ^ (8 * n) := by
  induction n generalizing v with
  | zero => simp [leBytes, Nat.mod_one]
  | succ n ih =>
    rw [leBytes, leValue_cons, ih, BitVec.toNat_ofNat, Nat.mul_add 8, Nat.pow_add, Nat.mul_comm (2 ^ (8 * n)),
      show 8 * 1 = 8 by rfl, Nat.mod_mul]

theorem leBytes_leValue (bs : List Byte) : leBytes bs.length (leValue bs) = bs := by
  induction bs with
  | nil => rfl
  | cons b bs ih =>
    have hb : b.toNat < 2 ^ 8 := b.isLt
    rw [List.length_cons, leBytes, leValue_cons]
    congr 1
    · apply BitVec.eq_of_toNat_eq
      rw [BitVec.toNat_ofNat]
      omega
    · rw [show (b.toNat + 2 ^ 8 * leValue bs) / 256 = leValue bs by omega]
      exact ih

/-- Two byte strings of one length and one value are the same. -/
theorem leValue_inj {as bs : List Byte} (hl : as.length = bs.length) (hv : leValue as = leValue bs) : as = bs := by
  rw [← leBytes_leValue as, hl, hv, leBytes_leValue]

theorem leBytes_getElem (n v j : Nat) (h : j < (leBytes n v).length) :
    (leBytes n v)[j] = BitVec.ofNat 8 (v / 2 ^ (8 * j)) := by
  induction n generalizing v j with
  | zero => simp at h
  | succ n ih =>
    cases j with
    | zero => simp [leBytes]
    | succ j =>
      simp only [leBytes, List.getElem_cons_succ]
      rw [ih, Nat.div_div_eq_div_mul, Nat.mul_add 8, Nat.pow_add, Nat.mul_comm (2 ^ (8 * j))]

/-- Adding a number above the bits of another is the same as or-ing it in. -/
theorem or_shift_eq_add {a n : Nat} (b : Nat) (h : a < 2 ^ n) : a ||| b <<< n = a + 2 ^ n * b := by
  rw [Nat.or_comm, ← Nat.shiftLeft_add_eq_or_of_lt h, Nat.shiftLeft_eq]
  ring

theorem div_pow_add (a m n : Nat) : a / 2 ^ (m + n) = a / 2 ^ m / 2 ^ n := by
  rw [pow_add, Nat.div_div_eq_div_mul]

end Sys2Proof.Machine
end

