-- ==== Sys2Proof/Laws/Cells.lean ====
section
/-! SUPPORT. Laws of the sparse arrays and of every memory operation: what is read after a write, and that the canonical
form is kept. -/

namespace Sys2Proof.Machine

variable {w : Nat}

/-! ### One cell -/

theorem Cells.lookup_insert_same (l : List (Nat × BitVec w)) (a : Nat) (v : BitVec w) :
    Cells.lookup (Cells.insert l a v) a = some v := by
  induction l with
  | nil => simp [Cells.insert, Cells.lookup]
  | cons c r ih =>
    obtain ⟨k, u⟩ := c
    simp only [Cells.insert]
    split
    · simp [Cells.lookup]
    · split
      · simp [Cells.lookup]
      · simp only [Cells.lookup]
        rw [if_neg (by assumption), if_neg (by assumption)]
        exact ih

theorem Cells.lookup_insert_other (l : List (Nat × BitVec w)) {a b : Nat} (v : BitVec w) (h : b ≠ a) :
    Cells.lookup (Cells.insert l a v) b = Cells.lookup l b := by
  induction l with
  | nil => simp [Cells.insert, Cells.lookup, h]
  | cons c r ih =>
    obtain ⟨k, u⟩ := c
    simp only [Cells.insert]
    split
    · simp only [Cells.lookup, if_neg h]
      split
      · rw [if_neg (by omega), if_pos (by omega)]
      · rfl
    · split
      · subst_vars
        simp only [Cells.lookup, if_neg h]
      · simp only [Cells.lookup, ih]

@[simp] theorem Cells.get_put_same (m : Cells w) (a : Nat) (v : BitVec w) : (m.put a v).get? a = some v :=
  Cells.lookup_insert_same m.list a v

theorem Cells.get_put_other (m : Cells w) {a b : Nat} (v : BitVec w) (h : b ≠ a) :
    (m.put a v).get? b = m.get? b :=
  Cells.lookup_insert_other m.list v h

theorem Cells.get_put (m : Cells w) (a b : Nat) (v : BitVec w) :
    (m.put a v).get? b = if b = a then some v else m.get? b := by
  split
  · subst_vars; simp
  · exact Cells.get_put_other m v (by assumption)

@[simp] theorem Cells.get_empty (a : Nat) : (Cells.empty : Cells w).get? a = none := rfl

/-! ### The canonical form -/

theorem Cells.rising_mono {lo hi : Nat} (h : lo ≤ hi) :
    ∀ l : List (Nat × BitVec w), Cells.rising hi l = true → Cells.rising lo l = true
  | [], _ => rfl
  | (k, _) :: _, hl => by
    simp only [Cells.rising, Bool.and_eq_true, decide_eq_true_eq] at hl ⊢
    exact ⟨by omega, hl.2⟩

theorem Cells.rising_insert (l : List (Nat × BitVec w)) (lo a : Nat) (v : BitVec w) (ha : lo ≤ a)
    (hl : Cells.rising lo l = true) : Cells.rising lo (Cells.insert l a v) = true := by
  induction l generalizing lo with
  | nil => simp [Cells.insert, Cells.rising, ha]
  | cons c r ih =>
    obtain ⟨k, u⟩ := c
    simp only [Cells.rising, Bool.and_eq_true, decide_eq_true_eq] at hl
    simp only [Cells.insert]
    split
    · simp only [Cells.rising, Bool.and_eq_true, decide_eq_true_eq]
      exact ⟨ha, by omega, hl.2⟩
    · split
      · subst_vars
        simpa only [Cells.rising, Bool.and_eq_true, decide_eq_true_eq] using ⟨ha, hl.2⟩
      · simp only [Cells.rising, Bool.and_eq_true, decide_eq_true_eq]
        exact ⟨hl.1, ih (k + 1) (by omega) hl.2⟩

theorem Cells.rising_remove (l : List (Nat × BitVec w)) (lo a : Nat) (hl : Cells.rising lo l = true) :
    Cells.rising lo (Cells.remove l a) = true := by
  induction l generalizing lo with
  | nil => rfl
  | cons c r ih =>
    obtain ⟨k, u⟩ := c
    simp only [Cells.rising, Bool.and_eq_true, decide_eq_true_eq] at hl
    simp only [Cells.remove]
    split
    · exact Cells.rising_mono (by omega) r hl.2
    · split
      · simpa only [Cells.rising, Bool.and_eq_true, decide_eq_true_eq] using hl
      · simp only [Cells.rising, Bool.and_eq_true, decide_eq_true_eq]
        exact ⟨hl.1, ih (k + 1) hl.2⟩

@[simp] theorem Cells.empty_wf : (Cells.empty : Cells w).wf = true := rfl

theorem Cells.put_wf (m : Cells w) (a : Nat) (v : BitVec w) (h : m.wf = true) : (m.put a v).wf = true :=
  Cells.rising_insert m.list 0 a v (by omega) h

theorem Cells.rising_listFrom (vs : List (BitVec w)) (a : Nat) : Cells.rising a (Cells.listFrom a vs) = true := by
  induction vs generalizing a with
  | nil => rfl
  | cons v vs ih => simp [Cells.listFrom, Cells.rising, ih]

theorem Cells.ofList_wf (vs : List (BitVec w)) : (Cells.ofList vs).wf = true := Cells.rising_listFrom vs 0

/-! ### Zero-default tables -/

theorem Cells.mem_insert {l : List (Nat × BitVec w)} {a : Nat} {v : BitVec w} {c : Nat × BitVec w}
    (h : c ∈ Cells.insert l a v) : c = (a, v) ∨ c ∈ l := by
  induction l with
  | nil => simpa [Cells.insert] using h
  | cons d r ih =>
    obtain ⟨k, u⟩ := d
    simp only [Cells.insert] at h
    split at h
    · simpa using h
    · split at h
      · rcases List.mem_cons.1 h with h | h
        · exact .inl h
        · exact .inr (List.mem_cons_of_mem _ h)
      · rcases List.mem_cons.1 h with h | h
        · exact .inr (h ▸ List.mem_cons_self ..)
        · exact (ih h).imp_right (List.mem_cons_of_mem _)

theorem Cells.mem_remove {l : List (Nat × BitVec w)} {a : Nat} {c : Nat × BitVec w} (h : c ∈ Cells.remove l a) :
    c ∈ l := by
  induction l with
  | nil => simp [Cells.remove] at h
  | cons d r ih =>
    obtain ⟨k, u⟩ := d
    simp only [Cells.remove] at h
    split at h
    · exact List.mem_cons_of_mem _ h
    · split at h
      · exact h
      · rcases List.mem_cons.1 h with h | h
        · exact h ▸ List.mem_cons_self ..
        · exact List.mem_cons_of_mem _ (ih h)

@[simp] theorem Cells.empty_slotsWf : (Cells.empty : Cells w).slotsWf = true := rfl

theorem Cells.setSlot_slotsWf (m : Cells w) (a : Nat) (v : BitVec w) (h : m.slotsWf = true) :
    (m.setSlot a v).slotsWf = true := by
  simp only [Cells.slotsWf, Bool.and_eq_true, List.all_eq_true, bne_iff_ne] at h ⊢
  unfold Cells.setSlot
  split
  · exact ⟨Cells.rising_remove m.list 0 a h.1, fun c hc => h.2 c (Cells.mem_remove hc)⟩
  · refine ⟨Cells.put_wf m a v h.1, fun c hc => ?_⟩
    rcases Cells.mem_insert hc with rfl | hc
    · assumption
    · exact h.2 c hc

theorem Cells.ofSlots_slotsWf (l : List (Nat × BitVec w)) : (Cells.ofSlots l).slotsWf = true := by
  unfold Cells.ofSlots
  induction l with
  | nil => rfl
  | cons c r ih => exact Cells.setSlot_slotsWf _ _ _ ih

theorem Cells.lookup_below {lo a : Nat} :
    ∀ {l : List (Nat × BitVec w)}, Cells.rising lo l = true → a < lo → Cells.lookup l a = none
  | [], _, _ => rfl
  | (k, _) :: _, hl, h => by
    simp only [Cells.rising, Bool.and_eq_true, decide_eq_true_eq] at hl
    simp only [Cells.lookup]
    rw [if_neg (by omega), if_pos (by omega)]

theorem Cells.lookup_remove (l : List (Nat × BitVec w)) (lo a b : Nat) (hl : Cells.rising lo l = true) :
    Cells.lookup (Cells.remove l a) b = if b = a then none else Cells.lookup l b := by
  induction l generalizing lo with
  | nil => simp [Cells.remove, Cells.lookup]
  | cons c r ih =>
    obtain ⟨k, u⟩ := c
    simp only [Cells.rising, Bool.and_eq_true, decide_eq_true_eq] at hl
    simp only [Cells.remove]
    split
    · subst_vars
      split
      · subst_vars; exact Cells.lookup_below hl.2 (by omega)
      · simp only [Cells.lookup]
        rw [if_neg (by assumption)]
        split
        · exact Cells.lookup_below hl.2 (by omega)
        · rfl
    · split
      · split
        · subst_vars
          simp only [Cells.lookup]
          rw [if_neg (by assumption), if_pos (by assumption)]
        · rfl
      · simp only [Cells.lookup, ih (k + 1) hl.2]
        split
        · rw [if_neg (by omega)]
        · split
          · split <;> rfl
          · rfl

/-- The slot read back after a write, and the other slots. -/
theorem Cells.slot_setSlot (m : Cells w) (a b : Nat) (v : BitVec w) (h : m.wf = true) :
    (m.setSlot a v).slot b = if b = a then v else m.slot b := by
  unfold Cells.setSlot Cells.slot
  split
  · subst_vars
    show (Cells.lookup (Cells.remove m.list a) b).getD 0 = _
    rw [Cells.lookup_remove m.list 0 a b h]
    split <;> rfl
  · rw [Cells.get_put]
    split <;> rfl

/-! ### Access to a space -/

/-- Everything a cell read can do. -/
theorem readCell_ok {sp : Space} {size a : Nat} {m : Cells w} {v : BitVec w} :
    readCell sp size m a = .ok v ↔ a < size ∧ m.get? a = some v := by
  unfold readCell
  split
  · split <;> simp_all
  · simp_all

/-- Everything a cell write can do. -/
theorem writeCell_ok {sp : Space} {size a : Nat} {m m' : Cells w} {v : BitVec w} :
    writeCell sp size m a v = .ok m' ↔ a < size ∧ m' = m.put a v := by
  unfold writeCell
  split <;> simp_all [eq_comm]

theorem readCell_readable {sp : Space} {size a : Nat} {m : Cells w} (ha : a < size)
    (h : (m.get? a).isSome = true) : readCell sp size m a = .ok ((m.get? a).getD 0) := by
  obtain ⟨v, hv⟩ := Option.isSome_iff_exists.1 h
  simp [readCell_ok.2 ⟨ha, hv⟩, hv]

@[simp] theorem tabulateFrom_length {α : Type} (f : Nat → α) (n i : Nat) : (tabulateFrom f n i).length = n := by
  induction n generalizing i with
  | zero => rfl
  | succ n ih => simp [tabulateFrom, ih]

theorem tabulateFrom_getElem {α : Type} (f : Nat → α) (n i j : Nat) (h : j < (tabulateFrom f n i).length) :
    (tabulateFrom f n i)[j] = f (i + j) := by
  induction n generalizing i j with
  | zero => simp at h
  | succ n ih =>
    cases j with
    | zero => rfl
    | succ j =>
      simp only [tabulateFrom, List.getElem_cons_succ]
      rw [ih]
      congr 1
      omega

@[simp] theorem Cells.window_length (m : Cells w) (a n : Nat) : (m.window a n).length = n := by
  simp [Cells.window]

@[simp] theorem Cells.window_zero (m : Cells w) (a : Nat) : m.window a 0 = [] := rfl

theorem Cells.window_succ (m : Cells w) (a n : Nat) :
    m.window a (n + 1) = (m.get? a).getD 0 :: m.window (a + 1) n := rfl

theorem Cells.window_append (m : Cells w) (a n k : Nat) :
    m.window a (n + k) = m.window a n ++ m.window (a + n) k := by
  induction n generalizing a with
  | zero => simp
  | succ n ih =>
    rw [show n + 1 + k = (n + k) + 1 by omega, Cells.window_succ, ih, Cells.window_succ]
    simp only [List.cons_append]
    rw [show a + 1 + n = a + (n + 1) by omega]

theorem Cells.window_congr {m m' : Cells w} {a n : Nat} (h : ∀ k, a ≤ k → k < a + n → m.get? k = m'.get? k) :
    m.window a n = m'.window a n := by
  induction n generalizing a with
  | zero => rfl
  | succ n ih =>
    rw [Cells.window_succ, Cells.window_succ, h a (by omega) (by omega), ih (fun k h1 h2 => h k (by omega) (by omega))]

/-- Bytes that have all been written are read. -/
theorem readBytes_readable {sp : Space} {size : Nat} {m : Memory} {a n : Nat} (hs : n = 0 ∨ a + n ≤ size)
    (h : m.readable a (a + n)) : readBytes sp size m a n = .ok (m.window a n) := by
  induction n generalizing a with
  | zero => rfl
  | succ n ih =>
    simp only [readBytes]
    rw [readCell_readable (by omega) (h a (by omega) (by omega)),
      show (readBytes sp size m (a + 1) n) = .ok (m.window (a + 1) n) from
        ih (by omega) (fun k h1 h2 => h k (by omega) (by omega))]
    rfl

/-- Everything a byte read can do. -/
theorem readBytes_ok {sp : Space} {size : Nat} {m : Memory} {a n : Nat} {bs : List Byte}
    (h : readBytes sp size m a n = .ok bs) :
    bs = m.window a n ∧ m.readable a (a + n) ∧ (n = 0 ∨ a + n ≤ size) := by
  induction n generalizing a bs with
  | zero =>
    simp only [readBytes, Except.ok.injEq] at h
    exact ⟨h.symm, fun k h1 h2 => by omega, .inl rfl⟩
  | succ n ih =>
    simp only [readBytes] at h
    cases h1 : readCell sp size m a with
    | error e => rw [h1] at h; cases h
    | ok b =>
      cases h2 : readBytes sp size m (a + 1) n with
      | error e => rw [h1] at h; simp only [h2] at h; cases h
      | ok r =>
        rw [h1] at h
        simp only [h2] at h
        cases h
        obtain ⟨ha, hb⟩ := readCell_ok.1 h1
        obtain ⟨hr, hread, hsz⟩ := ih h2
        refine ⟨?_, ?_, by omega⟩
        · rw [Cells.window_succ, hb, ← hr]; rfl
        · intro k hk1 hk2
          by_cases hk : k = a
          · subst hk; simp [hb]
          · exact hread k (by omega) (by omega)

/-- What a byte write does: it lands iff it is inside the space. -/
theorem writeBytes_spec (sp : Space) (size : Nat) (m : Memory) (a : Nat) (bs : List Byte)
    (hs : bs = [] ∨ a + bs.length ≤ size) :
    ∃ m', writeBytes sp size m a bs = .ok m' ∧ (∀ j (h : j < bs.length), m'.get? (a + j) = some bs[j])
      ∧ ∀ k, k < a ∨ a + bs.length ≤ k → m'.get? k = m.get? k := by
  induction bs generalizing m a with
  | nil => exact ⟨m, rfl, fun j h => by simp at h, fun k _ => rfl⟩
  | cons b bs ih =>
    simp only [List.length_cons, reduceCtorEq, false_or] at hs
    obtain ⟨m', h1, h2, h3⟩ := ih (m.put a b) (a + 1) (by right; omega)
    refine ⟨m', ?_, ?_, ?_⟩
    · simp only [writeBytes]
      rw [writeCell_ok.2 ⟨by omega, rfl⟩]
      exact h1
    · intro j hj
      cases j with
      | zero => rw [Nat.add_zero, h3 a (by omega)]; simp
      | succ j =>
        simp only [List.getElem_cons_succ]
        rw [← h2 j (by simpa using hj)]
        congr 1
        omega
    · intro k hk
      simp only [List.length_cons] at hk
      rw [h3 k (by omega), Cells.get_put_other _ _ (by omega)]

theorem writeBytes_wf {sp : Space} {size : Nat} {m m' : Memory} {a : Nat} {bs : List Byte}
    (h : writeBytes sp size m a bs = .ok m') (hm : m.wf = true) : m'.wf = true := by
  induction bs generalizing m a with
  | nil => cases h; exact hm
  | cons b bs ih =>
    simp only [writeBytes] at h
    cases h1 : writeCell sp size m a b with
    | error e => rw [h1] at h; cases h
    | ok m1 =>
      rw [h1] at h
      obtain ⟨_, rfl⟩ := writeCell_ok.1 h1
      exact ih h (Cells.put_wf m a b hm)

/-- What the one copy of rule R92 does: each byte is the one its distance back, new bytes included. -/
theorem copyAscending_spec (sp : Space) (size : Nat) (m : Memory) (src dst n : Nat)
    (hs : n = 0 ∨ (dst + n ≤ size ∧ src + n ≤ size))
    (hr : ∀ k, src ≤ k → k < src + n → k < dst ∨ dst + n ≤ k → (m.get? k).isSome = true)
    (hd : src < dst ∨ dst + n ≤ src ∨ (dst ≤ src ∧ m.readable src (src + n))) :
    ∃ m', copyAscending sp size m src dst n = .ok m'
      ∧ (src < dst → ∀ j, j < n → m'.get? (dst + j) = m'.get? (src + j))
      ∧ (dst ≤ src → ∀ j, j < n → m'.get? (dst + j) = m.get? (src + j))
      ∧ ∀ k, k < dst ∨ dst + n ≤ k → m'.get? k = m.get? k := by
  induction n generalizing m src dst with
  | zero => exact ⟨m, rfl, fun _ j h => by omega, fun _ j h => by omega, fun k _ => rfl⟩
  | succ n ih =>
    have hsome : (m.get? src).isSome = true := by
      rcases hd with hd | hd | hd
      · exact hr src (by omega) (by omega) (by omega)
      · exact hr src (by omega) (by omega) (by omega)
      · exact hd.2 src (by omega) (by omega)
    obtain ⟨v, hv⟩ := Option.isSome_iff_exists.1 hsome
    obtain ⟨m', h1, h2, h3, h4⟩ := ih (m.put dst v) (src + 1) (dst + 1) (by omega)
      (by
        intro k hk1 hk2 hk3
        rw [Cells.get_put]
        split
        · rfl
        · exact hr k (by omega) (by omega) (by omega))
      (by
        rcases hd with hd | hd | hd
        · left; omega
        · right; left; omega
        · by_cases h0 : src = dst
          · right; right
            refine ⟨by omega, fun k hk1 hk2 => ?_⟩
            rw [Cells.get_put]
            split
            · rfl
            · exact hd.2 k (by omega) (by omega)
          · right; right
            refine ⟨by omega, fun k hk1 hk2 => ?_⟩
            rw [Cells.get_put]
            split
            · rfl
            · exact hd.2 k (by omega) (by omega))
    refine ⟨m', ?_, ?_, ?_, ?_⟩
    · simp only [copyAscending]
      rw [readCell_ok.2 ⟨by omega, hv⟩]
      show (do let m ← writeCell sp size m dst v; copyAscending sp size m (src + 1) (dst + 1) n) = _
      rw [writeCell_ok.2 ⟨by omega, rfl⟩]
      exact h1
    · intro hlt j hj
      cases j with
      | zero =>
        rw [Nat.add_zero, Nat.add_zero, h4 dst (by omega), Cells.get_put_same]
        rw [h4 src (by omega), Cells.get_put_other _ _ (by omega), hv]
      | succ j =>
        have := h2 (by omega) j (by omega)
        rw [show dst + (j + 1) = dst + 1 + j by omega, show src + (j + 1) = src + 1 + j by omega]
        exact this
    · intro hle j hj
      cases j with
      | zero => rw [Nat.add_zero, Nat.add_zero, h4 dst (by omega), Cells.get_put_same, hv]
      | succ j =>
        have := h3 (by omega) j (by omega)
        rw [show dst + (j + 1) = dst + 1 + j by omega, this, Cells.get_put_other _ _ (by omega),
          show src + (j + 1) = src + 1 + j by omega]
    · intro k hk
      rw [h4 k (by omega), Cells.get_put_other _ _ (by omega)]

theorem copyAscending_wf {sp : Space} {size : Nat} {m m' : Memory} {src dst n : Nat}
    (h : copyAscending sp size m src dst n = .ok m') (hm : m.wf = true) : m'.wf = true := by
  induction n generalizing m src dst with
  | zero => cases h; exact hm
  | succ n ih =>
    simp only [copyAscending] at h
    cases h1 : readCell sp size m src with
    | error e => rw [h1] at h; cases h
    | ok b =>
      rw [h1] at h
      cases h2 : writeCell sp size m dst b with
      | error e => simp only [bind, Except.bind, h2] at h; cases h
      | ok m1 =>
        simp only [bind, Except.bind, h2] at h
        obtain ⟨_, rfl⟩ := writeCell_ok.1 h2
        exact ih h (Cells.put_wf m dst b hm)

/-- The array made from a list holds it. -/
theorem Cells.get_ofList (vs : List (BitVec w)) (a : Nat) : (Cells.ofList vs).get? a = vs[a]? := by
  have key : ∀ (vs : List (BitVec w)) (i a : Nat), Cells.lookup (Cells.listFrom i vs) a
      = if a < i then none else vs[a - i]? := by
    intro vs
    induction vs with
    | nil => intro i a; simp [Cells.listFrom, Cells.lookup]
    | cons v vs ih =>
      intro i a
      simp only [Cells.listFrom, Cells.lookup, ih]
      split
      · subst_vars; simp
      · split
        · rfl
        · rw [if_neg (by omega), show a - i = (a - (i + 1)) + 1 by omega, List.getElem?_cons_succ]
  exact (key vs 0 a).trans (by simp)

theorem Cells.ofList_readable (vs : List (BitVec w)) : (Cells.ofList vs).readable 0 vs.length := by
  intro k _ hk
  simp [Cells.get_ofList, hk]

/-! ### Reset -/

theorem State.reset_memoriesWf : State.reset.memoriesWf = true := by decide

end Sys2Proof.Machine
end

