-- ==== Sys2Proof/Laws/CodeLengths.lean ====
section
/-! SUPPORT. The reference instance of `CodeLengths` (rule R188) meets its contract: lengths of at least 1, not decreasing,
Kraft sum exactly 1. One lemma for each of its three passes. -/

namespace Sys2Proof.Machine

theorem getD_set_self {a : List Nat} {i v : Nat} (h : i < a.length) : (a.set i v).getD i 0 = v := by
  simp [List.getD_eq_getElem?_getD, h]

theorem getD_set_ne {a : List Nat} {i j v : Nat} (h : i ≠ j) : (a.set i v).getD j 0 = a.getD j 0 := by
  simp [List.getD_eq_getElem?_getD, List.getElem?_set_ne h]

/-- How many of the first `r` entries are `e`. -/
def entryCount (a : List Nat) (r e : Nat) : Nat := ((Finset.range r).filter (fun i => a.getD i 0 = e)).card

theorem entryCount_congr {a b : List Nat} {r e : Nat} (h : ∀ i, i < r → a.getD i 0 = b.getD i 0) :
    entryCount a r e = entryCount b r e := by
  unfold entryCount
  congr 1
  ext i
  simp only [Finset.mem_filter, Finset.mem_range]
  exact and_congr_right fun hi => by rw [h i hi]

/-! ### Pass 1: parents -/

/-- The first `root` nodes have their parents: above them, in order, no parent with more than two children. -/
structure Parents (a : List Nat) (root last own : Nat) : Prop where
  above : ∀ i, i < root → i < a.getD i 0 ∧ a.getD i 0 ≤ last
  mono : ∀ i j, i ≤ j → j < root → a.getD i 0 ≤ a.getD j 0
  two : ∀ v, entryCount a root v ≤ 2
  own : entryCount a root last ≤ own

theorem Parents.congr {a b : List Nat} {root last own : Nat} (h : Parents a root last own)
    (hb : ∀ i, i < root → b.getD i 0 = a.getD i 0) : Parents b root last own where
  above := fun i hi => by rw [hb i hi]; exact h.above i hi
  mono := fun i j hij hj => by rw [hb i (by omega), hb j hj]; exact h.mono i j hij hj
  two := fun v => by rw [entryCount_congr hb]; exact h.two v
  own := by rw [entryCount_congr hb]; exact h.own

/-- One more node gets the newest parent. -/
theorem Parents.adopt {a b : List Nat} {root last own : Nat} (h : Parents a root last own) (ho : own ≤ 1)
    (hl : root < last) (hb : ∀ i, i < root → b.getD i 0 = a.getD i 0) (hr : b.getD root 0 = last) :
    Parents b (root + 1) last (own + 1) := by
  have hc : ∀ v, entryCount b (root + 1) v = entryCount a root v + if last = v then 1 else 0 := by
    intro v
    unfold entryCount
    rw [Finset.range_add_one, Finset.filter_insert, hr]
    have e := entryCount_congr (e := v) hb
    unfold entryCount at e
    split
    · rw [Finset.card_insert_of_notMem (by simp), e]
    · rw [e, Nat.add_zero]
  refine ⟨fun i hi => ?_, fun i j hij hj => ?_, fun v => ?_, ?_⟩
  · rcases Nat.lt_succ_iff_lt_or_eq.1 hi with h1 | rfl
    · rw [hb i h1]; exact h.above i h1
    · rw [hr]; exact ⟨hl, le_refl _⟩
  · rcases Nat.lt_succ_iff_lt_or_eq.1 hj with h1 | rfl
    · rw [hb i (by omega), hb j h1]; exact h.mono i j hij h1
    · rw [hr]
      rcases Nat.lt_or_eq_of_le hij with h1 | rfl
      · rw [hb i h1]; exact (h.above i h1).2
      · rw [hr]
  · rw [hc]
    split
    · next hv => subst hv; have := h.own; omega
    · exact h.two v
  · rw [hc, if_pos rfl]
    have := h.own
    omega

/-- A new parent has no children yet. -/
theorem Parents.newer {a : List Nat} {root last own : Nat} (h : Parents a root last own) : Parents a root (last + 1) 0 where
  above := fun i hi => ⟨(h.above i hi).1, by have := (h.above i hi).2; omega⟩
  mono := h.mono
  two := h.two
  own := by
    unfold entryCount
    rw [Nat.le_zero, Finset.card_eq_zero, Finset.filter_eq_empty_iff]
    intro i hi
    have := (h.above i (Finset.mem_range.1 hi)).2
    omega

theorem Parents.weaken {a : List Nat} {root last o1 o2 : Nat} (h : Parents a root last o1) (ho : o1 ≤ o2) :
    Parents a root last o2 := ⟨h.above, h.mono, h.two, h.own.trans ho⟩

/-- Pass 1 gives every node but the last its parent. -/
theorem mkPass1_parents (m : Nat) : ∀ (n next : Nat) (q : MkState), next + n + 1 = m → q.a.length = m →
    q.root + q.leaf = 2 * next → q.leaf ≤ m → q.root < next → Parents q.a q.root (next - 1) 2 →
    (mkPass1 m n next q).a.length = m ∧ Parents (mkPass1 m n next q).a (m - 2) (m - 2) 2 := by
  intro n
  induction n with
  | zero =>
    intro next q h1 h2 h3 h4 h5 h6
    have : q.root = m - 2 := by omega
    have h7 : next - 1 = m - 2 := by omega
    rw [this, h7] at h6
    exact ⟨h2, h6⟩
  | succ n ih =>
    intro next q h1 h2 h3 h4 h5 h6
    have hn : next - 1 + 1 = next := by omega
    have h6' : Parents q.a q.root next 0 := by rw [← hn]; exact h6.newer
    have first : (mkFirst m next q).a.length = m ∧ (mkFirst m next q).root + (mkFirst m next q).leaf = 2 * next + 1
        ∧ (mkFirst m next q).leaf ≤ m ∧ (mkFirst m next q).root ≤ next
        ∧ Parents (mkFirst m next q).a (mkFirst m next q).root next 1 := by
      unfold mkFirst
      split
      · refine ⟨by simp [h2], by simp only; omega, h4, by simp only; omega, ?_⟩
        refine h6'.adopt (Nat.zero_le 1) h5 (fun i hi => ?_) (getD_set_self (by simp; omega))
        rw [getD_set_ne (by omega), getD_set_ne (by omega)]
      · next hc =>
        push Not at hc
        refine ⟨by simp [h2], by simp only; omega, by simp only; omega, by simp only; omega, ?_⟩
        exact (h6'.congr fun i hi => getD_set_ne (by omega)).weaken (by omega)
    obtain ⟨f1, f2, f3, f4, f5⟩ := first
    unfold mkPass1
    generalize mkFirst m next q = r at f1 f2 f3 f4 f5
    have second : (mkSecond m next r).a.length = m ∧ (mkSecond m next r).root + (mkSecond m next r).leaf = 2 * (next + 1)
        ∧ (mkSecond m next r).leaf ≤ m ∧ (mkSecond m next r).root < next + 1
        ∧ Parents (mkSecond m next r).a (mkSecond m next r).root next 2 := by
      unfold mkSecond
      split
      · next hc =>
        have hr : r.root < next := by
          rcases hc with hc | hc
          · omega
          · exact hc.1
        refine ⟨by simp [f1], by simp only; omega, f3, by simp only; omega, ?_⟩
        refine f5.adopt (le_refl 1) hr (fun i hi => ?_) (getD_set_self (by simp; omega))
        rw [getD_set_ne (by omega), getD_set_ne (by omega)]
      · next hc =>
        push Not at hc
        refine ⟨by simp [f1], by simp only; omega, by simp only; omega, by simp only; omega, ?_⟩
        exact (f5.congr fun i hi => getD_set_ne (by omega)).weaken (by omega)
    obtain ⟨s1, s2, s3, s4, s5⟩ := second
    exact ih (next + 1) _ (by omega) s1 s2 s3 s4 (by simpa using s5)

/-! ### Pass 2: depths of the internal nodes -/

/-- Pass 2 makes each node one deeper than its parent. -/
theorem mkPass2_spec : ∀ (n : Nat) (a : List Nat), n ≤ a.length → (∀ i, i < n → i < a.getD i 0) →
    (mkPass2 n a).length = a.length ∧ (∀ j, n ≤ j → (mkPass2 n a).getD j 0 = a.getD j 0)
      ∧ ∀ i, i < n → (mkPass2 n a).getD i 0 = (mkPass2 n a).getD (a.getD i 0) 0 + 1 := by
  intro n
  induction n with
  | zero => exact fun a _ _ => ⟨rfl, fun _ _ => rfl, fun i hi => absurd hi (Nat.not_lt_zero i)⟩
  | succ n ih =>
    intro a hl hp
    have keep : ∀ i, i ≠ n → (a.set n (a.getD (a.getD n 0) 0 + 1)).getD i 0 = a.getD i 0 :=
      fun i hi => getD_set_ne (Ne.symm hi)
    obtain ⟨h1, h2, h3⟩ := ih (a.set n (a.getD (a.getD n 0) 0 + 1)) (by simp; omega)
      (fun i hi => by rw [keep i (by omega)]; exact hp i (by omega))
    unfold mkPass2
    refine ⟨by rw [h1, List.length_set], fun j hj => by rw [h2 j (by omega), keep j (by omega)], fun i hi => ?_⟩
    rcases Nat.lt_succ_iff_lt_or_eq.1 hi with hi' | rfl
    · rw [h3 i hi', keep i (by omega)]
    · have := hp i hi
      rw [h2 i (le_refl i), getD_set_self (by omega), h2 _ (by omega), keep _ (by omega)]

/-- The depths of the internal nodes, as pass 3 needs them: not increasing, each depth with at most twice as many nodes as
the one above. -/
structure Depths (a : List Nat) (root depth avbl : Nat) : Prop where
  deep : ∀ i, i < root → depth ≤ a.getD i 0
  anti : ∀ i j, i ≤ j → j < root → a.getD j 0 ≤ a.getD i 0
  twice : ∀ e, depth ≤ e → entryCount a root (e + 1) ≤ 2 * entryCount a root e
  top : entryCount a root depth ≤ avbl

theorem depths_of_parents {a : List Nat} {m : Nat} (hm : 2 ≤ m) (hl : a.length = m) (hp : Parents a (m - 2) (m - 2) 2) :
    (mkPass2 (m - 2) (a.set (m - 2) 0)).length = m
      ∧ Depths (mkPass2 (m - 2) (a.set (m - 2) 0)) (m - 1) 0 1 := by
  have keep : ∀ i, i ≠ m - 2 → (a.set (m - 2) 0).getD i 0 = a.getD i 0 := fun i hi => getD_set_ne (Ne.symm hi)
  obtain ⟨h1, h2, h3⟩ := mkPass2_spec (m - 2) (a.set (m - 2) 0) (by simp; omega)
    (fun i hi => by rw [keep i (by omega)]; exact (hp.above i hi).1)
  generalize mkPass2 (m - 2) (a.set (m - 2) 0) = r at h1 h2 h3
  have hr : r.getD (m - 2) 0 = 0 := by rw [h2 _ (le_refl _), getD_set_self (by omega)]
  have hd : ∀ i, i < m - 2 → r.getD i 0 = r.getD (a.getD i 0) 0 + 1 := fun i hi => by rw [h3 i hi, keep i (by omega)]
  have anti : ∀ k i j, m - i ≤ k → i ≤ j → j < m - 1 → r.getD j 0 ≤ r.getD i 0 := by
    intro k
    induction k with
    | zero => intro i j h4 h5 h6; omega
    | succ k ih =>
      intro i j h4 h5 h6
      rcases Nat.lt_or_ge j (m - 2) with hj | hj
      · have p1 := hp.above i (by omega)
        have p2 := hp.above j hj
        rw [hd i (by omega), hd j hj]
        exact Nat.succ_le_succ (ih _ _ (by omega) (hp.mono i j h5 hj) (by omega))
      · obtain rfl : j = m - 2 := by omega
        rw [hr]; exact Nat.zero_le _
  refine ⟨by simpa [hl] using h1, fun i _ => Nat.zero_le _, fun i j hij hj => anti m i j (by omega) hij hj, fun e _ => ?_, ?_⟩
  · unfold entryCount
    refine Finset.card_le_mul_card_image_of_maps_to (f := fun i => a.getD i 0) (fun i hi => ?_) 2 (fun v _ => ?_)
    · simp only [Finset.mem_filter, Finset.mem_range] at hi ⊢
      have hi2 : i < m - 2 := by
        by_contra hc
        obtain rfl : i = m - 2 := by omega
        omega
      have := hp.above i hi2
      have := hd i hi2
      omega
    · refine le_trans (Finset.card_le_card fun i hi => ?_) (hp.two v)
      simp only [Finset.mem_filter, Finset.mem_range] at hi ⊢
      refine ⟨?_, hi.2⟩
      by_contra hc
      have : i = m - 2 := by omega
      rw [this] at hi
      omega
  · refine le_trans (Finset.card_le_card (t := {m - 2}) fun i hi => ?_) (le_of_eq (Finset.card_singleton _))
    simp only [Finset.mem_filter, Finset.mem_range, Finset.mem_singleton] at hi ⊢
    by_contra hc
    have := hd i (by omega)
    omega

/-! ### Pass 3: depths of the leaves -/

theorem mkFillLeaves_spec (depth : Nat) : ∀ (k next : Nat) (a : List Nat), k ≤ next → next ≤ a.length →
    (mkFillLeaves depth k next a).length = a.length
      ∧ (∀ i, next - k ≤ i → i < next → (mkFillLeaves depth k next a).getD i 0 = depth)
      ∧ ∀ i, i < next - k ∨ next ≤ i → (mkFillLeaves depth k next a).getD i 0 = a.getD i 0 := by
  intro k
  induction k with
  | zero => exact fun next a _ _ => ⟨rfl, fun i h1 h2 => by omega, fun _ _ => rfl⟩
  | succ k ih =>
    intro next a h1 h2
    obtain ⟨i1, i2, i3⟩ := ih (next - 1) (a.set (next - 1) depth) (by omega) (by simp; omega)
    unfold mkFillLeaves
    refine ⟨by rw [i1, List.length_set], fun i h3 h4 => ?_, fun i h3 => ?_⟩
    · rcases Nat.lt_or_ge i (next - 1) with h5 | h5
      · exact i2 i (by omega) h5
      · obtain rfl : i = next - 1 := by omega
        rw [i3 _ (.inr h5), getD_set_self (by omega)]
    · rw [i3 i (by omega), getD_set_ne (by omega)]

theorem mkCountDepth_spec (a : List Nat) (depth : Nat) : ∀ r, mkCountDepth a depth r ≤ r
    ∧ (∀ i, r - mkCountDepth a depth r ≤ i → i < r → a.getD i 0 = depth)
    ∧ (mkCountDepth a depth r < r → a.getD (r - mkCountDepth a depth r - 1) 0 ≠ depth) := by
  intro r
  induction r with
  | zero => exact ⟨le_refl 0, fun i _ h => absurd h (Nat.not_lt_zero i), fun h => absurd h (Nat.lt_irrefl 0)⟩
  | succ r ih =>
    obtain ⟨h1, h2, h3⟩ := ih
    unfold mkCountDepth
    split
    · next hd =>
      refine ⟨by omega, fun i h4 h5 => ?_, fun h4 => ?_⟩
      · rcases Nat.lt_succ_iff_lt_or_eq.1 h5 with h6 | rfl
        · exact h2 i (by omega) h6
        · exact hd
      · have e : r + 1 - (mkCountDepth a depth r + 1) - 1 = r - mkCountDepth a depth r - 1 := by omega
        rw [e]
        exact h3 (by omega)
    · next hd => exact ⟨Nat.zero_le _, fun i h4 h5 => by omega, fun _ => by simpa using hd⟩

/-- The nodes of the least depth are the last ones: counted off, the others are deeper. -/
theorem Depths.next {a : List Nat} {root depth avbl used : Nat} (h : Depths a root depth avbl)
    (hu : used = mkCountDepth a depth root) :
    used ≤ avbl ∧ used ≤ root ∧ (0 < root → 0 < used) ∧ Depths a (root - used) (depth + 1) (2 * used) := by
  obtain ⟨c1, c2, c3⟩ := mkCountDepth_spec a depth root
  rw [← hu] at c1 c2 c3
  have deeper : ∀ i, i < root - used → depth + 1 ≤ a.getD i 0 := by
    intro i hi
    have e1 := h.anti i (root - used - 1) (by omega) (by omega)
    have e2 := h.deep (root - used - 1) (by omega)
    have e3 := c3 (by omega)
    omega
  have hcu : entryCount a root depth = used := by
    have : (Finset.range root).filter (fun i => a.getD i 0 = depth) = Finset.Ico (root - used) root := by
      ext i
      simp only [Finset.mem_filter, Finset.mem_range, Finset.mem_Ico]
      refine ⟨fun hi => ⟨?_, hi.1⟩, fun hi => ⟨hi.2, c2 i hi.1 hi.2⟩⟩
      by_contra hc
      have := deeper i (by omega)
      omega
    unfold entryCount
    rw [this, Nat.card_Ico]
    omega
  have hce : ∀ e, depth + 1 ≤ e → entryCount a (root - used) e = entryCount a root e := by
    intro e he
    unfold entryCount
    congr 1
    ext i
    simp only [Finset.mem_filter, Finset.mem_range]
    refine ⟨fun hi => ⟨by omega, hi.2⟩, fun hi => ⟨?_, hi.2⟩⟩
    by_contra hc
    have := c2 i (by omega) hi.1
    omega
  have chain : ∀ k, 0 < entryCount a root (depth + k) → 0 < entryCount a root depth := by
    intro k
    induction k with
    | zero => exact id
    | succ k ih =>
      intro hk
      have := h.twice (depth + k) (by omega)
      rw [← Nat.add_assoc] at hk
      exact ih (by omega)
  refine ⟨hcu ▸ h.top, c1, fun hr => ?_, deeper, fun i j hij hj => h.anti i j hij (by omega), fun e he => ?_, ?_⟩
  · rw [← hcu]
    have hd := h.deep 0 hr
    refine chain (a.getD 0 0 - depth) (Finset.card_pos.2 ⟨0, ?_⟩)
    simp only [Finset.mem_filter, Finset.mem_range]
    exact ⟨hr, by omega⟩
  · rw [hce _ (by omega), hce e he]
    exact h.twice e (by omega)
  · rw [hce _ (le_refl _), ← hcu]
    exact h.twice depth (le_refl _)

theorem Depths.congr {a b : List Nat} {root depth avbl : Nat} (h : Depths a root depth avbl)
    (hb : ∀ i, i < root → b.getD i 0 = a.getD i 0) : Depths b root depth avbl where
  deep := fun i hi => by rw [hb i hi]; exact h.deep i hi
  anti := fun i j hij hj => by rw [hb j hj, hb i (by omega)]; exact h.anti i j hij hj
  twice := fun e he => by rw [entryCount_congr hb, entryCount_congr hb]; exact h.twice e he
  top := by rw [entryCount_congr hb]; exact h.top

/-- Pass 3 gives every leaf a depth; the leaves of a level and the nodes below it share what the level has. -/
theorem mkPass3_spec (top : Nat) : ∀ (n avbl depth root next : Nat) (a : List Nat), avbl = 0 ∨ root + 1 ≤ n →
    next = root + avbl → next ≤ a.length → (avbl = 0 ∨ depth + root ≤ top) → Depths a root depth avbl → (avbl = 0 → root = 0) →
    (mkPass3 n avbl depth root next a).length = a.length
      ∧ (∀ i, next ≤ i → (mkPass3 n avbl depth root next a).getD i 0 = a.getD i 0)
      ∧ (∀ i, i < next → depth ≤ (mkPass3 n avbl depth root next a).getD i 0
          ∧ (mkPass3 n avbl depth root next a).getD i 0 ≤ top)
      ∧ (∀ i j, i ≤ j → j < next →
          (mkPass3 n avbl depth root next a).getD j 0 ≤ (mkPass3 n avbl depth root next a).getD i 0)
      ∧ ∑ i ∈ Finset.range next, 2 ^ (top - (mkPass3 n avbl depth root next a).getD i 0) = avbl * 2 ^ (top - depth) := by
  intro n
  induction n with
  | zero =>
    intro avbl depth root next a h1 h2 h3 h4 h5 h6
    have h7 : avbl = 0 := by omega
    have h8 := h6 h7
    have h9 : next = 0 := by omega
    subst h7 h9
    exact ⟨rfl, fun _ _ => rfl, fun i hi => absurd hi (Nat.not_lt_zero i), fun i j _ hj => absurd hj (Nat.not_lt_zero j),
      by simp⟩
  | succ n ih =>
    intro avbl depth root next a h1 h2 h3 h4 h5 h6
    unfold mkPass3
    split
    · next h7 =>
      have h8 := h6 h7
      have h9 : next = 0 := by omega
      subst h7 h9
      exact ⟨rfl, fun _ _ => rfl, fun i hi => absurd hi (Nat.not_lt_zero i), fun i j _ hj => absurd hj (Nat.not_lt_zero j),
        by simp⟩
    · next h7 =>
      simp only
      generalize hu : mkCountDepth a depth root = used
      obtain ⟨u1, u2, u3, u4⟩ := h5.next hu.symm
      obtain ⟨f1, f2, f3⟩ := mkFillLeaves_spec depth (avbl - used) next a (by omega) h3
      obtain ⟨r1, r2, r3, r4, r5⟩ := ih (2 * used) (depth + 1) (root - used) (next - (avbl - used))
        (mkFillLeaves depth (avbl - used) next a) (by omega) (by omega) (by omega)
        (by
          rcases Nat.eq_zero_or_pos root with h | h
          · exact .inl (by omega)
          · have := u3 h; exact .inr (by omega))
        (u4.congr fun i hi => f3 i (.inl (by omega))) (fun h => by
          by_contra hc
          have := u3 (by omega)
          omega)
      generalize mkPass3 n (2 * used) (depth + 1) (root - used) (next - (avbl - used))
        (mkFillLeaves depth (avbl - used) next a) = r at r1 r2 r3 r4 r5
      have leaf : ∀ i, next - (avbl - used) ≤ i → i < next → r.getD i 0 = depth := fun i hi hj => by
        rw [r2 i hi, f2 i hi hj]
      have ht : depth ≤ top := by omega
      refine ⟨r1.trans f1, fun i hi => by rw [r2 i (by omega), f3 i (.inr hi)], fun i hi => ?_, fun i j hij hj => ?_, ?_⟩
      · rcases Nat.lt_or_ge i (next - (avbl - used)) with hi' | hi'
        · have := r3 i hi'; omega
        · rw [leaf i hi' hi]; exact ⟨le_refl _, ht⟩
      · rcases Nat.lt_or_ge j (next - (avbl - used)) with hj' | hj'
        · exact r4 i j hij hj'
        · rw [leaf j hj' hj]
          rcases Nat.lt_or_ge i (next - (avbl - used)) with hi' | hi'
          · have := r3 i hi'; omega
          · rw [leaf i hi' (by omega)]
      · rw [← Finset.sum_range_add_sum_Ico _ (Nat.sub_le next (avbl - used)), r5,
          Finset.sum_congr rfl (g := fun _ => 2 ^ (top - depth))
            (fun i hi => by rw [leaf i (Finset.mem_Ico.1 hi).1 (Finset.mem_Ico.1 hi).2]),
          Finset.sum_const, Nat.card_Ico, smul_eq_mul]
        have hk : next - (next - (avbl - used)) = avbl - used := by omega
        rw [hk]
        rcases Nat.eq_zero_or_pos used with h0 | h0
        · subst h0; simp
        · have e : top - depth = top - (depth + 1) + 1 := by omega
          rw [e, pow_succ]
          obtain ⟨c, rfl⟩ := Nat.exists_eq_add_of_le u1
          rw [Nat.add_sub_cancel_left]
          ring

/-! ### The instance -/

theorem codeLengthsAsc_spec {a : List Nat} (h : 2 ≤ a.length) :
    (codeLengthsAsc a).length = a.length
      ∧ (∀ i, i < a.length → 1 ≤ (codeLengthsAsc a).getD i 0 ∧ (codeLengthsAsc a).getD i 0 ≤ a.length)
      ∧ (∀ i j, i ≤ j → j < a.length → (codeLengthsAsc a).getD j 0 ≤ (codeLengthsAsc a).getD i 0)
      ∧ ∑ i ∈ Finset.range a.length, 2 ^ (a.length - (codeLengthsAsc a).getD i 0) = 2 ^ a.length := by
  obtain ⟨m, hm⟩ : ∃ m, m = a.length := ⟨_, rfl⟩
  rw [← hm] at h ⊢
  unfold codeLengthsAsc
  simp only [← hm]
  obtain ⟨p1, p2⟩ := mkPass1_parents m (m - 2) 1 ⟨a.set 0 (a.getD 0 0 + a.getD 1 0), 0, 2⟩ (by omega) (by simp [hm])
    rfl h (Nat.zero_lt_one) ⟨fun i hi => absurd hi (Nat.not_lt_zero i), fun i j _ hj => absurd hj (Nat.not_lt_zero j),
      fun v => by simp [entryCount], by simp [entryCount]⟩
  obtain ⟨d1, d2⟩ := depths_of_parents h p1 p2
  generalize mkPass2 (m - 2) ((mkPass1 m (m - 2) 1 _).a.set (m - 2) 0) = b at d1 d2
  obtain ⟨r1, r2, r3, r4, r5⟩ := mkPass3_spec m (m + 1) 1 0 (m - 1) m b (by omega) (by omega) (by omega) (by omega) d2
    (by omega)
  refine ⟨r1.trans d1, fun i hi => ⟨?_, (r3 i hi).2⟩, r4, by simpa using r5⟩
  by_contra hc
  have h0 : (mkPass3 (m + 1) 1 0 (m - 1) m b).getD i 0 = 0 := by omega
  have := Finset.sum_lt_sum_of_subset (s := {i}) (t := Finset.range m)
    (f := fun i => 2 ^ (m - (mkPass3 (m + 1) 1 0 (m - 1) m b).getD i 0)) (by simpa using hi)
    (i := if i = 0 then 1 else 0) (by split <;> simp <;> omega) (by split <;> simp <;> omega) (Nat.two_pow_pos _)
    (fun _ _ _ => Nat.zero_le _)
  rw [Finset.sum_singleton, h0, r5] at this
  simp at this

theorem sum_map_eq_range (f : Nat → Nat) (l : List Nat) :
    (l.map f).sum = ∑ i ∈ Finset.range l.length, f (l.getD i 0) := by
  induction l with
  | nil => rfl
  | cons x l ih => simp [Finset.sum_range_succ', ih, Nat.add_comm]

/-- A larger scale multiplies the Kraft sum. -/
theorem kraftScaled_add (ls : List Nat) (top k : Nat) (h : ∀ l ∈ ls, l ≤ top) :
    kraftScaled (top + k) ls = 2 ^ k * kraftScaled top ls := by
  unfold kraftScaled
  rw [← List.sum_map_mul_left]
  congr 1
  refine List.map_congr_left fun l hl => ?_
  have := h l hl
  rw [show top + k - l = k + (top - l) by omega, pow_add]

theorem le_foldl_max (ls : List Nat) (a : Nat) : a ≤ ls.foldl max a ∧ ∀ l ∈ ls, l ≤ ls.foldl max a := by
  induction ls generalizing a with
  | nil => exact ⟨le_refl a, fun l h => by cases h⟩
  | cons x ls ih =>
    obtain ⟨h1, h2⟩ := ih (max a x)
    refine ⟨le_trans (le_max_left a x) h1, fun l hl => ?_⟩
    rcases List.mem_cons.1 hl with rfl | hl
    · exact le_trans (le_max_right a l) h1
    · exact h2 l hl

theorem foldl_max_le (ls : List Nat) (a b : Nat) (ha : a ≤ b) (h : ∀ l ∈ ls, l ≤ b) : ls.foldl max a ≤ b := by
  induction ls generalizing a with
  | nil => exact ha
  | cons x ls ih => exact ih (max a x) (max_le ha (h x (by simp))) fun l hl => h l (by simp [hl])

theorem adjacent_le_iff (ls : List Nat) :
    (List.zipWith (fun a b => decide (a ≤ b)) ls (ls.drop 1)).all id = true ↔ ls.Pairwise (· ≤ ·) := by
  induction ls with
  | nil => simp
  | cons x ls ih =>
    cases ls with
    | nil => simp
    | cons y ls =>
      have e : List.zipWith (fun a b => decide (a ≤ b)) (x :: y :: ls) ((x :: y :: ls).drop 1)
          = decide (x ≤ y) :: List.zipWith (fun a b => decide (a ≤ b)) (y :: ls) ((y :: ls).drop 1) := rfl
      rw [e, List.all_cons, Bool.and_eq_true, ih, id, decide_eq_true_eq, List.pairwise_cons (a := x)]
      refine and_congr_left fun h => ⟨fun hxy z hz => ?_, fun hx => hx y (by simp)⟩
      rcases List.mem_cons.1 hz with rfl | hz
      · exact hxy
      · exact hxy.trans ((List.pairwise_cons.1 h).1 z hz)

/-- What the contract of `CodeLengths` says of a choice (rule R188), its cost apart. -/
structure CompleteLengths (m : Nat) (ls : List Nat) : Prop where
  length : ls.length = m
  pos : ∀ l ∈ ls, 1 ≤ l
  mono : ls.Pairwise (· ≤ ·)
  kraft : ∀ top, (∀ l ∈ ls, l ≤ top) → kraftScaled top ls = 2 ^ top

theorem completeLengths_of_kraft {m top : Nat} {ls : List Nat} (h1 : ls.length = m) (h2 : ∀ l ∈ ls, 1 ≤ l)
    (h3 : ls.Pairwise (· ≤ ·)) (h4 : ∀ l ∈ ls, l ≤ top) (h5 : kraftScaled top ls = 2 ^ top) : CompleteLengths m ls := by
  refine ⟨h1, h2, h3, fun t ht => ?_⟩
  have e1 := kraftScaled_add ls top t h4
  have e2 := kraftScaled_add ls t top ht
  rw [Nat.add_comm t top] at e2
  rw [e1, h5, ← pow_add] at e2
  refine Nat.eq_of_mul_eq_mul_left (Nat.two_pow_pos top) ?_
  rw [← e2, ← pow_add, Nat.add_comm]

theorem codeLengthsContract_complete {sorted ls : List Nat} (h : codeLengthsContract sorted ls = true) :
    CompleteLengths sorted.length ls := by
  unfold codeLengthsContract at h
  simp only [Bool.and_eq_true, beq_iff_eq, List.all_eq_true, decide_eq_true_eq] at h
  obtain ⟨⟨⟨⟨h1, h2⟩, h3⟩, h4⟩, -⟩ := h
  exact completeLengths_of_kraft h1 h2 ((adjacent_le_iff ls).1 (List.all_eq_true.2 h3)) (le_foldl_max ls 0).2 h4

/-- The reference instance gives a complete code (rule R188). -/
theorem codeLengthsRef_complete {sorted : List Nat} (h : 2 ≤ sorted.length) :
    CompleteLengths sorted.length (codeLengthsRef sorted) := by
  obtain ⟨h1, h2, h3, h4⟩ := codeLengthsAsc_spec (a := sorted.reverse) (by simpa using h)
  unfold codeLengthsRef
  generalize codeLengthsAsc sorted.reverse = r at h1 h2 h3 h4
  rw [← h1] at h2 h3 h4
  have mem : ∀ l ∈ r, 1 ≤ l ∧ l ≤ r.length := fun l hl => by
    obtain ⟨i, hi, rfl⟩ := List.getElem_of_mem hl
    simpa [List.getD_eq_getElem?_getD, hi] using h2 i hi
  refine completeLengths_of_kraft (top := r.length) (by simpa using h1) (fun l hl => (mem l (by simpa using hl)).1) ?_
    (fun l hl => (mem l (by simpa using hl)).2) ?_
  · rw [List.pairwise_reverse, List.pairwise_iff_getElem]
    intro i j hi hj hij
    simpa [List.getD_eq_getElem?_getD, hi, hj] using h3 i j (by omega) hj
  · unfold kraftScaled
    rw [List.map_reverse, List.sum_reverse, sum_map_eq_range, h4]

/-- `CodeLengths` meets its contract whatever the parameter chooses (rule R188). -/
theorem codeLengths_complete (p : Config.Params) {sorted : List Nat} (h : 2 ≤ sorted.length) :
    CompleteLengths sorted.length (codeLengths p sorted) := by
  unfold codeLengths
  split
  · split
    · next hc => exact codeLengthsContract_complete hc
    · exact codeLengthsRef_complete h
  · exact codeLengthsRef_complete h

end Sys2Proof.Machine
end

