-- ==== Sys2Proof/Laws/Ending.lean ====
section
/-! SUPPORT. What ends a `Decode()`: the drain, the return, the latch; how the outcome of an operation settles. -/

namespace Sys2Proof.Machine

/-- With nothing owed the drain changes nothing. -/
theorem Inflate.drain_of_drained {d : Inflate} (h : d.drained) : d.drain = .ok d := by
  obtain ⟨h1, h2⟩ := h
  simp [Inflate.drain, Inflate.drainLits, Inflate.drainCopy, h1, h2, bind, Except.bind]

/-- The return of `Decode()` with a status, nothing owed and no error latched. -/
theorem Inflate.endDecode_of_drained {d : Inflate} (st : Status) (h : d.drained) (he : d.inErr = none) :
    d.endDecode st = .ok (d.suspended st) := by
  simp [Inflate.endDecode, Inflate.drain_of_drained h, Inflate.suspended, Inflate.surfaced, bind, Except.bind, he]

/-- A terminal error with nothing owed (rule R412). -/
theorem Inflate.raiseTerminal_of_drained {d : Inflate} (k : ErrKind) (h : d.drained) :
    d.raiseTerminal k = .ok (d.failed k) := by
  have h' : (d.latch k).drained := h
  rw [Inflate.raiseTerminal, Inflate.endDecode, Inflate.drain_of_drained h']
  rfl

/-- Everything the return of `Decode()` can do: the drain, then the fields of the return. -/
theorem Inflate.endDecode_ok {d t : Inflate} {st : Status} (h : d.endDecode st = .ok t) :
    ∃ d', d.drain = .ok d' ∧ t = { d' with
      inBuf := Cells.empty
      retry := false
      stage := .idle
      ret := ⟨d'.surfaced st, (d'.inPos : Int) - d'.bitsLen / 8, []⟩ } := by
  unfold Inflate.endDecode at h
  cases hd : d.drain with
  | error e => rw [hd] at h; cases h
  | ok d' =>
    rw [hd] at h
    cases h
    exact ⟨d', rfl, rfl⟩

/-- Everything the settling of a body operation can do. -/
theorem settleBody_ok {r : Parse Inflate} {t : Inflate} (h : settleBody r = .ok t) :
    r = .ok t ∨ (∃ d, r = .error (.underflow d) ∧ d.bodyUnderflow = .ok t)
      ∨ (∃ d, r = .error (.endInput d) ∧ d.endDecode .endInput = .ok t)
      ∨ (∃ d, r = .error (.overflow d) ∧ d.endDecode .outputOverflow = .ok t)
      ∨ ∃ k d, r = .error (.raise k d) ∧ d.raiseTerminal k = .ok t := by
  cases r with
  | ok d => cases h; exact .inl rfl
  | error e => cases e <;> simp_all [settleBody]

/-- Everything the settling of a header operation can do. -/
theorem settleHeader_ok {r : Parse Inflate} {t : Inflate} (h : settleHeader r = .ok t) :
    r = .ok t ∨ (∃ d, r = .error (.underflow d) ∧ d.headerUnderflow = .ok t)
      ∨ (∃ d, r = .error (.endInput d) ∧ d.endDecode .endInput = .ok t)
      ∨ (∃ d, r = .error (.overflow d) ∧ d.endDecode .outputOverflow = .ok t)
      ∨ ∃ k d, r = .error (.raise k d) ∧ d.raiseTerminal k = .ok t := by
  cases r with
  | ok d => cases h; exact .inl rfl
  | error e => cases e <;> simp_all [settleHeader]

/-- Everything an operation of the inflate side makes of the machine. -/
theorem State.onInf_next {s t : State} {r : Except Fault Inflate} (h : s.onInf r = .next t) :
    ∃ d, r = .ok d ∧ t = { s with inf := d } := by
  cases r with
  | error f => cases h
  | ok d => cases h; exact ⟨d, rfl, rfl⟩

@[simp] theorem State.onInf_ok (s : State) (d : Inflate) : s.onInf (.ok d) = .next { s with inf := d } := rfl

/-- Everything a memory operation of the deflate side makes of the machine. -/
theorem State.onDf_next {s t : State} {r : Except Fault Deflate} (h : s.onDf r = .next t) :
    ∃ d, r = .ok d ∧ t = { s with df := d } := by
  cases r with
  | error f => cases h
  | ok d => cases h; exact ⟨d, rfl, rfl⟩

@[simp] theorem State.onDf_ok (s : State) (d : Deflate) : s.onDf (.ok d) = .next { s with df := d } := rfl

/-- Chaining two operations. -/
theorem except_bind_ok {ε α β : Type} {x : Except ε α} {f : α → Except ε β} {b : β} (h : (x >>= f) = .ok b) :
    ∃ a, x = .ok a ∧ f a = .ok b := by
  cases x with
  | error e => cases h
  | ok a => exact ⟨a, rfl, h⟩

@[simp] theorem except_ok_bind {ε α β : Type} (a : α) (f : α → Except ε β) : ((Except.ok a : Except ε α) >>= f) = f a :=
  rfl

@[simp] theorem orFault_ok {α : Type} (a : α) : orFault (.ok a) = .ok a := rfl
@[simp] theorem orDfFault_ok {α : Type} (a : α) : orDfFault (.ok a) = .ok a := rfl

end Sys2Proof.Machine
end

