-- ==== Sys2Proof/Laws/Reader.lean ====
section
/-! SUPPORT. The bit reader: what moving bytes in and consuming bits does to the stream at hand, and how two reads
compose. -/

namespace Sys2Proof.Machine

@[simp] theorem Inflate.setSrcPos_retry (d : Inflate) (p : Nat) : (d.setSrcPos p).retry = d.retry := by
  unfold Inflate.setSrcPos; split <;> rfl
@[simp] theorem Inflate.setSrcPos_srcPos (d : Inflate) (p : Nat) : (d.setSrcPos p).srcPos = p := by
  unfold Inflate.setSrcPos Inflate.srcPos
  split <;> simp_all
@[simp] theorem Inflate.setSrcPos_srcLen (d : Inflate) (p : Nat) : (d.setSrcPos p).srcLen = d.srcLen := by
  unfold Inflate.setSrcPos Inflate.srcLen
  split <;> simp_all
@[simp] theorem Inflate.setSrcPos_srcMem (d : Inflate) (p : Nat) : (d.setSrcPos p).srcMem = d.srcMem := by
  unfold Inflate.setSrcPos Inflate.srcMem
  split <;> simp_all
@[simp] theorem Inflate.setSrcPos_totalIn (d : Inflate) (p : Nat) : (d.setSrcPos p).totalIn = d.totalIn := by
  unfold Inflate.setSrcPos; split <;> rfl
@[simp] theorem Inflate.setSrcPos_hdrLen (d : Inflate) (p : Nat) : (d.setSrcPos p).hdrLen = d.hdrLen := by
  unfold Inflate.setSrcPos; split <;> rfl

@[simp] theorem Inflate.moveIn_bits (d : Inflate) (n : Nat) (b : Wide) : (d.moveIn n b).bits = b := rfl
@[simp] theorem Inflate.moveIn_bitsLen (d : Inflate) (n : Nat) (b : Wide) :
    (d.moveIn n b).bitsLen = d.bitsLen + 8 * n := by
  unfold Inflate.moveIn Inflate.setSrcPos; split <;> rfl
@[simp] theorem Inflate.moveIn_totalIn (d : Inflate) (n : Nat) (b : Wide) :
    (d.moveIn n b).totalIn = d.totalIn + n := by
  unfold Inflate.moveIn Inflate.setSrcPos; split <;> rfl
@[simp] theorem Inflate.moveIn_srcPos (d : Inflate) (n : Nat) (b : Wide) : (d.moveIn n b).srcPos = d.srcPos + n :=
  d.setSrcPos_srcPos _
@[simp] theorem Inflate.moveIn_srcLen (d : Inflate) (n : Nat) (b : Wide) : (d.moveIn n b).srcLen = d.srcLen :=
  d.setSrcPos_srcLen _
@[simp] theorem Inflate.moveIn_srcMem (d : Inflate) (n : Nat) (b : Wide) : (d.moveIn n b).srcMem = d.srcMem :=
  d.setSrcPos_srcMem _

theorem Inflate.sameButReader_refl (d : Inflate) : d.sameButReader d := rfl

theorem Inflate.sameButReader_trans {a b c : Inflate} (h1 : a.sameButReader b) (h2 : b.sameButReader c) :
    a.sameButReader c := by
  unfold Inflate.sameButReader at *
  rw [h2, h1]

theorem Inflate.moveIn_same (d : Inflate) (n : Nat) (b : Wide) : d.sameButReader (d.moveIn n b) := by
  unfold Inflate.sameButReader Inflate.moveIn Inflate.setSrcPos
  split <;> rfl

theorem Inflate.consume_same (d : Inflate) (k : Nat) : d.sameButReader (d.consume k) := rfl

/-- A state that differs in the bit reader only reads from the same bytes. -/
theorem Inflate.sameButReader_src {d d' : Inflate} (h : d.sameButReader d') :
    d'.retry = d.retry ∧ d'.srcLen = d.srcLen ∧ d'.srcMem = d.srcMem ∧ d'.hdrLen = d.hdrLen := by
  unfold Inflate.sameButReader at h
  rw [h]
  exact ⟨rfl, rfl, rfl, rfl⟩

/-- Two reads one after the other. -/
theorem Inflate.ReadBits.trans {a b c : Inflate} {j k : Nat} (h1 : Inflate.ReadBits j a b)
    (h2 : Inflate.ReadBits k b c) : Inflate.ReadBits (j + k) a c where
  ok := h2.ok
  enough := by have := h1.enough; have := h2.enough; omega
  rest := by rw [h2.rest, h1.rest, div_pow_add]
  position := by have := h1.position; have := h2.position; push_cast; omega
  same := Inflate.sameButReader_trans h1.same h2.same

/-- The stream at hand is below two to the number of bits at hand. -/
theorem Inflate.streamNum_lt {d : Inflate} (h : d.readerOk) : d.streamNum < 2 ^ d.avail := by
  have hb := h.1.2.2
  have hl := leValue_lt (d.srcMem.window d.srcPos (d.srcLen - d.srcPos))
  rw [Cells.window_length] at hl
  unfold Inflate.streamNum Inflate.avail
  rw [pow_add]
  generalize 2 ^ d.bitsLen.toNat = p at hb ⊢
  generalize 2 ^ (8 * (d.srcLen - d.srcPos)) = q at hl ⊢
  have : p * leValue (d.srcMem.window d.srcPos (d.srcLen - d.srcPos)) + p ≤ p * q := by
    rw [← Nat.mul_succ]; exact Nat.mul_le_mul_left _ hl
  omega

/-- The low bits of the stream are those of the bit buffer. -/
theorem Inflate.streamNum_mod {d : Inflate} {k : Nat} (hk : (k : Int) ≤ d.bitsLen ∨ d.srcPos = d.srcLen) :
    d.streamNum % 2 ^ k = d.bits.toNat % 2 ^ k := by
  unfold Inflate.streamNum
  rcases hk with hk | hk
  · obtain ⟨c, hc⟩ := Nat.exists_eq_add_of_le (show k ≤ d.bitsLen.toNat by omega)
    rw [hc, pow_add, Nat.mul_assoc, Nat.add_mul_mod_self_left]
  · simp [hk]

/-- Moving whole bytes from the source into the buffer reads nothing. -/
theorem Inflate.moveIn_readBits {d : Inflate} {n : Nat} {b : Wide} (h : d.readerOk) (hn : n ≤ d.srcLen - d.srcPos)
    (hl : d.bitsLen + 8 * n ≤ 64)
    (hb : b.toNat = d.bits.toNat + 2 ^ d.bitsLen.toNat * leValue (d.srcMem.window d.srcPos n)) :
    Inflate.ReadBits 0 d (d.moveIn n b) := by
  obtain ⟨⟨h0, h64, hlt⟩, hpos, hread, hhdr⟩ := h
  have hlen : (d.bitsLen + 8 * (n : Int)).toNat = d.bitsLen.toNat + 8 * n := by omega
  refine ⟨⟨⟨?_, ?_, ?_⟩, ?_, ?_, ?_⟩, ?_, ?_, ?_, d.moveIn_same n b⟩
  · simp; omega
  · simpa using hl
  · have hw := leValue_lt (d.srcMem.window d.srcPos n)
    rw [Cells.window_length] at hw
    rw [Inflate.moveIn_bits, Inflate.moveIn_bitsLen, hlen, hb, pow_add]
    generalize 2 ^ d.bitsLen.toNat = p at hlt ⊢
    generalize 2 ^ (8 * n) = q at hw ⊢
    have : p * leValue (d.srcMem.window d.srcPos n) + p ≤ p * q := by
      rw [← Nat.mul_succ]; exact Nat.mul_le_mul_left _ hw
    omega
  · simp; omega
  · intro k hk1 hk2
    simp only [Inflate.moveIn_srcPos, Inflate.moveIn_srcLen, Inflate.moveIn_srcMem] at *
    exact hread k (by omega) hk2
  · have := Inflate.sameButReader_src (d.moveIn_same n b)
    rw [this.1, this.2.2.2]
    exact hhdr
  · simp only [Inflate.avail, Inflate.moveIn_bitsLen, Inflate.moveIn_srcPos, Inflate.moveIn_srcLen, hlen]
    omega
  · simp only [Inflate.streamNum, Inflate.moveIn_bits, Inflate.moveIn_bitsLen, Inflate.moveIn_srcPos,
      Inflate.moveIn_srcLen, Inflate.moveIn_srcMem, hlen, hb, pow_zero, Nat.div_one]
    rw [show d.srcLen - d.srcPos = n + (d.srcLen - (d.srcPos + n)) by omega, Cells.window_append, leValue_append,
      Cells.window_length, pow_add]
    ring
  · simp only [Inflate.moveIn_bitsLen, Inflate.moveIn_totalIn]
    push_cast
    ring

/-- Consuming bits that are in the buffer reads them. -/
theorem Inflate.consume_readBits {d : Inflate} {k : Nat} (h : d.readerOk) (hk : (k : Int) ≤ d.bitsLen) :
    Inflate.ReadBits k d (d.consume k) := by
  obtain ⟨⟨h0, h64, hlt⟩, hpos, hread, hhdr⟩ := h
  have hlen : (d.bitsLen - (k : Int)).toNat = d.bitsLen.toNat - k := by omega
  have hsplit : 2 ^ d.bitsLen.toNat = 2 ^ k * 2 ^ (d.bitsLen.toNat - k) := by
    rw [← pow_add]; congr 1; omega
  refine ⟨⟨⟨?_, ?_, ?_⟩, hpos, hread, hhdr⟩, ?_, ?_, ?_, d.consume_same k⟩
  · show 0 ≤ d.bitsLen - k; omega
  · show d.bitsLen - k ≤ 64; omega
  · show (d.bits >>> k).toNat < 2 ^ (d.bitsLen - (k : Int)).toNat
    rw [BitVec.toNat_ushiftRight, Nat.shiftRight_eq_div_pow, hlen, Nat.div_lt_iff_lt_mul (by positivity),
      Nat.mul_comm, ← hsplit]
    exact hlt
  · show d.bitsLen.toNat + 8 * (d.srcLen - d.srcPos) = (d.bitsLen - (k : Int)).toNat + 8 * (d.srcLen - d.srcPos) + k
    omega
  · show (d.bits >>> k).toNat + 2 ^ (d.bitsLen - (k : Int)).toNat * leValue (d.srcMem.window d.srcPos (d.srcLen - d.srcPos)) = _
    rw [BitVec.toNat_ushiftRight, Nat.shiftRight_eq_div_pow, hlen]
    unfold Inflate.streamNum
    rw [hsplit, Nat.mul_assoc, Nat.add_mul_div_left _ _ (by positivity)]
  · show 8 * (d.totalIn : Int) - (d.bitsLen - k) = _
    omega

/-- A read of the source that is known to be readable. -/
theorem Inflate.srcBytes_ok {d : Inflate} {n : Nat} (h : d.readerOk) (hn : n ≤ d.srcLen - d.srcPos) :
    d.srcBytes d.srcPos n = .ok (d.srcMem.window d.srcPos n) := by
  obtain ⟨_, hpos, hread, hhdr⟩ := h
  unfold Inflate.srcBytes Inflate.srcMem
  unfold Inflate.srcMem at hread
  by_cases hr : d.retry = true
  · rw [if_pos hr] at hread ⊢
    rw [if_pos hr]
    have := hhdr hr
    have : d.srcLen = d.hdrLen := by simp [Inflate.srcLen, hr]
    exact readBytes_readable (by omega) (fun k h1 h2 => hread k h1 (by omega))
  · rw [if_neg hr] at hread ⊢
    rw [if_neg hr]
    have : d.srcLen = d.inLen := by simp [Inflate.srcLen, hr]
    exact readBytes_readable (by omega) (fun k h1 h2 => hread k h1 (by omega))

/-- Everything `take` can do. -/
theorem Inflate.take_ok {d t : Inflate} {k v : Nat} (h : d.take k = .ok (v, t)) :
    ∃ d', d.refill (max k 1) = .ok d' ∧ v = d'.peek k ∧ t = d'.consume k ∧ 0 ≤ t.bitsLen := by
  unfold Inflate.take at h
  obtain ⟨d', hd, h⟩ := except_bind_ok h
  cases hr : d.refill (max k 1) with
  | error e => rw [hr] at hd; cases hd
  | ok d1 =>
    rw [hr] at hd
    cases hd
    refine ⟨d', rfl, ?_⟩
    dsimp only at h
    split at h
    · cases h
    · rename_i hu
      cases h
      refine ⟨rfl, rfl, ?_⟩
      simpa [Inflate.underflowed] using hu

end Sys2Proof.Machine
end

