-- ==== Sys2Proof/Laws/Ops.lean ====
section
/-! SUPPORT. What each shared operation can do, said once: if it answers, then how, and that it keeps the canonical form of
the memory it writes. -/

namespace Sys2Proof.Machine

/-! ### Memory accesses inside an operation -/

theorem orFault_next {α : Type} {r : Except Fault α} {a : α} (h : orFault r = .ok a) : r = .ok a := by
  cases r with
  | error f => cases h
  | ok b => cases h; rfl

theorem orDfFault_next {α : Type} {r : Except Fault α} {a : α} (h : orDfFault r = .ok a) : r = .ok a := by
  cases r with
  | error f => cases h
  | ok b => cases h; rfl

theorem writeLE_wf {sp : Space} {size : Nat} {m m' : Memory} {a n v : Nat} (h : writeLE sp size m a n v = .ok m')
    (hm : m.wf = true) : m'.wf = true := writeBytes_wf h hm

/-- A little-endian write that fits: the bytes land, no other byte changes (rule R76). -/
theorem writeLE_spec (sp : Space) (size : Nat) (m : Memory) (a n v : Nat) (hs : n = 0 ∨ a + n ≤ size) :
    ∃ m', writeLE sp size m a n v = .ok m'
      ∧ (∀ j, j < n → m'.get? (a + j) = some (BitVec.ofNat 8 (v / 2 ^ (8 * j))))
      ∧ ∀ k, k < a ∨ a + n ≤ k → m'.get? k = m.get? k := by
  obtain ⟨m', h1, h2, h3⟩ := writeBytes_spec sp size m a (leBytes n v) (by
    rcases hs with rfl | hs
    · exact .inl rfl
    · exact .inr (by simpa using hs))
  refine ⟨m', h1, fun j hj => ?_, fun k hk => h3 k (by simpa using hk)⟩
  rw [h2 j (by simpa using hj), leBytes_getElem]

/-! ### The inflate side -/

/-- Everything `storeByte` can do. -/
theorem Inflate.storeByte_ok {d t : Inflate} {b : Byte} : d.storeByte b = .ok t ↔
    d.writePos < Config.histBufSize
      ∧ t = { d with histBuf := d.histBuf.put d.writePos b, writePos := d.writePos + 1 } := by
  unfold Inflate.storeByte writeCell
  split <;> simp_all [bind, Except.bind, eq_comm]

/-- Everything `copyHistory` can do: it reads nothing below offset 0 (rules R84, R270). -/
theorem Inflate.copyHistory_ok {d t : Inflate} {n dist : Nat} (h : d.copyHistory n dist = .ok t) :
    (n = 0 ∨ dist ≤ d.writePos)
      ∧ ∃ m, copyAscending .hist Config.histBufSize d.histBuf (d.writePos - dist) d.writePos n = .ok m
        ∧ t = { d with histBuf := m, writePos := d.writePos + n } := by
  unfold Inflate.copyHistory at h
  split at h
  · cases h
  · obtain ⟨m, h1, h2⟩ := except_bind_ok h
    cases h2
    exact ⟨by omega, m, h1, rfl⟩

/-- A copy from below offset 0 stops the machine (rule R84). -/
theorem Inflate.copyHistory_below {d : Inflate} {n dist : Nat} (hn : 0 < n) (h : d.writePos < dist) :
    d.copyHistory n dist = .error (.belowSpace .hist (dist - d.writePos)) := if_pos ⟨hn, h⟩

/-- A copy from inside what has been written, to room that is there, completes (rules R92, R270). -/
theorem Inflate.copyHistory_spec {d : Inflate} {n dist : Nat} (h1 : 1 ≤ dist) (h2 : dist ≤ d.writePos)
    (h3 : d.writePos + n ≤ Config.histBufSize) (h4 : d.histBuf.readable (d.writePos - dist) d.writePos) :
    ∃ m, d.copyHistory n dist = .ok { d with histBuf := m, writePos := d.writePos + n }
      ∧ (∀ j, j < n → m.get? (d.writePos + j) = m.get? (d.writePos + j - dist))
      ∧ ∀ a, a < d.writePos ∨ d.writePos + n ≤ a → m.get? a = d.histBuf.get? a := by
  obtain ⟨m, c1, c2, -, c4⟩ := copyAscending_spec .hist Config.histBufSize d.histBuf (d.writePos - dist) d.writePos n
    (by omega) (fun k k1 k2 k3 => h4 k (by omega) (by omega)) (by omega)
  refine ⟨m, ?_, fun j hj => ?_, c4⟩
  · simp only [Inflate.copyHistory, c1, except_ok_bind, if_neg (show ¬ (0 < n ∧ d.writePos < dist) by omega)]
  · rw [c2 (by omega) j hj]
    congr 1
    omega

/-- `drainLits` changes `HIST`, the write position and the literal record only. -/
theorem Inflate.drainLits_ok {d t : Inflate} (h : d.drainLits = .ok t) :
    t = { d with histBuf := t.histBuf, writePos := d.writePos + d.writeOverflowLen,
                 writeOverflowLits := t.writeOverflowLits, writeOverflowLen := 0 }
      ∧ (d.histBuf.wf = true → t.histBuf.wf = true) := by
  unfold Inflate.drainLits at h
  split at h
  · obtain ⟨m, h1, h2⟩ := except_bind_ok h
    cases h2
    exact ⟨rfl, writeLE_wf h1⟩
  · cases h
    have : d.writeOverflowLen = 0 := by omega
    refine ⟨?_, id⟩
    cases d
    simp_all

/-- `drainCopy` changes `HIST`, the write position and the copy record only. -/
theorem Inflate.drainCopy_ok {d t : Inflate} (h : d.drainCopy = .ok t) :
    t = { d with histBuf := t.histBuf, writePos := d.writePos + d.copyOverflowLength, copyOverflowLength := 0,
                 copyOverflowDistance := t.copyOverflowDistance }
      ∧ (d.histBuf.wf = true → t.histBuf.wf = true) := by
  unfold Inflate.drainCopy at h
  split at h
  · obtain ⟨e, h1, h2⟩ := except_bind_ok h
    cases h2
    obtain ⟨-, m, h3, rfl⟩ := Inflate.copyHistory_ok h1
    exact ⟨rfl, copyAscending_wf h3⟩
  · cases h
    have : d.copyOverflowLength = 0 := by omega
    refine ⟨?_, id⟩
    cases d
    simp_all

/-- Everything the drain can do: what was owed is in `HIST`, both records are empty, nothing else changes
(rule R290). -/
theorem Inflate.drain_ok {d t : Inflate} (h : d.drain = .ok t) :
    t = { d with histBuf := t.histBuf, writePos := d.writePos + d.writeOverflowLen + d.copyOverflowLength,
                 writeOverflowLits := t.writeOverflowLits, writeOverflowLen := 0, copyOverflowLength := 0,
                 copyOverflowDistance := t.copyOverflowDistance }
      ∧ (d.histBuf.wf = true → t.histBuf.wf = true) := by
  unfold Inflate.drain at h
  obtain ⟨e, h1, h2⟩ := except_bind_ok h
  obtain ⟨e1, w1⟩ := Inflate.drainLits_ok h1
  obtain ⟨e2, w2⟩ := Inflate.drainCopy_ok h2
  refine ⟨?_, fun hw => w2 (w1 hw)⟩
  rw [e2, e1]

/-- After the drain nothing is owed. -/
theorem Inflate.drain_drained {d t : Inflate} (h : d.drain = .ok t) : t.drained := by
  rw [(Inflate.drain_ok h).1]
  exact ⟨rfl, rfl⟩

/-- What the return of `Decode()` leaves, whatever was owed. -/
theorem Inflate.endDecode_next {d t : Inflate} {st : Status} (h : d.endDecode st = .ok t) :
    t.drained ∧ t.stage = .idle ∧ t.retry = false ∧ t.inErr = d.inErr ∧ t.bits = d.bits ∧ t.bitsLen = d.bitsLen
      ∧ t.phase = d.phase ∧ t.writePos = d.writePos + d.writeOverflowLen + d.copyOverflowLength := by
  obtain ⟨e, h1, rfl⟩ := Inflate.endDecode_ok h
  have hd := Inflate.drain_drained h1
  have he := (Inflate.drain_ok h1).1
  refine ⟨hd, rfl, rfl, ?_, ?_, ?_, ?_, ?_⟩ <;> rw [he]

/-- `restore` undoes any reading behind a snapshot taken at the same source (rules R165, R166). -/
theorem Inflate.restore_snapshot (d : Inflate) : d.snapshot.restore = d.snapshot := by
  unfold Inflate.restore Inflate.snapshot Inflate.srcPos Inflate.setSrcPos
  by_cases h : d.retry = true <;> simp [h]

/-- A refill changes the bit reader only. -/
theorem Inflate.refill_same {d t : Inflate} {m : Nat} (h : d.refill m = .ok t) : d.sameButReader t := by
  have slow : ∀ (n : Nat) (d t : Inflate), Inflate.refillSlow m n d = .ok t → d.sameButReader t := by
    intro n
    induction n with
    | zero => intro d t h; cases h; exact d.sameButReader_refl
    | succ n ih =>
      intro d t h
      unfold Inflate.refillSlow at h
      split at h
      · cases h; exact d.sameButReader_refl
      · obtain ⟨bs, _, h⟩ := except_bind_ok h
        exact Inflate.sameButReader_trans (d.moveIn_same 1 _) (ih _ _ h)
  unfold Inflate.refill at h
  split at h
  · cases h; exact d.sameButReader_refl
  · split at h
    · unfold Inflate.refillFast at h
      obtain ⟨bs, _, h⟩ := except_bind_ok h
      cases h
      exact d.moveIn_same _ _
    · exact slow _ _ _ h

/-- A taken field changes the bit reader only. -/
theorem Inflate.take_same {d t : Inflate} {k v : Nat} (h : d.take k = .ok (v, t)) : d.sameButReader t := by
  obtain ⟨e, h1, -, rfl, -⟩ := Inflate.take_ok h
  exact Inflate.sameButReader_trans (Inflate.refill_same h1) (e.consume_same k)

/-- `take` ends in a field, an underflow or a model fault, and in nothing else (rule R164). -/
theorem Inflate.take_error {d : Inflate} {k : Nat} {h : Halt} (ht : d.take k = .error h) :
    (∃ f, h = .fault f) ∨ ∃ t, h = .underflow t ∧ d.sameButReader t ∧ t.bitsLen < 0 := by
  unfold Inflate.take at ht
  cases hr : d.refill (max k 1) with
  | error f => rw [hr] at ht; cases ht; exact .inl ⟨f, rfl⟩
  | ok e =>
    rw [hr] at ht
    simp only [orFault_ok, except_ok_bind] at ht
    split at ht
    · rename_i hu
      cases ht
      exact .inr ⟨_, rfl, Inflate.sameButReader_trans (Inflate.refill_same hr) (e.consume_same k),
        by simpa only [Inflate.underflowed, decide_eq_true_eq] using hu⟩
    · cases ht

/-- Everything keeping the unread header bytes can do (rule R253). -/
theorem Inflate.parkHeader_ok {d t : Inflate} (h : d.parkHeader = .ok t) :
    t = { d with hdrBuf := t.hdrBuf, hdrLen := d.inLen - d.inPos, inPos := d.inLen }
      ∧ (d.hdrBuf.wf = true → t.hdrBuf.wf = true) := by
  unfold Inflate.parkHeader at h
  obtain ⟨bs, _, h⟩ := except_bind_ok h
  obtain ⟨m, h1, h⟩ := except_bind_ok h
  cases h
  exact ⟨rfl, writeBytes_wf h1⟩

/-- Everything entering retry mode can do (rule R252). -/
theorem Inflate.enterRetry_ok {d t : Inflate} (h : d.enterRetry = .ok t) :
    t = { d with hdrBuf := t.hdrBuf, hdrLen := d.hdrLen + min (d.inLen - d.inPos) (Config.hdrBufSize - d.hdrLen)
                 inPos := d.inPos + min (d.inLen - d.inPos) (Config.hdrBufSize - d.hdrLen)
                 hdrPos := 0, retry := true }
      ∧ (d.hdrBuf.wf = true → t.hdrBuf.wf = true) := by
  unfold Inflate.enterRetry at h
  obtain ⟨bs, _, h⟩ := except_bind_ok h
  obtain ⟨m, h1, h⟩ := except_bind_ok h
  cases h
  exact ⟨rfl, writeBytes_wf h1⟩

/-- Everything the fold can do (rule R286). -/
theorem Inflate.foldIfDue_ok {d t : Inflate} (h : d.foldIfDue = .ok t) :
    (d.writePos < 2 * Config.historySize ∧ t = d)
      ∨ (2 * Config.historySize ≤ d.writePos ∧ (d.histBuf.wf = true → t.histBuf.wf = true)
        ∧ t = { d with histBuf := t.histBuf, readPos := Config.historySize, writePos := Config.historySize }) := by
  unfold Inflate.foldIfDue at h
  split at h
  · unfold Inflate.fold at h
    obtain ⟨m, h1, h2⟩ := except_bind_ok h
    cases h2
    exact .inr ⟨by assumption, copyAscending_wf h1, rfl⟩
  · cases h
    exact .inl ⟨by omega, rfl⟩

/-! ### The deflate side -/

/-- Everything `putbits` can do (rule R170): the bits stay in the accumulator, or 8 bytes go to `OUT` and the rest
stays. -/
theorem Deflate.putbits_ok {d t : Deflate} {code len : Nat} (h : d.putbits code len = .ok t) :
    (d.ebitLen + len ≤ 64 ∧ t = { d with
        ebits := d.ebits ||| (BitVec.ofNat 64 code <<< d.ebitLen), ebitLen := d.ebitLen + len })
      ∨ ∃ m, 64 < d.ebitLen + len
        ∧ writeLE .out d.oend d.outBuf d.oidx 8 (d.ebits ||| (BitVec.ofNat 64 code <<< d.ebitLen)).toNat = .ok m
        ∧ t = { d with outBuf := m, oidx := d.oidx + 8, ebitLen := d.ebitLen + len - 64
                       ebits := BitVec.ofNat 64 code >>> (len - (d.ebitLen + len - 64)) } := by
  unfold Deflate.putbits at h
  simp only at h
  split at h
  · obtain ⟨m, h1, h2⟩ := except_bind_ok h
    cases h2
    exact .inr ⟨m, by assumption, h1, rfl⟩
  · cases h
    exact .inl ⟨by omega, rfl⟩

/-- `putbits` changes the accumulator and `OUT` only. -/
theorem Deflate.putbits_same {d t : Deflate} {code len : Nat} (h : d.putbits code len = .ok t) :
    t = { d with ebits := t.ebits, ebitLen := t.ebitLen, oidx := t.oidx, outBuf := t.outBuf }
      ∧ (d.outBuf.wf = true → t.outBuf.wf = true) := by
  rcases Deflate.putbits_ok h with ⟨_, rfl⟩ | ⟨m, _, h1, rfl⟩
  · exact ⟨rfl, id⟩
  · exact ⟨rfl, writeLE_wf h1⟩

/-- Everything `flush_to_byte` can do (rule R173). -/
theorem Deflate.flushToByte_ok {d t : Deflate} (h : d.flushToByte = .ok t) :
    ∃ m, writeLE .out d.oend d.outBuf d.oidx ((d.ebitLen + 7) / 8) d.ebits.toNat = .ok m
      ∧ t = { d with outBuf := m, oidx := d.oidx + (d.ebitLen + 7) / 8, ebits := 0, ebitLen := 0 } := by
  unfold Deflate.flushToByte at h
  obtain ⟨m, h1, h2⟩ := except_bind_ok h
  cases h2
  exact ⟨m, h1, rfl⟩

/-- What the sink holds after it has taken bytes, or refused them (log 10). -/
theorem Sink.accept_bytes (k : Sink) (bs : List Byte) :
    (k.accept bs).2.bytes = if (k.accept bs).1 = none then k.bytes ++ bs else k.bytes := by
  unfold Sink.accept
  split <;> simp

/-- A drain that answers has emptied `OUT` into the sink; nothing else has changed (rule R174). -/
theorem Deflate.drainOut_ok {d t : Deflate} (h : d.drainOut = .ok t) :
    t = { d with oidx := 0, sink := t.sink } ∧ t.sink.bytes = d.sink.bytes ++ d.outBuf.window 0 d.oidx := by
  unfold Deflate.drainOut at h
  obtain ⟨bs, h1, h2⟩ := except_bind_ok h
  have hb := (readBytes_ok (orDfFault_next h1)).1
  subst hb
  have ha := d.sink.accept_bytes (d.outBuf.window 0 d.oidx)
  split at h2
  · rename_i k hk
    rw [hk] at ha
    cases h2
    exact ⟨rfl, by simpa using ha⟩
  · cases h2

/-- A drain that fails has latched the sink's error (rule R392). -/
theorem Deflate.drainOut_error {d t : Deflate} {e : Nat} (h : d.drainOut = .error (.sink e t)) :
    t = { d with oidx := 0, sink := t.sink, outErr := some e } ∧ t.sink.bytes = d.sink.bytes := by
  unfold Deflate.drainOut at h
  cases hr : readBytes .out d.oend d.outBuf 0 d.oidx with
  | error f => rw [hr] at h; cases h
  | ok bs =>
    rw [hr] at h
    have ha := d.sink.accept_bytes bs
    simp only [orDfFault_ok, except_ok_bind] at h
    split at h
    · cases h
    · rename_i a k hk
      rw [hk] at ha
      cases h
      exact ⟨rfl, by simpa using ha⟩

/-- The guard leaves room for 8 bytes, drains when it must, and changes nothing else (rule R383). -/
theorem Deflate.guardOut_ok {d t : Deflate} (h : d.guardOut = .ok t) :
    t = { d with oidx := t.oidx, sink := t.sink } ∧ (8 ≤ d.oend → t.oidx + 8 ≤ t.oend)
      ∧ t.outBits = d.outBits ∧ (t = d ∨ t.oidx = 0) := by
  unfold Deflate.guardOut at h
  split at h
  · obtain ⟨h1, h2⟩ := Deflate.drainOut_ok h
    have h0 : t.oidx = 0 := by rw [h1]
    refine ⟨by rw [h1], fun h8 => ?_, ?_, .inr h0⟩
    · rw [h0, h1]; simpa using h8
    · have he : t.ebitLen = d.ebitLen := by rw [h1]
      simp only [Deflate.outBits, h2, h0, he, List.length_append, Cells.window_length]
      omega
  · cases h
    exact ⟨rfl, fun h8 => by omega, rfl, .inl rfl⟩

/-- Everything `hput` can do: the guard, then `putbits` (rule R364). -/
theorem Deflate.hput_ok {d t : Deflate} {v n : Nat} (h : d.hput v n = .ok t) :
    ∃ e, d.guardOut = .ok e ∧ e.putbits v n = .ok t := by
  unfold Deflate.hput at h
  obtain ⟨e, h1, h2⟩ := except_bind_ok h
  exact ⟨e, h1, orDfFault_next h2⟩

/-- Everything `hflush` can do (rules R383, R388, R389). -/
theorem Deflate.hflush_ok {d t : Deflate} (h : d.hflush = .ok t) :
    ∃ e, d.guardOut = .ok e ∧ e.flushToByte = .ok t := by
  unfold Deflate.hflush at h
  obtain ⟨e, h1, h2⟩ := except_bind_ok h
  exact ⟨e, h1, orDfFault_next h2⟩

/-- Everything a token can do: its cursor, then three bit groups (rules R341, R342). -/
theorem Deflate.encodeToken_ok {d t : Deflate} {litlen dist extra : Nat} (h : d.encodeToken litlen dist extra = .ok t) :
    ∃ e f, Deflate.putbits { d with tokNext := d.tokNext + 1 } (litSlotCode (d.litCodes.slot litlen))
          (slotLen (d.litCodes.slot litlen)) = .ok e
      ∧ e.putbits (distSlotCode (d.distCodes.slot dist)) (slotLen (d.distCodes.slot dist)) = .ok f
      ∧ f.putbits extra (distSlotExtra (d.distCodes.slot dist)) = .ok t := by
  unfold Deflate.encodeToken at h
  obtain ⟨e, h1, h⟩ := except_bind_ok h
  obtain ⟨f, h2, h⟩ := except_bind_ok h
  exact ⟨e, f, h1, h2, h⟩

/-- A token changes the token cursor, the accumulator and `OUT` only. -/
theorem Deflate.encodeToken_same {d t : Deflate} {litlen dist extra : Nat} (h : d.encodeToken litlen dist extra = .ok t) :
    t = { d with tokNext := d.tokNext + 1, ebits := t.ebits, ebitLen := t.ebitLen, oidx := t.oidx, outBuf := t.outBuf }
      ∧ (d.outBuf.wf = true → t.outBuf.wf = true) := by
  obtain ⟨e, f, h1, h2, h3⟩ := Deflate.encodeToken_ok h
  obtain ⟨q1, w1⟩ := Deflate.putbits_same h1
  obtain ⟨q2, w2⟩ := Deflate.putbits_same h2
  obtain ⟨q3, w3⟩ := Deflate.putbits_same h3
  refine ⟨?_, fun hw => w3 (w2 (w1 hw))⟩
  rw [q3, q2, q1]

/-- Everything storing a token can do (rule R322). -/
theorem Deflate.storeToken_ok {d t : Deflate} {v : Word} : d.storeToken v = .ok t ↔
    d.tokCount < Config.tokBufSize ∧ t = { d with tokBuf := d.tokBuf.put d.tokCount v, tokCount := d.tokCount + 1 } := by
  unfold Deflate.storeToken writeCell
  split <;> simp_all [bind, Except.bind, eq_comm]

/-- Everything the window shift can do (rule R379). -/
theorem Deflate.shift_ok {d t : Deflate} (h : d.shift = .ok t) :
    (d.widx < 2 * d.windowSize ∧ t = d)
      ∨ (2 * d.windowSize ≤ d.widx ∧ (d.winBuf.wf = true → t.winBuf.wf = true)
        ∧ t = { d with winBuf := t.winBuf, widx := d.windowSize, wend := d.wend - (d.widx - d.windowSize) }) := by
  unfold Deflate.shift at h
  split at h
  · obtain ⟨m, h1, h2⟩ := except_bind_ok h
    cases h2
    exact .inr ⟨by assumption, copyAscending_wf h1, rfl⟩
  · cases h
    exact .inl ⟨by omega, rfl⟩

/-- An operation of the deflate side, inside the driver, touches the deflate side only. -/
theorem State.drive_ok {s t : State} {r : Emit Deflate} (h : s.drive r = .ok t) :
    ∃ d, r = .ok d ∧ t = { s with df := d } := by
  unfold State.drive at h
  split at h
  · cases h; exact ⟨_, rfl, rfl⟩
  · cases h
  · cases h

end Sys2Proof.Machine
end

