-- ==== Sys2Proof/Laws/State.lean ====
section
/-! SUPPORT. One lemma per field per plain update of the two sides, so that no proof unfolds a record update. -/

namespace Sys2Proof.Machine

/-! ### `Inflate.consume` -/

@[simp] theorem Inflate.consume_bits (d : Inflate) (k : Nat) : (d.consume k).bits = d.bits >>> k := rfl
@[simp] theorem Inflate.consume_bitsLen (d : Inflate) (k : Nat) : (d.consume k).bitsLen = d.bitsLen - k := rfl
@[simp] theorem Inflate.consume_inPos (d : Inflate) (k : Nat) : (d.consume k).inPos = d.inPos := rfl
@[simp] theorem Inflate.consume_inLen (d : Inflate) (k : Nat) : (d.consume k).inLen = d.inLen := rfl
@[simp] theorem Inflate.consume_inBuf (d : Inflate) (k : Nat) : (d.consume k).inBuf = d.inBuf := rfl
@[simp] theorem Inflate.consume_snapBits (d : Inflate) (k : Nat) : (d.consume k).snapBits = d.snapBits := rfl
@[simp] theorem Inflate.consume_snapBitsLen (d : Inflate) (k : Nat) : (d.consume k).snapBitsLen = d.snapBitsLen := rfl
@[simp] theorem Inflate.consume_snapInPos (d : Inflate) (k : Nat) : (d.consume k).snapInPos = d.snapInPos := rfl
@[simp] theorem Inflate.consume_snapWritePos (d : Inflate) (k : Nat) : (d.consume k).snapWritePos
    = d.snapWritePos := rfl
@[simp] theorem Inflate.consume_litBlockLength (d : Inflate) (k : Nat) : (d.consume k).litBlockLength
    = d.litBlockLength := rfl
@[simp] theorem Inflate.consume_readPos (d : Inflate) (k : Nat) : (d.consume k).readPos = d.readPos := rfl
@[simp] theorem Inflate.consume_writePos (d : Inflate) (k : Nat) : (d.consume k).writePos = d.writePos := rfl
@[simp] theorem Inflate.consume_writeOverflowLits (d : Inflate) (k : Nat) : (d.consume k).writeOverflowLits
    = d.writeOverflowLits := rfl
@[simp] theorem Inflate.consume_writeOverflowLen (d : Inflate) (k : Nat) : (d.consume k).writeOverflowLen
    = d.writeOverflowLen := rfl
@[simp] theorem Inflate.consume_copyOverflowLength (d : Inflate) (k : Nat) : (d.consume k).copyOverflowLength
    = d.copyOverflowLength := rfl
@[simp] theorem Inflate.consume_copyOverflowDistance (d : Inflate) (k : Nat) : (d.consume k).copyOverflowDistance
    = d.copyOverflowDistance := rfl
@[simp] theorem Inflate.consume_phase (d : Inflate) (k : Nat) : (d.consume k).phase = d.phase := rfl
@[simp] theorem Inflate.consume_totalIn (d : Inflate) (k : Nat) : (d.consume k).totalIn = d.totalIn := rfl
@[simp] theorem Inflate.consume_bfinal (d : Inflate) (k : Nat) : (d.consume k).bfinal = d.bfinal := rfl
@[simp] theorem Inflate.consume_btype (d : Inflate) (k : Nat) : (d.consume k).btype = d.btype := rfl
@[simp] theorem Inflate.consume_multisym (d : Inflate) (k : Nat) : (d.consume k).multisym = d.multisym := rfl
@[simp] theorem Inflate.consume_inErr (d : Inflate) (k : Nat) : (d.consume k).inErr = d.inErr := rfl
@[simp] theorem Inflate.consume_outLimit (d : Inflate) (k : Nat) : (d.consume k).outLimit = d.outLimit := rfl
@[simp] theorem Inflate.consume_litLenTable (d : Inflate) (k : Nat) : (d.consume k).litLenTable = d.litLenTable := rfl
@[simp] theorem Inflate.consume_distTable (d : Inflate) (k : Nat) : (d.consume k).distTable = d.distTable := rfl
@[simp] theorem Inflate.consume_scratch (d : Inflate) (k : Nat) : (d.consume k).scratch = d.scratch := rfl
@[simp] theorem Inflate.consume_histBuf (d : Inflate) (k : Nat) : (d.consume k).histBuf = d.histBuf := rfl
@[simp] theorem Inflate.consume_hdrBuf (d : Inflate) (k : Nat) : (d.consume k).hdrBuf = d.hdrBuf := rfl
@[simp] theorem Inflate.consume_hdrLen (d : Inflate) (k : Nat) : (d.consume k).hdrLen = d.hdrLen := rfl
@[simp] theorem Inflate.consume_hdrPos (d : Inflate) (k : Nat) : (d.consume k).hdrPos = d.hdrPos := rfl
@[simp] theorem Inflate.consume_retry (d : Inflate) (k : Nat) : (d.consume k).retry = d.retry := rfl
@[simp] theorem Inflate.consume_nextLits (d : Inflate) (k : Nat) : (d.consume k).nextLits = d.nextLits := rfl
@[simp] theorem Inflate.consume_symCount (d : Inflate) (k : Nat) : (d.consume k).symCount = d.symCount := rfl
@[simp] theorem Inflate.consume_repeatLength (d : Inflate) (k : Nat) : (d.consume k).repeatLength
    = d.repeatLength := rfl
@[simp] theorem Inflate.consume_stage (d : Inflate) (k : Nat) : (d.consume k).stage = d.stage := rfl
@[simp] theorem Inflate.consume_ret (d : Inflate) (k : Nat) : (d.consume k).ret = d.ret := rfl

/-! ### `Inflate.snapshot` -/

@[simp] theorem Inflate.snapshot_bits (d : Inflate) : (d.snapshot).bits = d.bits := rfl
@[simp] theorem Inflate.snapshot_bitsLen (d : Inflate) : (d.snapshot).bitsLen = d.bitsLen := rfl
@[simp] theorem Inflate.snapshot_inPos (d : Inflate) : (d.snapshot).inPos = d.inPos := rfl
@[simp] theorem Inflate.snapshot_inLen (d : Inflate) : (d.snapshot).inLen = d.inLen := rfl
@[simp] theorem Inflate.snapshot_inBuf (d : Inflate) : (d.snapshot).inBuf = d.inBuf := rfl
@[simp] theorem Inflate.snapshot_snapBits (d : Inflate) : (d.snapshot).snapBits = d.bits := rfl
@[simp] theorem Inflate.snapshot_snapBitsLen (d : Inflate) : (d.snapshot).snapBitsLen = d.bitsLen := rfl
@[simp] theorem Inflate.snapshot_snapInPos (d : Inflate) : (d.snapshot).snapInPos = d.srcPos := rfl
@[simp] theorem Inflate.snapshot_snapWritePos (d : Inflate) : (d.snapshot).snapWritePos = d.writePos := rfl
@[simp] theorem Inflate.snapshot_litBlockLength (d : Inflate) : (d.snapshot).litBlockLength = d.litBlockLength := rfl
@[simp] theorem Inflate.snapshot_readPos (d : Inflate) : (d.snapshot).readPos = d.readPos := rfl
@[simp] theorem Inflate.snapshot_writePos (d : Inflate) : (d.snapshot).writePos = d.writePos := rfl
@[simp] theorem Inflate.snapshot_writeOverflowLits (d : Inflate) : (d.snapshot).writeOverflowLits
    = d.writeOverflowLits := rfl
@[simp] theorem Inflate.snapshot_writeOverflowLen (d : Inflate) : (d.snapshot).writeOverflowLen
    = d.writeOverflowLen := rfl
@[simp] theorem Inflate.snapshot_copyOverflowLength (d : Inflate) : (d.snapshot).copyOverflowLength
    = d.copyOverflowLength := rfl
@[simp] theorem Inflate.snapshot_copyOverflowDistance (d : Inflate) : (d.snapshot).copyOverflowDistance
    = d.copyOverflowDistance := rfl
@[simp] theorem Inflate.snapshot_phase (d : Inflate) : (d.snapshot).phase = d.phase := rfl
@[simp] theorem Inflate.snapshot_totalIn (d : Inflate) : (d.snapshot).totalIn = d.totalIn := rfl
@[simp] theorem Inflate.snapshot_bfinal (d : Inflate) : (d.snapshot).bfinal = d.bfinal := rfl
@[simp] theorem Inflate.snapshot_btype (d : Inflate) : (d.snapshot).btype = d.btype := rfl
@[simp] theorem Inflate.snapshot_multisym (d : Inflate) : (d.snapshot).multisym = d.multisym := rfl
@[simp] theorem Inflate.snapshot_inErr (d : Inflate) : (d.snapshot).inErr = d.inErr := rfl
@[simp] theorem Inflate.snapshot_outLimit (d : Inflate) : (d.snapshot).outLimit = d.outLimit := rfl
@[simp] theorem Inflate.snapshot_litLenTable (d : Inflate) : (d.snapshot).litLenTable = d.litLenTable := rfl
@[simp] theorem Inflate.snapshot_distTable (d : Inflate) : (d.snapshot).distTable = d.distTable := rfl
@[simp] theorem Inflate.snapshot_scratch (d : Inflate) : (d.snapshot).scratch = d.scratch := rfl
@[simp] theorem Inflate.snapshot_histBuf (d : Inflate) : (d.snapshot).histBuf = d.histBuf := rfl
@[simp] theorem Inflate.snapshot_hdrBuf (d : Inflate) : (d.snapshot).hdrBuf = d.hdrBuf := rfl
@[simp] theorem Inflate.snapshot_hdrLen (d : Inflate) : (d.snapshot).hdrLen = d.hdrLen := rfl
@[simp] theorem Inflate.snapshot_hdrPos (d : Inflate) : (d.snapshot).hdrPos = d.hdrPos := rfl
@[simp] theorem Inflate.snapshot_retry (d : Inflate) : (d.snapshot).retry = d.retry := rfl
@[simp] theorem Inflate.snapshot_nextLits (d : Inflate) : (d.snapshot).nextLits = d.nextLits := rfl
@[simp] theorem Inflate.snapshot_symCount (d : Inflate) : (d.snapshot).symCount = d.symCount := rfl
@[simp] theorem Inflate.snapshot_repeatLength (d : Inflate) : (d.snapshot).repeatLength = d.repeatLength := rfl
@[simp] theorem Inflate.snapshot_stage (d : Inflate) : (d.snapshot).stage = d.stage := rfl
@[simp] theorem Inflate.snapshot_ret (d : Inflate) : (d.snapshot).ret = d.ret := rfl

/-! ### `Inflate.setBlockFlags` -/

@[simp] theorem Inflate.setBlockFlags_bits (d : Inflate) (f : Bool) (b : BitVec 2) : (d.setBlockFlags f b).bits
    = d.bits := rfl
@[simp] theorem Inflate.setBlockFlags_bitsLen (d : Inflate) (f : Bool) (b : BitVec 2) : (d.setBlockFlags f b).bitsLen
    = d.bitsLen := rfl
@[simp] theorem Inflate.setBlockFlags_inPos (d : Inflate) (f : Bool) (b : BitVec 2) : (d.setBlockFlags f b).inPos
    = d.inPos := rfl
@[simp] theorem Inflate.setBlockFlags_inLen (d : Inflate) (f : Bool) (b : BitVec 2) : (d.setBlockFlags f b).inLen
    = d.inLen := rfl
@[simp] theorem Inflate.setBlockFlags_inBuf (d : Inflate) (f : Bool) (b : BitVec 2) : (d.setBlockFlags f b).inBuf
    = d.inBuf := rfl
@[simp] theorem Inflate.setBlockFlags_snapBits (d : Inflate) (f : Bool) (b : BitVec 2) : (d.setBlockFlags f b).snapBits
    = d.snapBits := rfl
@[simp] theorem Inflate.setBlockFlags_snapBitsLen (d : Inflate) (f : Bool) (b : BitVec 2) : (d.setBlockFlags f b).snapBitsLen
    = d.snapBitsLen := rfl
@[simp] theorem Inflate.setBlockFlags_snapInPos (d : Inflate) (f : Bool) (b : BitVec 2) : (d.setBlockFlags f b).snapInPos
    = d.snapInPos := rfl
@[simp] theorem Inflate.setBlockFlags_snapWritePos (d : Inflate) (f : Bool) (b : BitVec 2) : (d.setBlockFlags f b).snapWritePos
    = d.snapWritePos := rfl
@[simp] theorem Inflate.setBlockFlags_litBlockLength (d : Inflate) (f : Bool) (b : BitVec 2) : (d.setBlockFlags f b).litBlockLength
    = d.litBlockLength := rfl
@[simp] theorem Inflate.setBlockFlags_readPos (d : Inflate) (f : Bool) (b : BitVec 2) : (d.setBlockFlags f b).readPos
    = d.readPos := rfl
@[simp] theorem Inflate.setBlockFlags_writePos (d : Inflate) (f : Bool) (b : BitVec 2) : (d.setBlockFlags f b).writePos
    = d.writePos := rfl
@[simp] theorem Inflate.setBlockFlags_writeOverflowLits (d : Inflate) (f : Bool) (b : BitVec 2) : (d.setBlockFlags f b).writeOverflowLits
    = d.writeOverflowLits := rfl
@[simp] theorem Inflate.setBlockFlags_writeOverflowLen (d : Inflate) (f : Bool) (b : BitVec 2) : (d.setBlockFlags f b).writeOverflowLen
    = d.writeOverflowLen := rfl
@[simp] theorem Inflate.setBlockFlags_copyOverflowLength (d : Inflate) (f : Bool) (b : BitVec 2) : (d.setBlockFlags f b).copyOverflowLength
    = d.copyOverflowLength := rfl
@[simp] theorem Inflate.setBlockFlags_copyOverflowDistance (d : Inflate) (f : Bool) (b : BitVec 2) : (d.setBlockFlags f b).copyOverflowDistance
    = d.copyOverflowDistance := rfl
@[simp] theorem Inflate.setBlockFlags_phase (d : Inflate) (f : Bool) (b : BitVec 2) : (d.setBlockFlags f b).phase
    = d.phase := rfl
@[simp] theorem Inflate.setBlockFlags_totalIn (d : Inflate) (f : Bool) (b : BitVec 2) : (d.setBlockFlags f b).totalIn
    = d.totalIn := rfl
@[simp] theorem Inflate.setBlockFlags_bfinal (d : Inflate) (f : Bool) (b : BitVec 2) : (d.setBlockFlags f b).bfinal
    = f := rfl
@[simp] theorem Inflate.setBlockFlags_btype (d : Inflate) (f : Bool) (b : BitVec 2) : (d.setBlockFlags f b).btype
    = b := rfl
@[simp] theorem Inflate.setBlockFlags_multisym (d : Inflate) (f : Bool) (b : BitVec 2) : (d.setBlockFlags f b).multisym
    = d.multisym := rfl
@[simp] theorem Inflate.setBlockFlags_inErr (d : Inflate) (f : Bool) (b : BitVec 2) : (d.setBlockFlags f b).inErr
    = d.inErr := rfl
@[simp] theorem Inflate.setBlockFlags_outLimit (d : Inflate) (f : Bool) (b : BitVec 2) : (d.setBlockFlags f b).outLimit
    = d.outLimit := rfl
@[simp] theorem Inflate.setBlockFlags_litLenTable (d : Inflate) (f : Bool) (b : BitVec 2) : (d.setBlockFlags f b).litLenTable
    = d.litLenTable := rfl
@[simp] theorem Inflate.setBlockFlags_distTable (d : Inflate) (f : Bool) (b : BitVec 2) : (d.setBlockFlags f b).distTable
    = d.distTable := rfl
@[simp] theorem Inflate.setBlockFlags_scratch (d : Inflate) (f : Bool) (b : BitVec 2) : (d.setBlockFlags f b).scratch
    = d.scratch := rfl
@[simp] theorem Inflate.setBlockFlags_histBuf (d : Inflate) (f : Bool) (b : BitVec 2) : (d.setBlockFlags f b).histBuf
    = d.histBuf := rfl
@[simp] theorem Inflate.setBlockFlags_hdrBuf (d : Inflate) (f : Bool) (b : BitVec 2) : (d.setBlockFlags f b).hdrBuf
    = d.hdrBuf := rfl
@[simp] theorem Inflate.setBlockFlags_hdrLen (d : Inflate) (f : Bool) (b : BitVec 2) : (d.setBlockFlags f b).hdrLen
    = d.hdrLen := rfl
@[simp] theorem Inflate.setBlockFlags_hdrPos (d : Inflate) (f : Bool) (b : BitVec 2) : (d.setBlockFlags f b).hdrPos
    = d.hdrPos := rfl
@[simp] theorem Inflate.setBlockFlags_retry (d : Inflate) (f : Bool) (b : BitVec 2) : (d.setBlockFlags f b).retry
    = d.retry := rfl
@[simp] theorem Inflate.setBlockFlags_nextLits (d : Inflate) (f : Bool) (b : BitVec 2) : (d.setBlockFlags f b).nextLits
    = d.nextLits := rfl
@[simp] theorem Inflate.setBlockFlags_symCount (d : Inflate) (f : Bool) (b : BitVec 2) : (d.setBlockFlags f b).symCount
    = d.symCount := rfl
@[simp] theorem Inflate.setBlockFlags_repeatLength (d : Inflate) (f : Bool) (b : BitVec 2) : (d.setBlockFlags f b).repeatLength
    = d.repeatLength := rfl
@[simp] theorem Inflate.setBlockFlags_stage (d : Inflate) (f : Bool) (b : BitVec 2) : (d.setBlockFlags f b).stage
    = d.stage := rfl
@[simp] theorem Inflate.setBlockFlags_ret (d : Inflate) (f : Bool) (b : BitVec 2) : (d.setBlockFlags f b).ret
    = d.ret := rfl

/-! ### `Inflate.endBlock` -/

@[simp] theorem Inflate.endBlock_bits (d : Inflate) : (d.endBlock).bits = d.bits := rfl
@[simp] theorem Inflate.endBlock_bitsLen (d : Inflate) : (d.endBlock).bitsLen = d.bitsLen := rfl
@[simp] theorem Inflate.endBlock_inPos (d : Inflate) : (d.endBlock).inPos = d.inPos := rfl
@[simp] theorem Inflate.endBlock_inLen (d : Inflate) : (d.endBlock).inLen = d.inLen := rfl
@[simp] theorem Inflate.endBlock_inBuf (d : Inflate) : (d.endBlock).inBuf = d.inBuf := rfl
@[simp] theorem Inflate.endBlock_snapBits (d : Inflate) : (d.endBlock).snapBits = d.snapBits := rfl
@[simp] theorem Inflate.endBlock_snapBitsLen (d : Inflate) : (d.endBlock).snapBitsLen = d.snapBitsLen := rfl
@[simp] theorem Inflate.endBlock_snapInPos (d : Inflate) : (d.endBlock).snapInPos = d.snapInPos := rfl
@[simp] theorem Inflate.endBlock_snapWritePos (d : Inflate) : (d.endBlock).snapWritePos = d.snapWritePos := rfl
@[simp] theorem Inflate.endBlock_litBlockLength (d : Inflate) : (d.endBlock).litBlockLength = d.litBlockLength := rfl
@[simp] theorem Inflate.endBlock_readPos (d : Inflate) : (d.endBlock).readPos = d.readPos := rfl
@[simp] theorem Inflate.endBlock_writePos (d : Inflate) : (d.endBlock).writePos = d.writePos := rfl
@[simp] theorem Inflate.endBlock_writeOverflowLits (d : Inflate) : (d.endBlock).writeOverflowLits
    = d.writeOverflowLits := rfl
@[simp] theorem Inflate.endBlock_writeOverflowLen (d : Inflate) : (d.endBlock).writeOverflowLen
    = d.writeOverflowLen := rfl
@[simp] theorem Inflate.endBlock_copyOverflowLength (d : Inflate) : (d.endBlock).copyOverflowLength
    = d.copyOverflowLength := rfl
@[simp] theorem Inflate.endBlock_copyOverflowDistance (d : Inflate) : (d.endBlock).copyOverflowDistance
    = d.copyOverflowDistance := rfl
@[simp] theorem Inflate.endBlock_phase (d : Inflate) : (d.endBlock).phase
    = if d.bfinal then .streamEnd else .newBlock := rfl
@[simp] theorem Inflate.endBlock_totalIn (d : Inflate) : (d.endBlock).totalIn = d.totalIn := rfl
@[simp] theorem Inflate.endBlock_bfinal (d : Inflate) : (d.endBlock).bfinal = d.bfinal := rfl
@[simp] theorem Inflate.endBlock_btype (d : Inflate) : (d.endBlock).btype = d.btype := rfl
@[simp] theorem Inflate.endBlock_multisym (d : Inflate) : (d.endBlock).multisym = d.multisym := rfl
@[simp] theorem Inflate.endBlock_inErr (d : Inflate) : (d.endBlock).inErr = d.inErr := rfl
@[simp] theorem Inflate.endBlock_outLimit (d : Inflate) : (d.endBlock).outLimit = d.outLimit := rfl
@[simp] theorem Inflate.endBlock_litLenTable (d : Inflate) : (d.endBlock).litLenTable = d.litLenTable := rfl
@[simp] theorem Inflate.endBlock_distTable (d : Inflate) : (d.endBlock).distTable = d.distTable := rfl
@[simp] theorem Inflate.endBlock_scratch (d : Inflate) : (d.endBlock).scratch = d.scratch := rfl
@[simp] theorem Inflate.endBlock_histBuf (d : Inflate) : (d.endBlock).histBuf = d.histBuf := rfl
@[simp] theorem Inflate.endBlock_hdrBuf (d : Inflate) : (d.endBlock).hdrBuf = d.hdrBuf := rfl
@[simp] theorem Inflate.endBlock_hdrLen (d : Inflate) : (d.endBlock).hdrLen = d.hdrLen := rfl
@[simp] theorem Inflate.endBlock_hdrPos (d : Inflate) : (d.endBlock).hdrPos = d.hdrPos := rfl
@[simp] theorem Inflate.endBlock_retry (d : Inflate) : (d.endBlock).retry = d.retry := rfl
@[simp] theorem Inflate.endBlock_nextLits (d : Inflate) : (d.endBlock).nextLits = d.nextLits := rfl
@[simp] theorem Inflate.endBlock_symCount (d : Inflate) : (d.endBlock).symCount = d.symCount := rfl
@[simp] theorem Inflate.endBlock_repeatLength (d : Inflate) : (d.endBlock).repeatLength = d.repeatLength := rfl
@[simp] theorem Inflate.endBlock_stage (d : Inflate) : (d.endBlock).stage = d.stage := rfl
@[simp] theorem Inflate.endBlock_ret (d : Inflate) : (d.endBlock).ret = d.ret := rfl

/-! ### `Inflate.returns` -/

@[simp] theorem Inflate.returns_bits (d : Inflate) (st : Status) (c : Int) (bs : List Byte) : (d.returns st c bs).bits
    = d.bits := rfl
@[simp] theorem Inflate.returns_bitsLen (d : Inflate) (st : Status) (c : Int) (bs : List Byte) : (d.returns st c bs).bitsLen
    = d.bitsLen := rfl
@[simp] theorem Inflate.returns_inPos (d : Inflate) (st : Status) (c : Int) (bs : List Byte) : (d.returns st c bs).inPos
    = d.inPos := rfl
@[simp] theorem Inflate.returns_inLen (d : Inflate) (st : Status) (c : Int) (bs : List Byte) : (d.returns st c bs).inLen
    = d.inLen := rfl
@[simp] theorem Inflate.returns_inBuf (d : Inflate) (st : Status) (c : Int) (bs : List Byte) : (d.returns st c bs).inBuf
    = d.inBuf := rfl
@[simp] theorem Inflate.returns_snapBits (d : Inflate) (st : Status) (c : Int) (bs : List Byte) : (d.returns st c bs).snapBits
    = d.snapBits := rfl
@[simp] theorem Inflate.returns_snapBitsLen (d : Inflate) (st : Status) (c : Int) (bs : List Byte) : (d.returns st c bs).snapBitsLen
    = d.snapBitsLen := rfl
@[simp] theorem Inflate.returns_snapInPos (d : Inflate) (st : Status) (c : Int) (bs : List Byte) : (d.returns st c bs).snapInPos
    = d.snapInPos := rfl
@[simp] theorem Inflate.returns_snapWritePos (d : Inflate) (st : Status) (c : Int) (bs : List Byte) : (d.returns st c bs).snapWritePos
    = d.snapWritePos := rfl
@[simp] theorem Inflate.returns_litBlockLength (d : Inflate) (st : Status) (c : Int) (bs : List Byte) : (d.returns st c bs).litBlockLength
    = d.litBlockLength := rfl
@[simp] theorem Inflate.returns_readPos (d : Inflate) (st : Status) (c : Int) (bs : List Byte) : (d.returns st c bs).readPos
    = d.readPos := rfl
@[simp] theorem Inflate.returns_writePos (d : Inflate) (st : Status) (c : Int) (bs : List Byte) : (d.returns st c bs).writePos
    = d.writePos := rfl
@[simp] theorem Inflate.returns_writeOverflowLits (d : Inflate) (st : Status) (c : Int) (bs : List Byte) : (d.returns st c bs).writeOverflowLits
    = d.writeOverflowLits := rfl
@[simp] theorem Inflate.returns_writeOverflowLen (d : Inflate) (st : Status) (c : Int) (bs : List Byte) : (d.returns st c bs).writeOverflowLen
    = d.writeOverflowLen := rfl
@[simp] theorem Inflate.returns_copyOverflowLength (d : Inflate) (st : Status) (c : Int) (bs : List Byte) : (d.returns st c bs).copyOverflowLength
    = d.copyOverflowLength := rfl
@[simp] theorem Inflate.returns_copyOverflowDistance (d : Inflate) (st : Status) (c : Int) (bs : List Byte) : (d.returns st c bs).copyOverflowDistance
    = d.copyOverflowDistance := rfl
@[simp] theorem Inflate.returns_phase (d : Inflate) (st : Status) (c : Int) (bs : List Byte) : (d.returns st c bs).phase
    = d.phase := rfl
@[simp] theorem Inflate.returns_totalIn (d : Inflate) (st : Status) (c : Int) (bs : List Byte) : (d.returns st c bs).totalIn
    = d.totalIn := rfl
@[simp] theorem Inflate.returns_bfinal (d : Inflate) (st : Status) (c : Int) (bs : List Byte) : (d.returns st c bs).bfinal
    = d.bfinal := rfl
@[simp] theorem Inflate.returns_btype (d : Inflate) (st : Status) (c : Int) (bs : List Byte) : (d.returns st c bs).btype
    = d.btype := rfl
@[simp] theorem Inflate.returns_multisym (d : Inflate) (st : Status) (c : Int) (bs : List Byte) : (d.returns st c bs).multisym
    = d.multisym := rfl
@[simp] theorem Inflate.returns_inErr (d : Inflate) (st : Status) (c : Int) (bs : List Byte) : (d.returns st c bs).inErr
    = d.inErr := rfl
@[simp] theorem Inflate.returns_outLimit (d : Inflate) (st : Status) (c : Int) (bs : List Byte) : (d.returns st c bs).outLimit
    = d.outLimit := rfl
@[simp] theorem Inflate.returns_litLenTable (d : Inflate) (st : Status) (c : Int) (bs : List Byte) : (d.returns st c bs).litLenTable
    = d.litLenTable := rfl
@[simp] theorem Inflate.returns_distTable (d : Inflate) (st : Status) (c : Int) (bs : List Byte) : (d.returns st c bs).distTable
    = d.distTable := rfl
@[simp] theorem Inflate.returns_scratch (d : Inflate) (st : Status) (c : Int) (bs : List Byte) : (d.returns st c bs).scratch
    = d.scratch := rfl
@[simp] theorem Inflate.returns_histBuf (d : Inflate) (st : Status) (c : Int) (bs : List Byte) : (d.returns st c bs).histBuf
    = d.histBuf := rfl
@[simp] theorem Inflate.returns_hdrBuf (d : Inflate) (st : Status) (c : Int) (bs : List Byte) : (d.returns st c bs).hdrBuf
    = d.hdrBuf := rfl
@[simp] theorem Inflate.returns_hdrLen (d : Inflate) (st : Status) (c : Int) (bs : List Byte) : (d.returns st c bs).hdrLen
    = d.hdrLen := rfl
@[simp] theorem Inflate.returns_hdrPos (d : Inflate) (st : Status) (c : Int) (bs : List Byte) : (d.returns st c bs).hdrPos
    = d.hdrPos := rfl
@[simp] theorem Inflate.returns_retry (d : Inflate) (st : Status) (c : Int) (bs : List Byte) : (d.returns st c bs).retry
    = d.retry := rfl
@[simp] theorem Inflate.returns_nextLits (d : Inflate) (st : Status) (c : Int) (bs : List Byte) : (d.returns st c bs).nextLits
    = d.nextLits := rfl
@[simp] theorem Inflate.returns_symCount (d : Inflate) (st : Status) (c : Int) (bs : List Byte) : (d.returns st c bs).symCount
    = d.symCount := rfl
@[simp] theorem Inflate.returns_repeatLength (d : Inflate) (st : Status) (c : Int) (bs : List Byte) : (d.returns st c bs).repeatLength
    = d.repeatLength := rfl
@[simp] theorem Inflate.returns_stage (d : Inflate) (st : Status) (c : Int) (bs : List Byte) : (d.returns st c bs).stage
    = d.stage := rfl
@[simp] theorem Inflate.returns_ret (d : Inflate) (st : Status) (c : Int) (bs : List Byte) : (d.returns st c bs).ret
    = ⟨st, c, bs⟩ := rfl

/-! ### `Inflate.holdLits` -/

@[simp] theorem Inflate.holdLits_bits (d : Inflate) (l c : Nat) : (d.holdLits l c).bits = d.bits := rfl
@[simp] theorem Inflate.holdLits_bitsLen (d : Inflate) (l c : Nat) : (d.holdLits l c).bitsLen = d.bitsLen := rfl
@[simp] theorem Inflate.holdLits_inPos (d : Inflate) (l c : Nat) : (d.holdLits l c).inPos = d.inPos := rfl
@[simp] theorem Inflate.holdLits_inLen (d : Inflate) (l c : Nat) : (d.holdLits l c).inLen = d.inLen := rfl
@[simp] theorem Inflate.holdLits_inBuf (d : Inflate) (l c : Nat) : (d.holdLits l c).inBuf = d.inBuf := rfl
@[simp] theorem Inflate.holdLits_snapBits (d : Inflate) (l c : Nat) : (d.holdLits l c).snapBits = d.snapBits := rfl
@[simp] theorem Inflate.holdLits_snapBitsLen (d : Inflate) (l c : Nat) : (d.holdLits l c).snapBitsLen
    = d.snapBitsLen := rfl
@[simp] theorem Inflate.holdLits_snapInPos (d : Inflate) (l c : Nat) : (d.holdLits l c).snapInPos = d.snapInPos := rfl
@[simp] theorem Inflate.holdLits_snapWritePos (d : Inflate) (l c : Nat) : (d.holdLits l c).snapWritePos
    = d.snapWritePos := rfl
@[simp] theorem Inflate.holdLits_litBlockLength (d : Inflate) (l c : Nat) : (d.holdLits l c).litBlockLength
    = d.litBlockLength := rfl
@[simp] theorem Inflate.holdLits_readPos (d : Inflate) (l c : Nat) : (d.holdLits l c).readPos = d.readPos := rfl
@[simp] theorem Inflate.holdLits_writePos (d : Inflate) (l c : Nat) : (d.holdLits l c).writePos = d.writePos := rfl
@[simp] theorem Inflate.holdLits_writeOverflowLits (d : Inflate) (l c : Nat) : (d.holdLits l c).writeOverflowLits
    = d.writeOverflowLits := rfl
@[simp] theorem Inflate.holdLits_writeOverflowLen (d : Inflate) (l c : Nat) : (d.holdLits l c).writeOverflowLen
    = d.writeOverflowLen := rfl
@[simp] theorem Inflate.holdLits_copyOverflowLength (d : Inflate) (l c : Nat) : (d.holdLits l c).copyOverflowLength
    = d.copyOverflowLength := rfl
@[simp] theorem Inflate.holdLits_copyOverflowDistance (d : Inflate) (l c : Nat) : (d.holdLits l c).copyOverflowDistance
    = d.copyOverflowDistance := rfl
@[simp] theorem Inflate.holdLits_phase (d : Inflate) (l c : Nat) : (d.holdLits l c).phase = d.phase := rfl
@[simp] theorem Inflate.holdLits_totalIn (d : Inflate) (l c : Nat) : (d.holdLits l c).totalIn = d.totalIn := rfl
@[simp] theorem Inflate.holdLits_bfinal (d : Inflate) (l c : Nat) : (d.holdLits l c).bfinal = d.bfinal := rfl
@[simp] theorem Inflate.holdLits_btype (d : Inflate) (l c : Nat) : (d.holdLits l c).btype = d.btype := rfl
@[simp] theorem Inflate.holdLits_multisym (d : Inflate) (l c : Nat) : (d.holdLits l c).multisym = d.multisym := rfl
@[simp] theorem Inflate.holdLits_inErr (d : Inflate) (l c : Nat) : (d.holdLits l c).inErr = d.inErr := rfl
@[simp] theorem Inflate.holdLits_outLimit (d : Inflate) (l c : Nat) : (d.holdLits l c).outLimit = d.outLimit := rfl
@[simp] theorem Inflate.holdLits_litLenTable (d : Inflate) (l c : Nat) : (d.holdLits l c).litLenTable
    = d.litLenTable := rfl
@[simp] theorem Inflate.holdLits_distTable (d : Inflate) (l c : Nat) : (d.holdLits l c).distTable = d.distTable := rfl
@[simp] theorem Inflate.holdLits_scratch (d : Inflate) (l c : Nat) : (d.holdLits l c).scratch = d.scratch := rfl
@[simp] theorem Inflate.holdLits_histBuf (d : Inflate) (l c : Nat) : (d.holdLits l c).histBuf = d.histBuf := rfl
@[simp] theorem Inflate.holdLits_hdrBuf (d : Inflate) (l c : Nat) : (d.holdLits l c).hdrBuf = d.hdrBuf := rfl
@[simp] theorem Inflate.holdLits_hdrLen (d : Inflate) (l c : Nat) : (d.holdLits l c).hdrLen = d.hdrLen := rfl
@[simp] theorem Inflate.holdLits_hdrPos (d : Inflate) (l c : Nat) : (d.holdLits l c).hdrPos = d.hdrPos := rfl
@[simp] theorem Inflate.holdLits_retry (d : Inflate) (l c : Nat) : (d.holdLits l c).retry = d.retry := rfl
@[simp] theorem Inflate.holdLits_nextLits (d : Inflate) (l c : Nat) : (d.holdLits l c).nextLits
    = BitVec.ofNat 32 l := rfl
@[simp] theorem Inflate.holdLits_symCount (d : Inflate) (l c : Nat) : (d.holdLits l c).symCount = c := rfl
@[simp] theorem Inflate.holdLits_repeatLength (d : Inflate) (l c : Nat) : (d.holdLits l c).repeatLength
    = d.repeatLength := rfl
@[simp] theorem Inflate.holdLits_stage (d : Inflate) (l c : Nat) : (d.holdLits l c).stage = d.stage := rfl
@[simp] theorem Inflate.holdLits_ret (d : Inflate) (l c : Nat) : (d.holdLits l c).ret = d.ret := rfl

/-! ### `Inflate.appendLens` -/

@[simp] theorem Inflate.appendLens_bits (d : Inflate) (ls : List Nat) : (d.appendLens ls).bits = d.bits := rfl
@[simp] theorem Inflate.appendLens_bitsLen (d : Inflate) (ls : List Nat) : (d.appendLens ls).bitsLen = d.bitsLen := rfl
@[simp] theorem Inflate.appendLens_inPos (d : Inflate) (ls : List Nat) : (d.appendLens ls).inPos = d.inPos := rfl
@[simp] theorem Inflate.appendLens_inLen (d : Inflate) (ls : List Nat) : (d.appendLens ls).inLen = d.inLen := rfl
@[simp] theorem Inflate.appendLens_inBuf (d : Inflate) (ls : List Nat) : (d.appendLens ls).inBuf = d.inBuf := rfl
@[simp] theorem Inflate.appendLens_snapBits (d : Inflate) (ls : List Nat) : (d.appendLens ls).snapBits
    = d.snapBits := rfl
@[simp] theorem Inflate.appendLens_snapBitsLen (d : Inflate) (ls : List Nat) : (d.appendLens ls).snapBitsLen
    = d.snapBitsLen := rfl
@[simp] theorem Inflate.appendLens_snapInPos (d : Inflate) (ls : List Nat) : (d.appendLens ls).snapInPos
    = d.snapInPos := rfl
@[simp] theorem Inflate.appendLens_snapWritePos (d : Inflate) (ls : List Nat) : (d.appendLens ls).snapWritePos
    = d.snapWritePos := rfl
@[simp] theorem Inflate.appendLens_litBlockLength (d : Inflate) (ls : List Nat) : (d.appendLens ls).litBlockLength
    = d.litBlockLength := rfl
@[simp] theorem Inflate.appendLens_readPos (d : Inflate) (ls : List Nat) : (d.appendLens ls).readPos = d.readPos := rfl
@[simp] theorem Inflate.appendLens_writePos (d : Inflate) (ls : List Nat) : (d.appendLens ls).writePos
    = d.writePos := rfl
@[simp] theorem Inflate.appendLens_writeOverflowLits (d : Inflate) (ls : List Nat) : (d.appendLens ls).writeOverflowLits
    = d.writeOverflowLits := rfl
@[simp] theorem Inflate.appendLens_writeOverflowLen (d : Inflate) (ls : List Nat) : (d.appendLens ls).writeOverflowLen
    = d.writeOverflowLen := rfl
@[simp] theorem Inflate.appendLens_copyOverflowLength (d : Inflate) (ls : List Nat) : (d.appendLens ls).copyOverflowLength
    = d.copyOverflowLength := rfl
@[simp] theorem Inflate.appendLens_copyOverflowDistance (d : Inflate) (ls : List Nat) : (d.appendLens ls).copyOverflowDistance
    = d.copyOverflowDistance := rfl
@[simp] theorem Inflate.appendLens_phase (d : Inflate) (ls : List Nat) : (d.appendLens ls).phase = d.phase := rfl
@[simp] theorem Inflate.appendLens_totalIn (d : Inflate) (ls : List Nat) : (d.appendLens ls).totalIn = d.totalIn := rfl
@[simp] theorem Inflate.appendLens_bfinal (d : Inflate) (ls : List Nat) : (d.appendLens ls).bfinal = d.bfinal := rfl
@[simp] theorem Inflate.appendLens_btype (d : Inflate) (ls : List Nat) : (d.appendLens ls).btype = d.btype := rfl
@[simp] theorem Inflate.appendLens_multisym (d : Inflate) (ls : List Nat) : (d.appendLens ls).multisym
    = d.multisym := rfl
@[simp] theorem Inflate.appendLens_inErr (d : Inflate) (ls : List Nat) : (d.appendLens ls).inErr = d.inErr := rfl
@[simp] theorem Inflate.appendLens_outLimit (d : Inflate) (ls : List Nat) : (d.appendLens ls).outLimit
    = d.outLimit := rfl
@[simp] theorem Inflate.appendLens_litLenTable (d : Inflate) (ls : List Nat) : (d.appendLens ls).litLenTable
    = d.litLenTable := rfl
@[simp] theorem Inflate.appendLens_distTable (d : Inflate) (ls : List Nat) : (d.appendLens ls).distTable
    = d.distTable := rfl
@[simp] theorem Inflate.appendLens_scratch (d : Inflate) (ls : List Nat) : (d.appendLens ls).scratch
    = { d.scratch with lens := d.scratch.lens ++ ls } := rfl
@[simp] theorem Inflate.appendLens_histBuf (d : Inflate) (ls : List Nat) : (d.appendLens ls).histBuf = d.histBuf := rfl
@[simp] theorem Inflate.appendLens_hdrBuf (d : Inflate) (ls : List Nat) : (d.appendLens ls).hdrBuf = d.hdrBuf := rfl
@[simp] theorem Inflate.appendLens_hdrLen (d : Inflate) (ls : List Nat) : (d.appendLens ls).hdrLen = d.hdrLen := rfl
@[simp] theorem Inflate.appendLens_hdrPos (d : Inflate) (ls : List Nat) : (d.appendLens ls).hdrPos = d.hdrPos := rfl
@[simp] theorem Inflate.appendLens_retry (d : Inflate) (ls : List Nat) : (d.appendLens ls).retry = d.retry := rfl
@[simp] theorem Inflate.appendLens_nextLits (d : Inflate) (ls : List Nat) : (d.appendLens ls).nextLits
    = d.nextLits := rfl
@[simp] theorem Inflate.appendLens_symCount (d : Inflate) (ls : List Nat) : (d.appendLens ls).symCount
    = d.symCount := rfl
@[simp] theorem Inflate.appendLens_repeatLength (d : Inflate) (ls : List Nat) : (d.appendLens ls).repeatLength
    = d.repeatLength := rfl
@[simp] theorem Inflate.appendLens_stage (d : Inflate) (ls : List Nat) : (d.appendLens ls).stage = d.stage := rfl
@[simp] theorem Inflate.appendLens_ret (d : Inflate) (ls : List Nat) : (d.appendLens ls).ret = d.ret := rfl

/-! ### `Deflate.returns` -/

@[simp] theorem Deflate.returns_level (d : Deflate) (st : Status) (n : Nat) : (d.returns st n).level = d.level := rfl
@[simp] theorem Deflate.returns_windowSize (d : Deflate) (st : Status) (n : Nat) : (d.returns st n).windowSize
    = d.windowSize := rfl
@[simp] theorem Deflate.returns_hashMask (d : Deflate) (st : Status) (n : Nat) : (d.returns st n).hashMask
    = d.hashMask := rfl
@[simp] theorem Deflate.returns_hashTable (d : Deflate) (st : Status) (n : Nat) : (d.returns st n).hashTable
    = d.hashTable := rfl
@[simp] theorem Deflate.returns_litCodes (d : Deflate) (st : Status) (n : Nat) : (d.returns st n).litCodes
    = d.litCodes := rfl
@[simp] theorem Deflate.returns_distCodes (d : Deflate) (st : Status) (n : Nat) : (d.returns st n).distCodes
    = d.distCodes := rfl
@[simp] theorem Deflate.returns_scratch (d : Deflate) (st : Status) (n : Nat) : (d.returns st n).scratch
    = d.scratch := rfl
@[simp] theorem Deflate.returns_ebits (d : Deflate) (st : Status) (n : Nat) : (d.returns st n).ebits = d.ebits := rfl
@[simp] theorem Deflate.returns_ebitLen (d : Deflate) (st : Status) (n : Nat) : (d.returns st n).ebitLen
    = d.ebitLen := rfl
@[simp] theorem Deflate.returns_oidx (d : Deflate) (st : Status) (n : Nat) : (d.returns st n).oidx = d.oidx := rfl
@[simp] theorem Deflate.returns_oend (d : Deflate) (st : Status) (n : Nat) : (d.returns st n).oend = d.oend := rfl
@[simp] theorem Deflate.returns_outBuf (d : Deflate) (st : Status) (n : Nat) : (d.returns st n).outBuf = d.outBuf := rfl
@[simp] theorem Deflate.returns_winBuf (d : Deflate) (st : Status) (n : Nat) : (d.returns st n).winBuf = d.winBuf := rfl
@[simp] theorem Deflate.returns_widx (d : Deflate) (st : Status) (n : Nat) : (d.returns st n).widx = d.widx := rfl
@[simp] theorem Deflate.returns_wend (d : Deflate) (st : Status) (n : Nat) : (d.returns st n).wend = d.wend := rfl
@[simp] theorem Deflate.returns_processed (d : Deflate) (st : Status) (n : Nat) : (d.returns st n).processed
    = d.processed := rfl
@[simp] theorem Deflate.returns_tokBuf (d : Deflate) (st : Status) (n : Nat) : (d.returns st n).tokBuf = d.tokBuf := rfl
@[simp] theorem Deflate.returns_tokCount (d : Deflate) (st : Status) (n : Nat) : (d.returns st n).tokCount
    = d.tokCount := rfl
@[simp] theorem Deflate.returns_tokNext (d : Deflate) (st : Status) (n : Nat) : (d.returns st n).tokNext
    = d.tokNext := rfl
@[simp] theorem Deflate.returns_closed (d : Deflate) (st : Status) (n : Nat) : (d.returns st n).closed = d.closed := rfl
@[simp] theorem Deflate.returns_outErr (d : Deflate) (st : Status) (n : Nat) : (d.returns st n).outErr = d.outErr := rfl
@[simp] theorem Deflate.returns_stage (d : Deflate) (st : Status) (n : Nat) : (d.returns st n).stage = d.stage := rfl
@[simp] theorem Deflate.returns_ret (d : Deflate) (st : Status) (n : Nat) : (d.returns st n).ret = ⟨st, n⟩ := rfl
@[simp] theorem Deflate.returns_sink (d : Deflate) (st : Status) (n : Nat) : (d.returns st n).sink = d.sink := rfl

/-! ### `Deflate.finishBlock` -/

@[simp] theorem Deflate.finishBlock_level (d : Deflate) : (d.finishBlock).level = d.level := rfl
@[simp] theorem Deflate.finishBlock_windowSize (d : Deflate) : (d.finishBlock).windowSize = d.windowSize := rfl
@[simp] theorem Deflate.finishBlock_hashMask (d : Deflate) : (d.finishBlock).hashMask = d.hashMask := rfl
@[simp] theorem Deflate.finishBlock_hashTable (d : Deflate) : (d.finishBlock).hashTable = d.hashTable := rfl
@[simp] theorem Deflate.finishBlock_litCodes (d : Deflate) : (d.finishBlock).litCodes = Cells.empty := rfl
@[simp] theorem Deflate.finishBlock_distCodes (d : Deflate) : (d.finishBlock).distCodes = Cells.empty := rfl
@[simp] theorem Deflate.finishBlock_scratch (d : Deflate) : (d.finishBlock).scratch = d.scratch := rfl
@[simp] theorem Deflate.finishBlock_ebits (d : Deflate) : (d.finishBlock).ebits = d.ebits := rfl
@[simp] theorem Deflate.finishBlock_ebitLen (d : Deflate) : (d.finishBlock).ebitLen = d.ebitLen := rfl
@[simp] theorem Deflate.finishBlock_oidx (d : Deflate) : (d.finishBlock).oidx = d.oidx := rfl
@[simp] theorem Deflate.finishBlock_oend (d : Deflate) : (d.finishBlock).oend = d.oend := rfl
@[simp] theorem Deflate.finishBlock_outBuf (d : Deflate) : (d.finishBlock).outBuf = d.outBuf := rfl
@[simp] theorem Deflate.finishBlock_winBuf (d : Deflate) : (d.finishBlock).winBuf = d.winBuf := rfl
@[simp] theorem Deflate.finishBlock_widx (d : Deflate) : (d.finishBlock).widx = d.widx := rfl
@[simp] theorem Deflate.finishBlock_wend (d : Deflate) : (d.finishBlock).wend = d.wend := rfl
@[simp] theorem Deflate.finishBlock_processed (d : Deflate) : (d.finishBlock).processed = d.processed := rfl
@[simp] theorem Deflate.finishBlock_tokBuf (d : Deflate) : (d.finishBlock).tokBuf = d.tokBuf := rfl
@[simp] theorem Deflate.finishBlock_tokCount (d : Deflate) : (d.finishBlock).tokCount = 0 := rfl
@[simp] theorem Deflate.finishBlock_tokNext (d : Deflate) : (d.finishBlock).tokNext = 0 := rfl
@[simp] theorem Deflate.finishBlock_closed (d : Deflate) : (d.finishBlock).closed = d.closed := rfl
@[simp] theorem Deflate.finishBlock_outErr (d : Deflate) : (d.finishBlock).outErr = d.outErr := rfl
@[simp] theorem Deflate.finishBlock_stage (d : Deflate) : (d.finishBlock).stage = .idle := rfl
@[simp] theorem Deflate.finishBlock_ret (d : Deflate) : (d.finishBlock).ret = d.ret := rfl
@[simp] theorem Deflate.finishBlock_sink (d : Deflate) : (d.finishBlock).sink = d.sink := rfl

/-! ### `Deflate.countLit` -/

@[simp] theorem Deflate.countLit_level (d : Deflate) (i : Nat) : (d.countLit i).level = d.level := rfl
@[simp] theorem Deflate.countLit_windowSize (d : Deflate) (i : Nat) : (d.countLit i).windowSize = d.windowSize := rfl
@[simp] theorem Deflate.countLit_hashMask (d : Deflate) (i : Nat) : (d.countLit i).hashMask = d.hashMask := rfl
@[simp] theorem Deflate.countLit_hashTable (d : Deflate) (i : Nat) : (d.countLit i).hashTable = d.hashTable := rfl
@[simp] theorem Deflate.countLit_litCodes (d : Deflate) (i : Nat) : (d.countLit i).litCodes
    = d.litCodes.setSlot i (d.litCodes.slot i + 1) := rfl
@[simp] theorem Deflate.countLit_distCodes (d : Deflate) (i : Nat) : (d.countLit i).distCodes = d.distCodes := rfl
@[simp] theorem Deflate.countLit_scratch (d : Deflate) (i : Nat) : (d.countLit i).scratch = d.scratch := rfl
@[simp] theorem Deflate.countLit_ebits (d : Deflate) (i : Nat) : (d.countLit i).ebits = d.ebits := rfl
@[simp] theorem Deflate.countLit_ebitLen (d : Deflate) (i : Nat) : (d.countLit i).ebitLen = d.ebitLen := rfl
@[simp] theorem Deflate.countLit_oidx (d : Deflate) (i : Nat) : (d.countLit i).oidx = d.oidx := rfl
@[simp] theorem Deflate.countLit_oend (d : Deflate) (i : Nat) : (d.countLit i).oend = d.oend := rfl
@[simp] theorem Deflate.countLit_outBuf (d : Deflate) (i : Nat) : (d.countLit i).outBuf = d.outBuf := rfl
@[simp] theorem Deflate.countLit_winBuf (d : Deflate) (i : Nat) : (d.countLit i).winBuf = d.winBuf := rfl
@[simp] theorem Deflate.countLit_widx (d : Deflate) (i : Nat) : (d.countLit i).widx = d.widx := rfl
@[simp] theorem Deflate.countLit_wend (d : Deflate) (i : Nat) : (d.countLit i).wend = d.wend := rfl
@[simp] theorem Deflate.countLit_processed (d : Deflate) (i : Nat) : (d.countLit i).processed = d.processed := rfl
@[simp] theorem Deflate.countLit_tokBuf (d : Deflate) (i : Nat) : (d.countLit i).tokBuf = d.tokBuf := rfl
@[simp] theorem Deflate.countLit_tokCount (d : Deflate) (i : Nat) : (d.countLit i).tokCount = d.tokCount := rfl
@[simp] theorem Deflate.countLit_tokNext (d : Deflate) (i : Nat) : (d.countLit i).tokNext = d.tokNext := rfl
@[simp] theorem Deflate.countLit_closed (d : Deflate) (i : Nat) : (d.countLit i).closed = d.closed := rfl
@[simp] theorem Deflate.countLit_outErr (d : Deflate) (i : Nat) : (d.countLit i).outErr = d.outErr := rfl
@[simp] theorem Deflate.countLit_stage (d : Deflate) (i : Nat) : (d.countLit i).stage = d.stage := rfl
@[simp] theorem Deflate.countLit_ret (d : Deflate) (i : Nat) : (d.countLit i).ret = d.ret := rfl
@[simp] theorem Deflate.countLit_sink (d : Deflate) (i : Nat) : (d.countLit i).sink = d.sink := rfl

/-! ### `Deflate.countDist` -/

@[simp] theorem Deflate.countDist_level (d : Deflate) (i : Nat) : (d.countDist i).level = d.level := rfl
@[simp] theorem Deflate.countDist_windowSize (d : Deflate) (i : Nat) : (d.countDist i).windowSize = d.windowSize := rfl
@[simp] theorem Deflate.countDist_hashMask (d : Deflate) (i : Nat) : (d.countDist i).hashMask = d.hashMask := rfl
@[simp] theorem Deflate.countDist_hashTable (d : Deflate) (i : Nat) : (d.countDist i).hashTable = d.hashTable := rfl
@[simp] theorem Deflate.countDist_litCodes (d : Deflate) (i : Nat) : (d.countDist i).litCodes = d.litCodes := rfl
@[simp] theorem Deflate.countDist_distCodes (d : Deflate) (i : Nat) : (d.countDist i).distCodes
    = d.distCodes.setSlot i (d.distCodes.slot i + 1) := rfl
@[simp] theorem Deflate.countDist_scratch (d : Deflate) (i : Nat) : (d.countDist i).scratch = d.scratch := rfl
@[simp] theorem Deflate.countDist_ebits (d : Deflate) (i : Nat) : (d.countDist i).ebits = d.ebits := rfl
@[simp] theorem Deflate.countDist_ebitLen (d : Deflate) (i : Nat) : (d.countDist i).ebitLen = d.ebitLen := rfl
@[simp] theorem Deflate.countDist_oidx (d : Deflate) (i : Nat) : (d.countDist i).oidx = d.oidx := rfl
@[simp] theorem Deflate.countDist_oend (d : Deflate) (i : Nat) : (d.countDist i).oend = d.oend := rfl
@[simp] theorem Deflate.countDist_outBuf (d : Deflate) (i : Nat) : (d.countDist i).outBuf = d.outBuf := rfl
@[simp] theorem Deflate.countDist_winBuf (d : Deflate) (i : Nat) : (d.countDist i).winBuf = d.winBuf := rfl
@[simp] theorem Deflate.countDist_widx (d : Deflate) (i : Nat) : (d.countDist i).widx = d.widx := rfl
@[simp] theorem Deflate.countDist_wend (d : Deflate) (i : Nat) : (d.countDist i).wend = d.wend := rfl
@[simp] theorem Deflate.countDist_processed (d : Deflate) (i : Nat) : (d.countDist i).processed = d.processed := rfl
@[simp] theorem Deflate.countDist_tokBuf (d : Deflate) (i : Nat) : (d.countDist i).tokBuf = d.tokBuf := rfl
@[simp] theorem Deflate.countDist_tokCount (d : Deflate) (i : Nat) : (d.countDist i).tokCount = d.tokCount := rfl
@[simp] theorem Deflate.countDist_tokNext (d : Deflate) (i : Nat) : (d.countDist i).tokNext = d.tokNext := rfl
@[simp] theorem Deflate.countDist_closed (d : Deflate) (i : Nat) : (d.countDist i).closed = d.closed := rfl
@[simp] theorem Deflate.countDist_outErr (d : Deflate) (i : Nat) : (d.countDist i).outErr = d.outErr := rfl
@[simp] theorem Deflate.countDist_stage (d : Deflate) (i : Nat) : (d.countDist i).stage = d.stage := rfl
@[simp] theorem Deflate.countDist_ret (d : Deflate) (i : Nat) : (d.countDist i).ret = d.ret := rfl
@[simp] theorem Deflate.countDist_sink (d : Deflate) (i : Nat) : (d.countDist i).sink = d.sink := rfl

/-! ### `Inflate.latch` -/

@[simp] theorem Inflate.latch_bits (d : Inflate) (k : ErrKind) : (Inflate.latch k d).bits = d.bits := rfl
@[simp] theorem Inflate.latch_bitsLen (d : Inflate) (k : ErrKind) : (Inflate.latch k d).bitsLen = d.bitsLen := rfl
@[simp] theorem Inflate.latch_inPos (d : Inflate) (k : ErrKind) : (Inflate.latch k d).inPos = d.inPos := rfl
@[simp] theorem Inflate.latch_inLen (d : Inflate) (k : ErrKind) : (Inflate.latch k d).inLen = d.inLen := rfl
@[simp] theorem Inflate.latch_inBuf (d : Inflate) (k : ErrKind) : (Inflate.latch k d).inBuf = d.inBuf := rfl
@[simp] theorem Inflate.latch_snapBits (d : Inflate) (k : ErrKind) : (Inflate.latch k d).snapBits = d.snapBits := rfl
@[simp] theorem Inflate.latch_snapBitsLen (d : Inflate) (k : ErrKind) : (Inflate.latch k d).snapBitsLen
    = d.snapBitsLen := rfl
@[simp] theorem Inflate.latch_snapInPos (d : Inflate) (k : ErrKind) : (Inflate.latch k d).snapInPos = d.snapInPos := rfl
@[simp] theorem Inflate.latch_snapWritePos (d : Inflate) (k : ErrKind) : (Inflate.latch k d).snapWritePos
    = d.snapWritePos := rfl
@[simp] theorem Inflate.latch_litBlockLength (d : Inflate) (k : ErrKind) : (Inflate.latch k d).litBlockLength
    = d.litBlockLength := rfl
@[simp] theorem Inflate.latch_readPos (d : Inflate) (k : ErrKind) : (Inflate.latch k d).readPos = d.readPos := rfl
@[simp] theorem Inflate.latch_writePos (d : Inflate) (k : ErrKind) : (Inflate.latch k d).writePos = d.writePos := rfl
@[simp] theorem Inflate.latch_writeOverflowLits (d : Inflate) (k : ErrKind) : (Inflate.latch k d).writeOverflowLits
    = d.writeOverflowLits := rfl
@[simp] theorem Inflate.latch_writeOverflowLen (d : Inflate) (k : ErrKind) : (Inflate.latch k d).writeOverflowLen
    = d.writeOverflowLen := rfl
@[simp] theorem Inflate.latch_copyOverflowLength (d : Inflate) (k : ErrKind) : (Inflate.latch k d).copyOverflowLength
    = d.copyOverflowLength := rfl
@[simp] theorem Inflate.latch_copyOverflowDistance (d : Inflate) (k : ErrKind) : (Inflate.latch k d).copyOverflowDistance
    = d.copyOverflowDistance := rfl
@[simp] theorem Inflate.latch_phase (d : Inflate) (k : ErrKind) : (Inflate.latch k d).phase = d.phase := rfl
@[simp] theorem Inflate.latch_totalIn (d : Inflate) (k : ErrKind) : (Inflate.latch k d).totalIn = d.totalIn := rfl
@[simp] theorem Inflate.latch_bfinal (d : Inflate) (k : ErrKind) : (Inflate.latch k d).bfinal = d.bfinal := rfl
@[simp] theorem Inflate.latch_btype (d : Inflate) (k : ErrKind) : (Inflate.latch k d).btype = d.btype := rfl
@[simp] theorem Inflate.latch_multisym (d : Inflate) (k : ErrKind) : (Inflate.latch k d).multisym = d.multisym := rfl
@[simp] theorem Inflate.latch_inErr (d : Inflate) (k : ErrKind) : (Inflate.latch k d).inErr
    = some (k, d.bitPos / 8) := rfl
@[simp] theorem Inflate.latch_outLimit (d : Inflate) (k : ErrKind) : (Inflate.latch k d).outLimit = d.outLimit := rfl
@[simp] theorem Inflate.latch_litLenTable (d : Inflate) (k : ErrKind) : (Inflate.latch k d).litLenTable
    = d.litLenTable := rfl
@[simp] theorem Inflate.latch_distTable (d : Inflate) (k : ErrKind) : (Inflate.latch k d).distTable = d.distTable := rfl
@[simp] theorem Inflate.latch_scratch (d : Inflate) (k : ErrKind) : (Inflate.latch k d).scratch = d.scratch := rfl
@[simp] theorem Inflate.latch_histBuf (d : Inflate) (k : ErrKind) : (Inflate.latch k d).histBuf = d.histBuf := rfl
@[simp] theorem Inflate.latch_hdrBuf (d : Inflate) (k : ErrKind) : (Inflate.latch k d).hdrBuf = d.hdrBuf := rfl
@[simp] theorem Inflate.latch_hdrLen (d : Inflate) (k : ErrKind) : (Inflate.latch k d).hdrLen = d.hdrLen := rfl
@[simp] theorem Inflate.latch_hdrPos (d : Inflate) (k : ErrKind) : (Inflate.latch k d).hdrPos = d.hdrPos := rfl
@[simp] theorem Inflate.latch_retry (d : Inflate) (k : ErrKind) : (Inflate.latch k d).retry = d.retry := rfl
@[simp] theorem Inflate.latch_nextLits (d : Inflate) (k : ErrKind) : (Inflate.latch k d).nextLits = d.nextLits := rfl
@[simp] theorem Inflate.latch_symCount (d : Inflate) (k : ErrKind) : (Inflate.latch k d).symCount = d.symCount := rfl
@[simp] theorem Inflate.latch_repeatLength (d : Inflate) (k : ErrKind) : (Inflate.latch k d).repeatLength
    = d.repeatLength := rfl
@[simp] theorem Inflate.latch_stage (d : Inflate) (k : ErrKind) : (Inflate.latch k d).stage = d.stage := rfl
@[simp] theorem Inflate.latch_ret (d : Inflate) (k : ErrKind) : (Inflate.latch k d).ret = d.ret := rfl

/-! ### `Inflate.lengthSymbol` -/

@[simp] theorem Inflate.lengthSymbol_bits (d : Inflate) (s e : Nat) : (Inflate.lengthSymbol s e d).bits = d.bits := by
  dsimp only [Inflate.lengthSymbol]
@[simp] theorem Inflate.lengthSymbol_bitsLen (d : Inflate) (s e : Nat) : (Inflate.lengthSymbol s e d).bitsLen
    = d.bitsLen := by
  dsimp only [Inflate.lengthSymbol]
@[simp] theorem Inflate.lengthSymbol_inPos (d : Inflate) (s e : Nat) : (Inflate.lengthSymbol s e d).inPos
    = d.inPos := by
  dsimp only [Inflate.lengthSymbol]
@[simp] theorem Inflate.lengthSymbol_inLen (d : Inflate) (s e : Nat) : (Inflate.lengthSymbol s e d).inLen
    = d.inLen := by
  dsimp only [Inflate.lengthSymbol]
@[simp] theorem Inflate.lengthSymbol_inBuf (d : Inflate) (s e : Nat) : (Inflate.lengthSymbol s e d).inBuf
    = d.inBuf := by
  dsimp only [Inflate.lengthSymbol]
@[simp] theorem Inflate.lengthSymbol_snapBits (d : Inflate) (s e : Nat) : (Inflate.lengthSymbol s e d).snapBits
    = d.snapBits := by
  dsimp only [Inflate.lengthSymbol]
@[simp] theorem Inflate.lengthSymbol_snapBitsLen (d : Inflate) (s e : Nat) : (Inflate.lengthSymbol s e d).snapBitsLen
    = d.snapBitsLen := by
  dsimp only [Inflate.lengthSymbol]
@[simp] theorem Inflate.lengthSymbol_snapInPos (d : Inflate) (s e : Nat) : (Inflate.lengthSymbol s e d).snapInPos
    = d.snapInPos := by
  dsimp only [Inflate.lengthSymbol]
@[simp] theorem Inflate.lengthSymbol_snapWritePos (d : Inflate) (s e : Nat) : (Inflate.lengthSymbol s e d).snapWritePos
    = d.snapWritePos := by
  dsimp only [Inflate.lengthSymbol]
@[simp] theorem Inflate.lengthSymbol_litBlockLength (d : Inflate) (s e : Nat) : (Inflate.lengthSymbol s e d).litBlockLength
    = d.litBlockLength := by
  dsimp only [Inflate.lengthSymbol]
@[simp] theorem Inflate.lengthSymbol_readPos (d : Inflate) (s e : Nat) : (Inflate.lengthSymbol s e d).readPos
    = d.readPos := by
  dsimp only [Inflate.lengthSymbol]
@[simp] theorem Inflate.lengthSymbol_writePos (d : Inflate) (s e : Nat) : (Inflate.lengthSymbol s e d).writePos
    = d.writePos := by
  dsimp only [Inflate.lengthSymbol]
@[simp] theorem Inflate.lengthSymbol_writeOverflowLits (d : Inflate) (s e : Nat) : (Inflate.lengthSymbol s e d).writeOverflowLits
    = d.writeOverflowLits := by
  dsimp only [Inflate.lengthSymbol]
@[simp] theorem Inflate.lengthSymbol_writeOverflowLen (d : Inflate) (s e : Nat) : (Inflate.lengthSymbol s e d).writeOverflowLen
    = d.writeOverflowLen := by
  dsimp only [Inflate.lengthSymbol]
@[simp] theorem Inflate.lengthSymbol_copyOverflowLength (d : Inflate) (s e : Nat) : (Inflate.lengthSymbol s e d).copyOverflowLength
    = d.copyOverflowLength := by
  dsimp only [Inflate.lengthSymbol]
@[simp] theorem Inflate.lengthSymbol_copyOverflowDistance (d : Inflate) (s e : Nat) : (Inflate.lengthSymbol s e d).copyOverflowDistance
    = d.copyOverflowDistance := by
  dsimp only [Inflate.lengthSymbol]
@[simp] theorem Inflate.lengthSymbol_phase (d : Inflate) (s e : Nat) : (Inflate.lengthSymbol s e d).phase
    = d.phase := by
  dsimp only [Inflate.lengthSymbol]
@[simp] theorem Inflate.lengthSymbol_totalIn (d : Inflate) (s e : Nat) : (Inflate.lengthSymbol s e d).totalIn
    = d.totalIn := by
  dsimp only [Inflate.lengthSymbol]
@[simp] theorem Inflate.lengthSymbol_bfinal (d : Inflate) (s e : Nat) : (Inflate.lengthSymbol s e d).bfinal
    = d.bfinal := by
  dsimp only [Inflate.lengthSymbol]
@[simp] theorem Inflate.lengthSymbol_btype (d : Inflate) (s e : Nat) : (Inflate.lengthSymbol s e d).btype
    = d.btype := by
  dsimp only [Inflate.lengthSymbol]
@[simp] theorem Inflate.lengthSymbol_multisym (d : Inflate) (s e : Nat) : (Inflate.lengthSymbol s e d).multisym
    = d.multisym := by
  dsimp only [Inflate.lengthSymbol]
@[simp] theorem Inflate.lengthSymbol_inErr (d : Inflate) (s e : Nat) : (Inflate.lengthSymbol s e d).inErr
    = d.inErr := by
  dsimp only [Inflate.lengthSymbol]
@[simp] theorem Inflate.lengthSymbol_outLimit (d : Inflate) (s e : Nat) : (Inflate.lengthSymbol s e d).outLimit
    = d.outLimit := by
  dsimp only [Inflate.lengthSymbol]
@[simp] theorem Inflate.lengthSymbol_litLenTable (d : Inflate) (s e : Nat) : (Inflate.lengthSymbol s e d).litLenTable
    = d.litLenTable := by
  dsimp only [Inflate.lengthSymbol]
@[simp] theorem Inflate.lengthSymbol_distTable (d : Inflate) (s e : Nat) : (Inflate.lengthSymbol s e d).distTable
    = d.distTable := by
  dsimp only [Inflate.lengthSymbol]
@[simp] theorem Inflate.lengthSymbol_scratch (d : Inflate) (s e : Nat) : (Inflate.lengthSymbol s e d).scratch
    = d.scratch := by
  dsimp only [Inflate.lengthSymbol]
@[simp] theorem Inflate.lengthSymbol_histBuf (d : Inflate) (s e : Nat) : (Inflate.lengthSymbol s e d).histBuf
    = d.histBuf := by
  dsimp only [Inflate.lengthSymbol]
@[simp] theorem Inflate.lengthSymbol_hdrBuf (d : Inflate) (s e : Nat) : (Inflate.lengthSymbol s e d).hdrBuf
    = d.hdrBuf := by
  dsimp only [Inflate.lengthSymbol]
@[simp] theorem Inflate.lengthSymbol_hdrLen (d : Inflate) (s e : Nat) : (Inflate.lengthSymbol s e d).hdrLen
    = d.hdrLen := by
  dsimp only [Inflate.lengthSymbol]
@[simp] theorem Inflate.lengthSymbol_hdrPos (d : Inflate) (s e : Nat) : (Inflate.lengthSymbol s e d).hdrPos
    = d.hdrPos := by
  dsimp only [Inflate.lengthSymbol]
@[simp] theorem Inflate.lengthSymbol_retry (d : Inflate) (s e : Nat) : (Inflate.lengthSymbol s e d).retry
    = d.retry := by
  dsimp only [Inflate.lengthSymbol]
@[simp] theorem Inflate.lengthSymbol_nextLits (d : Inflate) (s e : Nat) : (Inflate.lengthSymbol s e d).nextLits
    = d.nextLits := by
  dsimp only [Inflate.lengthSymbol]
@[simp] theorem Inflate.lengthSymbol_symCount (d : Inflate) (s e : Nat) : (Inflate.lengthSymbol s e d).symCount
    = d.symCount := by
  dsimp only [Inflate.lengthSymbol]
@[simp] theorem Inflate.lengthSymbol_repeatLength (d : Inflate) (s e : Nat) : (Inflate.lengthSymbol s e d).repeatLength
    = expandedSym s e - Config.lenOffset := by
  dsimp only [Inflate.lengthSymbol]
@[simp] theorem Inflate.lengthSymbol_stage (d : Inflate) (s e : Nat) : (Inflate.lengthSymbol s e d).stage = .dist := by
  dsimp only [Inflate.lengthSymbol]
@[simp] theorem Inflate.lengthSymbol_ret (d : Inflate) (s e : Nat) : (Inflate.lengthSymbol s e d).ret = d.ret := by
  dsimp only [Inflate.lengthSymbol]

/-! ### The sides of the machine -/

@[simp] theorem State.withLength_df (s : State) (n : Nat) : (s.withLength n).df = s.df := rfl
@[simp] theorem State.withLength_params (s : State) (n : Nat) : (s.withLength n).params = s.params := rfl
@[simp] theorem State.withLength_commands (s : State) (n : Nat) : (s.withLength n).commands = s.commands := rfl
@[simp] theorem State.withLength_freeDraws (s : State) (n : Nat) : (s.withLength n).freeDraws = s.freeDraws := rfl

end Sys2Proof.Machine
end

