-- ==== Sys2Proof/Tests/Slice0.lean ====
section
/-! SUPPORT. The model's own tests: ill-formed terms refused, words written out from the spec's encodings, single operations
and steps on the spec's examples (95_test_vectors.md), and for every statement with hypotheses a state and operands that meet them
together. -/

section

open Sys2Proof Sys2Proof.Machine

set_option Elab.async false

/-! ### WellFormed -/

/-- A length below 3 is no match token (rule R129). -/
theorem test_wf_refuses_short_match : (Instr.tmatch 256 0 0).wf = false := by decide
/-- A length above 258 is no match token (rule R129). -/
theorem test_wf_refuses_long_match : (Instr.tmatch 513 0 0).wf = false := by decide
/-- A distance symbol above 29 is no match token (rules R129, R130). -/
theorem test_wf_refuses_distance_symbol : (Instr.tmatch 257 30 0).wf = false := by decide
/-- An extra value that the symbol's extra bits cannot hold (rules R123, R129). -/
theorem test_wf_refuses_wide_extra : (Instr.tmatch 257 4 2).wf = false := by decide
theorem test_wf_accepts_limits : (Instr.tmatch 512 29 8191).wf = true ∧ (Instr.tmatch 257 0 0).wf = true := by decide

/-! ### Words written out from the encodings -/


/-- V1, rule R101: `h[0]` is `bfinal`, `h[2:1]` is `btype`. -/
theorem test_decode_blkhdr :
    decode ⟨.blkhdr, 0b000, {}⟩ = .ok (.blkStored false)
    ∧ decode ⟨.blkhdr, 0b001, {}⟩ = .ok (.blkStored true)
    ∧ decode ⟨.blkhdr, 0b011, {}⟩ = .ok (.blkStatic true)
    ∧ decode ⟨.blkhdr, 0b100, {}⟩ = .ok (.blkDynamic false)
    ∧ decode ⟨.blkhdr, 0b101, {}⟩ = .ok (.blkDynamic true)
    ∧ decode ⟨.blkhdr, 0b110, {}⟩ = .ok (.blkReserved false)
    ∧ decode ⟨.blkhdr, 0b111, {}⟩ = .ok (.blkReserved true) := by decide

/-- Rule R105: symbols 0 to 15 are lengths, 16, 17, 18 the repeats. -/
theorem test_decode_clsym :
    decode ⟨.clsym, 0b00000, {}⟩ = .ok (.clLen 0)
    ∧ decode ⟨.clsym, 0b01111, {}⟩ = .ok (.clLen 15)
    ∧ decode ⟨.clsym, 0b10000, {}⟩ = .ok .clCopyPrev
    ∧ decode ⟨.clsym, 0b10001, {}⟩ = .ok .clZeros3To10
    ∧ decode ⟨.clsym, 0b10010, {}⟩ = .ok .clZeros11To138 := by decide

/-- Rules R120, R121: the symbol number in 9 bits. -/
theorem test_decode_llsym_short :
    decode ⟨.llsym, 0b001100001, {}⟩ = .ok (.lit 0x61)
    ∧ decode ⟨.llsym, 0b011111111, {}⟩ = .ok (.lit 0xFF)
    ∧ decode ⟨.llsym, 0b100000000, {}⟩ = .ok .eob
    ∧ decode ⟨.llsym, 0b100000001, {}⟩ = .ok .len257
    ∧ decode ⟨.llsym, 0b100000010, {}⟩ = .ok .len258
    ∧ decode ⟨.llsym, 0b100000011, {}⟩ = .ok .len259
    ∧ decode ⟨.llsym, 0b100000100, {}⟩ = .ok .len260
    ∧ decode ⟨.llsym, 0b100000101, {}⟩ = .ok .len261
    ∧ decode ⟨.llsym, 0b100000110, {}⟩ = .ok .len262
    ∧ decode ⟨.llsym, 0b100000111, {}⟩ = .ok .len263
    ∧ decode ⟨.llsym, 0b100001000, {}⟩ = .ok .len264 := by decide

/-- Rule R121: the extra bits above the 9-bit symbol (the layout is log 3). -/
theorem test_decode_llsym_extra :
    decode ⟨.llsym, 0b1_100001001, {}⟩ = .ok (.len265 0b1)
    ∧ decode ⟨.llsym, 0b1_100001010, {}⟩ = .ok (.len266 0b1)
    ∧ decode ⟨.llsym, 0b1_100001011, {}⟩ = .ok (.len267 0b1)
    ∧ decode ⟨.llsym, 0b1_100001100, {}⟩ = .ok (.len268 0b1)
    ∧ decode ⟨.llsym, 0b11_100001101, {}⟩ = .ok (.len269 0b11)
    ∧ decode ⟨.llsym, 0b10_100001110, {}⟩ = .ok (.len270 0b10)
    ∧ decode ⟨.llsym, 0b11_100001111, {}⟩ = .ok (.len271 0b11)
    ∧ decode ⟨.llsym, 0b10_100010000, {}⟩ = .ok (.len272 0b10)
    ∧ decode ⟨.llsym, 0b111_100010001, {}⟩ = .ok (.len273 0b111)
    ∧ decode ⟨.llsym, 0b100_100010010, {}⟩ = .ok (.len274 0b100)
    ∧ decode ⟨.llsym, 0b111_100010011, {}⟩ = .ok (.len275 0b111)
    ∧ decode ⟨.llsym, 0b100_100010100, {}⟩ = .ok (.len276 0b100)
    ∧ decode ⟨.llsym, 0b1111_100010101, {}⟩ = .ok (.len277 0b1111)
    ∧ decode ⟨.llsym, 0b1000_100010110, {}⟩ = .ok (.len278 0b1000)
    ∧ decode ⟨.llsym, 0b1111_100010111, {}⟩ = .ok (.len279 0b1111)
    ∧ decode ⟨.llsym, 0b1000_100011000, {}⟩ = .ok (.len280 0b1000)
    ∧ decode ⟨.llsym, 0b11111_100011001, {}⟩ = .ok (.len281 0b11111)
    ∧ decode ⟨.llsym, 0b10000_100011010, {}⟩ = .ok (.len282 0b10000)
    ∧ decode ⟨.llsym, 0b11111_100011011, {}⟩ = .ok (.len283 0b11111)
    ∧ decode ⟨.llsym, 0b10000_100011100, {}⟩ = .ok (.len284 0b10000)
    ∧ decode ⟨.llsym, 0b100011101, {}⟩ = .ok .len285 := by decide

/-- Rules R120, R271: 286 and 287 are the reserved symbols. -/
theorem test_decode_llsym_reserved :
    decode ⟨.llsym, 0b100011110, {}⟩ = .ok .llReserved286
    ∧ decode ⟨.llsym, 0b100011111, {}⟩ = .ok .llReserved287 := by decide

/-- Rule R122: the distance symbol's number in 5 bits. -/
theorem test_decode_dsym_low :
    decode ⟨.dsym, 0b00000, {}⟩ = .ok .dist0
    ∧ decode ⟨.dsym, 0b00001, {}⟩ = .ok .dist1
    ∧ decode ⟨.dsym, 0b00010, {}⟩ = .ok .dist2
    ∧ decode ⟨.dsym, 0b00011, {}⟩ = .ok .dist3
    ∧ decode ⟨.dsym, 0b00100, {}⟩ = .ok .dist4
    ∧ decode ⟨.dsym, 0b00101, {}⟩ = .ok .dist5
    ∧ decode ⟨.dsym, 0b00110, {}⟩ = .ok .dist6
    ∧ decode ⟨.dsym, 0b00111, {}⟩ = .ok .dist7
    ∧ decode ⟨.dsym, 0b01000, {}⟩ = .ok .dist8
    ∧ decode ⟨.dsym, 0b01001, {}⟩ = .ok .dist9
    ∧ decode ⟨.dsym, 0b01010, {}⟩ = .ok .dist10
    ∧ decode ⟨.dsym, 0b01011, {}⟩ = .ok .dist11
    ∧ decode ⟨.dsym, 0b01100, {}⟩ = .ok .dist12
    ∧ decode ⟨.dsym, 0b01101, {}⟩ = .ok .dist13
    ∧ decode ⟨.dsym, 0b01110, {}⟩ = .ok .dist14
    ∧ decode ⟨.dsym, 0b01111, {}⟩ = .ok .dist15 := by decide

/-- Rules R122, R158: the other half, 30 and 31 reserved. -/
theorem test_decode_dsym_high :
    decode ⟨.dsym, 0b10000, {}⟩ = .ok .dist16
    ∧ decode ⟨.dsym, 0b10001, {}⟩ = .ok .dist17
    ∧ decode ⟨.dsym, 0b10010, {}⟩ = .ok .dist18
    ∧ decode ⟨.dsym, 0b10011, {}⟩ = .ok .dist19
    ∧ decode ⟨.dsym, 0b10100, {}⟩ = .ok .dist20
    ∧ decode ⟨.dsym, 0b10101, {}⟩ = .ok .dist21
    ∧ decode ⟨.dsym, 0b10110, {}⟩ = .ok .dist22
    ∧ decode ⟨.dsym, 0b10111, {}⟩ = .ok .dist23
    ∧ decode ⟨.dsym, 0b11000, {}⟩ = .ok .dist24
    ∧ decode ⟨.dsym, 0b11001, {}⟩ = .ok .dist25
    ∧ decode ⟨.dsym, 0b11010, {}⟩ = .ok .dist26
    ∧ decode ⟨.dsym, 0b11011, {}⟩ = .ok .dist27
    ∧ decode ⟨.dsym, 0b11100, {}⟩ = .ok .dist28
    ∧ decode ⟨.dsym, 0b11101, {}⟩ = .ok .dist29
    ∧ decode ⟨.dsym, 0b11110, {}⟩ = .ok .distReserved30
    ∧ decode ⟨.dsym, 0b11111, {}⟩ = .ok .distReserved31 := by decide

/-- V4, rules R128, R129: `litlen` in bits 9..0, `dist` in bits 18..10, `distExtra` in bits 31..19. -/
theorem test_decode_token :
    decode ⟨.token, 0x00007861, {}⟩ = .ok (.tlit 0x61)
    ∧ decode ⟨.token, 0x00007900, {}⟩ = .ok .teob
    ∧ decode ⟨.token, 0x01F83E00, {}⟩ = .ok (.tmatch 512 15 63)
    ∧ decode ⟨.token, 0x00000913, {}⟩ = .ok (.tmatch 275 2 0)
    ∧ decode ⟨.token, 0xFFF87501, {}⟩ = .ok (.tmatch 257 29 8191) := by decide

/-- Rules R150, R151: the 3-bit code, the operands beside it (log 3). -/
theorem test_decode_cmd :
    decode ⟨.cmd, 0b000, {}⟩ = .ok .inReset
    ∧ decode ⟨.cmd, 0b001, { data := [0x03, 0x00] }⟩ = .ok (.inStep [0x03, 0x00])
    ∧ decode ⟨.cmd, 0b010, { n := 32 }⟩ = .ok (.inRead 32)
    ∧ decode ⟨.cmd, 0b011, {}⟩ = .ok .inClose
    ∧ decode ⟨.cmd, 0b100, { level := -2, windowSize := 4096 }⟩ = .ok (.dfReset (-2) 4096)
    ∧ decode ⟨.cmd, 0b101, { data := [0x61] }⟩ = .ok (.dfWrite [0x61])
    ∧ decode ⟨.cmd, 0b110, {}⟩ = .ok .dfFlush
    ∧ decode ⟨.cmd, 0b111, {}⟩ = .ok .dfClose := by decide

/-- Rules R105, R120, R121, R130: words that are no instruction, each refused under its own name. -/
theorem test_decode_rejects :
    decode ⟨.clsym, 19, {}⟩ = .error .noSuchClSymbol ∧ decode ⟨.llsym, 288, {}⟩ = .error .noSuchLlSymbol
    ∧ decode ⟨.llsym, 0b10_100001001, {}⟩ = .error .extraTooWide ∧ decode ⟨.llsym, 0b1_100000000, {}⟩ = .error .bitsAboveFields
    ∧ decode ⟨.token, 0x00000061, {}⟩ = .error .reservedToken ∧ decode ⟨.token, 0x00007901, {}⟩ = .error .reservedToken
    ∧ decodeBytes .token {} [0x61, 0x78] = .error .truncated := by decide

/-! ### Small states -/

/-- The inflate side inside `Decode()` with a slice lent, the output empty. -/
def reading (bytes : List Byte) : Inflate :=
  { Inflate.reset with
    inBuf := Cells.ofList bytes, inLen := bytes.length, stage := .parse, outLimit := 2 * Config.historySize }

/-- The same inside a Huffman block, with a hand-written large table. -/
def readingSymbols (bytes : List Byte) (short : List Word) : Inflate :=
  { reading bytes with phase := .headerDecoded, litLenTable := ⟨short, []⟩ }

/-- The same with what has been written to `HIST`, `n` zero bytes, and a match length held. -/
def copying (bytes : List Byte) (n len limit : Nat) : Inflate :=
  { reading bytes with
    phase := .headerDecoded, stage := .dist, histBuf := Cells.ofList (List.replicate n 0), writePos := n,
    repeatLength := len, outLimit := limit }

/-- The machine with the inflate side given. -/
def onInflate (d : Inflate) : State := { State.reset with inf := d }

/-- The machine with the deflate side given. -/
def onDeflate (d : Deflate) : State := { State.reset with df := d }

/-- The inflate side after a step, if there was one. -/
def infOf : Host.Outcome State Fault Refusal → Option Inflate
  | .next s => some s.inf
  | _ => none

/-- The deflate side after a step, if there was one. -/
def dfOf : Host.Outcome State Fault Refusal → Option Deflate
  | .next s => some s.df
  | _ => none

/-- One instruction after another, while they complete. -/
def execAll : List Instr → State → Host.Outcome State Fault Refusal
  | [], s => .next s
  | i :: is, s => match exec i s with
    | .next t => execAll is t
    | r => r

/-- R84: a copy from below offset 0 is a fault. -/
theorem test_copy_below : Inflate.copyHistory (reading []) 1 1 = .error (.belowSpace .hist 1) := rfl

/-- R181's example: `nextCode` starts as 0, 0, 2, 6 and each symbol of a length adds one. -/
theorem test_nextCode_after : nextCodeAfter 3 [2, 1, 3, 3] [9, 9, 9, 9, 9] = [0, 1, 3, 8, 9] := by decide

/-- R425, P5: the error that IN_STEP returned ends no run, the one that IN_READ returned does. -/
theorem test_finalStatus : finalStatus [.command (.inStep []) (.corruptInput 2)] = none
    ∧ finalStatus [.command .inClose .ok, .command (.inRead 16) .eof] = some .eof
    ∧ finalStatus [.command .inReset .ok, .command (.inRead 16) (.corruptInput 2)] = none := ⟨rfl, rfl, rfl⟩

/-- R293: a step after `UnexpectedEOF` takes the run up again, a refused one does not; `EOF` stays. -/
theorem test_finalStatus_resumed : finalStatus [.command (.inStep [0]) .endInput, .loop .unexpectedEOF] = none
    ∧ finalStatus [.command (.inStep []) .refused, .loop .unexpectedEOF] = some .unexpectedEOF
    ∧ finalStatus [.command (.inStep [0]) .ok, .command (.inRead 1) .eof] = some .eof := ⟨rfl, rfl, rfl⟩

/-- R59, R425: after `CorruptInput` a run with bits in the buffer is not finished, one with nothing in flight is. -/
theorem test_finished :
    ¬ Inflate.finished [.command (.inRead 1) (.corruptInput 0)] { State.reset.inf with bitsLen := 5 }
    ∧ Inflate.finished [.command (.inRead 1) (.corruptInput 0)] State.reset.inf := by
  simp only [Inflate.finished, Inflate.inFlight, Inflate.drained]
  decide

/-! ### Operand tables -/

/-- V2, rule R122. -/
theorem test_distSym : distSym 1 = ⟨0, 0, 0⟩ ∧ distSym 4 = ⟨3, 0, 0⟩ ∧ distSym 6 = ⟨4, 1, 1⟩ ∧ distSym 256 = ⟨15, 6, 63⟩
    ∧ distSym 257 = ⟨16, 7, 0⟩ ∧ distSym 24577 = ⟨29, 13, 0⟩ ∧ distSym 32768 = ⟨29, 13, 8191⟩ := by decide

/-- V3, rules R121, R320. -/
theorem test_lenSym : lenSym 3 = 257 ∧ lenSym 10 = 264 ∧ lenSym 12 = 265 ∧ lenSym 18 = 268 ∧ lenSym 21 = 269
    ∧ lenSym 257 = 284 ∧ lenSym 258 = 285 ∧ 21 - lenBase 269 = 2 ∧ 257 - lenBase 284 = 30 := by decide

/-- V4, rule R129: the tokens of a literal, the end of block, and two matches. -/
theorem test_tokens : litToken 0x61 = 0x00007861 ∧ eobToken = 0x00007900 ∧ matchToken 258 256 = 0x01F83E00
    ∧ matchToken 3 32768 = 0xFFF87501 := by decide

/-! ### Bit input and output -/

/-- V6, rules R160, R164: the slow refill, then a 3-bit field. -/
theorem test_take_slow : (match (reading [0x03, 0x00]).take 3 with
    | .ok (v, d) => v == 0b011 && d.bits == 0 && d.bitsLen == 5 && d.inPos == 1 && d.totalIn == 1 && d.bitPos == 3
    | .error _ => false) = true := by decide +kernel

/-- V7, rules R160, R161: the fast refill takes the 7 whole bytes that fit. -/
theorem test_refill_fast :
    (match Inflate.refill 57 { reading [1, 2, 3, 4, 5, 6, 7, 8, 9, 10] with bits := 0b101, bitsLen := 3 } with
    | .ok d => d.bits == 0x003830282018100D && d.bitsLen == 59 && d.inPos == 7 && d.totalIn == 7
    | .error _ => false) = true := by decide +kernel

/-- V8, rule R164: the underflow. -/
theorem test_take_underflows : (match Inflate.take 3 { reading [] with bits := 1, bitsLen := 1 } with
    | .error (.underflow d) => d.bitsLen == -2
    | _ => false) = true := by decide +kernel

/-- V9, rule R167. -/
theorem test_align : (Inflate.alignToByte { reading [] with bitsLen := 13 }).bitsLen = 8
    ∧ (Inflate.alignToByte { reading [] with bitsLen := 16 }).bitsLen = 16 := by decide

/-- V10, rule R170: `putbits` across the word. -/
theorem test_putbits_crosses : (match Deflate.putbits { Deflate.reset with ebitLen := 62 } 0b101 3 with
    | .ok d => d.ebits == 1 && d.ebitLen == 1 && d.oidx == 8 && d.outBuf.window 0 8 == [0, 0, 0, 0, 0, 0, 0, 0x40]
    | .error _ => false) = true := by decide +kernel

/-! ### Codes and tables -/

/-- V12, rule R181. -/
theorem test_generateCode : generateCode 15 [3, 3, 3, 3, 3, 2, 4, 4] = [0x03000002, 0x03000006, 0x03000001, 0x03000005,
    0x03000003, 0x02000000, 0x04000007, 0x0400000F] := by decide

/-- V12, V13, rule R184. -/
theorem test_overSubscribed : overSubscribed 15 [3, 3, 3, 3, 3, 2, 4, 4] = false ∧ overSubscribed 7 [1, 1, 1] = true
    ∧ overSubscribed 7 [1] = false := by decide

/-- V14, V16, rules R187, R189, R191. -/
theorem test_limitedLengths : limitedLengths {} 15 4 [3, 3, 3, 3] = [2, 2, 2, 2]
    ∧ limitedLengths {} 15 3 [1, 1, 1] = [1, 2, 2] ∧ limitedLengths {} 15 5 [5, 5, 1, 1, 1] = [1, 2, 3, 4, 4]
    ∧ limitedLengths {} 15 4 [0, 5, 0, 0] = [0, 1, 0, 0] ∧ limitedLengths {} 15 3 [0, 0, 0] = [0, 0, 0] := by
  decide +kernel

/-- V15, rule R190: the Kraft repair. -/
theorem test_kraftRepair : limitedLengths {} 7 19 [1, 1, 2, 3, 5, 8, 13, 21, 34, 55, 89, 144, 233, 377, 610, 987, 1597, 2584,
    4181] = List.replicate 16 7 ++ [3, 2, 1] := by decide +kernel

/-- V18, rules R208, R209, R212: a leaf behind a pointer. -/
theorem test_small_long_group :
    (buildDistTable [1, 2, 3, 4, 5, 6, 7, 8, 9, 10, 11, 12, 12]).find 0xBFF = ⟨10 ||| (4 <<< 5), 11⟩ := by decide +kernel

/-- V20, rules R215 to R218: packed entries by `multisym`. -/
theorem test_large_packing :
    (largeShortEntry 3 [⟨0b0, 1, 0x61⟩, ⟨0b01, 2, 0x62⟩, ⟨0b011, 3, 256⟩, ⟨0b111, 3, 257⟩] [] 0b10 = 0x4C616261)
    ∧ (largeShortEntry 2 [⟨0b0, 1, 0x61⟩, ⟨0b01, 2, 0x62⟩, ⟨0b011, 3, 256⟩, ⟨0b111, 3, 257⟩] [] 0b11010 = 0x38006261)
    ∧ (largeShortEntry 1 [⟨0b0, 1, 0x61⟩, ⟨0b01, 2, 0x62⟩, ⟨0b011, 3, 256⟩, ⟨0b111, 3, 257⟩] [] 0 = 0x14000061)
    ∧ (largeShortEntry 3 [⟨0b0, 1, 0x61⟩, ⟨0b01, 2, 0x62⟩, ⟨0b011, 3, 256⟩, ⟨0b111, 3, 257⟩] [] 0b111 = 0x34000101) := by
  decide

/-! ### One step or one instruction -/

/-- V22, rules R236, R258: a stored block of three bytes, its header behind 5 bits of padding. -/
theorem test_stored : (infOf (exec (.inStep [0x01, 0x03, 0x00, 0xFC, 0xFF, 0x61, 0x62, 0x63]) State.reset)).any (fun d =>
    d.ret.status == .ok && d.ret.consumed == 8 && d.phase == .streamEnd && d.bitPos == 64
      && d.histBuf.window 0 d.writePos == [0x61, 0x62, 0x63]) = true := by decide +kernel

/-- V23, rule R236: the complement does not agree. -/
theorem test_stored_check : (infOf (exec (.inStep [0x01, 0x03, 0x00, 0xFC, 0xFE]) State.reset)).any (fun d =>
    d.ret.status == .corruptInput 5 && d.inErr == some (.invalidBlock, 5)) = true := by decide +kernel

/-- V24, rule R235: `btype = 11`. -/
theorem test_reserved_block : (infOf (exec (.inStep [0x07]) State.reset)).any (fun d =>
    d.ret.status == .corruptInput 0 && d.bitPos == 3) = true := by decide +kernel

/-- P1, rule R279: the empty stream, a static block. -/
theorem test_static_empty : (infOf (exec (.inStep [0x03, 0x00]) State.reset)).any (fun d =>
    d.ret.status == .ok && d.phase == .streamEnd && d.bitPos == 10 && d.writePos == 0) = true := by decide +kernel

/-- Rules R239 to R245, a row of V29: symbol 16 with no length before it. -/
theorem test_copy_with_no_length : (infOf (exec (.inStep [0x05, 0x00, 0x02, 0x24, 0x00]) State.reset)).any (fun d =>
    d.ret.status == .corruptInput 3 && d.bitPos == 30) = true := by decide +kernel

/-- V27, rules R253, R409: a header cut short. -/
theorem test_header_cut : (infOf (exec (.inStep [0x04, 0xC0, 0x81, 0x00, 0x00]) State.reset)).any (fun d =>
    d.ret.status == .endInput && d.ret.consumed == 5 && d.phase == .decodingHeader && d.hdrLen == 5 && d.bitsLen == 0
      && d.bitPos == 0) = true := by decide +kernel

/-- V24 as one step: the word `11` behind `bfinal` is fetched and runs first after reset (rules R231, R235). -/
theorem test_step_reserved : (infOf (step (State.reset.place ⟨.blkhdr, 0b111, {}⟩))).any (fun d =>
    d.inErr == some (.invalidBlock, 0) && d.bitsLen == 54) = true := by decide +kernel

/-- Rule R245: the extra bits of the repeats, `3 + 5`, `3 + 2` and `11 + 127` lengths. -/
theorem test_repeats :
    (infOf (exec .clZeros3To10 (onInflate { reading [0x05] with scratch := { HeaderScratch.empty with nlit := 257 } }))).any
      (fun d => d.scratch.lens == List.replicate 8 0 && d.bitsLen == 5) = true
    ∧ (infOf (exec .clCopyPrev (onInflate { reading [0x02] with
        scratch := { HeaderScratch.empty with nlit := 257, lens := [7] } }))).any
      (fun d => d.scratch.lens == List.replicate 6 7 && d.bitsLen == 6) = true
    ∧ (infOf (exec .clZeros11To138 (onInflate { reading [0x7F] with
        scratch := { HeaderScratch.empty with nlit := 257 } }))).any
      (fun d => d.scratch.lens == List.replicate 138 0 && d.bitsLen == 1) = true := by decide +kernel

/-- V38, rules R264, R290: a packed entry meets the output limit after its first literal. -/
theorem test_literal_overflow :
    (infOf (execAll [.lit 0x62] (onInflate { readingSymbols [] [] with
      writePos := 10, outLimit := 10, nextLits := 0x61, symCount := 1 }))).any (fun d =>
        d.ret.status == .outputOverflow && d.writePos == 12 && d.histBuf.window 10 4 == [0x62, 0x61, 0, 0]) = true := by
  decide +kernel

/-- V25, rules R266 to R270: length 4 at distance 1 repeats the last byte. -/
theorem test_match : (infOf (execAll [.lit 0x61, .len258, .dist0, .eob]
    (onInflate { readingSymbols [] [] with bfinal := true }))).any (fun d =>
      d.phase == .streamEnd && d.histBuf.window 0 d.writePos == [0x61, 0x61, 0x61, 0x61, 0x61]) = true := by
  decide +kernel

/-- Rule R123: symbol 29 with all its extra bits is distance 32768, here beyond what has been written (rule R268). -/
theorem test_dist29_look_back : (infOf (exec .dist29 (onInflate (copying [0xFF, 0x1F] 4 3 65536)))).any (fun d =>
    d.inErr == some (.invalidLookBack, 1) && d.bitsLen == 3) = true := by decide +kernel

/-- Rule R271, V26(c): the reserved literal/length symbol. -/
theorem test_symbol_286 : (infOf (exec .llReserved286 (onInflate { reading [] with totalIn := 2, bitsLen := 5 }))).any
    (fun d => d.ret.status == .corruptInput 1 && d.inErr == some (.invalidSymbol, 1)) = true := by decide +kernel

/-- V39, rule R289: a step while decoded bytes wait, and a slice shorter than what was held back. -/
theorem test_step_refused :
    (infOf (exec (.inStep [0]) (onInflate { Inflate.reset with writePos := 1 }))).any (fun d => d.ret.status == .refused)
      = true
    ∧ (infOf (exec (.inStep [0, 0, 0]) (onInflate { Inflate.reset with bitsLen := 61 }))).any
      (fun d => d.ret.status == .refused && d.ret.consumed == 0) = true := by decide +kernel

/-- Rule R284: bytes first, then the end of the stream. -/
theorem test_read : (infOf (execAll [.inRead 1] (onInflate { Inflate.reset with
      histBuf := Cells.ofList [0x61, 0x62], writePos := 2, phase := .streamEnd }))).any
        (fun d => d.ret.data == [0x61] && d.ret.status == .ok && d.readPos == 1) = true
    ∧ (infOf (exec (.inRead 1) (onInflate { Inflate.reset with phase := .streamEnd }))).any
        (fun d => d.ret.status == .eof && d.phase == .finish) = true := by decide +kernel

/-- Rule R440, V44: the resets. -/
theorem test_resets : (infOf (exec .inReset (onInflate (reading [1])))).any (fun d => d == { Inflate.reset with
      outLimit := 65536 }) = true
    ∧ (dfOf (exec (.dfReset 9 32768) State.reset)).any (fun d => d.ret.status == .refused && d.level == 2) = true
    ∧ (dfOf (exec (.dfReset 1 4096) State.reset)).any (fun d => d.ret.status == .ok && d.hashMask == 0x0FFF) = true := by
  decide +kernel

/-- V32, rules R341, R342, R345: the tokens of V31's block, 15 bits. -/
theorem test_tokens_encoded : (dfOf (execAll [.tlit 0x61, .tlit 0x62, .tlit 0x63, .tmatch 275 2 0, .teob]
    (onDeflate { Deflate.reset with
      litCodes := ⟨[(0x61, 0x02000000), (0x62, 0x02000002), (0x63, 0x02000001), (256, 0x03000003), (275, 0x05000017)]⟩
      distCodes := ⟨[(2, 0x01000000)]⟩ }))).any (fun d =>
        d.ebitLen == 15 && d.ebits == 0b011_0_10111_01_10_00 && d.tokNext == 5) = true := by decide +kernel

/-- V33, rule R312. -/
theorem test_hash4 : hash4 0 = 0 ∧ hash4 1 = 0x7CE62C4A ∧ hash4 0x64636261 = 0x28BC3192
    ∧ hash4 0xFFFFFFFF = 0x30BA7E75 := by decide +kernel

/-- V34, rules R310 to R325: the tokens of `abc` eight times. -/
theorem test_matcher : (match Deflate.runMatcher true { Deflate.reset with
      winBuf := Cells.ofList ((List.replicate 8 [0x61, 0x62, 0x63]).flatten), wend := 24 } with
    | .ok d => d.tokBuf.window 0 d.tokCount == [0x7861, 0x7862, 0x7863, 0x0913] && d.widx == 24
    | .error _ => false) = true := by decide +kernel

/-- V40, rules R355 to R368, R386, R388: one byte and a flush. -/
theorem test_write_flush : (dfOf (execAll [.dfWrite [0x61], .dfFlush] State.reset)).any (fun d =>
    d.sink.bytes == [0x04, 0xC0, 0x81, 0x00, 0x00, 0x00, 0x00, 0x00, 0x90, 0x56, 0xFF, 0x13, 0x08, 0x00, 0x00, 0xFF, 0xFF])
      = true := by decide +kernel

/-- P1, V41, rules R387, R389, R393: the empty stream, closed once. -/
theorem test_close_empty : (dfOf (execAll [.dfClose, .dfWrite [0x7A], .dfClose] State.reset)).any (fun d =>
    d.sink.bytes == [0x03, 0x00] && d.closed && d.ret == ⟨.ok, 0⟩) = true := by decide +kernel

/-- Rules R392, R393: the sink's error is latched and returned again. -/
theorem test_sink_error : (dfOf (execAll [.dfFlush, .dfWrite [0x61]] (onDeflate { Deflate.reset with
      sink := ⟨[], [some 7]⟩ }))).any (fun d => d.outErr == some 7 && d.ret == ⟨.sinkError 7, 0⟩) = true := by
  decide +kernel

/-- Rules R150, R419: the oldest command runs first; with none the machine holds its state. -/
theorem test_commands_in_order :
    (infOf (step { State.reset with commands := [⟨3, {}⟩, ⟨2, { n := 1 }⟩] })).any (fun d => d == Inflate.reset) = true
    ∧ (match step { State.reset with commands := [⟨3, {}⟩, ⟨2, { n := 1 }⟩] } with
      | .next s => s.commands == [⟨2, { n := 1 }⟩] | _ => false) = true
    ∧ (match step State.reset with | .next s => s == State.reset | _ => false) = true := by decide +kernel

/-! ### Witnesses: the premises of each statement can be met together -/

theorem zero_bufferOk : bufferOk 0 0 := ⟨by decide, by decide, by decide⟩

theorem none_readable {w : Nat} (m : Cells w) : m.readable 0 0 := fun k _ hk => absurd hk (Nat.not_lt_zero k)

theorem reading_readerOk (bytes : List Byte) : (reading bytes).readerOk :=
  ⟨zero_bufferOk, Nat.zero_le _, Cells.ofList_readable bytes, fun h => by cases h⟩

theorem copying_readerOk (bytes : List Byte) (n len limit : Nat) : (copying bytes n len limit).readerOk :=
  reading_readerOk bytes

theorem zeros_readable {w : Nat} (a n : Nat) : (Cells.ofList (List.replicate n (0 : BitVec w))).readable a n := by
  intro k _ hk
  simpa using Cells.ofList_readable (List.replicate n (0 : BitVec w)) k (by omega) (by simpa using hk)

/-- A large table without pointers. -/
theorem LargeTable.narrow_of_short (short : List Word) (h : short.all (fun e => field e.toNat 25 1 == 0) = true) :
    LargeTable.narrow ⟨short, []⟩ := by
  rw [List.all_eq_true] at h
  have h1 : ∀ x, field (short.getD (x % 2 ^ 12) 0).toNat 25 1 = 0 := by
    intro x
    rw [List.getD_eq_getElem?_getD]
    cases hx : short[x % 2 ^ 12]? with
    | none => rfl
    | some e => exact eq_of_beq (h e (List.mem_of_getElem? hx))
  intro x
  refine ⟨?_, ?_⟩
  · simp only [LargeTable.find, h1, ↓reduceIte, Nat.mod_mod_of_dvd x (show 2 ^ 12 ∣ 2 ^ 57 by norm_num)]
  · simp only [LargeTable.find, h1, ↓reduceIte]
    exact Nat.le_of_lt (Nat.lt_trans (Nat.mod_lt _ (by norm_num)) (by norm_num : 2 ^ 4 < 57))

/-- A small table without pointers, whose leaves have at most `n` bits. -/
theorem SmallTable.narrow_of_short (n : Nat) (hn : 10 ≤ n) (short : List Half)
    (h : short.all (fun e => field e.toNat 10 1 == 0 && decide (field e.toNat 11 5 ≤ n)) = true) :
    SmallTable.narrow n ⟨short, []⟩ := by
  simp only [List.all_eq_true, Bool.and_eq_true, beq_iff_eq, decide_eq_true_eq] at h
  have h1 : ∀ x, field (short.getD (x % 2 ^ 10) 0).toNat 10 1 = 0 ∧ field (short.getD (x % 2 ^ 10) 0).toNat 11 5 ≤ n := by
    intro x
    rw [List.getD_eq_getElem?_getD]
    cases hx : short[x % 2 ^ 10]? with
    | none => exact ⟨rfl, Nat.zero_le _⟩
    | some e => exact h e (List.mem_of_getElem? hx)
  intro x
  refine ⟨?_, ?_⟩
  · simp only [SmallTable.find, (h1 _).1, ↓reduceIte, Nat.mod_mod_of_dvd x (Nat.pow_dvd_pow 2 hn)]
  · simp only [SmallTable.find, (h1 _).1, ↓reduceIte]
    exact (h1 x).2

theorem witness_DecodeInvertsEncode : (Instr.tmatch 512 29 8191).wf = true ∧ (Instr.len284 31).wf = true := by decide

theorem witness_EncodeInvertsDecode : decode ⟨.token, 0xFFF87501, {}⟩ = .ok (.tmatch 257 29 8191)
    ∧ decode ⟨.blkhdr, 0b111, {}⟩ = .ok (.blkReserved true) := by decide

/-- The ends of the ranges in TokenKinds and OperandMapsInvert. -/
theorem witness_TokenKinds_OperandMapsInvert :
    decode ⟨.token, (matchToken 258 32768).toNat, {}⟩ = .ok (.tmatch 512 29 8191)
    ∧ decode ⟨.token, (matchToken 3 1).toNat, {}⟩ = .ok (.tmatch 257 0 0)
    ∧ distStart 29 + 8191 = 32768 ∧ lenBase 285 = 258 ∧ lenBase 257 = 3 := by decide

theorem witness_StepRunsInstruction :
    (∃ (s : State) (c : Code) (d : Inflate) (i : Instr), s.inf.stage ≠ .idle
      ∧ fetchElement s.params s.inf = .ok (.word c d) ∧ decode c = .ok i)
    ∧ (∃ (s : State) (t : Word) (d : Deflate) (i : Instr), s.inf.stage = .idle ∧ s.df.stage = .tokens
      ∧ s.df.tokNext < s.df.tokCount ∧ s.df.fetchToken = .ok (t, d) ∧ decode ⟨.token, t.toNat, {}⟩ = .ok i)
    ∧ (∃ (s : State) (c : Command) (cs : List Command) (i : Instr), s.inf.stage = .idle ∧ s.df.stage = .idle
      ∧ s.commands = c :: cs ∧ decode ⟨.cmd, c.code, c.args⟩ = .ok i)
    ∧ ∃ s : State, s.inf.stage = .idle ∧ s.df.stage = .idle ∧ s.commands = [] :=
  ⟨⟨onInflate { reading [] with phase := .headerDecoded, symCount := 1, nextLits := 0x61 }, _, _, .lit 0x61, by decide,
      rfl, by decide⟩,
    ⟨State.reset.place ⟨.token, 0x7861, {}⟩, _, _, .tlit 0x61, by decide, by decide, by decide, rfl, by decide⟩,
    ⟨State.reset.place ⟨.cmd, 6, {}⟩, _, _, .dfFlush, by decide, by decide, rfl, by decide⟩,
    ⟨State.reset, by decide, by decide, rfl⟩⟩

/-- `DECODING_HEADER` with the bytes kept so far, and the state in which they are read again. -/
def resuming (kept : List Byte) : Inflate :=
  { reading [] with phase := .decodingHeader, hdrBuf := Cells.ofList kept, hdrLen := kept.length }

theorem resuming_resumed (kept : List Byte) (h : kept.length ≤ Config.hdrBufSize) :
    (resuming kept).readerOk ∧ (resuming kept).hdrBuf.readable 0 (resuming kept).hdrLen
      ∧ Inflate.Resumed (resuming kept) { resuming kept with retry := true }
      ∧ Inflate.readerOk { resuming kept with retry := true } :=
  have k0 : min (0 - 0) (Config.hdrBufSize - kept.length) = 0 := Nat.zero_min _
  ⟨⟨zero_bufferOk, Nat.zero_le _, none_readable _, fun h => by cases h⟩, Cells.ofList_readable kept,
    ⟨by simp only [resuming, reading, List.length_nil, Inflate.reset, k0, Nat.add_zero], fun _ _ => rfl,
      fun j hj => by simp only [resuming, reading, List.length_nil, Inflate.reset, k0] at hj; omega, fun _ _ => rfl⟩,
    ⟨zero_bufferOk, Nat.zero_le _, Cells.ofList_readable kept, fun _ => h⟩⟩

/-- Before a block, a byte and no byte at hand; in `DECODING_HEADER`, `HDR` full and `HDR` empty. -/
theorem witness_HeaderFetch :
    (∃ d : Inflate, d.stage = .parse ∧ d.phase = .newBlock ∧ d.retry = false ∧ d.readerOk ∧ 3 ≤ d.avail ∧ d.streamNum = 3)
    ∧ (∃ d : Inflate, d.stage = .parse ∧ d.phase = .newBlock ∧ d.retry = false ∧ d.readerOk ∧ d.avail = 2 ∧ d.drained
      ∧ d.inErr = none)
    ∧ ∀ n, n = 0 ∨ n = Config.hdrBufSize → ∃ d r : Inflate, d.stage = .parse ∧ d.retry = false ∧ d.readerOk
      ∧ d.phase = .decodingHeader ∧ d.hdrLen = n ∧ d.hdrBuf.readable 0 d.hdrLen ∧ Inflate.Resumed d r ∧ r.readerOk
      ∧ r.avail = 8 * n ∧ d.drained ∧ d.inErr = none := by
  refine ⟨⟨reading [3], rfl, rfl, rfl, reading_readerOk _, by decide, by decide⟩,
    ⟨{ reading [] with bitsLen := 2 }, rfl, rfl, rfl,
      ⟨⟨by decide, by decide, by decide⟩, by decide, none_readable _, fun h => by cases h⟩, by decide, ⟨rfl, rfl⟩, rfl⟩,
    fun n hn => ?_⟩
  obtain ⟨h1, h2, h3, h4⟩ := resuming_resumed (List.replicate n 0) (by
    rw [List.length_replicate]
    rcases hn with rfl | rfl
    · exact Nat.zero_le _
    · exact le_refl _)
  exact ⟨_, _, rfl, rfl, h1, rfl, List.length_replicate, h2, h3, h4, by
    simp [Inflate.avail, resuming, reading, Inflate.reset, Inflate.srcLen, Inflate.srcPos], ⟨rfl, rfl⟩, rfl⟩

/-- What SymbolFetch asks of a state, with what the next stream bits select. -/
def symbolPremises (d : Inflate) (hit : LargeHit) : Prop :=
  d.stage = .parse ∧ d.phase = .headerDecoded ∧ d.symCount = 0 ∧ d.retry = false ∧ d.readerOk ∧ d.drained
    ∧ d.inErr = none ∧ d.litLenTable.narrow ∧ hit = d.litLenTable.find d.streamNum

/-- A table whose one valid entry the zero byte at hand selects. -/
theorem symbolPremises_of (e : Word) (hit : LargeHit) (h : [e].all (fun e => field e.toNat 25 1 == 0) = true)
    (hf : hit = LargeTable.find ⟨[e], []⟩ (readingSymbols [0] [e]).streamNum) :
    symbolPremises (readingSymbols [0] [e]) hit ∧ (readingSymbols [0] [e]).writePos < (readingSymbols [0] [e]).outLimit
      ∧ (readingSymbols [0] [e]).avail = 8 :=
  ⟨⟨rfl, rfl, rfl, rfl, reading_readerOk [0], ⟨rfl, rfl⟩, rfl, LargeTable.narrow_of_short [e] h, hf⟩,
    (by decide : 0 < 65536), (by decide : (reading [0]).avail = 8)⟩

/-- A literal held; a full output; no entry; an entry of one bit too many; a literal of all the bits at hand; three packed literals; the end
of block; the shortest and the longest length; the reserved symbols. -/
theorem witness_SymbolFetch :
    (∃ d : Inflate, d.stage = .parse ∧ d.phase = .headerDecoded ∧ d.symCount = 2 ∧ d.nextLits = 0x6362)
    ∧ (∃ d : Inflate, d.outLimit ≤ d.writePos ∧ ∃ hit, symbolPremises d hit)
    ∧ (∃ d, symbolPremises d ⟨0, 0, 0⟩ ∧ d.writePos < d.outLimit ∧ d.avail = 8)
    ∧ (∃ d, symbolPremises d ⟨9, 1, 0xFF⟩ ∧ d.writePos < d.outLimit ∧ d.avail = 8)
    ∧ (∃ d, symbolPremises d ⟨8, 1, 0xFF⟩ ∧ d.writePos < d.outLimit ∧ d.avail = 8)
    ∧ (∃ d, symbolPremises d ⟨3, 3, 0x636261⟩ ∧ d.writePos < d.outLimit ∧ d.avail = 8)
    ∧ (∃ d, symbolPremises d ⟨7, 1, 256⟩ ∧ d.writePos < d.outLimit ∧ d.avail = 8)
    ∧ (∃ d, symbolPremises d ⟨7, 1, 257⟩ ∧ d.writePos < d.outLimit ∧ d.avail = 8)
    ∧ (∃ d, symbolPremises d ⟨8, 1, 512⟩ ∧ d.writePos < d.outLimit ∧ d.avail = 8)
    ∧ (∃ d, symbolPremises d ⟨8, 1, 513⟩ ∧ d.writePos < d.outLimit ∧ d.avail = 8)
    ∧ ∃ d, symbolPremises d ⟨8, 1, 514⟩ ∧ d.writePos < d.outLimit ∧ d.avail = 8 :=
  ⟨⟨{ readingSymbols [0] [] with symCount := 2, nextLits := 0x6362 }, rfl, rfl, rfl, rfl⟩,
    ⟨{ readingSymbols [0] [] with outLimit := 0 }, by decide, _,
      rfl, rfl, rfl, rfl, reading_readerOk [0], ⟨rfl, rfl⟩, rfl, LargeTable.narrow_of_short [] rfl, rfl⟩,
    ⟨_, symbolPremises_of 0x00000000 _ (by decide +kernel) (by decide +kernel)⟩,
    ⟨_, symbolPremises_of 0x940000FF _ (by decide +kernel) (by decide +kernel)⟩,
    ⟨_, symbolPremises_of 0x840000FF _ (by decide +kernel) (by decide +kernel)⟩,
    ⟨_, symbolPremises_of 0x3C636261 _ (by decide +kernel) (by decide +kernel)⟩,
    ⟨_, symbolPremises_of 0x74000100 _ (by decide +kernel) (by decide +kernel)⟩,
    ⟨_, symbolPremises_of 0x74000101 _ (by decide +kernel) (by decide +kernel)⟩,
    ⟨_, symbolPremises_of 0x84000200 _ (by decide +kernel) (by decide +kernel)⟩,
    ⟨_, symbolPremises_of 0x84000201 _ (by decide +kernel) (by decide +kernel)⟩,
    ⟨_, symbolPremises_of 0x84000202 _ (by decide +kernel) (by decide +kernel)⟩⟩

/-- Inside a code-length sequence, a small table with one entry, a zero byte at hand. -/
def clReading (e : Half) : Inflate :=
  { reading [0] with stage := .clSeq, scratch := { HeaderScratch.empty with nlit := 1, clcTable := ⟨[e], []⟩ } }

/-- Before a distance, a small table with one entry, one byte at hand. -/
def distReading (b : Byte) (e : Half) (btype : BitVec 2) : Inflate :=
  { reading [b] with stage := .dist, distTable := ⟨[e], []⟩, btype := btype }

/-- What CodeFetch asks of a state inside a code-length sequence. -/
def clPremises (d : Inflate) (hit : SmallHit) : Prop :=
  d.readerOk ∧ d.drained ∧ d.inErr = none ∧ d.stage = .clSeq ∧ d.scratch.lens.length < d.scratch.nlit + d.scratch.ndist
    ∧ d.scratch.clcTable.narrow Config.refillHdr ∧ hit = d.scratch.clcTable.find d.streamNum ∧ d.avail = 8
    ∧ d.snapInPos ≤ d.srcPos ∧ d.parkable

/-- What CodeFetch asks of a state before a distance. -/
def distPremises (d : Inflate) (hit : SmallHit) : Prop :=
  d.readerOk ∧ d.drained ∧ d.inErr = none ∧ d.stage = .dist ∧ d.retry = false ∧ d.distTable.narrow Config.refillMain
    ∧ hit = d.distTable.find d.streamNum ∧ d.avail = 8 ∧ d.snapInPos ≤ d.inPos

theorem clPremises_of (e : Half) (hit : SmallHit)
    (h : [e].all (fun e => field e.toNat 10 1 == 0 && decide (field e.toNat 11 5 ≤ 15)) = true)
    (hf : hit = SmallTable.find ⟨[e], []⟩ (clReading e).streamNum) : clPremises (clReading e) hit :=
  ⟨reading_readerOk [0], ⟨rfl, rfl⟩, rfl, rfl, (by decide : 0 < 1), SmallTable.narrow_of_short 15 (by decide) [e] h, hf,
    (by decide : (reading [0]).avail = 8), le_refl 0, fun _ => ⟨(by decide : 1 - 0 ≤ 328), Cells.ofList_readable [(0 : Byte)]⟩⟩

theorem distPremises_of (b : Byte) (e : Half) (t : BitVec 2) (hit : SmallHit)
    (h : [e].all (fun e => field e.toNat 10 1 == 0 && decide (field e.toNat 11 5 ≤ 57)) = true)
    (hf : hit = SmallTable.find ⟨[e], []⟩ (distReading b e t).streamNum) : distPremises (distReading b e t) hit :=
  ⟨reading_readerOk [b], ⟨rfl, rfl⟩, rfl, rfl, rfl, SmallTable.narrow_of_short 57 (by decide) [e] h, hf,
    (rfl : (reading [b]).avail = 8), Nat.le_refl 0⟩

/-- No code; a code of 7 bits; a code of one bit too many; no distance code, of a dynamic block and the two patterns of a static one; a distance code of one
bit too many, and of all the bits at hand. -/
theorem witness_CodeFetch :
    (∃ d, clPremises d ⟨0, 0⟩) ∧ (∃ d, clPremises d ⟨18, 7⟩) ∧ (∃ d, clPremises d ⟨18, 9⟩)
    ∧ (∃ d, distPremises d ⟨0, 0⟩ ∧ d.btype ≠ 0b01)
    ∧ (∃ d, distPremises d ⟨0, 0⟩ ∧ d.btype = 0b01 ∧ d.streamNum % 32 = 0b01111)
    ∧ (∃ d, distPremises d ⟨0, 0⟩ ∧ d.btype = 0b01 ∧ d.streamNum % 32 = 0b11111)
    ∧ (∃ d, distPremises d ⟨29 ||| (13 <<< 5), 9⟩) ∧ ∃ d, distPremises d ⟨29 ||| (13 <<< 5), 8⟩ :=
  ⟨⟨_, clPremises_of 0 _ (by decide) (by decide +kernel)⟩, ⟨_, clPremises_of 0x3812 _ (by decide) (by decide +kernel)⟩,
    ⟨_, clPremises_of 0x4812 _ (by decide) (by decide +kernel)⟩,
    ⟨distReading 0 0 0b10, distPremises_of 0 0 0b10 _ (by decide) (by decide +kernel), by decide⟩,
    ⟨distReading 0x0F 0 0b01, distPremises_of 0x0F 0 0b01 _ (by decide) (by decide +kernel), by decide, by decide +kernel⟩,
    ⟨distReading 0x1F 0 0b01, distPremises_of 0x1F 0 0b01 _ (by decide) (by decide +kernel), by decide, by decide +kernel⟩,
    ⟨_, distPremises_of 0 0x49BD 0b10 _ (by decide) (by decide +kernel)⟩,
    ⟨_, distPremises_of 0 0x41BD 0b10 _ (by decide) (by decide +kernel)⟩⟩

theorem witness_RefillKeepsStream : (reading (List.replicate 9 0)).readerOk ∧ (reading [1]).readerOk :=
  ⟨reading_readerOk _, reading_readerOk _⟩

theorem witness_TakeReadsStream : ((reading [1, 2, 3, 4]).readerOk ∧ 32 ≤ (reading [1, 2, 3, 4]).avail)
    ∧ ((reading [1, 2, 3]).readerOk ∧ (reading [1, 2, 3]).avail < 32) :=
  ⟨⟨reading_readerOk _, by decide⟩, reading_readerOk _, by decide⟩

theorem witness_RestoreUndoesReads : (reading [0]).readerOk
    ∧ (∃ d', Inflate.takeMany 3 3 (reading [0]).snapshot = .error (.underflow d'))
    ∧ ∃ d' vs, Inflate.takeMany 3 2 (reading [0]).snapshot = .ok (vs, d') :=
  ⟨reading_readerOk _, ⟨_, rfl⟩, ⟨_, _, rfl⟩⟩

theorem reset_accOk : Deflate.AccOk Deflate.reset :=
  ⟨by decide, by decide, by decide, none_readable _⟩

/-- The accumulator full, `OUT` with room for exactly one word. -/
theorem full_accOk : Deflate.AccOk { Deflate.reset with ebits := BitVec.allOnes 64, ebitLen := 64, oend := 8 } :=
  ⟨by decide, by decide, by decide, none_readable _⟩

theorem witness_PutbitsAppends :
    (∃ d : Deflate, d.AccOk ∧ 64 < d.ebitLen + 32 ∧ d.oidx + 8 ≤ d.oend) ∧ 0xFFFFFFFF < 2 ^ 32 :=
  ⟨⟨_, full_accOk, by decide, by decide⟩, by decide⟩

theorem witness_FlushPadsToByte : ∃ d : Deflate, d.AccOk ∧ d.oidx + 8 = d.oend ∧ d.ebitLen = 64 :=
  ⟨_, full_accOk, by decide, by decide⟩

theorem witness_DrainHandsOver : ∀ answers : List (Option Nat), ∃ d : Deflate, d.oidx ≤ d.oend
    ∧ d.outBuf.readable 0 d.oidx ∧ d.oidx = 4096 ∧ d.sink.answers = answers := fun answers =>
  ⟨{ Deflate.reset with oidx := 4096, outBuf := Cells.ofList (List.replicate 4096 0), sink := ⟨[], answers⟩ },
    le_refl 4096, zeros_readable 0 4096, rfl, rfl⟩

theorem witness_OutputIsBitExact : ∃ d : Deflate, d.AccOk ∧ d.oend = 16 ∧ d.sink.willing
    ∧ ∀ g ∈ [(0xFFFFFFFF, 32), (0, 0)], g.2 ≤ 32 ∧ g.1 < 2 ^ g.2 :=
  ⟨{ Deflate.reset with oend := 16 }, ⟨by decide, by decide, by decide, none_readable _⟩, rfl,
    (fun a ha => by cases ha), by decide⟩

theorem witness_CanonicalCodesPrefixFree : (∀ l ∈ [1, 2, 3, 3], l ≤ 15) ∧ [1, 2, 3, 3].length ≤ 2 ^ 2
    ∧ overSubscribed 15 [1, 2, 3, 3] = false ∧ overSubscribed 3 [1, 2, 3, 3] = false := by decide

theorem witness_OverSubscriptionIsKraft : (∀ l ∈ [1, 1, 7], l ≤ 7) ∧ overSubscribed 7 [1, 1, 7] = true
    ∧ overSubscribed 7 [1, 1, 0] = false := by decide

theorem witness_ExpandedCodesPrefixFree : staticLitLens.length = 288 ∧ (∀ l ∈ staticLitLens, l ≤ 15)
    ∧ overSubscribed 15 staticLitLens = false := by decide +kernel

/-- A short code and two long ones, with a bit string that each clause speaks of. -/
theorem witness_SmallTableContents :
    tableCodesOk 15 9 [⟨0, 1, 0⟩, ⟨1, 15, 511⟩, ⟨0b111, 3, 7⟩]
    ∧ (longLookup 10 [⟨0, 1, 0⟩, ⟨1, 15, 511⟩, ⟨0b111, 3, 7⟩]
        (longGroups 10 [⟨0, 1, 0⟩, ⟨1, 15, 511⟩, ⟨0b111, 3, 7⟩])).length ≤ 1024
    ∧ startingCode [⟨0, 1, 0⟩, ⟨1, 15, 511⟩, ⟨0b111, 3, 7⟩] 15 1 = some ⟨1, 15, 511⟩
    ∧ startingCode [⟨0, 1, 0⟩, ⟨1, 15, 511⟩, ⟨0b111, 3, 7⟩] 15 0b11 = none := by
  refine ⟨⟨?_, by decide⟩, by decide +kernel, by decide, by decide⟩
  simp [TableCode.apart]

theorem witness_LargeTableContents :
    tableCodesOk 20 10 [⟨0, 1, 97⟩, ⟨0b1, 20, 512⟩, ⟨0b11, 2, 256⟩]
    ∧ startingCode [⟨0, 1, 97⟩, ⟨0b1, 20, 512⟩, ⟨0b11, 2, 256⟩] 20 1 = some ⟨1, 20, 512⟩
    ∧ startingCode [⟨0, 1, 97⟩, ⟨0b1, 20, 512⟩, ⟨0b11, 2, 256⟩] 20 0 = some ⟨0, 1, 97⟩
    ∧ startingCode [⟨0, 1, 97⟩, ⟨0b1, 20, 512⟩, ⟨0b11, 2, 256⟩] 20 0b101 = none := by
  refine ⟨⟨?_, by decide⟩, by decide, by decide, by decide⟩
  simp [TableCode.apart]

/-- One symbol that occurs; as many as the limit has codes, of different frequencies. -/
theorem witness_LengthsWithinLimit :
    ([0, 5].filter (fun f => decide (0 < f))).length = 1 ∧ [0, 5].getD 0 0 = 0
    ∧ ([3, 9].filter (fun f => decide (0 < f))).length = 2 ^ 1 ∧ [3, 9].getD 0 0 < [3, 9].getD 1 0 := by decide

theorem witness_KraftRepairIsExact : [0, 1, 3].length = 2 + 1 ∧ [0, 1, 3].getD 0 0 = 0 ∧ [0, 1, 3].sum ≤ 2 ^ 2
    ∧ 2 ^ 2 < lenCountTotal 2 [0, 1, 3] ∧ lenCountTotal 2 ([0, 1, 3].set 2 0) ≤ 2 ^ 2 := by decide

theorem witness_StaticHeader : (onInflate (reading [])).inf.retry = false
    ∧ (onInflate { reading [] with retry := true }).inf.retry = true := ⟨rfl, rfl⟩

/-- A header that agrees, one in retry mode, one that does not agree. -/
theorem witness_StoredHeader :
    (∃ s : State, s.inf.readerOk ∧ s.inf.bitsLen % 8 = 0 ∧ s.inf.avail = 32 ∧ s.inf.retry = false
      ∧ (s.inf.streamNum % 2 ^ 16) ^^^ (s.inf.streamNum / 2 ^ 16 % 2 ^ 16) = 0xFFFF)
    ∧ (∃ s : State, s.inf.readerOk ∧ s.inf.bitsLen = 5 ∧ 5 + 32 ≤ s.inf.avail ∧ s.inf.retry = true
      ∧ (s.inf.streamNum / 2 ^ 5 % 2 ^ 16) ^^^ (s.inf.streamNum / 2 ^ 21 % 2 ^ 16) = 0xFFFF)
    ∧ ∃ s : State, s.inf.readerOk ∧ s.inf.bitsLen % 8 = 0 ∧ s.inf.avail = 32 ∧ s.inf.drained
      ∧ (s.inf.streamNum % 2 ^ 16) ^^^ (s.inf.streamNum / 2 ^ 16 % 2 ^ 16) ≠ 0xFFFF :=
  ⟨⟨onInflate (reading [3, 0, 0xFC, 0xFF]), reading_readerOk _, by decide, by decide, rfl, by decide⟩,
    ⟨onInflate { reading [] with
        retry := true, hdrBuf := Cells.ofList [3, 0, 0xFC, 0xFF], hdrLen := 4, bitsLen := 5, bits := 0b10101 },
      ⟨⟨by decide, by decide, by decide⟩, by decide, Cells.ofList_readable [3, 0, 0xFC, 0xFF], fun _ => by decide⟩, rfl,
      by decide, rfl, by decide⟩,
    ⟨onInflate (reading [3, 0, 0xFC, 0xFE]), reading_readerOk _, by decide, by decide, ⟨rfl, rfl⟩, by decide⟩⟩

/-- Counts just too large; the largest counts with code-length-code lengths that are, and are not, over-subscribed. -/
theorem witness_DynamicHeader :
    (∃ s : State, s.inf.readerOk ∧ s.inf.drained ∧ 14 ≤ s.inf.avail ∧ s.inf.streamNum % 32 + 257 = 287)
    ∧ (∃ s : State, s.inf.readerOk ∧ s.inf.drained ∧ s.inf.streamNum % 32 + 257 = 286
      ∧ s.inf.streamNum / 32 % 32 + 1 = 30 ∧ s.inf.streamNum / 2 ^ 10 % 16 = 15 ∧ 14 + 3 * 19 ≤ s.inf.avail
      ∧ overSubscribed 7 (List.replicate 19 0) = false ∧ s.inf.streamNum / 2 ^ 14 = 0)
    ∧ ∃ s : State, s.inf.readerOk ∧ s.inf.drained ∧ s.inf.streamNum / 2 ^ 10 % 16 = 0 ∧ 14 + 3 * 4 ≤ s.inf.avail
      ∧ s.inf.streamNum / 2 ^ 14 % 2 ^ 12 = 0b001_001_001_001
      ∧ overSubscribed 7 (placeClcLens clcOrder [1, 1, 1, 1] (List.replicate 19 0)) = true :=
  ⟨⟨onInflate (reading [30, 0]), reading_readerOk _, ⟨rfl, rfl⟩, by decide, by decide⟩,
    ⟨onInflate (reading [0xBD, 0x3F, 0, 0, 0, 0, 0, 0, 0]), reading_readerOk _, ⟨rfl, rfl⟩, by decide, by decide, by decide,
      by decide, by decide, by decide⟩,
    ⟨onInflate (reading [0x00, 0x40, 0x92, 0x00]), reading_readerOk _, ⟨rfl, rfl⟩, by decide, by decide, by decide, by decide⟩⟩

theorem witness_ReservedElementsFail : (onInflate (reading [])).inf.drained := ⟨rfl, rfl⟩

/-- What HeaderSuspends asks of a state outside retry mode. -/
def suspendPremises (d : Inflate) : Prop :=
  d.readerOk ∧ d.drained ∧ d.inErr = none ∧ d.snapInPos ≤ d.srcPos ∧ d.retry = false ∧ d.parkable

/-- A slice of 328 bytes all used up since the snapshot, 31 bits left. -/
def usedUp : Inflate :=
  { reading [] with inBuf := Cells.ofList (List.replicate 328 0), inLen := 328, inPos := 328, bitsLen := 31 }

/-- A header kept in `HDR`, of which `n` bits are left. -/
def keptHeader (n : Int) : Inflate := { reading [] with retry := true, hdrLen := 4, hdrPos := 4, bitsLen := n }

/-- A stored header one bit short; a dynamic one one bit short of its counts, and of its code lengths; the repeats one bit
short; the same in retry mode; two bits before a block; a code-length symbol's code one bit short. -/
theorem witness_HeaderSuspends :
    (suspendPremises usedUp ∧ usedUp.inLen - usedUp.snapInPos = Config.hdrBufSize
      ∧ usedUp.avail + 8 = (usedUp.bitsLen % 8).toNat + 32)
    ∧ (∃ d, suspendPremises d ∧ d.avail = 13)
    ∧ (∃ d, suspendPremises d ∧ d.streamNum % 32 = 29 ∧ d.streamNum / 32 % 32 = 29 ∧ d.streamNum / 2 ^ 10 % 16 = 4
      ∧ d.avail + 6 = 14 + 3 * (4 + 4))
    ∧ (∃ d, suspendPremises d ∧ d.scratch.lens ≠ [] ∧ d.avail = 1)
    ∧ (keptHeader 6).readerOk ∧ (keptHeader 6).drained ∧ (keptHeader 6).inErr = none
    ∧ (keptHeader 6).snapInPos ≤ (keptHeader 6).srcPos ∧ (keptHeader 6).retry = true ∧ (keptHeader 6).avail + 1 = 7
    ∧ (keptHeader 6).parkable
    ∧ (∃ d, suspendPremises d ∧ d.stage = .parse ∧ d.phase = .newBlock ∧ d.avail = 2)
    ∧ ∃ d, clPremises d ⟨18, 9⟩ := by
  have base : ∀ (n : Nat) (ls : List Nat), n ≤ 64 → suspendPremises { reading [] with
      bitsLen := n, scratch := { HeaderScratch.empty with lens := ls } } := fun n ls hn =>
    ⟨⟨⟨Int.natCast_nonneg n, Int.ofNat_le.2 hn, Nat.two_pow_pos n⟩, Nat.le_refl 0, none_readable _, fun h => by cases h⟩,
      ⟨rfl, rfl⟩, rfl, Nat.le_refl 0, rfl, fun _ => ⟨Nat.zero_le _, none_readable _⟩⟩
  refine ⟨⟨⟨⟨⟨by decide, by decide, by decide⟩, by decide, zeros_readable 328 328, fun h => by cases h⟩, ⟨rfl, rfl⟩, rfl,
      by decide, rfl, fun _ => ⟨by decide, zeros_readable 0 328⟩⟩, by decide, by decide⟩, ⟨_, base 13 [] (by decide), rfl⟩,
    ⟨reading [0xBD, 0x13, 0, 0], ⟨reading_readerOk _, ⟨rfl, rfl⟩, rfl, by decide, rfl, fun _ => ⟨by decide,
      Cells.ofList_readable [0xBD, 0x13, 0, 0]⟩⟩, by decide +kernel, by decide +kernel, by decide +kernel, by decide⟩,
    ⟨_, base 1 [8] (by decide), by decide, rfl⟩,
    ⟨⟨by decide, by decide, by decide⟩, by decide, fun k h1 h2 => absurd h2 (Nat.not_lt.2 h1), fun _ => by decide⟩, ⟨rfl, rfl⟩,
    rfl, by decide, rfl, by decide, (fun h => by cases h), ⟨_, base 2 [] (by decide), rfl, rfl, rfl⟩,
    ⟨_, clPremises_of 0x4812 _ (by decide) (by decide +kernel)⟩⟩

/-- The three repeats, each once to the last length and once one beyond. -/
theorem witness_CodeLengthSymbols :
    (∃ s : State, s.inf.drained ∧ s.inf.scratch.lens = [])
    ∧ ∀ t : Nat, ∃ s : State, s.inf.readerOk ∧ s.inf.drained ∧ s.inf.scratch.lens.getLast? = some 15 ∧ 7 ≤ s.inf.avail
      ∧ s.inf.scratch.nlit + s.inf.scratch.ndist = t ∧ s.inf.scratch.lens.length = 1 ∧ s.inf.streamNum % 2 ^ 7 = 127 :=
  ⟨⟨onInflate (reading []), ⟨rfl, rfl⟩, rfl⟩, fun t =>
    ⟨onInflate { reading [0x7F] with scratch := { HeaderScratch.empty with lens := [15], nlit := t } }, reading_readerOk [0x7F],
      ⟨rfl, rfl⟩, rfl, (by decide : 7 ≤ (reading [0x7F]).avail), rfl, rfl,
      (by decide +kernel : (reading [0x7F]).streamNum % 2 ^ 7 = 127)⟩⟩

theorem witness_DynamicHeaderEnds : ∀ (l : Nat) (r : Bool), ∃ s : State, s.inf.stage = .clSeq ∧ s.inf.retry = r ∧ s.inf.drained
    ∧ s.inf.scratch.lens.length = s.inf.scratch.nlit + s.inf.scratch.ndist ∧ s.inf.scratch.nlit = 286
    ∧ s.inf.scratch.ndist = 30 ∧ s.inf.scratch.lens = List.replicate 316 l := fun l r =>
  ⟨onInflate { reading [] with
      stage := .clSeq
      retry := r
      scratch := { HeaderScratch.empty with lens := List.replicate 316 l, nlit := 286, ndist := 30 } },
    rfl, rfl, ⟨rfl, rfl⟩, List.length_replicate, rfl, rfl, rfl⟩

/-- With `l = 0` no part is over-subscribed, with `l = 1` both are. -/
theorem witness_DynamicHeaderEnds_clauses : overSubscribed 15 (List.replicate 30 0) = false
    ∧ overSubscribed 15 (List.replicate 286 0) = false ∧ overSubscribed 15 (List.replicate 30 1) = true := by
  decide +kernel

theorem witness_LiteralStored : ∃ s : State, s.inf.writePos < s.inf.outLimit ∧ s.inf.outLimit = Config.histBufSize
    ∧ s.inf.writePos + 1 = s.inf.outLimit :=
  ⟨onInflate { reading [] with writePos := 65823, outLimit := 65824 }, by decide, by decide, by decide⟩

theorem witness_LiteralOverflow : ∃ s : State, s.inf.outLimit ≤ s.inf.writePos
    ∧ s.inf.writePos + 4 = Config.histBufSize ∧ s.inf.drained ∧ s.inf.inErr = none ∧ s.inf.symCount = 2 :=
  ⟨onInflate { reading [] with writePos := 65820, outLimit := 65536, symCount := 2 }, by decide, by decide, ⟨rfl, rfl⟩, rfl,
    rfl⟩

/-- The nearest and the farthest distance, each with a match that ends at the output limit. -/
theorem witness_MatchCopies :
    (∃ s : State, (Instr.dist0, 0, 1) ∈ distanceRows ∧ s.inf.readerOk ∧ 1 ≤ s.inf.writePos
      ∧ s.inf.writePos + s.inf.repeatLength = s.inf.outLimit ∧ s.inf.outLimit ≤ Config.histBufSize
      ∧ s.inf.histBuf.readable (s.inf.writePos - 1) s.inf.writePos ∧ s.inf.repeatLength = 258)
    ∧ ∃ s : State, (Instr.dist29, 13, 24577) ∈ distanceRows ∧ s.inf.readerOk ∧ 13 ≤ s.inf.avail
      ∧ 24577 + s.inf.streamNum % 2 ^ 13 = 32768 ∧ s.inf.writePos = 32768
      ∧ s.inf.writePos + s.inf.repeatLength = s.inf.outLimit ∧ s.inf.outLimit ≤ Config.histBufSize
      ∧ s.inf.histBuf.readable (s.inf.writePos - 32768) s.inf.writePos :=
  ⟨⟨onInflate (copying [] 1 258 259), by decide, copying_readerOk _ _ _ _, le_refl 1, rfl, by decide, zeros_readable _ 1, rfl⟩,
    ⟨onInflate (copying [0xFF, 0x1F] 32768 3 32771), by decide, copying_readerOk _ _ _ _,
      (by decide : 13 ≤ (reading [0xFF, 0x1F]).avail),
      (by decide +kernel : 24577 + (reading [0xFF, 0x1F]).streamNum % 2 ^ 13 = 32768), rfl, rfl,
      (by decide : 32771 ≤ Config.histBufSize), zeros_readable _ 32768⟩⟩

theorem witness_MatchOverflow : ∃ s : State, (Instr.dist0, 0, 1) ∈ distanceRows ∧ s.inf.readerOk ∧ s.inf.drained
    ∧ s.inf.inErr = none ∧ 1 ≤ s.inf.writePos ∧ s.inf.writePos = s.inf.outLimit
    ∧ s.inf.outLimit < s.inf.writePos + s.inf.repeatLength ∧ s.inf.writePos + s.inf.repeatLength ≤ Config.histBufSize
    ∧ s.inf.histBuf.readable (s.inf.writePos - 1) s.inf.writePos :=
  ⟨onInflate (copying [] 1 258 1), by decide, copying_readerOk _ _ _ _, ⟨rfl, rfl⟩, rfl, le_refl 1, rfl, by decide,
    by decide, zeros_readable _ 1⟩

/-- A distance one above what has been written; extra bits of which one is missing. -/
theorem witness_DistanceStops :
    (∃ s : State, (Instr.dist3, 0, 4) ∈ distanceRows ∧ s.inf.readerOk ∧ s.inf.drained
      ∧ s.inf.writePos + 1 = 4 + s.inf.streamNum % 2 ^ 0)
    ∧ ∃ s : State, (Instr.dist20, 9, 1025) ∈ distanceRows ∧ s.inf.readerOk ∧ s.inf.drained ∧ s.inf.avail + 1 = 9
      ∧ s.inf.inErr = none ∧ s.inf.snapInPos ≤ s.inf.srcPos :=
  ⟨⟨onInflate (copying [] 3 3 65536), by decide, copying_readerOk _ _ _ _, ⟨rfl, rfl⟩, by decide⟩,
    ⟨onInflate (copying [0] 3 3 65536), by decide, copying_readerOk _ _ _ _, ⟨rfl, rfl⟩, by decide, rfl, by decide⟩⟩

/-- The block, the output, the input used up first. -/
theorem witness_StoredCopy : ∀ lbl limit : Nat, limit ≤ Config.histBufSize → ∃ s : State, s.inf.stage = .parse
    ∧ s.inf.phase = .litBlock ∧ s.inf.retry = false ∧ s.inf.readerOk ∧ s.inf.drained ∧ s.inf.inErr = none
    ∧ s.inf.bitsLen % 8 = 0 ∧ s.inf.writePos ≤ s.inf.outLimit ∧ s.inf.outLimit = limit ∧ s.inf.litBlockLength = lbl
    ∧ s.inf.avail / 8 = 2 ∧ s.inf.writePos = 0 := fun lbl limit _ =>
  ⟨onInflate { reading [7, 8] with phase := .litBlock, litBlockLength := lbl, outLimit := limit }, rfl, rfl, rfl,
    reading_readerOk [7, 8], ⟨rfl, rfl⟩, rfl, (by decide : (0 : Int) % 8 = 0), Nat.zero_le _, rfl, rfl,
    (by decide : (reading [7, 8]).avail / 8 = 2), rfl⟩

/-- The states of `reading` are sound, whatever the slice. -/
theorem reading_sound (bytes : List Byte) : (reading bytes).Sound where
  always := ⟨zero_bufferOk, ⟨le_refl 0, Nat.zero_le _⟩, none_readable _, ⟨rfl, rfl⟩,
    (fun h => by rcases h with h | h <;> cases h), Nat.zero_le 2⟩
  idle := fun h => by cases h
  decoding := fun _ => ⟨⟨le_refl 65536, Nat.zero_le _⟩, ⟨Nat.zero_le _, Cells.ofList_readable bytes⟩,
    (fun h => by cases h)⟩
  parse := fun _ => ⟨rfl, fun _ => rfl⟩
  clSeq := fun h => by cases h
  dist := fun h => by cases h
  aligned := fun h => by cases h

/-- A state between two commands, with one byte decoded and delivered. -/
def delivered : Inflate :=
  { reading [] with stage := .idle, histBuf := Cells.ofList [0x61], writePos := 1, readPos := 1 }

theorem delivered_sound : delivered.Sound where
  always := ⟨zero_bufferOk, ⟨le_refl 1, by decide⟩, Cells.ofList_readable [(0x61 : Byte)], ⟨rfl, rfl⟩,
    (fun h => by rcases h with h | h <;> cases h), Nat.zero_le 2⟩
  idle := fun _ => ⟨rfl, rfl⟩
  decoding := fun h => absurd rfl h
  parse := fun h => by cases h
  clSeq := fun h => by cases h
  dist := fun h => by cases h
  aligned := fun h => by cases h

theorem emptyTables_ok (bytes : List Byte) : (reading bytes).TablesOk where
  lens := fun l h => by cases h
  clc := fun h => by cases h
  litLen := LargeTable.narrow_of_short [] rfl
  dist := SmallTable.narrow_of_short 57 (by decide) [] rfl

theorem witness_PhaseTransitions_StepKeepsInflateSound_StepKeepsTables :
    ∃ s t : State, s.inf.Sound ∧ s.inf.TablesOk ∧ s.inf.stage ≠ .idle ∧ step s = .next t :=
  ⟨onInflate (reading [0b111]), _, reading_sound _, emptyTables_ok _, by decide, rfl⟩

/-- Bytes to deliver; a read of nothing; an error; the end of the stream; nothing yet. -/
theorem witness_ReadDelivers :
    (∃ s : State, s.inf.writePos = Config.histBufSize ∧ s.inf.histBuf.readable s.inf.readPos s.inf.writePos
      ∧ 0 < min 1 (s.inf.writePos - s.inf.readPos))
    ∧ (∃ s : State, s.inf.writePos ≤ Config.histBufSize ∧ s.inf.histBuf.readable s.inf.readPos s.inf.writePos
      ∧ min 1 (s.inf.writePos - s.inf.readPos) = 0 ∧ s.inf.inErr = some (.invalidBlock, 5))
    ∧ (∃ s : State, s.inf.writePos ≤ Config.histBufSize ∧ s.inf.histBuf.readable s.inf.readPos s.inf.writePos
      ∧ min 1 (s.inf.writePos - s.inf.readPos) = 0 ∧ s.inf.inErr = none ∧ s.inf.phase = .streamEnd)
    ∧ ∃ s : State, s.inf.writePos ≤ Config.histBufSize ∧ s.inf.histBuf.readable s.inf.readPos s.inf.writePos
      ∧ min 1 (s.inf.writePos - s.inf.readPos) = 0 ∧ s.inf.inErr = none ∧ s.inf.phase ≠ .streamEnd
      ∧ s.inf.phase ≠ .finish :=
  ⟨⟨onInflate { reading [] with histBuf := Cells.ofList (List.replicate 65824 0), readPos := 65823, writePos := 65824 }, rfl,
      zeros_readable 65823 65824, by decide⟩,
    ⟨onInflate { reading [] with inErr := some (.invalidBlock, 5) }, by decide, none_readable _, by decide, rfl⟩,
    ⟨onInflate { reading [] with phase := .streamEnd }, by decide, none_readable _, by decide, rfl, rfl⟩,
    ⟨onInflate (reading []), by decide, none_readable _, by decide, rfl, by decide, by decide⟩⟩

theorem witness_StepRefuses :
    (∃ s : State, s.inf.inErr = some (.invalidSymbol, 0))
    ∧ (∃ s : State, s.inf.inErr = none ∧ s.inf.readPos ≠ s.inf.writePos)
    ∧ (∃ s : State, s.inf.inErr = none ∧ [(0 : Byte)].length + 1 = (s.inf.bitsLen / 8).toNat)
    ∧ ∃ s : State, s.inf.inErr = none ∧ s.params.sliceMax + 1 = (List.replicate 4097 (0 : Byte)).length :=
  ⟨⟨onInflate { reading [] with inErr := some (.invalidSymbol, 0) }, rfl⟩,
    ⟨onInflate { reading [] with writePos := 1 }, rfl, by decide⟩, ⟨onInflate { reading [] with bitsLen := 16 }, rfl, by decide⟩,
    ⟨State.reset, rfl, List.length_replicate.symm⟩⟩

/-- A slice that is taken, of exactly `SLICE_MAX` bytes; one that is too long. -/
theorem witness_StepCompletes :
    (∃ s : State, s.inf.Sound ∧ s.inf.stage = .idle ∧ s.inf.inErr = none ∧ s.inf.readPos = s.inf.writePos
      ∧ (s.inf.bitsLen / 8).toNat = 0 ∧ s.params.sliceMax = (List.replicate 4096 (0 : Byte)).length)
    ∧ ∃ s : State, s.inf.Sound ∧ s.inf.stage = .idle ∧ s.params.sliceMax + 1 = (List.replicate 4097 (0 : Byte)).length :=
  ⟨⟨onInflate delivered, delivered_sound, rfl, rfl, rfl, rfl, List.length_replicate.symm⟩,
    ⟨onInflate delivered, delivered_sound, rfl, List.length_replicate.symm⟩⟩

theorem witness_FoldKeepsHistory : ∀ n : Nat, 2 * Config.historySize ≤ n → n ≤ Config.histBufSize →
    ∃ d : Inflate, d.writePos = n ∧ d.histBuf.readable (d.writePos - Config.historySize) d.writePos := fun n _ _ =>
  ⟨copying [] n 0 0, rfl, zeros_readable _ n⟩

/-- A match of exactly 64 bits. -/
theorem witness_TokensEmitBits : ∃ (d : Deflate) (r q : Word), d.AccOk ∧ d.oidx + 8 ≤ d.oend
    ∧ r = d.litCodes.slot 512 ∧ q = d.distCodes.slot 29 ∧ litSlotCode r < 2 ^ slotLen r ∧ distSlotCode q < 2 ^ slotLen q
    ∧ 8191 < 2 ^ distSlotExtra q ∧ slotLen r + slotLen q + distSlotExtra q = 64 :=
  ⟨{ Deflate.reset with litCodes := ⟨[(512, 0x24FFFFFF)]⟩, distCodes := ⟨[(29, 0x0F0D7FFF)]⟩ }, 0x24FFFFFF, 0x0F0D7FFF,
    ⟨by decide, by decide, by decide, none_readable _⟩, by decide, by decide, by decide,
    by decide, by decide, by decide, by decide⟩

theorem witness_CodesFromRecords : (generateCode 15 (List.replicate 286 9)).length = 286
    ∧ (generateCode 15 (List.replicate 30 5)).length = 30 := by decide +kernel

theorem witness_RunLengthsExpand : ∀ l ∈ [15, 15, 15, 15, 0, 0, 0], l < 16 := by decide

/-- A deflate side between two commands: 3 bytes in the window, one of them tokenised. -/
def tokenised : Deflate :=
  { Deflate.reset with
    winBuf := Cells.ofList [0x61, 0x62, 0x63], widx := 1, wend := 3, tokBuf := Cells.ofList [0x00007861], tokCount := 1 }

theorem tokenised_sound : tokenised.Sound where
  stage := rfl
  acc := ⟨by decide, by decide, by decide, none_readable _⟩
  room := by decide
  window := .inl rfl
  cursors := by decide
  shiftable := fun h => absurd h (by decide)
  filled := Cells.ofList_readable [(0x61 : Byte), 0x62, 0x63]
  tokens := ⟨by decide, Cells.ofList_readable [(0x00007861 : Word)]⟩
  fresh := fun h => by cases h
  kinds := fun k hk t ht => by
    have hk' : k < 1 := hk
    obtain rfl : k = 0 := by omega
    cases ht
    exact ⟨.tlit 0x61, by decide⟩

theorem witness_MatcherTokensExpand_DeflateCompletes : ∃ s : State, s.df.Sound ∧ s.df.outErr = none
    ∧ s.df.closed = false ∧ s.df.sink.willing :=
  ⟨onDeflate tokenised, tokenised_sound, rfl, rfl, fun a ha => by cases ha⟩

/-- Each operand that is taken; a level, and a window, that is not. -/
theorem witness_DfResetClears :
    (∀ level ∈ [(-2 : Int), 1, 2], level = -2 ∨ level = 1 ∨ level = 2) ∧ (∀ w ∈ [32768, 4096], w = 32768 ∨ w = 4096)
    ∧ ¬ (((0 : Int) = -2 ∨ (0 : Int) = 1 ∨ (0 : Int) = 2) ∧ (32768 = 32768 ∨ 32768 = 4096))
    ∧ ¬ (((2 : Int) = -2 ∨ (2 : Int) = 1 ∨ (2 : Int) = 2) ∧ (16384 = 32768 ∨ 16384 = 4096)) := by decide

/-- The 4 KiB window full, all but 8 bytes of it tokenised: the next write shifts it. -/
def shifting : Deflate :=
  { Deflate.reset with
    windowSize := 4096, winBuf := Cells.ofList (List.replicate 8450 0), widx := 8442, wend := 8450 }

theorem shifting_sound : shifting.Sound where
  stage := rfl
  acc := ⟨by decide, by decide, by decide, none_readable _⟩
  room := by decide
  window := .inr rfl
  cursors := by decide
  shiftable := fun _ => by decide
  filled := zeros_readable 0 8450
  tokens := ⟨by decide, none_readable _⟩
  fresh := fun h => by cases h
  kinds := fun k hk => absurd hk (Nat.not_lt_zero k)

/-- A write that shifts the window and does not fill it. -/
theorem witness_DeflateCompletes_shift : ∃ s : State, s.df.Sound ∧ s.df.outErr = none ∧ s.df.closed = false
    ∧ s.df.sink.willing ∧ 2 * s.df.windowSize ≤ s.df.widx
    ∧ s.df.wend - (s.df.widx - s.df.windowSize) + 1 < s.df.fill :=
  ⟨onDeflate shifting, shifting_sound, rfl, rfl, (fun a ha => by cases ha), by decide, by decide⟩

theorem witness_ClosedOrFailedAnswers : (∃ s : State, s.df.outErr = some 7 ∧ s.df.closed = true)
    ∧ ∃ s : State, s.df.outErr = none ∧ s.df.closed = true :=
  ⟨⟨onDeflate { Deflate.reset with outErr := some 7, closed := true }, rfl, rfl⟩,
    ⟨onDeflate { Deflate.reset with closed := true }, rfl, rfl⟩⟩

/-- An inflate instruction and a deflate one, each completing in two states that differ on the other side. -/
theorem witness_SidesIndependent_SidesDoNotLeak :
    (∃ s1 s2 t1 : State, exec .eob s1 = .next t1 ∧ s1.params = s2.params ∧ onInflateSide .eob = true ∧ s1.inf = s2.inf
      ∧ s1.df ≠ s2.df)
    ∧ ∃ s1 s2 t1 : State, exec (.tlit 0) s1 = .next t1 ∧ s1.params = s2.params ∧ onInflateSide (.tlit 0) = false
      ∧ s1.df = s2.df ∧ s1.freeDraws = s2.freeDraws ∧ s1.inf ≠ s2.inf :=
  ⟨⟨State.reset, onDeflate { Deflate.reset with closed := true }, _, rfl, rfl, rfl, rfl, by decide +kernel⟩,
    ⟨State.reset, onInflate (reading [1]), _, rfl, rfl, rfl, rfl, rfl, by decide +kernel⟩⟩

theorem witness_ErrorsAreSticky :
    (∃ s t : State, exec .inClose s = .next t ∧ s.inf.inErr ≠ none)
    ∧ ∃ s t : State, exec .dfFlush s = .next t ∧ s.df.outErr ≠ none :=
  ⟨⟨onInflate { reading [] with inErr := some (.invalidBlock, 0) }, _, rfl, by decide⟩,
    ⟨onDeflate { Deflate.reset with outErr := some 7 }, _, rfl, by decide⟩⟩

theorem witness_StepKeepsMemories_StepKeepsBitBuffer : ∃ s t : State, s.memoriesWf = true
    ∧ bufferOk s.inf.bits s.inf.bitsLen ∧ bufferOk s.inf.snapBits s.inf.snapBitsLen ∧ step s = .next t :=
  ⟨onInflate { reading [0b111] with bits := BitVec.allOnes 64, bitsLen := 64 }, _, by decide +kernel,
    ⟨by decide, by decide, by decide⟩, ⟨by decide, by decide, by decide⟩, rfl⟩

end
end

section
/-! PROOFS. The bit reader: what `refill` and `take` do to the stream at hand (rules R160, R161, R164). -/

namespace Sys2Proof.Machine

/-! ### The words `refill` makes -/

/-- A number or-ed into a word above the word's valid bits, as far as the 64 bits reach. -/
theorem wide_or_shiftLeft_toNat {b : Wide} {len : Nat} (v : Nat) (hb : b.toNat < 2 ^ len) :
    (b ||| (BitVec.ofNat 64 v <<< len)).toNat = (b.toNat + 2 ^ len * v) % 2 ^ 64 := by
  rw [← or_shift_eq_add v hb, Nat.or_mod_two_pow, Nat.mod_eq_of_lt b.isLt]
  simp [BitVec.toNat_or, BitVec.toNat_shiftLeft, Nat.shiftLeft_eq, Nat.mod_mul_mod]

/-- Masking a word keeps its low bits. -/
theorem wide_and_mask_toNat (b : Wide) {k : Nat} (hk : k ≤ 64) :
    (b &&& BitVec.ofNat 64 (mask k)).toNat = b.toNat % 2 ^ k := by
  have hmask : mask k < 2 ^ 64 := by
    have := Nat.pow_le_pow_right (show 0 < 2 by decide) hk
    unfold mask
    omega
  rw [BitVec.toNat_and, BitVec.toNat_ofNat, Nat.mod_eq_of_lt hmask, mask, Nat.and_two_pow_sub_one_eq_mod]

/-- Whole bytes above a buffer of `len` bits make a number of `len` bits and the bytes' bits. -/
theorem add_leValue_lt {a len : Nat} (xs : List Byte) (ha : a < 2 ^ len) :
    a + 2 ^ len * leValue xs < 2 ^ (len + 8 * xs.length) :=
  calc a + 2 ^ len * leValue xs < 2 ^ len * (leValue xs + 1) := by rw [Nat.mul_add]; omega
    _ ≤ 2 ^ len * 2 ^ (8 * xs.length) := Nat.mul_le_mul_left _ (leValue_lt xs)
    _ = 2 ^ (len + 8 * xs.length) := (pow_add ..).symm

/-- Cutting bytes above a buffer of `len` bits down to the first of them. -/
theorem add_leValue_append_mod {a len : Nat} (xs ys : List Byte) (ha : a < 2 ^ len) :
    (a + 2 ^ len * leValue (xs ++ ys)) % 2 ^ (len + 8 * xs.length) = a + 2 ^ len * leValue xs := by
  rw [leValue_append, Nat.mul_add, ← Nat.add_assoc, ← Nat.mul_assoc, ← pow_add, Nat.add_mul_mod_self_left,
    Nat.mod_eq_of_lt (add_leValue_lt xs ha)]

/-! ### `refill` -/

theorem Inflate.ReadBits.refl {d : Inflate} (h : d.readerOk) : Inflate.ReadBits 0 d d where
  ok := h
  enough := rfl
  rest := by simp
  position := by simp
  same := d.sameButReader_refl

/-- The fast mode reads nothing and leaves more than 56 bits in the buffer (rule R161). -/
theorem Inflate.refillFast_readBits {d : Inflate} (h : d.readerOk) (h8 : 8 ≤ d.srcLen - d.srcPos) :
    ∃ d', d.refillFast = .ok d' ∧ Inflate.ReadBits 0 d d' ∧ 57 ≤ d'.bitsLen := by
  obtain ⟨h0, h64, hlt⟩ := h.1
  obtain ⟨n, hn⟩ : ∃ n, n = 8 - (d.bitsLen.toNat + 7) / 8 := ⟨_, rfl⟩
  unfold Inflate.refillFast
  simp only [Inflate.srcBytes_ok h h8, except_ok_bind, ← hn]
  refine ⟨_, rfl, Inflate.moveIn_readBits h (by omega) (by omega) ?_, by rw [Inflate.moveIn_bitsLen]; omega⟩
  have hwin : d.srcMem.window d.srcPos 8
      = d.srcMem.window d.srcPos n ++ d.srcMem.window (d.srcPos + n) (8 - n) := by
    rw [← Cells.window_append]; congr 1; omega
  have hmod := add_leValue_append_mod (d.srcMem.window d.srcPos n) (d.srcMem.window (d.srcPos + n) (8 - n)) hlt
  rw [Cells.window_length, ← hwin] at hmod
  rw [wide_and_mask_toNat _ (by omega), wide_or_shiftLeft_toNat _ hlt,
    Nat.mod_mod_of_dvd _ (Nat.pow_dvd_pow 2 (by omega)), hmod]

/-- One byte moved in by the slow mode reads nothing. -/
theorem Inflate.moveByteIn_readBits {d : Inflate} (h : d.readerOk) (h1 : 1 ≤ d.srcLen - d.srcPos)
    (hl : d.bitsLen ≤ 56) :
    Inflate.ReadBits 0 d (d.moveIn 1
      (d.bits ||| (BitVec.ofNat 64 (leValue (d.srcMem.window d.srcPos 1)) <<< d.bitsLen.toNat))) := by
  obtain ⟨h0, -, hlt⟩ := h.1
  refine Inflate.moveIn_readBits h h1 (by omega) ?_
  have hsum := add_leValue_lt (d.srcMem.window d.srcPos 1) hlt
  rw [Cells.window_length] at hsum
  rw [wide_or_shiftLeft_toNat _ hlt,
    Nat.mod_eq_of_lt (hsum.trans_le (Nat.pow_le_pow_right (by decide) (by omega)))]

/-- The slow mode reads nothing; it stops at the threshold or at the end of the source (rule R161). -/
theorem Inflate.refillSlow_readBits {m : Nat} (hm : m ≤ 57) (n : Nat) {d : Inflate} (h : d.readerOk)
    (hn : n = d.srcLen - d.srcPos) :
    ∃ d', Inflate.refillSlow m n d = .ok d' ∧ Inflate.ReadBits 0 d d'
      ∧ ((m : Int) ≤ d'.bitsLen ∨ d'.srcPos = d'.srcLen) := by
  induction n generalizing d with
  | zero =>
    have hpos := h.2.1
    exact ⟨d, rfl, .refl h, .inr (by omega)⟩
  | succ n ih =>
    unfold Inflate.refillSlow
    split
    case isTrue hfull => exact ⟨d, rfl, .refl h, .inl hfull⟩
    case isFalse hfull =>
      have hmove := Inflate.moveByteIn_readBits h (by omega) (by omega)
      obtain ⟨d', hd', hread, hend⟩ := ih hmove.ok (by simp; omega)
      rw [Inflate.srcBytes_ok h (by omega), except_ok_bind]
      exact ⟨d', hd', hmove.trans hread, hend⟩

/-- `refill` reads nothing and never fails; afterwards the threshold is reached or the source is empty (rule R160). -/
theorem Inflate.refill_readBits {d : Inflate} {m : Nat} (hm : m ≤ 57) (h : d.readerOk) :
    ∃ d', d.refill m = .ok d' ∧ Inflate.ReadBits 0 d d' ∧ ((m : Int) ≤ d'.bitsLen ∨ d'.srcPos = d'.srcLen) := by
  unfold Inflate.refill
  split
  case isTrue hfull => exact ⟨d, rfl, .refl h, .inl hfull⟩
  case isFalse =>
    split
    case isTrue h8 =>
      obtain ⟨d', hd', hread, hlen⟩ := Inflate.refillFast_readBits h h8
      exact ⟨d', hd', hread, .inl (by omega)⟩
    case isFalse => exact Inflate.refillSlow_readBits hm _ h rfl

/-! ### `take` -/

/-- What `take` makes of the state its refill answers. -/
theorem Inflate.take_of_refill {d e : Inflate} {k : Nat} (hr : d.refill (max k 1) = .ok e) :
    d.take k = if e.bitsLen < k then .error (.underflow (e.consume k)) else .ok (e.peek k, e.consume k) := by
  unfold Inflate.take
  simp [hr, Inflate.underflowed]

/-- After a refill to `k` bits or to the end of the source, the buffer holds `k` bits exactly when the stream does. -/
theorem Inflate.le_bitsLen_iff_le_avail {d : Inflate} {k : Nat} (h : d.readerOk)
    (hk : (k : Int) ≤ d.bitsLen ∨ d.srcPos = d.srcLen) : (k : Int) ≤ d.bitsLen ↔ k ≤ d.avail := by
  obtain ⟨h0, -, -⟩ := h.1
  unfold Inflate.avail
  omega

/-- A field of `k` bits that are at hand is the next `k` bits of the stream (rule R164). -/
theorem Inflate.take_of_le_avail {d : Inflate} {k : Nat} (hk : k ≤ 57) (h : d.readerOk) (ha : k ≤ d.avail) :
    ∃ d', d.take k = .ok (d.streamNum % 2 ^ k, d') ∧ Inflate.ReadBits k d d' := by
  obtain ⟨e, hr, hread, hend⟩ := Inflate.refill_readBits (m := max k 1) (by omega) h
  have hlen : (k : Int) ≤ e.bitsLen := by
    refine (Inflate.le_bitsLen_iff_le_avail hread.ok (by omega)).2 ?_
    have := hread.enough
    omega
  have hval : e.peek k = d.streamNum % 2 ^ k := by
    rw [Inflate.peek, ← Inflate.streamNum_mod (.inl hlen), hread.rest, pow_zero, Nat.div_one]
  refine ⟨e.consume k, ?_, ?_⟩
  · rw [Inflate.take_of_refill hr, if_neg (by omega), hval]
  · simpa using hread.trans (Inflate.consume_readBits hread.ok hlen)

/-- A field of more bits than are at hand underflows (rule R164). -/
theorem Inflate.take_of_avail_lt {d : Inflate} {k : Nat} (hk : k ≤ 57) (h : d.readerOk) (ha : d.avail < k) :
    ∃ d', d.take k = .error (.underflow d') ∧ d.sameButReader d' := by
  obtain ⟨e, hr, hread, hend⟩ := Inflate.refill_readBits (m := max k 1) (by omega) h
  have hlen : e.bitsLen < k := by
    have := Inflate.le_bitsLen_iff_le_avail hread.ok (k := k) (by omega)
    have := hread.enough
    omega
  refine ⟨e.consume k, ?_, Inflate.sameButReader_trans hread.same (e.consume_same k)⟩
  rw [Inflate.take_of_refill hr, if_pos hlen]

/-- Settles O11: `take` refills without reading, so it has `k` bits in the buffer exactly when the stream has. -/
theorem takeReadsStream : Obligations.TakeReadsStream := by
  unfold Obligations.TakeReadsStream
  intro d k hk h
  exact ⟨Inflate.take_of_le_avail (by omega) h, Inflate.take_of_avail_lt (by omega) h⟩

end Sys2Proof.Machine
end

section
/-! PROOFS. The elements of a block's body, each as the next state of its instruction (rule R265). -/

namespace Sys2Proof.Machine

/-- An operation of a block's body that completes leaves the engine as it answers it. -/
@[simp] theorem settleBody_of_ok (d : Inflate) : settleBody (.ok d) = .ok d := rfl

/-- EOB answers a next state from every state, errors and phase whatever they are: the block is ended and the parser
reads an element next (rule R265). -/
theorem exec_eob (s : State) :
    exec .eob s = .next { s with inf := { s.inf.endBlock with stage := .parse } } :=
  calc exec .eob s
      = s.onInf (settleBody (.ok { s.inf.endBlock with stage := .parse })) := rfl
    _ = .next { s with inf := { s.inf.endBlock with stage := .parse } } := by
      rw [settleBody_of_ok, State.onInf_ok]

/-- Settles O33: EOB answers the engine after `endBlock`, which writes the phase alone. -/
theorem endOfBlock : Obligations.EndOfBlock := by
  unfold Obligations.EndOfBlock
  intro s
  rw [exec_eob, Inflate.endBlock]

end Sys2Proof.Machine
end

section
/-! PROOFS. IN_READ and IN_CLOSE: what they deliver and return (rules R284, R298). -/

namespace Sys2Proof.Machine

/-- IN_CLOSE writes the return alone, whatever the state (rule R298). -/
theorem exec_inClose (s : State) : exec .inClose s = .next { s with inf := s.inf.returns .ok 0 [] } := rfl

/-- Settles O41: IN_CLOSE has one outcome in every state, and `returns` writes the return registers alone. -/
theorem inCloseKeepsState : Obligations.InCloseKeepsState := by
  unfold Obligations.InCloseKeepsState
  intro s
  rw [exec_inClose, Inflate.returns]

/-! ### What `IN_READ` returns with nothing to deliver -/

theorem Inflate.readNothing_of_inErr {d : Inflate} {kind : ErrKind} {off : Nat} (h : d.inErr = some (kind, off)) :
    d.readNothing = d.returns (.corruptInput off) 0 [] := by
  simp only [Inflate.readNothing, h]

theorem Inflate.readNothing_of_ended {d : Inflate} (h : d.inErr = none) (hp : d.phase = .streamEnd ∨ d.phase = .finish) :
    d.readNothing = Inflate.returns { d with phase := .finish } .eof 0 [] := by
  simp only [Inflate.readNothing, h, if_pos hp]

theorem Inflate.readNothing_of_not_ended {d : Inflate} (h : d.inErr = none)
    (hp : ¬ (d.phase = .streamEnd ∨ d.phase = .finish)) : d.readNothing = d.returns .ok 0 [] := by
  simp only [Inflate.readNothing, h, if_neg hp]

/-! ### `IN_READ` -/

theorem exec_inRead (n : Nat) (s : State) : exec (.inRead n) s = s.onInf (s.inf.read n) := rfl

/-- The bytes `IN_READ` asks of `HIST` lie between its two cursors, so the load never faults. -/
theorem Inflate.readBytes_hist_ok {d : Inflate} {n : Nat} (hw : d.writePos ≤ Config.histBufSize)
    (hr : d.histBuf.readable d.readPos d.writePos) :
    readBytes .hist Config.histBufSize d.histBuf d.readPos (min n (d.writePos - d.readPos))
      = .ok (d.histBuf.window d.readPos (min n (d.writePos - d.readPos))) :=
  readBytes_readable (by omega) (fun j h1 h2 => hr j h1 (by omega))

/-- A read that has bytes to deliver, or wants none, moves the cursor behind the bytes it returns. -/
theorem Inflate.read_of_delivers {d : Inflate} {n k : Nat} (hk : k = min n (d.writePos - d.readPos))
    (hw : d.writePos ≤ Config.histBufSize) (hr : d.histBuf.readable d.readPos d.writePos) (h : 0 < k ∨ n = 0) :
    d.read n = .ok (Inflate.returns { d with readPos := d.readPos + k } .ok 0 (d.histBuf.window d.readPos k)) := by
  subst hk
  simp only [Inflate.read, Inflate.readBytes_hist_ok hw hr, except_ok_bind, if_pos h]

/-- A read that wants bytes when none are left loads nothing, whatever `HIST` holds. -/
theorem Inflate.read_of_drained {d : Inflate} {n : Nat} (h0 : min n (d.writePos - d.readPos) = 0) (hn : 0 < n) :
    d.read n = .ok d.readNothing := by
  simp only [Inflate.read, h0, readBytes, except_ok_bind, if_neg (show ¬ (0 < 0 ∨ n = 0) by omega)]

/-- Settles O42: bytes are delivered wherever some are left; the latched error and the phase are looked at only in
`readNothing`, which a drained history alone reaches. -/
theorem readDelivers : Obligations.ReadDelivers := by
  unfold Obligations.ReadDelivers
  intro s n k hk hw hr
  have hdrained (h0 : k = 0) (hn : 0 < n) : exec (.inRead n) s = .next { s with inf := s.inf.readNothing } := by
    rw [exec_inRead, Inflate.read_of_drained (hk.symm.trans h0) hn, State.onInf_ok]
  refine ⟨fun h => ?delivers, fun h0 hn kind off he => ?error, fun h0 hn he hp => ?ended, fun h0 hn he h1 h2 => ?waits⟩
  case delivers => rw [exec_inRead, Inflate.read_of_delivers hk hw hr h, State.onInf_ok, Inflate.returns]
  case error => rw [hdrained h0 hn, Inflate.readNothing_of_inErr he, Inflate.returns]
  case ended => rw [hdrained h0 hn, Inflate.readNothing_of_ended he hp, Inflate.returns]
  case waits => rw [hdrained h0 hn, Inflate.readNothing_of_not_ended he (not_or.2 ⟨h1, h2⟩), Inflate.returns]

end Sys2Proof.Machine
end

section
/-! PROOFS. Encodings: the decoder inverts the encoder and the encoder the decoder (rules R101 to R130, R150). -/

namespace Sys2Proof

open Machine

/-! ### What each format's decoder makes of the encoder's words -/

/-- A length symbol with an extra value its extra bits hold is read as that symbol's instruction. -/
theorem decodeLlsym_length {s e : Nat} {i : Instr} (h1 : 257 ≤ s) (h2 : s < 512) (he : e < 2 ^ lenExtra s)
    (hi : lengthInstr s e = some i) : decodeLlsym (s + 512 * e) = .ok i := by
  have hs : (s + 512 * e) % 512 = s := by omega
  have hd : (s + 512 * e) / 512 = e := by omega
  simp only [decodeLlsym, hs, hd, if_neg (show ¬ s ≤ 256 by omega), if_neg (show ¬ 2 ^ lenExtra s ≤ e by omega), hi]

/-- A length symbol's word, its extra value in a bit vector of the width its extra bits have. -/
theorem decodeLlsym_length_bv {s k : Nat} (e : BitVec k) {i : Instr} (h1 : 257 ≤ s) (h2 : s < 512)
    (hk : lenExtra s = k) (hi : lengthInstr s e.toNat = some i) : decodeLlsym (s + 512 * e.toNat) = .ok i :=
  decodeLlsym_length h1 h2 (hk ▸ e.isLt) hi

theorem decodeLlsym_lit (b : Byte) : decodeLlsym (b.toNat + 512 * 0) = .ok (.lit b) := by
  have hb := b.isLt
  have hs : (b.toNat + 512 * 0) % 512 = b.toNat := by omega
  have hd : (b.toNat + 512 * 0) / 512 = 0 := by omega
  simp only [decodeLlsym, hs, hd, if_pos (show b.toNat ≤ 256 by omega), if_pos (show b.toNat < 256 by omega)]
  simp

theorem decodeClsym_len (l : BitVec 4) : decodeClsym l.toNat = .ok (.clLen l) := by
  have hl := l.isLt
  simp [decodeClsym, if_pos (show l.toNat < 16 by omega)]

/-! ### The fields of a token -/

/-- The three fields of a token's word (rule R128), read off the number that holds them. -/
theorem token_fields {l d x : Nat} (hl : l < 2 ^ 10) (hd : d < 2 ^ 9) (hx : x < 2 ^ 13) :
    field (l + 2 ^ 10 * d + 2 ^ 19 * x) 0 10 = l ∧ field (l + 2 ^ 10 * d + 2 ^ 19 * x) 10 9 = d
      ∧ field (l + 2 ^ 10 * d + 2 ^ 19 * x) 19 13 = x := by
  simp only [field, Nat.shiftRight_eq_div_pow]
  omega

/-- A token's word is the number of its three fields. -/
theorem token_eq_fields {w : Nat} (h : w < 2 ^ 32) :
    field w 0 10 + 2 ^ 10 * field w 10 9 + 2 ^ 19 * field w 19 13 = w := by
  simp only [field, Nat.shiftRight_eq_div_pow]
  omega

/-- What the token decoder makes of three fields (rules R129, R130). -/
theorem decodeToken_fields {l d x : Nat} (hl : l < 2 ^ 10) (hd : d < 2 ^ 9) (hx : x < 2 ^ 13) :
    decodeToken (l + 2 ^ 10 * d + 2 ^ 19 * x) =
      if d = Config.invalidDist ∧ x = 0 ∧ l < 256 then .ok (.tlit (BitVec.ofNat 8 l))
      else if d = Config.invalidDist ∧ x = 0 ∧ l = Config.eobSymbol then .ok .teob
      else if 257 ≤ l ∧ l ≤ 512 ∧ d ≤ 29 ∧ x < 2 ^ distExtraBits d then
        .ok (.tmatch (BitVec.ofNat 10 l) (BitVec.ofNat 9 d) (BitVec.ofNat 13 x))
      else .error .reservedToken := by
  obtain ⟨f1, f2, f3⟩ := token_fields hl hd hx
  simp only [decodeToken, f1, f2, f3, if_neg (show ¬ 2 ^ 32 ≤ l + 2 ^ 10 * d + 2 ^ 19 * x by omega)]

theorem decodeToken_lit (b : Byte) : decodeToken (b.toNat + 1024 * 30) = .ok (.tlit b) := by
  have hb := b.isLt
  have h := decodeToken_fields (l := b.toNat) (d := 30) (x := 0) (by omega) (by omega) (by omega)
  rw [if_pos ⟨rfl, rfl, by omega⟩] at h
  simpa using h

theorem decodeToken_match {l : BitVec 10} {d : BitVec 9} {x : BitVec 13} (h : (Instr.tmatch l d x).wf = true) :
    decodeToken (l.toNat + 2 ^ 10 * d.toNat + 2 ^ 19 * x.toNat) = .ok (.tmatch l d x) := by
  simp only [Instr.wf, Instr.matchLitlenOk, Instr.matchDistOk, Instr.matchExtraOk, Bool.and_eq_true,
    decide_eq_true_eq] at h
  obtain ⟨⟨⟨h1, h2⟩, h3⟩, h4⟩ := h
  have hd : d.toNat ≠ 30 := by omega
  rw [decodeToken_fields l.isLt d.isLt x.isLt, if_neg (fun h => hd h.1), if_neg (fun h => hd h.1),
    if_pos ⟨h1, h2, h3, h4⟩]
  simp

/-! ### Decoding what has been encoded -/

theorem decode_encode {i : Instr} (h : i.wf = true) : decode (encode i) = .ok i := by
  cases i with
  | blkStored f => cases f <;> rfl
  | blkStatic f => cases f <;> rfl
  | blkDynamic f => cases f <;> rfl
  | blkReserved f => cases f <;> rfl
  | clLen l => exact decodeClsym_len l
  | lit b => exact decodeLlsym_lit b
  | tlit b => exact decodeToken_lit b
  | tmatch l d x => exact decodeToken_match h
  | len265 e | len266 e | len267 e | len268 e | len269 e | len270 e | len271 e | len272 e | len273 e | len274 e
  | len275 e | len276 e | len277 e | len278 e | len279 e | len280 e | len281 e | len282 e | len283 e | len284 e =>
    exact decodeLlsym_length_bv e (by decide) (by decide) rfl (by simp [lengthInstr])
  | _ => rfl

/-- A word fits the bytes of its format. -/
theorem encode_bits_lt (i : Instr) : (encode i).bits < 2 ^ (8 * (encode i).fmt.nbytes) := by
  cases i with
  | blkStored f | blkStatic f | blkDynamic f | blkReserved f => cases f <;> simp [encode, Format.nbytes]
  | clLen l => have := l.isLt; simp only [encode, Format.nbytes]; omega
  | lit b => have := b.isLt; simp only [encode, llCode, Format.nbytes]; omega
  | tlit b => have := b.isLt; simp only [encode, Format.nbytes]; omega
  | tmatch l d x => have := l.isLt; have := d.isLt; have := x.isLt; simp only [encode, Format.nbytes]; omega
  | len265 e | len266 e | len267 e | len268 e | len269 e | len270 e | len271 e | len272 e | len273 e | len274 e
  | len275 e | len276 e | len277 e | len278 e | len279 e | len280 e | len281 e | len282 e | len283 e | len284 e =>
    have := e.isLt; simp only [encode, llCode, Format.nbytes]; omega
  | _ => simp [encode, llCode, Format.nbytes]

/-- Settles O3: each word is evaluated. -/
theorem decodeSamples : Obligations.DecodeSamples := ⟨rfl, rfl, rfl, rfl, rfl, rfl, rfl⟩

/-- Settles O1: the bytes of the word come back as the word, which decodes to the instruction. -/
theorem decodeInvertsEncode : Obligations.DecodeInvertsEncode := by
  unfold Obligations.DecodeInvertsEncode
  intro i rest h
  have hlen : (encodeBytes i).length = (encode i).fmt.nbytes := leBytes_length ..
  have hval : leValue (encodeBytes i) = (encode i).bits := by
    rw [encodeBytes, leValue_leBytes, Nat.mod_eq_of_lt (encode_bits_lt i)]
  have htake : (encodeBytes i ++ rest).take (encode i).fmt.nbytes = encodeBytes i := by
    rw [← hlen, List.take_left]
  have hdrop : (encodeBytes i ++ rest).drop (encode i).fmt.nbytes = rest := by
    rw [← hlen, List.drop_left]
  have hdec : decode ⟨(encode i).fmt, (encode i).bits, (encode i).args⟩ = .ok i := decode_encode h
  simp only [decodeBytes, htake, hdrop, hval, hdec]
  rw [if_neg (by rw [List.length_append]; omega)]

/-! ### Encoding what has been decoded -/

theorem encode_of_decodeBlkhdr {h : Nat} {i : Instr} (hd : decodeBlkhdr h = .ok i) :
    i.wf = true ∧ (encode i).fmt = .blkhdr ∧ (encode i).bits = h := by
  have hf : (h % 2 == 1).toNat = h % 2 := by
    rcases Nat.mod_two_eq_zero_or_one h with h | h <;> simp [h]
  unfold decodeBlkhdr at hd
  split at hd <;> cases hd <;> refine ⟨rfl, rfl, ?_⟩ <;> simp only [encode, hf] <;> omega

theorem encode_of_decodeClsym {s : Nat} {i : Instr} (hd : decodeClsym s = .ok i) :
    i.wf = true ∧ (encode i).fmt = .clsym ∧ (encode i).bits = s := by
  unfold decodeClsym at hd
  split at hd
  case isTrue h16 =>
    cases hd
    exact ⟨rfl, rfl, by simp only [encode, BitVec.toNat_ofNat]; omega⟩
  case isFalse =>
    split at hd
    · cases hd; exact ⟨rfl, rfl, rfl⟩
    · cases hd; exact ⟨rfl, rfl, rfl⟩
    · cases hd; exact ⟨rfl, rfl, rfl⟩
    · split at hd <;> cases hd

/-- A length instruction is written with its symbol and its extra value. -/
theorem encode_of_lengthInstr {s e : Nat} {i : Instr} (h : lengthInstr s e = some i) (he : e < 2 ^ lenExtra s) :
    i.wf = true ∧ encode i = llCode s e := by
  unfold lengthInstr at h
  split at h <;> cases h <;> refine ⟨rfl, ?_⟩ <;>
    simp only [lenExtra, lenRows, List.cons_append, List.nil_append, Nat.reduceLT, ↓reduceIte, Nat.reduceSub,
      List.getD_cons_zero, List.getD_cons_succ, List.getD_nil, Nat.reducePow, Nat.lt_one_iff] at he <;>
    simp [encode, Nat.mod_eq_of_lt, he]

theorem encode_of_decodeLlsym {w : Nat} {i : Instr} (hd : decodeLlsym w = .ok i) :
    i.wf = true ∧ (encode i).fmt = .llsym ∧ (encode i).bits = w := by
  simp only [decodeLlsym] at hd
  split at hd
  case isTrue hs =>
    split at hd
    case isTrue => cases hd
    case isFalse he =>
      split at hd <;> cases hd <;> refine ⟨rfl, rfl, ?_⟩ <;> simp only [encode, llCode, BitVec.toNat_ofNat] <;> omega
  case isFalse =>
    split at hd
    case isTrue => cases hd
    case isFalse he =>
      split at hd
      case h_1 hi =>
        cases hd
        obtain ⟨hwf, henc⟩ := encode_of_lengthInstr hi (by omega)
        rw [henc]
        exact ⟨hwf, rfl, by simp only [llCode]; omega⟩
      case h_2 => cases hd

theorem encode_of_decodeDsym {w : Nat} {i : Instr} (hd : decodeDsym w = .ok i) :
    i.wf = true ∧ (encode i).fmt = .dsym ∧ (encode i).bits = w := by
  unfold decodeDsym at hd
  split at hd
  case h_1 hi =>
    cases hd
    unfold distanceInstr at hi
    split at hi <;> cases hi <;> exact ⟨rfl, rfl, rfl⟩
  case h_2 => cases hd

theorem encode_of_decodeToken {w : Nat} {i : Instr} (hd : decodeToken w = .ok i) :
    i.wf = true ∧ (encode i).fmt = .token ∧ (encode i).bits = w := by
  unfold decodeToken at hd
  split at hd
  case isTrue => cases hd
  case isFalse hw =>
    have hfields := token_eq_fields (Nat.lt_of_not_le hw)
    have hl : field w 0 10 < 2 ^ 10 := Nat.mod_lt _ (by decide)
    have hdist : field w 10 9 < 2 ^ 9 := Nat.mod_lt _ (by decide)
    have hx : field w 19 13 < 2 ^ 13 := Nat.mod_lt _ (by decide)
    generalize field w 0 10 = l at *
    generalize field w 10 9 = d at *
    generalize field w 19 13 = x at *
    simp only at hd
    split at hd
    case isTrue h =>
      cases hd
      obtain ⟨rfl, rfl, h256⟩ := h
      exact ⟨rfl, rfl, by simp only [encode, BitVec.toNat_ofNat, Nat.mod_eq_of_lt h256]; omega⟩
    case isFalse =>
      split at hd
      case isTrue h => cases hd; obtain ⟨rfl, rfl, rfl⟩ := h; exact ⟨rfl, rfl, hfields⟩
      case isFalse =>
        split at hd
        case isTrue h =>
          cases hd
          obtain ⟨h1, h2, h3, h4⟩ := h
          have e1 : l % 2 ^ 10 = l := Nat.mod_eq_of_lt hl
          have e2 : d % 2 ^ 9 = d := Nat.mod_eq_of_lt hdist
          have e3 : x % 2 ^ 13 = x := Nat.mod_eq_of_lt hx
          refine ⟨?_, rfl, by simp only [encode, BitVec.toNat_ofNat, e1, e2, e3]; omega⟩
          simp only [Instr.wf, Instr.matchLitlenOk, Instr.matchDistOk, Instr.matchExtraOk, BitVec.toNat_ofNat,
            e1, e2, e3, Bool.and_eq_true, decide_eq_true_eq]
          exact ⟨⟨⟨h1, h2⟩, h3⟩, h4⟩
        case isFalse => cases hd

theorem encode_of_decodeCmd {w : Nat} {a : CmdArgs} {i : Instr} (hd : decodeCmd w a = .ok i) :
    i.wf = true ∧ (encode i).fmt = .cmd ∧ (encode i).bits = w := by
  unfold decodeCmd at hd
  split at hd <;> cases hd <;> exact ⟨rfl, rfl, rfl⟩

/-- Settles O2: one lemma for each format. -/
theorem encodeInvertsDecode : Obligations.EncodeInvertsDecode := by
  unfold Obligations.EncodeInvertsDecode
  rintro ⟨fmt, w, a⟩ i h
  cases fmt with
  | blkhdr => exact encode_of_decodeBlkhdr h
  | clsym => exact encode_of_decodeClsym h
  | llsym => exact encode_of_decodeLlsym h
  | dsym => exact encode_of_decodeDsym h
  | token => exact encode_of_decodeToken h
  | cmd => exact encode_of_decodeCmd h

end Sys2Proof
end

section
/-! PROOFS. Operand maps and token kinds (rules R122, R123, R129, R130, R320). -/

namespace Sys2Proof.Machine

/-! ### Distances -/

/-- The extra-bit count `distSym` finds: it puts `dist - 1` between two powers of two. -/
theorem bitlen_bounds {m : Nat} (h : 2 ≤ m) : 2 ^ (bitlen m - 2 + 1) ≤ m ∧ m < 2 ^ (bitlen m - 2 + 2) := by
  have h1 : 1 ≤ Nat.log2 m := (Nat.le_log2 (by omega)).2 h
  have e : bitlen m - 2 = Nat.log2 m - 1 := by rw [bitlen, if_neg (by omega)]; omega
  rw [e, show Nat.log2 m - 1 + 1 = Nat.log2 m by omega, show Nat.log2 m - 1 + 2 = Nat.log2 m + 1 by omega]
  exact ⟨Nat.log2_self_le (by omega), Nat.lt_log2_self⟩

/-- What is above the extra bits of `m` is 2 or 3. -/
theorem div_pow_two_or_three {m k : Nat} (h1 : 2 ^ (k + 1) ≤ m) (h2 : m < 2 ^ (k + 2)) : m / 2 ^ k = 2 ∨ m / 2 ^ k = 3 := by
  have hlo : 2 ≤ m / 2 ^ k := by
    rw [Nat.le_div_iff_mul_le (by positivity), Nat.mul_comm, ← pow_succ]; exact h1
  have hhi : m / 2 ^ k < 4 := by
    rw [Nat.div_lt_iff_lt_mul (by positivity), show 4 * 2 ^ k = 2 ^ (k + 2) by ring]; exact h2
  omega

/-- `distSym` above the two distances that are their own symbols (rule R122). -/
theorem distSym_of_two_lt {dist : Nat} (h : 2 < dist) :
    distSym dist = ⟨2 * (bitlen (dist - 1) - 2) + (dist - 1) / 2 ^ (bitlen (dist - 1) - 2), bitlen (dist - 1) - 2,
      (dist - 1) % 2 ^ (bitlen (dist - 1) - 2)⟩ := by
  simp only [distSym, if_neg (show ¬ dist ≤ 2 by omega), Nat.shiftRight_eq_div_pow]

/-- A distance of at least 3 through its symbol (rules R122, R123): `k` extra bits, `q` the two bits above them. -/
theorem distSym_of_three_le {dist : Nat} (h3 : 3 ≤ dist) :
    ∃ k q, (q = 2 ∨ q = 3) ∧ distSym dist = ⟨2 * k + q, k, (dist - 1) % 2 ^ k⟩ ∧ dist = q * 2 ^ k + (dist - 1) % 2 ^ k + 1
      ∧ distExtraBits (2 * k + q) = k ∧ distStart (2 * k + q) = q * 2 ^ k + 1 := by
  obtain ⟨h1, h2⟩ := bitlen_bounds (show 2 ≤ dist - 1 by omega)
  have hq := div_pow_two_or_three h1 h2
  have hbits : distExtraBits (2 * (bitlen (dist - 1) - 2) + (dist - 1) / 2 ^ (bitlen (dist - 1) - 2))
      = bitlen (dist - 1) - 2 := by
    rw [distExtraBits, if_neg (by omega)]; omega
  refine ⟨bitlen (dist - 1) - 2, (dist - 1) / 2 ^ (bitlen (dist - 1) - 2), hq,
    distSym_of_two_lt (by omega), ?_, hbits, ?_⟩
  · have := Nat.div_add_mod' (dist - 1) (2 ^ (bitlen (dist - 1) - 2)); omega
  · rw [distStart, if_neg (by omega), hbits]
    congr 2
    omega

/-- A distance is the start of its symbol plus its extra value (rules R122, R123). -/
theorem distSym_inverts {dist : Nat} (h1 : 1 ≤ dist) (h2 : dist ≤ 32768) :
    distStart (distSym dist).sym + (distSym dist).extra = dist ∧ (distSym dist).sym ≤ 29
      ∧ (distSym dist).nExtra = distExtraBits (distSym dist).sym
      ∧ (distSym dist).extra < 2 ^ distExtraBits (distSym dist).sym := by
  by_cases h3 : 3 ≤ dist
  · obtain ⟨k, q, hq, hs, hd, hb, hst⟩ := distSym_of_three_le h3
    have hk : k < 14 := (Nat.pow_lt_pow_iff_right (show 1 < 2 by decide)).1
      (show 2 ^ k < 2 ^ 14 by rcases hq with rfl | rfl <;> omega)
    rw [hs]
    exact ⟨by simp only [hst]; omega, by simp only; omega, hb.symm, by simp only [hb]; exact Nat.mod_lt _ (by positivity)⟩
  · obtain rfl | rfl : dist = 1 ∨ dist = 2 := by omega
    · decide
    · decide

/-- Each distance symbol with an extra value its bits hold is the symbol of a distance. -/
theorem distSym_distStart {s e : Nat} (hs : s ≤ 29) (he : e < 2 ^ distExtraBits s) :
    1 ≤ distStart s + e ∧ distStart s + e ≤ 32768
      ∧ (distSym (distStart s + e)).sym = s ∧ (distSym (distStart s + e)).extra = e := by
  by_cases h1 : s ≤ 1
  · rw [distExtraBits, if_pos h1] at he
    obtain rfl : e = 0 := by omega
    obtain rfl | rfl : s = 0 ∨ s = 1 := by omega
    · decide
    · decide
  · rw [distExtraBits, if_neg h1] at he
    obtain ⟨k, hk⟩ : ∃ k, k = s / 2 - 1 := ⟨_, rfl⟩
    obtain ⟨q, hq⟩ : ∃ q, q = 2 + s % 2 := ⟨_, rfl⟩
    rw [← hk] at he
    have hst : distStart s = q * 2 ^ k + 1 := by rw [distStart, if_neg h1, distExtraBits, if_neg h1, hk, hq]
    have hpos : 0 < 2 ^ k := by positivity
    have hk13 : 2 ^ k ≤ 2 ^ 13 := Nat.pow_le_pow_right (by decide) (by omega)
    have hqb : 2 * 2 ^ k ≤ q * 2 ^ k ∧ q * 2 ^ k ≤ 3 * 2 ^ k :=
      ⟨Nat.mul_le_mul_right _ (by omega), Nat.mul_le_mul_right _ (by omega)⟩
    have hm : distStart s + e - 1 = q * 2 ^ k + e := by omega
    have hlog : Nat.log2 (q * 2 ^ k + e) = k + 1 := by
      rw [Nat.log2_eq_iff (by omega), show k + 1 + 1 = k + 2 by rfl, pow_succ, pow_add]
      rcases (show q = 2 ∨ q = 3 by omega) with rfl | rfl <;> omega
    have hbl : bitlen (q * 2 ^ k + e) - 2 = k := by rw [bitlen, if_neg (by omega), hlog]; omega
    have hdiv : (q * 2 ^ k + e) / 2 ^ k = q := by
      rw [Nat.add_comm, Nat.add_mul_div_right _ _ hpos, Nat.div_eq_of_lt he]; omega
    have hmod : (q * 2 ^ k + e) % 2 ^ k = e := by
      rw [Nat.add_comm, Nat.add_mul_mod_self_right, Nat.mod_eq_of_lt he]
    have hsym : distSym (distStart s + e) = ⟨2 * k + q, k, e⟩ := by
      rw [distSym_of_two_lt (by omega), hm, hbl, hdiv, hmod]
    rw [hsym]
    exact ⟨by omega, by omega, by simp only; omega, rfl⟩

/-! ### Match lengths -/

/-- The rows of rule R121 follow one another without a gap, symbols 257 to 284. -/
theorem lenBase_succ : ∀ s, s < 27 → lenBase (257 + s + 1) = lenBase (257 + s) + 2 ^ lenExtra (257 + s) := by decide

/-- The search of `lenSym` stops at the symbol whose row has the length. -/
theorem lenSymFrom_spec {len : Nat} (n s : Nat) (hn : s + n = 28) (hlo : lenBase (257 + s) ≤ len)
    (hhi : len < 258) :
    257 ≤ lenSymFrom len n (257 + s) ∧ lenSymFrom len n (257 + s) ≤ 285
      ∧ lenBase (lenSymFrom len n (257 + s)) ≤ len
      ∧ len < lenBase (lenSymFrom len n (257 + s)) + 2 ^ lenExtra (lenSymFrom len n (257 + s)) := by
  induction n generalizing s with
  | zero =>
    obtain rfl : s = 28 := by omega
    have : lenBase (257 + 28) = 258 := by decide
    omega
  | succ n ih =>
    rw [lenSymFrom]
    split
    case isTrue hin => exact ⟨by omega, by omega, hlo, hin⟩
    case isFalse hout =>
      by_cases hlast : s = 27
      · subst hlast
        have : lenBase (257 + 27) + 2 ^ lenExtra (257 + 27) = 259 := by decide
        omega
      · exact ih (s + 1) (by omega) (by rw [← Nat.add_assoc, lenBase_succ s (by omega)]; omega)

/-- A match length is the base of its symbol plus an extra value that its extra bits hold (rules R121, R320). -/
theorem lenSym_inverts {len : Nat} (h3 : 3 ≤ len) (h258 : len ≤ 258) :
    257 ≤ lenSym len ∧ lenSym len ≤ 285 ∧ lenBase (lenSym len) ≤ len
      ∧ len < lenBase (lenSym len) + 2 ^ lenExtra (lenSym len) := by
  unfold lenSym
  split
  case isTrue h => subst h; decide
  case isFalse h => exact lenSymFrom_spec 28 0 rfl (show lenBase 257 ≤ len from h3) (Nat.lt_of_le_of_ne h258 h)

/-- Settles O5: one lemma for distances, one for match lengths. -/
theorem operandMapsInvert : Obligations.OperandMapsInvert := by
  unfold Obligations.OperandMapsInvert
  exact ⟨fun _ => distSym_inverts, fun _ => lenSym_inverts⟩

/-! ### Tokens -/

/-- A packed token's word is the number of its three fields (rule R128). -/
theorem packToken_toNat {l d x : Nat} (hl : l < 2 ^ 10) (hd : d < 2 ^ 9) (hx : x < 2 ^ 13) :
    (packToken l d x).toNat = l + 2 ^ 10 * d + 2 ^ 19 * x := by
  rw [packToken, BitVec.toNat_ofNat, or_shift_eq_add d hl, or_shift_eq_add x (by omega)]
  exact Nat.mod_eq_of_lt (by omega)

theorem litToken_toNat (b : Byte) : (litToken b).toNat = b.toNat + 1024 * 30 := by
  have hb := b.isLt
  rw [litToken, packToken_toNat (by omega) (by decide) (by decide), Config.invalidDist]
  omega

theorem eobToken_toNat : eobToken.toNat = 256 + 1024 * 30 := by decide

/-- The fields of a match token fit (rules R122, R129). -/
theorem matchToken_fields_lt {len dist : Nat} (h3 : 3 ≤ len) (h258 : len ≤ 258) (h1 : 1 ≤ dist) (hd : dist ≤ 32768) :
    len + 254 < 2 ^ 10 ∧ (distSym dist).sym < 2 ^ 9 ∧ (distSym dist).extra < 2 ^ 13 := by
  obtain ⟨-, hsym, -, hext⟩ := distSym_inverts h1 hd
  have hbits : distExtraBits (distSym dist).sym ≤ 13 := by unfold distExtraBits; split <;> omega
  exact ⟨by omega, by omega, hext.trans_le (Nat.pow_le_pow_right (by decide) hbits)⟩

theorem matchToken_toNat {len dist : Nat} (h3 : 3 ≤ len) (h258 : len ≤ 258) (h1 : 1 ≤ dist) (hd : dist ≤ 32768) :
    (matchToken len dist).toNat = (len + 254) + 2 ^ 10 * (distSym dist).sym + 2 ^ 19 * (distSym dist).extra := by
  obtain ⟨f1, f2, f3⟩ := matchToken_fields_lt h3 h258 h1 hd
  rw [matchToken, packToken_toNat f1 f2 f3]

theorem decode_litToken (b : Byte) : decode ⟨.token, (litToken b).toNat, {}⟩ = .ok (.tlit b) := by
  rw [litToken_toNat]
  exact decodeToken_lit b

theorem decode_eobToken : decode ⟨.token, eobToken.toNat, {}⟩ = .ok .teob := by rw [eobToken_toNat]; rfl

theorem decode_matchToken {len dist : Nat} (h3 : 3 ≤ len) (h258 : len ≤ 258) (h1 : 1 ≤ dist) (hd : dist ≤ 32768) :
    decode ⟨.token, (matchToken len dist).toNat, {}⟩
      = .ok (.tmatch (BitVec.ofNat 10 (len + 254)) (BitVec.ofNat 9 (distSym dist).sym)
          (BitVec.ofNat 13 (distSym dist).extra)) := by
  obtain ⟨-, hsym, -, hext⟩ := distSym_inverts h1 hd
  obtain ⟨f1, f2, f3⟩ := matchToken_fields_lt h3 h258 h1 hd
  have hne : (distSym dist).sym ≠ 30 := by omega
  rw [matchToken_toNat h3 h258 h1 hd]
  refine (decodeToken_fields f1 f2 f3).trans ?_
  rw [if_neg (fun h => hne h.1), if_neg (fun h => hne h.1), if_pos ⟨by omega, by omega, hsym, hext⟩]

/-- A token word that decodes is one of the three kinds (rule R129). -/
theorem token_kinds {t : Word} {i : Instr} (h : decode ⟨.token, t.toNat, {}⟩ = .ok i) :
    (∃ b, t = litToken b) ∨ t = eobToken
      ∨ ∃ len dist, 3 ≤ len ∧ len ≤ 258 ∧ 1 ≤ dist ∧ dist ≤ 32768 ∧ t = matchToken len dist := by
  have ht := token_eq_fields t.isLt
  have hl : field t.toNat 0 10 < 2 ^ 10 := Nat.mod_lt _ (by decide)
  have hd : field t.toNat 10 9 < 2 ^ 9 := Nat.mod_lt _ (by decide)
  have hx : field t.toNat 19 13 < 2 ^ 13 := Nat.mod_lt _ (by decide)
  have h' : decodeToken t.toNat = .ok i := h
  rw [← ht, decodeToken_fields hl hd hx] at h'
  generalize field t.toNat 0 10 = l at *
  generalize field t.toNat 10 9 = d at *
  generalize field t.toNat 19 13 = x at *
  split at h'
  case isTrue hlit =>
    obtain ⟨rfl, rfl, h256⟩ := hlit
    refine .inl ⟨BitVec.ofNat 8 l, BitVec.eq_of_toNat_eq ?_⟩
    rw [litToken_toNat, BitVec.toNat_ofNat, Nat.mod_eq_of_lt h256]
    exact ht.symm
  case isFalse =>
    split at h'
    case isTrue heob =>
      obtain ⟨rfl, rfl, rfl⟩ := heob
      exact .inr (.inl (BitVec.eq_of_toNat_eq (ht.symm.trans eobToken_toNat.symm)))
    case isFalse =>
      split at h'
      case isTrue hm =>
        obtain ⟨h1, h2, h3, h4⟩ := hm
        obtain ⟨b1, b2, b3, b4⟩ := distSym_distStart h3 h4
        refine .inr (.inr ⟨l - 254, distStart d + x, by omega, by omega, b1, b2, BitVec.eq_of_toNat_eq ?_⟩)
        rw [matchToken_toNat (by omega) (by omega) b1 b2, b3, b4]
        omega
      case isFalse => cases h'

/-- The token decoder has one way to reject a 32-bit value (rule R130). -/
theorem decode_token_error {t : Word} {e : DecodeError} (h : decode ⟨.token, t.toNat, {}⟩ = .error e) :
    e = .reservedToken := by
  have h' : decodeToken t.toNat = .error e := h
  have hlt := t.isLt
  rw [decodeToken, if_neg (by omega)] at h'
  simp only at h'
  split at h'
  · cases h'
  · split at h'
    · cases h'
    · split at h' <;> cases h'
      rfl

/-- Settles O4: the three kinds decode, and a value that decodes is of one of them. -/
theorem tokenKinds : Obligations.TokenKinds := by
  unfold Obligations.TokenKinds
  refine ⟨decode_litToken, decode_eobToken, fun _ _ h3 h258 h1 hd => decode_matchToken h3 h258 h1 hd, fun t => ?_⟩
  constructor
  case mp =>
    intro h
    refine ⟨?_, ?_, ?_⟩
    · rintro b rfl; rw [decode_litToken] at h; cases h
    · rintro rfl; rw [decode_eobToken] at h; cases h
    · rintro len dist h3 h258 h1 hd rfl; rw [decode_matchToken h3 h258 h1 hd] at h; cases h
  case mpr =>
    rintro ⟨hlit, heob, hmatch⟩
    cases hdec : decode ⟨.token, t.toNat, {}⟩ with
    | error e => rw [decode_token_error hdec]
    | ok i =>
      obtain ⟨b, rfl⟩ | rfl | ⟨len, dist, h3, h258, h1, hd, rfl⟩ := token_kinds hdec
      · exact absurd rfl (hlit b)
      · exact absurd rfl heob
      · exact absurd rfl (hmatch len dist h3 h258 h1 hd)

end Sys2Proof.Machine
end

section
/-! PROOFS. The bit reader: what any amount of reading leaves to `restore`, several fields in a row, and a header that is
cut short (rules R160 to R166, R253). -/

namespace Sys2Proof.Machine

/-- Settles O10: `refill` reads nothing, whichever of its modes runs. -/
theorem refillKeepsStream : Obligations.RefillKeepsStream := by
  unfold Obligations.RefillKeepsStream
  intro d m _ hm h
  exact Inflate.refill_readBits hm h

/-! ### The registers reading can move -/

/-- `d'` is `d` after some source bytes have been moved into the buffer: the cursor and `totalIn` have moved alike, the bit
buffer holds anything. This is all that reading does, cut short or not. -/
def Inflate.Advanced (d d' : Inflate) : Prop :=
  ∃ n b l, d' = { d.setSrcPos (d.srcPos + n) with bits := b, bitsLen := l, totalIn := d.totalIn + n }

theorem Inflate.setSrcPos_self (d : Inflate) : d.setSrcPos d.srcPos = d := by
  unfold Inflate.setSrcPos Inflate.srcPos
  split <;> rfl

theorem Inflate.Advanced.refl (d : Inflate) : d.Advanced d :=
  ⟨0, d.bits, d.bitsLen, by simp [Inflate.setSrcPos_self]⟩

theorem Inflate.Advanced.trans {a b c : Inflate} (h1 : a.Advanced b) (h2 : b.Advanced c) : a.Advanced c := by
  obtain ⟨n, b1, l1, rfl⟩ := h1
  obtain ⟨m, b2, l2, rfl⟩ := h2
  refine ⟨n + m, b2, l2, ?_⟩
  unfold Inflate.setSrcPos Inflate.srcPos
  by_cases hr : a.retry = true <;> simp [hr, Nat.add_assoc]

theorem Inflate.moveIn_advanced (d : Inflate) (n : Nat) (b : Wide) : d.Advanced (d.moveIn n b) := by
  refine ⟨n, b, d.bitsLen + 8 * n, ?_⟩
  unfold Inflate.moveIn Inflate.setSrcPos
  by_cases hr : d.retry = true <;> simp [hr]

theorem Inflate.consume_advanced (d : Inflate) (k : Nat) : d.Advanced (d.consume k) :=
  ⟨0, d.bits >>> k, d.bitsLen - k, by simp [Inflate.setSrcPos_self, Inflate.consume]⟩

theorem Inflate.refillSlow_advanced {m n : Nat} {d t : Inflate} (h : Inflate.refillSlow m n d = .ok t) :
    d.Advanced t := by
  induction n generalizing d with
  | zero => cases h; exact .refl _
  | succ n ih =>
    unfold Inflate.refillSlow at h
    split at h
    · cases h; exact .refl _
    · obtain ⟨bs, -, h⟩ := except_bind_ok h
      exact (d.moveIn_advanced 1 _).trans (ih h)

theorem Inflate.refill_advanced {d t : Inflate} {m : Nat} (h : d.refill m = .ok t) : d.Advanced t := by
  unfold Inflate.refill at h
  split at h
  · cases h; exact .refl _
  · split at h
    · unfold Inflate.refillFast at h
      obtain ⟨bs, -, h⟩ := except_bind_ok h
      cases h
      exact d.moveIn_advanced _ _
    · exact Inflate.refillSlow_advanced h

theorem Inflate.take_advanced {d t : Inflate} {k v : Nat} (h : d.take k = .ok (v, t)) : d.Advanced t := by
  obtain ⟨e, h1, -, rfl, -⟩ := Inflate.take_ok h
  exact (Inflate.refill_advanced h1).trans (e.consume_advanced k)

theorem Inflate.take_underflow_advanced {d t : Inflate} {k : Nat} (h : d.take k = .error (.underflow t)) :
    d.Advanced t := by
  unfold Inflate.take at h
  cases hr : d.refill (max k 1) with
  | error f => rw [hr] at h; cases h
  | ok e =>
    rw [hr] at h
    simp only [orFault_ok, except_ok_bind] at h
    split at h <;> cases h
    exact (Inflate.refill_advanced hr).trans (e.consume_advanced k)

/-- `restore` undoes any reading behind the snapshot (rule R166). -/
theorem Inflate.Advanced.restore {d d' : Inflate} (h : d.Advanced d') (hs : d.snapInPos ≤ d.srcPos) :
    d'.restore = d.restore := by
  obtain ⟨n, b, l, rfl⟩ := h
  unfold Inflate.restore Inflate.setSrcPos
  unfold Inflate.srcPos at *
  by_cases hr : d.retry = true <;> simp only [hr, ↓reduceIte, Bool.false_eq_true] at hs ⊢ <;> congr 1 <;> omega

/-! ### Several fields in a row -/

theorem Inflate.takeMany_succ (k n : Nat) (d : Inflate) :
    Inflate.takeMany k (n + 1) d = d.take k >>= fun r => Inflate.takeMany k n r.2 >>= fun q => .ok (r.1 :: q.1, q.2) := rfl

/-- Everything several fields can do: some reading, and with it the fields, an underflow or a fault. -/
theorem Inflate.takeMany_advanced {k n : Nat} {d d' : Inflate}
    (h : Inflate.takeMany k n d = .error (.underflow d') ∨ ∃ vs, Inflate.takeMany k n d = .ok (vs, d')) :
    d.Advanced d' := by
  induction n generalizing d with
  | zero =>
    rcases h with h | ⟨vs, h⟩ <;> cases h
    exact .refl _
  | succ n ih =>
    rw [Inflate.takeMany_succ] at h
    cases ht : d.take k with
    | error e =>
      rw [ht] at h
      rcases h with h | ⟨vs, h⟩ <;> cases h
      exact Inflate.take_underflow_advanced ht
    | ok r =>
      obtain ⟨v, d1⟩ := r
      rw [ht] at h
      simp only [except_ok_bind] at h
      refine (Inflate.take_advanced ht).trans (ih ?_)
      cases hm : Inflate.takeMany k n d1 with
      | error e => rw [hm] at h; rcases h with h | ⟨vs, h⟩ <;> cases h; exact .inl rfl
      | ok q => obtain ⟨vs, d2⟩ := q; rw [hm] at h; rcases h with h | ⟨vs, h⟩ <;> cases h; exact .inr ⟨vs, rfl⟩

/-- Settles O12: reading moves the cursor and `totalIn` alike, which is what `restore` undoes. -/
theorem restoreUndoesReads : Obligations.RestoreUndoesReads := by
  unfold Obligations.RestoreUndoesReads
  intro d d' k n _ _ h
  rw [(Inflate.takeMany_advanced h).restore (le_refl _), Inflate.restore_snapshot]

/-- Fields that are at hand are the next fields of the stream. -/
theorem Inflate.takeMany_of_le_avail {d : Inflate} {k n : Nat} (hk : k ≤ 57) (h : d.readerOk) (ha : k * n ≤ d.avail) :
    ∃ vs d', Inflate.takeMany k n d = .ok (vs, d') ∧ Inflate.ReadBits (k * n) d d' ∧ vs.length = n
      ∧ ∀ i, i < n → vs.getD i 0 = d.streamNum / 2 ^ (k * i) % 2 ^ k := by
  induction n generalizing d with
  | zero => exact ⟨[], d, rfl, .refl h, rfl, fun i hi => by omega⟩
  | succ n ih =>
    rw [Nat.mul_succ] at ha
    obtain ⟨d1, ht, hread1⟩ := Inflate.take_of_le_avail hk h (by omega)
    have he := hread1.enough
    obtain ⟨vs, d2, hm, hread2, hlen, hvs⟩ := ih hread1.ok (by omega)
    refine ⟨d.streamNum % 2 ^ k :: vs, d2, ?_, ?_, by simp [hlen], fun i hi => ?_⟩
    · rw [Inflate.takeMany_succ, ht, except_ok_bind, hm]; rfl
    · rw [Nat.mul_succ, Nat.add_comm]; exact hread1.trans hread2
    · cases i with
      | zero => simp
      | succ i =>
        rw [List.getD_cons_succ, hvs i (by omega), hread1.rest, ← div_pow_add, Nat.mul_succ, Nat.add_comm k]

/-- Fields that are not all at hand underflow. -/
theorem Inflate.takeMany_of_avail_lt {d : Inflate} {k n : Nat} (hk : k ≤ 57) (h : d.readerOk) (ha : d.avail < k * n) :
    ∃ d', Inflate.takeMany k n d = .error (.underflow d') := by
  induction n generalizing d with
  | zero => omega
  | succ n ih =>
    rw [Nat.mul_succ] at ha
    rcases Nat.lt_or_ge d.avail k with hlt | hge
    · obtain ⟨d1, ht, -⟩ := Inflate.take_of_avail_lt hk h hlt
      exact ⟨d1, by rw [Inflate.takeMany_succ, ht]; rfl⟩
    · obtain ⟨d1, ht, hread1⟩ := Inflate.take_of_le_avail hk h hge
      have he := hread1.enough
      obtain ⟨d2, hm⟩ := ih hread1.ok (by omega)
      exact ⟨d2, by rw [Inflate.takeMany_succ, ht, except_ok_bind, hm]; rfl⟩

/-! ### A lookup: a refill, then some of the bits it brought -/

/-- What a lookup of at most `m` bits behind a refill to `m` bits works on: the buffer shows the next stream bits, and
consuming `k` of them reads `k` bits or underflows, as the stream has them or not. -/
structure Inflate.Lookup (m : Nat) (d d0 : Inflate) : Prop where
  refill : d.refill m = .ok d0
  advanced : d.Advanced d0
  read : Inflate.ReadBits 0 d d0
  shows : ∀ k, k ≤ m → d0.bits.toNat % 2 ^ k = d.streamNum % 2 ^ k
  enough : ∀ k, k ≤ m → k ≤ d.avail → (d0.consume k).underflowed = false ∧ Inflate.ReadBits k d (d0.consume k)
  short : ∀ k, k ≤ m → d.avail < k → (d0.consume k).underflowed = true

theorem Inflate.lookup {d : Inflate} {m : Nat} (hm : m ≤ 57) (h : d.readerOk) : ∃ d0, Inflate.Lookup m d d0 := by
  obtain ⟨d0, h0, hread, hend⟩ := Inflate.refill_readBits hm h
  have hst : d0.streamNum = d.streamNum := by simpa using hread.rest
  have hav := hread.enough
  have hfull {k : Nat} (hk : k ≤ m) : (k : Int) ≤ d0.bitsLen ∨ d0.srcPos = d0.srcLen := hend.imp_left fun h => by omega
  have hiff {k : Nat} (hk : k ≤ m) := Inflate.le_bitsLen_iff_le_avail hread.ok (hfull hk)
  refine ⟨d0, h0, Inflate.refill_advanced h0, hread, fun k hk => ?_, fun k hk ha => ?_, fun k hk ha => ?_⟩
  · rw [← Inflate.streamNum_mod (hfull hk), hst]
  · have hle := (hiff hk).2 (by omega)
    refine ⟨by simp [Inflate.underflowed, hle], ?_⟩
    simpa using hread.trans (Inflate.consume_readBits hread.ok hle)
  · have hlt := mt (hiff hk).1 (by omega)
    simpa [Inflate.underflowed] using hlt

/-! ### The block flags change nothing of the reader -/

theorem Inflate.setBlockFlags_readerOk {d : Inflate} (h : d.readerOk) (f : Bool) (b : BitVec 2) :
    (d.setBlockFlags f b).readerOk := h

theorem Inflate.setBlockFlags_avail (d : Inflate) (f : Bool) (b : BitVec 2) : (d.setBlockFlags f b).avail = d.avail := rfl

theorem Inflate.setBlockFlags_streamNum (d : Inflate) (f : Bool) (b : BitVec 2) :
    (d.setBlockFlags f b).streamNum = d.streamNum := rfl

theorem Inflate.setBlockFlags_restore (d : Inflate) (f : Bool) (b : BitVec 2) :
    (d.setBlockFlags f b).restore = d.restore.setBlockFlags f b := by
  unfold Inflate.restore Inflate.setSrcPos Inflate.setBlockFlags Inflate.srcPos
  by_cases hr : d.retry = true <;> simp [hr]

/-! ### A header cut short -/

/-- The registers `restore` leaves alone. -/
theorem Inflate.restore_frame (d : Inflate) :
    d.restore.retry = d.retry ∧ d.restore.inLen = d.inLen ∧ d.restore.inBuf = d.inBuf ∧ d.restore.hdrBuf = d.hdrBuf
      ∧ d.restore.inErr = d.inErr ∧ (d.drained → d.restore.drained) ∧ d.restore.srcPos = d.snapInPos := by
  unfold Inflate.restore Inflate.setSrcPos Inflate.srcPos Inflate.drained
  by_cases hr : d.retry = true <;> simp [hr]

/-- Keeping what follows the snapshot in `HDR` (rule R253): the bytes are there, no other byte of `HDR` changes. -/
theorem Inflate.parkHeader_spec {d : Inflate} (hfit : d.inLen - d.inPos ≤ Config.hdrBufSize)
    (hread : d.inBuf.readable d.inPos d.inLen) :
    ∃ m : Memory, d.parkHeader = .ok { d with hdrBuf := m, hdrLen := d.inLen - d.inPos, inPos := d.inLen }
      ∧ (∀ a, a < d.inLen - d.inPos → m.get? a = d.inBuf.get? (d.inPos + a))
      ∧ ∀ a, d.inLen - d.inPos ≤ a → m.get? a = d.hdrBuf.get? a := by
  have hr : readBytes .inp d.inLen d.inBuf d.inPos (d.inLen - d.inPos)
      = .ok (d.inBuf.window d.inPos (d.inLen - d.inPos)) :=
    readBytes_readable (by omega) fun k h1 h2 => hread k h1 (by omega)
  obtain ⟨m, hw, hin, hout⟩ := writeBytes_spec .hdr Config.hdrBufSize d.hdrBuf 0
    (d.inBuf.window d.inPos (d.inLen - d.inPos)) (.inr (by rw [Cells.window_length]; omega))
  simp only [Cells.window_length, Nat.zero_add] at hin hout
  refine ⟨m, ?_, fun a ha => ?_, fun a ha => hout a (.inr ha)⟩
  · simp only [Inflate.parkHeader, hr, except_ok_bind, hw]
  · obtain ⟨v, hv⟩ := Option.isSome_iff_exists.1 (hread (d.inPos + a) (by omega) (by omega))
    rw [hin a ha, hv]
    simp [Cells.window, tabulateFrom_getElem, hv]

/-- A header whose reading ran out of bits, wherever that was: the engine is put back and suspended (rule R253). -/
theorem Inflate.headerUnderflow_cut {d e : Inflate} {f : Bool} {b : BitVec 2} (h : (d.setBlockFlags f b).Advanced e)
    (hsnap : d.snapInPos ≤ d.srcPos) (hpark : d.parkable) (hdr : d.drained) (herr : d.inErr = none) :
    ∃ t, e.headerUnderflow = .ok t ∧ Inflate.HeaderCut f b d t := by
  have hrest : e.restore = d.restore.setBlockFlags f b := by
    rw [h.restore hsnap, Inflate.setBlockFlags_restore]
  obtain ⟨r1, r2, r3, r4, r5, r6, r7⟩ := d.restore_frame
  unfold Inflate.headerUnderflow
  simp only [hrest, Inflate.setBlockFlags_retry, r1]
  by_cases hr : d.retry = true
  case pos =>
    rw [if_pos hr, except_ok_bind]
    refine ⟨_, Inflate.endDecode_of_drained .endInput (r6 hdr) (r5.trans herr), ?_, fun _ => rfl⟩
    intro hf
    rw [hr] at hf
    cases hf
  case neg =>
    have hr' : d.retry = false := by simpa using hr
    obtain ⟨hfit, hread⟩ := hpark hr'
    have hpos : d.restore.inPos = d.snapInPos := by
      rw [← r7]; unfold Inflate.srcPos; rw [if_neg (by rw [r1]; exact hr)]
    obtain ⟨m, hm, hin, hout⟩ := Inflate.parkHeader_spec (d := d.restore.setBlockFlags f b)
      (by simpa [r2, hpos] using hfit) (by simpa [r2, r3, hpos] using hread)
    simp only [Inflate.setBlockFlags_inLen, Inflate.setBlockFlags_inPos, Inflate.setBlockFlags_inBuf,
      Inflate.setBlockFlags_hdrBuf, r2, r3, r4, hpos] at hm hin hout
    rw [if_neg hr, hm, except_ok_bind]
    refine ⟨_, Inflate.endDecode_of_drained .endInput (r6 hdr) (r5.trans herr), fun _ => ⟨m, hin, hout, ?_⟩,
      fun ht => absurd ht hr⟩
    simp [Inflate.setBlockFlags, r2, r3]

end Sys2Proof.Machine
end

section
/-! PROOFS. Block headers: what each reads, checks, installs and leaves, complete or cut short (rules R231 to R254). -/

namespace Sys2Proof.Machine

/-! ### Plumbing -/

/-- Everything a chain of two operations that fails can do. -/
theorem except_bind_error {ε α β : Type} {x : Except ε α} {f : α → Except ε β} {e : ε} (h : (x >>= f) = .error e) :
    x = .error e ∨ ∃ a, x = .ok a ∧ f a = .error e := by
  cases x with
  | error e' => cases h; exact .inl rfl
  | ok a => exact .inr ⟨a, rfl, h⟩

@[simp] theorem except_error_bind {ε α β : Type} (e : ε) (f : α → Except ε β) :
    ((Except.error e : Except ε α) >>= f) = .error e := rfl

theorem Inflate.sameButReader.retry {d d' : Inflate} (h : d.sameButReader d') : d'.retry = d.retry := by
  unfold Inflate.sameButReader at h
  rw [h]
theorem Inflate.sameButReader.scratch {d d' : Inflate} (h : d.sameButReader d') : d'.scratch = d.scratch := by
  unfold Inflate.sameButReader at h
  rw [h]
theorem Inflate.sameButReader.inErr {d d' : Inflate} (h : d.sameButReader d') : d'.inErr = d.inErr := by
  unfold Inflate.sameButReader at h
  rw [h]
theorem Inflate.sameButReader.drained {d d' : Inflate} (h : d.sameButReader d') (hd : d.drained) : d'.drained := by
  unfold Inflate.sameButReader at h
  rw [h]
  exact hd

@[simp] theorem settleHeader_of_ok (d : Inflate) : settleHeader (.ok d) = .ok d := rfl
@[simp] theorem settleHeader_of_underflow (d : Inflate) : settleHeader (.error (.underflow d)) = d.headerUnderflow := rfl

/-- A terminal error of a header, nothing owed (rule R412). -/
theorem settleHeader_of_raise {d : Inflate} (k : ErrKind) (h : d.drained) :
    settleHeader (.error (.raise k d)) = .ok (d.failed k) := Inflate.raiseTerminal_of_drained k h

/-- A step inside `Decode()` that no element stands for. -/
theorem step_of_inside {s : State} {d : Inflate} (hs : s.inf.stage ≠ .idle)
    (h : fetchElement s.params s.inf = .ok (.inside d)) : step s = .next { s with inf := d } := by
  simp only [step, if_pos hs, stepElement, h]

/-- A step inside `Decode()` that fetches an element. -/
theorem step_of_word {s : State} {c : Code} {d : Inflate} (hs : s.inf.stage ≠ .idle)
    (h : fetchElement s.params s.inf = .ok (.word c d)) : step s = runWord c { s with inf := d } := by
  simp only [step, if_pos hs, stepElement, h]

/-! ### Accepting a header -/

theorem Inflate.acceptHeader_of_slice {d : Inflate} (ph : Phase) (h : d.retry = false) :
    d.acceptHeader ph = { d with phase := ph, stage := .parse } := by
  simp [Inflate.acceptHeader, h]

theorem Inflate.acceptHeader_of_retry {d : Inflate} (ph : Phase) (h : d.retry = true) :
    d.acceptHeader ph = { d with
      inPos := d.inPos - (d.hdrLen - d.hdrPos), hdrLen := 0, retry := false, phase := ph, stage := .parse } := by
  simp [Inflate.acceptHeader, h]

/-! ### BLK_STATIC -/

theorem exec_blkStatic (s : State) (f : Bool) :
    exec (.blkStatic f) s = .next { s with inf := (s.inf.setBlockFlags f 0b01).staticHeader } := rfl

/-- Settles O24: the static header is `acceptHeader` on the static tables, in and out of retry mode. -/
theorem staticHeader : Obligations.StaticHeader := by
  unfold Obligations.StaticHeader
  intro s f
  constructor
  case left => intro h; rw [exec_blkStatic, Inflate.staticHeader, Inflate.acceptHeader_of_slice _ (by exact h)]; rfl
  case right => intro h; rw [exec_blkStatic, Inflate.staticHeader, Inflate.acceptHeader_of_retry _ (by exact h)]; rfl

/-! ### BLK_STORED -/

/-- What BLK_STORED does with the two fields it has read (rule R236). -/
def Inflate.storedChecked (len nlen : Nat) (d : Inflate) : Parse Inflate :=
  if len ^^^ nlen ≠ 0xFFFF then .error (.raise .invalidBlock d)
  else .ok (Inflate.acceptHeader { d with litBlockLength := len } .litBlock)

theorem Inflate.storedHeader_eq (d : Inflate) : d.storedHeader =
    d.alignToByte.take 16 >>= fun r => r.2.take 16 >>= fun q => Inflate.storedChecked r.1 q.1 q.2 := rfl

theorem exec_blkStored (s : State) (f : Bool) :
    exec (.blkStored f) s = s.onInf (settleHeader (s.inf.setBlockFlags f 0b00).storedHeader) := rfl

/-- Skipping to the byte boundary reads the padding (rule R167). -/
theorem Inflate.alignToByte_readBits {d : Inflate} (h : d.readerOk) :
    Inflate.ReadBits (d.bitsLen % 8).toNat d d.alignToByte :=
  Inflate.consume_readBits h (by have := h.1.1; omega)

/-- The stored header with all its bits at hand: the padding and the two fields are read, then checked. -/
theorem Inflate.storedHeader_of_le_avail {d : Inflate} {pad : Nat} (h : d.readerOk) (hpad : pad = (d.bitsLen % 8).toNat)
    (ha : pad + 32 ≤ d.avail) :
    ∃ e, Inflate.ReadBits (pad + 32) d e ∧ d.storedHeader
      = Inflate.storedChecked (d.streamNum / 2 ^ pad % 2 ^ 16) (d.streamNum / 2 ^ (pad + 16) % 2 ^ 16) e := by
  subst hpad
  have r0 := Inflate.alignToByte_readBits h
  have e0 := r0.enough
  obtain ⟨d1, t1, r1⟩ := Inflate.take_of_le_avail (k := 16) (by omega) r0.ok (by omega)
  have e1 := r1.enough
  obtain ⟨d2, t2, r2⟩ := Inflate.take_of_le_avail (k := 16) (by omega) r1.ok (by omega)
  refine ⟨d2, by simpa [Nat.add_assoc] using (r0.trans r1).trans r2, ?_⟩
  rw [Inflate.storedHeader_eq, t1, except_ok_bind, t2, except_ok_bind, r1.rest, r0.rest, ← div_pow_add]

/-- Settles O25: the fields are the next bits of the stream; what is done with them is `storedChecked`. -/
theorem storedHeader : Obligations.StoredHeader := by
  unfold Obligations.StoredHeader
  intro s f pad len nlen h hpad ha hlen hnlen
  obtain ⟨d, hread, hd⟩ := Inflate.storedHeader_of_le_avail (Inflate.setBlockFlags_readerOk h f 0b00) hpad ha
  rw [Inflate.setBlockFlags_streamNum, ← hlen, ← hnlen] at hd
  have hretry := hread.same.retry
  refine ⟨d, hread, fun hok hr => ?_, fun hok hr => ?_, fun hbad hdr => ?_⟩
  · rw [exec_blkStored, hd, Inflate.storedChecked, if_neg (not_not.2 hok), settleHeader_of_ok,
      Inflate.acceptHeader_of_slice _ (by exact hretry.trans hr), State.onInf_ok]
  · rw [exec_blkStored, hd, Inflate.storedChecked, if_neg (not_not.2 hok), settleHeader_of_ok,
      Inflate.acceptHeader_of_retry _ (by exact hretry.trans hr), State.onInf_ok]
  · rw [exec_blkStored, hd, Inflate.storedChecked, if_pos hbad,
      settleHeader_of_raise _ (hread.same.drained hdr), State.onInf_ok]

/-- A stored header whose padding and fields are not all at hand underflows. -/
theorem Inflate.storedHeader_of_avail_lt {d : Inflate} (h : d.readerOk) (ha : d.avail < (d.bitsLen % 8).toNat + 32) :
    ∃ e, d.storedHeader = .error (.underflow e) := by
  have r0 := Inflate.alignToByte_readBits h
  have e0 := r0.enough
  rcases Nat.lt_or_ge d.alignToByte.avail 16 with hlt | hge
  · obtain ⟨d1, t1, -⟩ := Inflate.take_of_avail_lt (k := 16) (by omega) r0.ok hlt
    exact ⟨d1, by rw [Inflate.storedHeader_eq, t1]; rfl⟩
  · obtain ⟨d1, t1, r1⟩ := Inflate.take_of_le_avail (k := 16) (by omega) r0.ok hge
    have e1 := r1.enough
    obtain ⟨d2, t2, -⟩ := Inflate.take_of_avail_lt (k := 16) (by omega) r1.ok (by omega)
    exact ⟨d2, by rw [Inflate.storedHeader_eq, t1, except_ok_bind, t2]; rfl⟩

/-- Wherever a stored header underflows, it has only read. -/
theorem Inflate.storedHeader_underflow {d e : Inflate} (h : d.storedHeader = .error (.underflow e)) : d.Advanced e := by
  have hal : d.Advanced d.alignToByte := d.consume_advanced _
  rw [Inflate.storedHeader_eq] at h
  obtain h | ⟨⟨v, d1⟩, h1, h⟩ := except_bind_error h
  · exact hal.trans (Inflate.take_underflow_advanced h)
  · obtain h | ⟨⟨w, d2⟩, h2, h⟩ := except_bind_error h
    · exact (hal.trans (Inflate.take_advanced h1)).trans (Inflate.take_underflow_advanced h)
    · unfold Inflate.storedChecked at h
      split at h <;> cases h

/-! ### BLK_DYNAMIC -/

/-- What BLK_DYNAMIC does with the code-length-code lengths it has read (rules R241, R242). -/
def Inflate.clcChecked (hlit hdist : Nat) (vs : List Nat) (d : Inflate) : Parse Inflate :=
  let clcLen := placeClcLens clcOrder vs (List.replicate Config.clcSyms 0)
  if overSubscribed Config.maxClcLen clcLen then .error (.raise .invalidBlock d)
  else .ok { d with
    scratch := { d.scratch with
      clcLen := clcLen
      clcTable := buildClcTable clcLen
      nlit := hlit + 257
      ndist := hdist + 1
      lens := []
      nextCode := nextCodeAfter Config.maxClcLen clcLen d.scratch.nextCode }
    stage := .clSeq }

/-- What BLK_DYNAMIC does with the three counts it has read (rules R240, R241). -/
def Inflate.countsChecked (hlit hdist hclen : Nat) (d : Inflate) : Parse Inflate :=
  if Config.maxLitlenSyms < hlit + 257 ∨ Config.maxDistSyms < hdist + 1 then .error (.raise .invalidBlock d)
  else Inflate.takeMany 3 (hclen + 4) d >>= fun r => Inflate.clcChecked hlit hdist r.1 r.2

theorem Inflate.dynamicHeader_eq (d : Inflate) : d.dynamicHeader =
    d.take 5 >>= fun a => a.2.take 5 >>= fun b => b.2.take 4 >>= fun c => Inflate.countsChecked a.1 b.1 c.1 c.2 := rfl

theorem exec_blkDynamic (s : State) (f : Bool) :
    exec (.blkDynamic f) s = s.onInf (settleHeader (s.inf.setBlockFlags f 0b10).dynamicHeader) := rfl

/-- The three counts at hand are read, then checked. -/
theorem Inflate.dynamicHeader_of_le_avail {d : Inflate} (h : d.readerOk) (ha : 14 ≤ d.avail) :
    ∃ e, Inflate.ReadBits 14 d e ∧ d.dynamicHeader = Inflate.countsChecked (d.streamNum % 32) (d.streamNum / 32 % 32)
      (d.streamNum / 2 ^ 10 % 16) e := by
  obtain ⟨d1, t1, r1⟩ := Inflate.take_of_le_avail (k := 5) (by omega) h (by omega)
  have e1 := r1.enough
  obtain ⟨d2, t2, r2⟩ := Inflate.take_of_le_avail (k := 5) (by omega) r1.ok (by omega)
  have e2 := r2.enough
  obtain ⟨d3, t3, r3⟩ := Inflate.take_of_le_avail (k := 4) (by omega) r2.ok (by omega)
  refine ⟨d3, (r1.trans r2).trans r3, ?_⟩
  rw [Inflate.dynamicHeader_eq, t1, except_ok_bind, t2, except_ok_bind, t3, except_ok_bind, r2.rest, r1.rest,
    ← div_pow_add]
  rfl

/-- Three counts that are not all at hand underflow. -/
theorem Inflate.dynamicHeader_of_avail_lt {d : Inflate} (h : d.readerOk) (ha : d.avail < 14) :
    ∃ e, d.dynamicHeader = .error (.underflow e) := by
  rcases Nat.lt_or_ge d.avail 5 with hlt | hge
  · obtain ⟨d1, t1, -⟩ := Inflate.take_of_avail_lt (k := 5) (by omega) h hlt
    exact ⟨d1, by rw [Inflate.dynamicHeader_eq, t1]; rfl⟩
  · obtain ⟨d1, t1, r1⟩ := Inflate.take_of_le_avail (k := 5) (by omega) h hge
    have e1 := r1.enough
    rcases Nat.lt_or_ge d1.avail 5 with hlt | hge
    · obtain ⟨d2, t2, -⟩ := Inflate.take_of_avail_lt (k := 5) (by omega) r1.ok hlt
      exact ⟨d2, by rw [Inflate.dynamicHeader_eq, t1, except_ok_bind, t2]; rfl⟩
    · obtain ⟨d2, t2, r2⟩ := Inflate.take_of_le_avail (k := 5) (by omega) r1.ok hge
      have e2 := r2.enough
      obtain ⟨d3, t3, -⟩ := Inflate.take_of_avail_lt (k := 4) (by omega) r2.ok (by omega)
      exact ⟨d3, by rw [Inflate.dynamicHeader_eq, t1, except_ok_bind, t2, except_ok_bind, t3]; rfl⟩

/-- Wherever a dynamic header underflows, it has only read. -/
theorem Inflate.dynamicHeader_underflow {d e : Inflate} (h : d.dynamicHeader = .error (.underflow e)) :
    d.Advanced e := by
  rw [Inflate.dynamicHeader_eq] at h
  obtain h | ⟨⟨v1, d1⟩, h1, h⟩ := except_bind_error h
  · exact Inflate.take_underflow_advanced h
  obtain h | ⟨⟨v2, d2⟩, h2, h⟩ := except_bind_error h
  · exact (Inflate.take_advanced h1).trans (Inflate.take_underflow_advanced h)
  obtain h | ⟨⟨v3, d3⟩, h3, h⟩ := except_bind_error h
  · exact ((Inflate.take_advanced h1).trans (Inflate.take_advanced h2)).trans (Inflate.take_underflow_advanced h)
  refine ((Inflate.take_advanced h1).trans (Inflate.take_advanced h2)).trans ((Inflate.take_advanced h3).trans ?_)
  unfold Inflate.countsChecked at h
  split at h
  · cases h
  · obtain h | ⟨⟨vs, d4⟩, h4, h⟩ := except_bind_error h
    · exact Inflate.takeMany_advanced (.inl h)
    · simp only [Inflate.clcChecked] at h
      split at h <;> cases h

/-! ### The code-length-code lengths in their order -/

@[simp] theorem placeClcLens_length (order vs acc : List Nat) : (placeClcLens order vs acc).length = acc.length := by
  induction order generalizing vs acc with
  | nil => simp [placeClcLens]
  | cons i order ih => cases vs <;> simp [placeClcLens, ih]

/-- A symbol that is not in the order keeps its length. -/
theorem placeClcLens_getD_not_mem {order : List Nat} (vs acc : List Nat) {x : Nat} (hx : x ∉ order) :
    (placeClcLens order vs acc).getD x 0 = acc.getD x 0 := by
  induction order generalizing vs acc with
  | nil => simp [placeClcLens]
  | cons i order ih =>
    rw [List.mem_cons, not_or] at hx
    cases vs with
    | nil => simp [placeClcLens]
    | cons v vs => rw [placeClcLens, ih _ _ hx.2, getD_set_ne (Ne.symm hx.1)]

/-- The symbol at a place of the order gets the length at that place, or keeps its own where the lengths have ended
(rule R241). -/
theorem placeClcLens_getD {order vs acc : List Nat} (hnd : order.Nodup) (hlt : ∀ x ∈ order, x < acc.length) {i : Nat}
    (hi : i < order.length) : (placeClcLens order vs acc).getD (order.getD i 0) 0
      = if i < vs.length then vs.getD i 0 else acc.getD (order.getD i 0) 0 := by
  induction order generalizing vs acc i with
  | nil => simp at hi
  | cons j order ih =>
    obtain ⟨hj, hnd⟩ := List.nodup_cons.1 hnd
    cases vs with
    | nil => simp [placeClcLens]
    | cons v vs =>
      have hlt' : ∀ x ∈ order, x < (acc.set j v).length := fun x hx => by
        rw [List.length_set]; exact hlt x (List.mem_cons_of_mem _ hx)
      cases i with
      | zero =>
        rw [placeClcLens, List.getD_cons_zero, placeClcLens_getD_not_mem _ _ hj, getD_set_self (hlt j (by simp))]
        simp
      | succ i =>
        have hi' : i < order.length := by simpa using hi
        have hmem : order.getD i 0 ∈ order := by
          rw [List.getD_eq_getElem _ _ hi']; exact List.getElem_mem hi'
        rw [placeClcLens, List.getD_cons_succ, ih hnd hlt' hi', List.getD_cons_succ, List.length_cons,
          getD_set_ne (fun h => hj (by rw [h]; exact hmem))]
        simp

/-- The lengths of the code-length code, from the fields in stream order. -/
theorem placeClcLens_clcOrder {vs : List Nat} {n i : Nat} (hn : vs.length = n) (hi : i < 19) :
    (placeClcLens clcOrder vs (List.replicate Config.clcSyms 0)).getD (clcOrder.getD i 0) 0
      = if i < n then vs.getD i 0 else 0 := by
  rw [placeClcLens_getD (by decide) (by decide) hi, hn]
  congr 1
  simp [List.getD_eq_getElem?_getD, List.getElem?_replicate]
  split <;> rfl

/-- Settles O26: the counts, then the lengths of the code-length code, are the next bits of the stream. -/
theorem dynamicHeader : Obligations.DynamicHeader := by
  unfold Obligations.DynamicHeader
  intro s f hlit hdist hclen h hdr ha hl hd hc
  obtain ⟨e, hread, hdyn⟩ := Inflate.dynamicHeader_of_le_avail (Inflate.setBlockFlags_readerOk h f 0b10) ha
  rw [Inflate.setBlockFlags_streamNum, ← hl, ← hd, ← hc] at hdyn
  refine ⟨fun hbad => ⟨e, hread, ?_⟩, fun h1 h2 h3 => ?_⟩
  · rw [exec_blkDynamic, hdyn, Inflate.countsChecked, if_pos hbad,
      settleHeader_of_raise _ (hread.same.drained hdr), State.onInf_ok]
  · have he := hread.enough
    rw [Inflate.setBlockFlags_avail] at he
    obtain ⟨vs, d, htake, hread2, hlen, hvs⟩ :=
      Inflate.takeMany_of_le_avail (k := 3) (n := hclen + 4) (by omega) hread.ok (by omega)
    have hall := hread.trans hread2
    have hscr := hall.same.scratch
    have hcounts : ¬ (286 < hlit + 257 ∨ 30 < hdist + 1) := by omega
    refine ⟨d, placeClcLens clcOrder vs (List.replicate Config.clcSyms 0), hall, by simp, fun i hi => ?_,
      fun hover => ?_, fun hfit => ?_⟩
    · rw [placeClcLens_clcOrder hlen hi]
      by_cases hin : i < hclen + 4
      · rw [if_pos hin, if_pos hin, hvs i hin, hread.rest, Inflate.setBlockFlags_streamNum, ← div_pow_add]
        rfl
      · rw [if_neg hin, if_neg hin]
    · rw [exec_blkDynamic, hdyn, Inflate.countsChecked, if_neg hcounts, htake, except_ok_bind, Inflate.clcChecked]
      simp only [hover, ↓reduceIte]
      rw [settleHeader_of_raise _ (hall.same.drained hdr), State.onInf_ok]
    · rw [exec_blkDynamic, hdyn, Inflate.countsChecked, if_neg hcounts, htake, except_ok_bind, Inflate.clcChecked]
      simp only [hfit, Bool.false_eq_true, ↓reduceIte, settleHeader_of_ok, State.onInf_ok, hscr,
        Inflate.setBlockFlags_scratch]

/-! ### BLK_RESERVED and the reserved symbols -/

/-- A terminal error of a block's body, nothing owed (rule R412). -/
theorem settleBody_of_raise {d : Inflate} (k : ErrKind) (h : d.drained) :
    settleBody (.error (.raise k d)) = .ok (d.failed k) := Inflate.raiseTerminal_of_drained k h

/-- Settles O27: each reserved element raises its error where the engine stands. -/
theorem reservedElementsFail : Obligations.ReservedElementsFail := by
  unfold Obligations.ReservedElementsFail
  intro s h
  have hbody : s.onInf (settleBody (.error (.raise .invalidSymbol s.inf)))
      = .next { s with inf := s.inf.failed .invalidSymbol } := by rw [settleBody_of_raise _ h, State.onInf_ok]
  refine ⟨fun f => ?_, hbody, hbody, hbody, hbody⟩
  show s.onInf (settleHeader (.error (.raise .invalidBlock (s.inf.setBlockFlags f 0b11)))) = _
  rw [settleHeader_of_raise _ (by exact h), State.onInf_ok]

/-! ### The code-length symbols -/

/-- What a repeat does with the extra bits it has read (rule R245). -/
def Inflate.repeatChecked (base v e : Nat) (d : Inflate) : Parse Inflate :=
  if d.scratch.total < d.scratch.lens.length + (base + e) then .error (.raise .invalidBlock d)
  else .ok (d.appendLens (List.replicate (base + e) v))

theorem Inflate.repeatLens_eq (d : Inflate) (k base v : Nat) :
    d.repeatLens k base v = d.take k >>= fun r => Inflate.repeatChecked base v r.1 r.2 := rfl

theorem Inflate.copyPrevLen_of_some {d : Inflate} {v : Nat} (h : d.scratch.lens.getLast? = some v) :
    d.copyPrevLen = d.repeatLens 2 3 v := by
  simp only [Inflate.copyPrevLen, h]

theorem Inflate.copyPrevLen_of_nil {d : Inflate} (h : d.scratch.lens = []) :
    d.copyPrevLen = .error (.raise .invalidBlock d) := by
  simp only [Inflate.copyPrevLen, h, List.getLast?_nil]

theorem exec_clCopyPrev (s : State) : exec .clCopyPrev s = s.onInf (settleHeader s.inf.copyPrevLen) := rfl
theorem exec_clZeros3To10 (s : State) :
    exec .clZeros3To10 s = s.onInf (settleHeader (s.inf.repeatLens 3 3 0)) := rfl
theorem exec_clZeros11To138 (s : State) :
    exec .clZeros11To138 s = s.onInf (settleHeader (s.inf.repeatLens 7 11 0)) := rfl

/-- A repeat with its extra bits at hand reads them, then checks that it fits. -/
theorem Inflate.repeatLens_of_le_avail {d : Inflate} {k : Nat} (base v : Nat) (hk : k ≤ 57) (h : d.readerOk)
    (ha : k ≤ d.avail) : ∃ e, Inflate.ReadBits k d e
      ∧ d.repeatLens k base v = Inflate.repeatChecked base v (d.streamNum % 2 ^ k) e := by
  obtain ⟨e, ht, hread⟩ := Inflate.take_of_le_avail hk h ha
  exact ⟨e, hread, by rw [Inflate.repeatLens_eq, ht, except_ok_bind]⟩

/-- A repeat whose extra bits are not at hand underflows, and has only read. -/
theorem Inflate.repeatLens_of_avail_lt {d : Inflate} {k : Nat} (base v : Nat) (hk : k ≤ 57) (h : d.readerOk)
    (ha : d.avail < k) : ∃ e, d.repeatLens k base v = .error (.underflow e) ∧ d.Advanced e := by
  obtain ⟨e, ht, -⟩ := Inflate.take_of_avail_lt hk h ha
  exact ⟨e, by rw [Inflate.repeatLens_eq, ht]; rfl, Inflate.take_underflow_advanced ht⟩

/-- Settles O29: CL_LEN appends its length; the three repeats are `repeatLens`. -/
theorem codeLengthSymbols : Obligations.CodeLengthSymbols := by
  unfold Obligations.CodeLengthSymbols
  refine ⟨fun s l => rfl, fun s hdr hnil => ?_, fun s i k base v e h hdr hi ha he => ?_⟩
  · rw [exec_clCopyPrev, Inflate.copyPrevLen_of_nil hnil, settleHeader_of_raise _ hdr, State.onInf_ok]
  · have hexec : exec i s = s.onInf (settleHeader (s.inf.repeatLens k base v)) := by
      obtain ⟨rfl, rfl, rfl, hlast⟩ | ⟨rfl, rfl, rfl, rfl⟩ | ⟨rfl, rfl, rfl, rfl⟩ := hi
      · rw [exec_clCopyPrev, Inflate.copyPrevLen_of_some hlast]
      · exact exec_clZeros3To10 s
      · exact exec_clZeros11To138 s
    have hk : k ≤ 57 := by omega
    obtain ⟨d, hread, hd⟩ := Inflate.repeatLens_of_le_avail base v hk h ha
    rw [← he] at hd
    have hscr := hread.same.scratch
    refine ⟨d, hread, fun hfit => ?_, fun hover => ?_⟩
    · rw [hexec, hd, Inflate.repeatChecked, if_neg (by rw [hscr]; exact Nat.not_lt.2 hfit), settleHeader_of_ok,
        State.onInf_ok, Inflate.appendLens, hscr]
    · rw [hexec, hd, Inflate.repeatChecked, if_pos (by rw [hscr]; exact hover),
        settleHeader_of_raise _ (hread.same.drained hdr), State.onInf_ok]

/-! ### The end of a dynamic header -/

/-- The two parts of the vector, padded, when it is complete (rule R246). -/
theorem splitLens_of_complete {h : HeaderScratch} (hlen : h.lens.length = h.nlit + h.ndist) :
    splitLens h = (h.lens.take h.nlit ++ List.replicate (286 - h.nlit) 0,
      h.lens.drop h.nlit ++ List.replicate (30 - h.ndist) 0) := by
  simp [splitLens, padZeros, hlen]

/-- With the vector complete the next part of `Decode()` is the end of the header (rule R243). -/
theorem fetchElement_of_complete {p : Config.Params} {d : Inflate} (hs : d.stage = .clSeq)
    (hlen : d.scratch.total ≤ d.scratch.lens.length) :
    fetchElement p d = insideBy (settleHeader (d.finishDynamic p)) := by
  simp only [fetchElement, hs, if_neg (Nat.not_lt.2 hlen)]

/-- Settles O30: both parts are checked before anything is written. -/
theorem dynamicHeaderEnds : Obligations.DynamicHeaderEnds := by
  unfold Obligations.DynamicHeaderEnds
  intro s litLen distLen m hs hdr hlen hnl hnd hlit hdist hm
  have hsplit := splitLens_of_complete hlen
  rw [← hlit, ← hdist] at hsplit
  have hstep {d : Inflate} (h : settleHeader (s.inf.finishDynamic s.params) = .ok d) :
      step s = .next { s with inf := d } := by
    refine step_of_inside (by rw [hs]; decide) ?_
    rw [fetchElement_of_complete hs (le_of_eq hlen.symm), h]
    rfl
  constructor
  case left =>
    intro hover
    refine hstep ?_
    simp only [Inflate.finishDynamic, hsplit]
    rw [if_pos hover, settleHeader_of_raise _ hdr]
  case right =>
    intro hd hl
    refine ⟨{ s.inf.scratch with
      codeRec := generateCode 15 litLen ++ generateCode 15 distLen
      nextCode := nextCodeAfter 15 litLen (nextCodeAfter 15 distLen s.inf.scratch.nextCode)
      litCount := countVector 16 litLen
      distCount := countVector 16 distLen
      expCount := countVector 21 ((expandedCodes 0 (generateCode 15 litLen)).map (·.len)) }, fun hr => ?_, fun hr => ?_⟩
    · refine hstep ?_
      simp only [Inflate.finishDynamic, hsplit]
      rw [if_neg (by simp [hd, hl]), settleHeader_of_ok, Inflate.acceptHeader_of_slice _ (by exact hr), hm]
      rfl
    · refine hstep ?_
      simp only [Inflate.finishDynamic, hsplit]
      rw [if_neg (by simp [hd, hl]), settleHeader_of_ok, Inflate.acceptHeader_of_retry _ (by exact hr), hm]
      rfl

/-! ### The fetch of a header -/

theorem Inflate.fetchHeader_of_newBlock {d : Inflate} (h : d.phase = .newBlock) :
    d.fetchHeader = d.snapshot.take 3 >>= fun r => .ok (⟨.blkhdr, r.1, {}⟩, r.2) := by
  simp only [Inflate.fetchHeader, h, reduceCtorEq, if_false, except_ok_bind]

theorem Inflate.fetchHeader_of_resumed {d r : Inflate} (h : d.phase = .decodingHeader) (hr : d.enterRetry = .ok r) :
    d.fetchHeader = r.snapshot.take 3 >>= fun r => .ok (⟨.blkhdr, r.1, {}⟩, r.2) := by
  simp only [Inflate.fetchHeader, h, if_true, hr, orFault_ok, except_ok_bind]

theorem fetchElement_of_header {p : Config.Params} {d : Inflate} (hs : d.stage = .parse)
    (h : d.phase = .newBlock ∨ d.phase = .decodingHeader) : fetchElement p d = fetchedBy settleHeader d.fetchHeader := by
  rcases h with h | h <;> simp only [fetchElement, hs, h]

/-- A header at hand behind a snapshot is the next three stream bits (rule R232). -/
theorem fetchedBy_header_of_le_avail {d : Inflate} (settle : Parse Inflate → Except Fault Inflate) (h : d.readerOk)
    (ha : 3 ≤ d.avail) :
    ∃ d', fetchedBy settle (d.snapshot.take 3 >>= fun r => .ok (⟨.blkhdr, r.1, {}⟩, r.2))
        = .ok (.word ⟨.blkhdr, d.streamNum % 8, {}⟩ d') ∧ Inflate.ReadBits 3 d.snapshot d' := by
  obtain ⟨d', ht, hread⟩ := Inflate.take_of_le_avail (d := d.snapshot) (k := 3) (by omega) h ha
  exact ⟨d', by rw [ht]; rfl, hread⟩

/-- A header's three bits cut short (rule R253). -/
theorem fetchedBy_header_of_avail_lt {d : Inflate} (h : d.readerOk) (ha : d.avail < 3) (hdr : d.drained)
    (herr : d.inErr = none) :
    ∃ t, fetchedBy settleHeader (d.snapshot.take 3 >>= fun r => .ok (⟨.blkhdr, r.1, {}⟩, r.2)) = .ok (.inside t)
      ∧ Inflate.HeaderCut d.bfinal d.btype d.snapshot t := by
  obtain ⟨e, ht, -⟩ := Inflate.take_of_avail_lt (d := d.snapshot) (k := 3) (by omega) h ha
  have hpark : d.snapshot.parkable := by
    intro hr
    have hr' : d.retry = false := hr
    have hend : d.srcLen ≤ d.srcPos := by unfold Inflate.avail at ha; omega
    have h1 : d.srcLen = d.inLen := by simp [Inflate.srcLen, hr']
    rw [h1] at hend
    exact ⟨by rw [Inflate.snapshot_inLen, Inflate.snapshot_snapInPos]; omega,
      fun k h1 h2 => absurd h2 (by rw [Inflate.snapshot_snapInPos] at h1; rw [Inflate.snapshot_inLen]; omega)⟩
  obtain ⟨t, hcut, hcut'⟩ := Inflate.headerUnderflow_cut (f := d.bfinal) (b := d.btype) (d := d.snapshot)
    (Inflate.take_underflow_advanced ht) (le_refl _) hpark hdr herr
  refine ⟨t, ?_, hcut'⟩
  rw [ht]
  simp only [except_error_bind, fetchedBy, settleHeader_of_underflow, hcut, except_ok_bind]

/-- Entering retry mode (rule R252): the slice goes behind what `HDR` holds, and can be read there. -/
theorem Inflate.enterRetry_spec {d : Inflate} (hr : d.retry = false) (h : d.readerOk)
    (hlen : d.hdrLen ≤ Config.hdrBufSize) (hhdr : d.hdrBuf.readable 0 d.hdrLen) :
    ∃ r, d.enterRetry = .ok r ∧ Inflate.Resumed d r ∧ r.readerOk := by
  obtain ⟨hbuf, hpos, hread, -⟩ := h
  have e1 : d.srcPos = d.inPos := by simp [Inflate.srcPos, hr]
  have e2 : d.srcLen = d.inLen := by simp [Inflate.srcLen, hr]
  have e3 : d.srcMem = d.inBuf := by simp [Inflate.srcMem, hr]
  rw [e1, e2] at hpos
  rw [e1, e2, e3] at hread
  obtain ⟨k, hk⟩ : ∃ k, k = min (d.inLen - d.inPos) (Config.hdrBufSize - d.hdrLen) := ⟨_, rfl⟩
  have hb : readBytes .inp d.inLen d.inBuf d.inPos k = .ok (d.inBuf.window d.inPos k) :=
    readBytes_readable (by omega) fun j h1 h2 => hread j h1 (by omega)
  obtain ⟨m, hw, hin, hout⟩ := writeBytes_spec .hdr Config.hdrBufSize d.hdrBuf d.hdrLen (d.inBuf.window d.inPos k)
    (.inr (by rw [Cells.window_length]; omega))
  simp only [Cells.window_length] at hin hout
  have happ : ∀ j, j < k → m.get? (d.hdrLen + j) = d.inBuf.get? (d.inPos + j) := fun j hj => by
    obtain ⟨v, hv⟩ := Option.isSome_iff_exists.1 (hread (d.inPos + j) (by omega) (by omega))
    rw [hin j hj, hv]
    simp [Cells.window, tabulateFrom_getElem, hv]
  refine ⟨{ d with hdrBuf := m, hdrLen := d.hdrLen + k, inPos := d.inPos + k, hdrPos := 0, retry := true }, ?_,
    ⟨by rw [hk], fun a ha => hout a (.inl ha), by rw [← hk]; exact happ, fun a ha => hout a (.inr ha)⟩,
    hbuf, Nat.zero_le _, fun a _ ha => ?_, fun _ => ?_⟩
  · simp only [Inflate.enterRetry, ← hk, hb, except_ok_bind, hw]
  · show (m.get? a).isSome = true
    have ha' : a < d.hdrLen + k := ha
    rcases Nat.lt_or_ge a d.hdrLen with hlt | hge
    · rw [hout a (.inl hlt)]; exact hhdr a (Nat.zero_le _) hlt
    · obtain ⟨j, rfl⟩ := Nat.exists_eq_add_of_le hge
      rw [happ j (by omega)]
      exact hread _ (by omega) (by omega)
  · show d.hdrLen + k ≤ Config.hdrBufSize
    omega

/-- Settles O7: from `NEW_BLOCK` the fetch is the snapshot and three bits, from `DECODING_HEADER` the same after entering
retry mode. -/
theorem headerFetch : Obligations.HeaderFetch := by
  unfold Obligations.HeaderFetch
  intro p d hs hr h
  refine ⟨fun hp ha => ?enough, fun hp ha hdr herr => ?short, fun hp hlen hhdr => ?resumed⟩
  case enough =>
    rw [fetchElement_of_header hs (.inl hp), Inflate.fetchHeader_of_newBlock hp]
    exact fetchedBy_header_of_le_avail _ h ha
  case short =>
    rw [fetchElement_of_header hs (.inl hp), Inflate.fetchHeader_of_newBlock hp]
    exact fetchedBy_header_of_avail_lt h ha hdr herr
  case resumed =>
    obtain ⟨r, hr1, hr2, hr3⟩ := Inflate.enterRetry_spec hr h hlen hhdr
    rw [fetchElement_of_header hs (.inr hp), Inflate.fetchHeader_of_resumed hp hr1]
    refine ⟨r, hr2, hr3, fetchedBy_header_of_le_avail _ hr3, fun ha hdr herr => ?_⟩
    have hregs := hr2.regs
    have hcut := fetchedBy_header_of_avail_lt hr3 ha (by rw [hregs]; exact hdr) (by rw [hregs]; exact herr)
    rwa [show r.bfinal = d.bfinal by rw [hregs], show r.btype = d.btype by rw [hregs]] at hcut

/-! ### Headers cut short -/

/-- The code-length-code table shows, behind its refill, what it shows of the stream (rule R243). -/
theorem Inflate.clcTable_find_of_lookup {d d0 : Inflate} (hn : d.scratch.clcTable.narrow Config.refillHdr)
    (h : Inflate.Lookup Config.refillHdr d d0) :
    d0.scratch.clcTable.find d0.bits.toNat = d.scratch.clcTable.find d.streamNum := by
  rw [h.read.same.scratch, (hn d0.bits.toNat).1, h.shows _ (le_refl _), ← (hn d.streamNum).1]

/-- A code-length symbol whose code is not all at hand underflows, and has only read (rules R243, R244). -/
theorem Inflate.fetchClSymbol_of_avail_lt {d : Inflate} (h : d.readerOk)
    (hn : d.scratch.clcTable.narrow Config.refillHdr) (ha : d.avail < (d.scratch.clcTable.find d.streamNum).len) :
    ∃ e, d.fetchClSymbol = .error (.underflow e) ∧ d.Advanced e := by
  obtain ⟨d0, hlook⟩ := Inflate.lookup (m := Config.refillHdr) (by decide) h
  have hfind := Inflate.clcTable_find_of_lookup hn hlook
  refine ⟨d0.consume (d.scratch.clcTable.find d.streamNum).len, ?_, hlook.advanced.trans (d0.consume_advanced _)⟩
  simp only [Inflate.fetchClSymbol, hlook.refill, orFault_ok, except_ok_bind, hfind]
  rw [if_neg (by omega), if_pos (hlook.short _ (hn d.streamNum).2 ha)]

/-- What the parser fetches next inside a code-length sequence that is not complete (rule R243). -/
theorem fetchElement_of_clSeq {p : Config.Params} {d : Inflate} (hs : d.stage = .clSeq)
    (hlen : d.scratch.lens.length < d.scratch.total) :
    fetchElement p d = fetchedBy settleHeader d.fetchClSymbol := by
  simp only [fetchElement, hs, if_pos hlen]

/-- A code-length symbol cut short (rule R253). -/
theorem fetchElement_clSeq_cut {p : Config.Params} {d : Inflate} (h : d.readerOk) (hdr : d.drained)
    (herr : d.inErr = none) (hs : d.stage = .clSeq) (hlen : d.scratch.lens.length < d.scratch.total)
    (hn : d.scratch.clcTable.narrow Config.refillHdr) (hsnap : d.snapInPos ≤ d.srcPos) (hpark : d.parkable)
    (ha : d.avail < (d.scratch.clcTable.find d.streamNum).len) :
    ∃ t, fetchElement p d = .ok (.inside t) ∧ Inflate.HeaderCut d.bfinal d.btype d t := by
  obtain ⟨e, he, hadv⟩ := Inflate.fetchClSymbol_of_avail_lt h hn ha
  obtain ⟨t, ht, hcut⟩ := Inflate.headerUnderflow_cut (f := d.bfinal) (b := d.btype) hadv hsnap hpark hdr herr
  refine ⟨t, ?_, hcut⟩
  rw [fetchElement_of_clSeq hs hlen, he]
  simp only [fetchedBy, settleHeader_of_underflow, ht, except_ok_bind]

/-- Settles O28: wherever the bits run out, the engine has only read since the snapshot. -/
theorem headerSuspends : Obligations.HeaderSuspends := by
  unfold Obligations.HeaderSuspends
  intro s h hdr herr
  refine ⟨fun i f b hsnap hpark hi => ?instr, fun hs hp hr ha => ?header, fun hs hlen hn hsnap hpark ha => ?symbol⟩
  case instr =>
    have key {r : Parse Inflate} {e : Inflate} (hexec : exec i s = s.onInf (settleHeader r))
        (hr : r = .error (.underflow e)) (hadv : (s.inf.setBlockFlags f b).Advanced e) :
        ∃ t, exec i s = .next { s with inf := t } ∧ Inflate.HeaderCut f b s.inf t := by
      obtain ⟨t, ht, hcut⟩ := Inflate.headerUnderflow_cut hadv hsnap hpark hdr herr
      exact ⟨t, by rw [hexec, hr, settleHeader_of_underflow, ht, State.onInf_ok], hcut⟩
    obtain ⟨rfl, rfl, ha⟩ | ⟨rfl, rfl, ha⟩ | ⟨rfl, rfl, hi⟩ := hi
    · obtain ⟨e, he⟩ := Inflate.storedHeader_of_avail_lt (Inflate.setBlockFlags_readerOk h f 0b00) ha
      exact key (exec_blkStored s f) he (Inflate.storedHeader_underflow he)
    · obtain ⟨e, he⟩ : ∃ e, (s.inf.setBlockFlags f 0b10).dynamicHeader = .error (.underflow e) := by
        rcases Nat.lt_or_ge s.inf.avail 14 with hlt | hge
        · exact Inflate.dynamicHeader_of_avail_lt (Inflate.setBlockFlags_readerOk h f 0b10) hlt
        · obtain ⟨d1, hread, hdyn⟩ := Inflate.dynamicHeader_of_le_avail (Inflate.setBlockFlags_readerOk h f 0b10) hge
          have henough := hread.enough
          simp only [Inflate.setBlockFlags_avail, Inflate.setBlockFlags_streamNum] at henough hdyn
          obtain ⟨d2, hd2⟩ := Inflate.takeMany_of_avail_lt (k := 3) (n := s.inf.streamNum / 2 ^ 10 % 16 + 4) (by omega)
            hread.ok (by omega)
          refine ⟨d2, ?_⟩
          rw [hdyn, Inflate.countsChecked, if_neg (show ¬ (286 < _ + 257 ∨ 30 < _ + 1) by omega), hd2]
          rfl
      exact key (exec_blkDynamic s f) he (Inflate.dynamicHeader_underflow he)
    · obtain ⟨rfl, hne, ha⟩ | ⟨rfl, ha⟩ | ⟨rfl, ha⟩ := hi
      · obtain ⟨v, hv⟩ := Option.ne_none_iff_exists'.1 (fun hn => hne (List.getLast?_eq_none_iff.1 hn))
        obtain ⟨e, he, hadv⟩ := Inflate.repeatLens_of_avail_lt 3 v (by omega) h ha
        exact key (exec_clCopyPrev s) ((Inflate.copyPrevLen_of_some hv).trans he) hadv
      · obtain ⟨e, he, hadv⟩ := Inflate.repeatLens_of_avail_lt 3 0 (by omega) h ha
        exact key (exec_clZeros3To10 s) he hadv
      · obtain ⟨e, he, hadv⟩ := Inflate.repeatLens_of_avail_lt 11 0 (by omega) h ha
        exact key (exec_clZeros11To138 s) he hadv
  case header =>
    obtain ⟨t, ht, hcut⟩ := fetchedBy_header_of_avail_lt h ha hdr herr
    rw [← Inflate.fetchHeader_of_newBlock hp, ← fetchElement_of_header (p := s.params) hs (.inl hp)] at ht
    exact ⟨t, step_of_inside (by rw [hs]; decide) ht, hcut⟩
  case symbol =>
    obtain ⟨t, ht, hcut⟩ := fetchElement_clSeq_cut (p := s.params) h hdr herr hs hlen hn hsnap hpark ha
    exact ⟨t, step_of_inside (by rw [hs]; decide) ht, hcut⟩

end Sys2Proof.Machine
end

section
/-! PROOFS. The fetch of a symbol through its table, and the literals and length symbols (rules R243, R260 to R273). -/

namespace Sys2Proof.Machine

@[simp] theorem settleBody_of_underflow (d : Inflate) : settleBody (.error (.underflow d)) = d.bodyUnderflow := rfl

/-- A body operation whose reading ran out of bits puts the engine back and suspends it (rules R261, R266). -/
theorem Inflate.bodyUnderflow_of_advanced {d e : Inflate} (h : d.Advanced e) (hsnap : d.snapInPos ≤ d.srcPos)
    (hdr : d.drained) (herr : d.inErr = none) : e.bodyUnderflow = .ok (d.restore.suspended .endInput) := by
  obtain ⟨-, -, -, -, r5, r6, -⟩ := d.restore_frame
  rw [Inflate.bodyUnderflow, h.restore hsnap, Inflate.endDecode_of_drained _ (r6 hdr) (r5.trans herr)]

/-- The return of `Decode()` behind a drain that stores what was owed, no error latched (rule R288). -/
theorem Inflate.endDecode_of_drain {d e : Inflate} (st : Status) (h : d.drain = .ok e) (he : e.inErr = none) :
    d.endDecode st = .ok (e.suspended st) := by
  simp only [Inflate.endDecode, h, except_ok_bind, Inflate.suspended, Inflate.surfaced, he]

/-! ### Literal/length symbols -/

theorem fetchElement_of_headerDecoded {p : Config.Params} {d : Inflate} (hs : d.stage = .parse)
    (hp : d.phase = .headerDecoded) (h0 : d.symCount = 0) : fetchElement p d = fetchedBy settleBody d.fetchSymbol := by
  simp only [fetchElement, hs, hp, h0, Nat.lt_irrefl, if_false]

theorem fetchElement_of_held {p : Config.Params} {d : Inflate} (hs : d.stage = .parse) (hp : d.phase = .headerDecoded)
    (h0 : 0 < d.symCount) : fetchElement p d = .ok (.word d.fetchHeldLit.1 d.fetchHeldLit.2) := by
  simp only [fetchElement, hs, hp, if_pos h0]

theorem Inflate.fetchSymbol_of_full {d : Inflate} (h : d.outLimit ≤ d.writePos) :
    d.fetchSymbol = .error (.overflow d) := by
  simp only [Inflate.fetchSymbol, if_pos h]

/-- What the fetch makes of a valid entry, its bits consumed (rules R262, R264, R271). -/
def Inflate.symbolOf (hit : LargeHit) (d : Inflate) : Parse (Code × Inflate) :=
  if 1 < hit.symCount ∨ hit.nextLits < 256 then
    .ok (llCode (hit.nextLits % 256) 0, d.holdLits (hit.nextLits >>> 8) (hit.symCount - 1))
  else if hit.nextLits = Config.eobSymbol then .ok (llCode 256 0, d)
  else match expandedCode hit.nextLits with
  | some c => .ok (c, d)
  | none => .error (.raise .invalidSymbol d)

/-- The fetch of a symbol behind its refill (rules R260 to R262). -/
theorem Inflate.fetchSymbol_of_refill {d d0 : Inflate} (h : d.writePos < d.outLimit)
    (h0 : d.refill Config.refillMain = .ok d0) : d.fetchSymbol =
      if (d0.litLenTable.find d0.bits.toNat).bitCount = 0 then .error (.raise .invalidSymbol d0.snapshot)
      else if (d0.consume (d0.litLenTable.find d0.bits.toNat).bitCount).underflowed then
        .error (.underflow (d0.snapshot.consume (d0.litLenTable.find d0.bits.toNat).bitCount))
      else Inflate.symbolOf (d0.litLenTable.find d0.bits.toNat)
        (d0.snapshot.consume (d0.litLenTable.find d0.bits.toNat).bitCount) := by
  simp only [Inflate.fetchSymbol, if_neg (Nat.not_le.2 h), h0, orFault_ok, except_ok_bind]
  rfl

/-- The large table shows, behind its refill, what it shows of the stream (rule R261). -/
theorem Inflate.litLenTable_find_of_lookup {d d0 : Inflate} (hn : d.litLenTable.narrow)
    (h : Inflate.Lookup Config.refillMain d d0) :
    d0.litLenTable.find d0.bits.toNat = d.litLenTable.find d.streamNum := by
  have htab : d0.litLenTable = d.litLenTable := by
    have hs := h.read.same
    unfold Inflate.sameButReader at hs
    rw [hs]
  rw [htab, (hn d0.bits.toNat).1, h.shows 57 (le_refl _), ← (hn d.streamNum).1]

/-- The word of a match length, by its symbol and extra value (rules R121, R124). -/
theorem expandedCode_length {y : Nat} (h1 : 257 ≤ y) (h2 : y ≤ 512) :
    ∃ s e, expandedSym s e = y ∧ 257 ≤ s ∧ s ≤ 285 ∧ e < 2 ^ lenExtra s ∧ expandedCode y = some (llCode s e) := by
  obtain ⟨b1, b2, b3, b4⟩ := lenSym_inverts (len := y - 254) (by omega) (by omega)
  refine ⟨lenSym (y - 254), y - 254 - lenBase (lenSym (y - 254)), ?_, b1, b2, by omega, ?_⟩
  · rw [expandedSym, if_neg (by omega), if_neg (by omega), if_neg (by omega), Config.lenOffset]
    omega
  · simp only [expandedCode, if_pos h2]

theorem fetchedBy_error (settle : Parse Inflate → Except Fault Inflate) {h : Halt} {d : Inflate}
    (hs : settle (.error h) = .ok d) : fetchedBy settle (.error h) = .ok (.inside d) := by
  simp only [fetchedBy, hs, except_ok_bind]

/-- Settles O8: the entry looked up behind the refill is the one the stream selects. -/
theorem symbolFetch : Obligations.SymbolFetch := by
  unfold Obligations.SymbolFetch
  intro p d hs hp
  refine ⟨fun h0 => ?held, fun hit h0 hr h hdr herr hn hhit => ?_⟩
  case held =>
    rw [fetchElement_of_held hs hp h0]
    simp only [Inflate.fetchHeldLit, Inflate.holdLits, llCode, Nat.shiftRight_eq_div_pow]
    rfl
  rw [fetchElement_of_headerDecoded hs hp h0]
  obtain ⟨d0, hlook⟩ := Inflate.lookup (m := Config.refillMain) (by decide) h
  have hfind := Inflate.litLenTable_find_of_lookup hn hlook
  rw [← hhit] at hfind
  have hle : hit.bitCount ≤ 57 := hhit ▸ (hn d.streamNum).2
  have hd0 : d0.snapshot.drained := hlook.read.same.drained hdr
  have he0 : d0.snapshot.inErr = none := hlook.read.same.inErr.trans herr
  refine ⟨fun hfull => ?full, fun hroom hbad => ⟨d0, hlook.read, ?invalid⟩, fun hroom hshort => ⟨d0, hlook.read, ?short⟩,
    fun hroom hpos hav => ⟨d0, d0.snapshot.consume hit.bitCount, hlook.read, ?read, ?_⟩⟩
  case full =>
    rw [Inflate.fetchSymbol_of_full hfull]
    exact fetchedBy_error _ (Inflate.endDecode_of_drained _ hdr herr)
  case invalid =>
    rw [Inflate.fetchSymbol_of_refill hroom hlook.refill, hfind, if_pos hbad]
    exact fetchedBy_error _ (settleBody_of_raise _ hd0)
  case short =>
    rw [Inflate.fetchSymbol_of_refill hroom hlook.refill, hfind, if_neg (by omega), if_pos (hlook.short _ hle hshort)]
    refine fetchedBy_error _ ?_
    rw [settleBody_of_underflow, Inflate.bodyUnderflow_of_advanced (d0.snapshot.consume_advanced _) (le_refl _) hd0 he0,
      Inflate.restore_snapshot]
  case read =>
    obtain ⟨hu, -⟩ := hlook.enough _ hle hav
    exact Inflate.consume_readBits (d := d0.snapshot) hlook.read.ok (by simpa [Inflate.underflowed] using hu)
  rw [Inflate.fetchSymbol_of_refill hroom hlook.refill, hfind, if_neg (by omega),
    if_neg (by rw [(hlook.enough _ hle hav).1]; decide)]
  have hsym (h1 : hit.symCount ≤ 1) (h2 : 257 ≤ hit.nextLits) : ∀ c, expandedCode hit.nextLits = some c →
      fetchedBy settleBody (Inflate.symbolOf hit (d0.snapshot.consume hit.bitCount))
        = .ok (.word c (d0.snapshot.consume hit.bitCount)) := by
    intro c hc
    have hne : hit.nextLits ≠ Config.eobSymbol := by
      rw [Config.eobSymbol]; omega
    simp only [Inflate.symbolOf, if_neg (show ¬ (1 < hit.symCount ∨ hit.nextLits < 256) by omega), if_neg hne, hc,
      fetchedBy]
  refine ⟨fun hlit => ?_, fun h1 heob => ?_, fun h1 h2 h3 => ?_, fun h1 h2 => ?_, fun h1 h2 => ?_⟩
  · simp only [Inflate.symbolOf, if_pos hlit, fetchedBy, Inflate.holdLits, llCode, Nat.shiftRight_eq_div_pow]
    rfl
  · rw [Inflate.symbolOf, if_neg (by omega), if_pos heob]
    rfl
  · obtain ⟨s, e, b1, b2, b3, b4, b5⟩ := expandedCode_length h2 h3
    exact ⟨s, e, b1, b2, b3, b4, hsym h1 h2 _ b5⟩
  · exact hsym h1 (by omega) _ (by rw [h2]; rfl)
  · exact hsym h1 (by omega) _ (by rw [h2]; rfl)

/-! ### Code-length and distance symbols -/

/-- The fetch of a code-length symbol behind its refill (rules R243, R244). -/
theorem Inflate.fetchClSymbol_of_refill {d d0 : Inflate} (h0 : d.refill Config.refillHdr = .ok d0) : d.fetchClSymbol =
      if (d0.scratch.clcTable.find d0.bits.toNat).len = 0 then .error (.raise .invalidBlock d0)
      else if (d0.consume (d0.scratch.clcTable.find d0.bits.toNat).len).underflowed then
        .error (.underflow (d0.consume (d0.scratch.clcTable.find d0.bits.toNat).len))
      else .ok (⟨.clsym, (d0.scratch.clcTable.find d0.bits.toNat).sym9, {}⟩,
        d0.consume (d0.scratch.clcTable.find d0.bits.toNat).len) := by
  simp only [Inflate.fetchClSymbol, h0, orFault_ok, except_ok_bind]

/-- What the fetch of a distance makes of a bit string that no distance code starts (log 15). -/
def Inflate.noDistance (d : Inflate) : Parse (Code × Inflate) :=
  match reservedDistance d.btype d.bits.toNat with
  | some c => .ok (c, d)
  | none => .error (.raise .invalidSymbol d)

theorem Inflate.noDistance_of_some {d : Inflate} {c : Code} (h : reservedDistance d.btype d.bits.toNat = some c) :
    d.noDistance = .ok (c, d) := by
  simp only [Inflate.noDistance, h]

theorem Inflate.noDistance_of_none {d : Inflate} (h : reservedDistance d.btype d.bits.toNat = none) :
    d.noDistance = .error (.raise .invalidSymbol d) := by
  simp only [Inflate.noDistance, h]

/-- The fetch of a distance symbol behind its refill (rule R266). -/
theorem Inflate.fetchDistance_of_refill {d d0 : Inflate} (h0 : d.refill Config.refillMain = .ok d0) : d.fetchDistance =
      if (d0.distTable.find d0.bits.toNat).len = 0 then d0.noDistance
      else if (d0.consume (d0.distTable.find d0.bits.toNat).len).underflowed then
        .error (.underflow (d0.consume (d0.distTable.find d0.bits.toNat).len))
      else .ok (⟨.dsym, (d0.distTable.find d0.bits.toNat).sym9 % 32, {}⟩,
        d0.consume (d0.distTable.find d0.bits.toNat).len) := by
  simp only [Inflate.fetchDistance, h0, orFault_ok, except_ok_bind]
  rfl

/-- The distance table shows, behind its refill, what it shows of the stream (rule R266). -/
theorem Inflate.distTable_find_of_lookup {d d0 : Inflate} (hn : d.distTable.narrow Config.refillMain)
    (h : Inflate.Lookup Config.refillMain d d0) :
    d0.distTable.find d0.bits.toNat = d.distTable.find d.streamNum := by
  have htab : d0.distTable = d.distTable := by
    have hs := h.read.same
    unfold Inflate.sameButReader at hs
    rw [hs]
  rw [htab, (hn d0.bits.toNat).1, h.shows _ (le_refl _), ← (hn d.streamNum).1]

theorem fetchElement_of_dist {p : Config.Params} {d : Inflate} (hs : d.stage = .dist) :
    fetchElement p d = fetchedBy settleBody d.fetchDistance := by
  simp only [fetchElement, hs]

/-- A code-length symbol is fetched, or its bit string is no code's (rules R243, R244). -/
theorem clSymbol_fetched {p : Config.Params} {d : Inflate} {hit : SmallHit} (h : d.readerOk) (hdr : d.drained)
    (hs : d.stage = .clSeq) (hlen : d.scratch.lens.length < d.scratch.total)
    (hn : d.scratch.clcTable.narrow Config.refillHdr) (hhit : hit = d.scratch.clcTable.find d.streamNum) :
    (hit.len = 0 → ∃ d0, Inflate.ReadBits 0 d d0 ∧ fetchElement p d = .ok (.inside (d0.failed .invalidBlock)))
    ∧ (0 < hit.len → hit.len ≤ d.avail →
      ∃ d', Inflate.ReadBits hit.len d d' ∧ fetchElement p d = .ok (.word ⟨.clsym, hit.sym9, {}⟩ d')) := by
  obtain ⟨d0, hlook⟩ := Inflate.lookup (m := Config.refillHdr) (by decide) h
  have hfind := Inflate.clcTable_find_of_lookup hn hlook
  rw [← hhit] at hfind
  have hle : hit.len ≤ Config.refillHdr := hhit ▸ (hn d.streamNum).2
  rw [fetchElement_of_clSeq hs hlen, Inflate.fetchClSymbol_of_refill hlook.refill, hfind]
  refine ⟨fun hbad => ⟨d0, hlook.read, ?_⟩, fun hpos hav => ?_⟩
  · rw [if_pos hbad]
    exact fetchedBy_error _ (settleHeader_of_raise _ (hlook.read.same.drained hdr))
  · obtain ⟨hu, hread⟩ := hlook.enough _ hle hav
    exact ⟨_, hread, by rw [if_neg (by omega), if_neg (by rw [hu]; decide)]; rfl⟩

/-- A distance symbol is fetched, is reserved or invalid, or is cut short (rule R266, log 15). -/
theorem distance_fetched {p : Config.Params} {d : Inflate} {hit : SmallHit} (h : d.readerOk) (hdr : d.drained)
    (herr : d.inErr = none) (hs : d.stage = .dist) (hr : d.retry = false)
    (hn : d.distTable.narrow Config.refillMain) (hhit : hit = d.distTable.find d.streamNum) :
    (hit.len = 0 → ∃ d0, Inflate.ReadBits 0 d d0
      ∧ (d.btype ≠ 0b01 → fetchElement p d = .ok (.inside (d0.failed .invalidSymbol)))
      ∧ (d.btype = 0b01 → d.streamNum % 32 = 0b01111 → fetchElement p d = .ok (.word ⟨.dsym, 30, {}⟩ d0))
      ∧ (d.btype = 0b01 → d.streamNum % 32 = 0b11111 → fetchElement p d = .ok (.word ⟨.dsym, 31, {}⟩ d0)))
    ∧ (d.avail < hit.len → d.snapInPos ≤ d.inPos →
      fetchElement p d = .ok (.inside (d.restore.suspended .endInput)))
    ∧ (0 < hit.len → hit.len ≤ d.avail →
      ∃ d', Inflate.ReadBits hit.len d d' ∧ fetchElement p d = .ok (.word ⟨.dsym, hit.sym9 % 32, {}⟩ d')) := by
  obtain ⟨d0, hlook⟩ := Inflate.lookup (m := Config.refillMain) (by decide) h
  have hfind := Inflate.distTable_find_of_lookup hn hlook
  rw [← hhit] at hfind
  have hle : hit.len ≤ Config.refillMain := hhit ▸ (hn d.streamNum).2
  have hbtype : d0.btype = d.btype := by
    have hs := hlook.read.same
    unfold Inflate.sameButReader at hs
    rw [hs]
  have hlow : d0.bits.toNat % 32 = d.streamNum % 32 := hlook.shows 5 (by decide)
  rw [fetchElement_of_dist hs, Inflate.fetchDistance_of_refill hlook.refill, hfind]
  refine ⟨fun hbad => ⟨d0, hlook.read, ?_⟩, fun hshort hsnap => ?_, fun hpos hav => ?_⟩
  · rw [if_pos hbad]
    refine ⟨fun hb => ?_, fun hb h15 => ?_, fun hb h31 => ?_⟩
    · rw [Inflate.noDistance_of_none (by rw [reservedDistance, if_pos (by rw [hbtype]; exact hb)])]
      exact fetchedBy_error _ (settleBody_of_raise _ (hlook.read.same.drained hdr))
    · rw [Inflate.noDistance_of_some (c := ⟨.dsym, 30, {}⟩)]
      · rfl
      · rw [reservedDistance, hbtype, hb, hlow, h15]; rfl
    · rw [Inflate.noDistance_of_some (c := ⟨.dsym, 31, {}⟩)]
      · rfl
      · rw [reservedDistance, hbtype, hb, hlow, h31]; rfl
  · rw [if_neg (by omega), if_pos (hlook.short _ hle hshort)]
    refine fetchedBy_error _ ?_
    exact Inflate.bodyUnderflow_of_advanced (hlook.advanced.trans (d0.consume_advanced _))
      (by rw [Inflate.srcPos, hr]; exact hsnap) hdr herr
  · obtain ⟨hu, hread⟩ := hlook.enough _ hle hav
    exact ⟨_, hread, by rw [if_neg (by omega), if_neg (by rw [hu]; decide)]; rfl⟩

/-- Settles O9: one lemma for each of the two formats, and the one on a code-length symbol cut short. -/
theorem codeFetch : Obligations.CodeFetch := by
  unfold Obligations.CodeFetch
  intro p d hit h hdr herr
  refine ⟨fun hs hlen hn hhit => ?_, fun hs hr hn hhit => distance_fetched h hdr herr hs hr hn hhit⟩
  obtain ⟨hbad, hok⟩ := clSymbol_fetched (p := p) h hdr hs hlen hn hhit
  exact ⟨hbad, hok, fun hshort hsnap hpark =>
    fetchElement_clSeq_cut h hdr herr hs hlen hn hsnap hpark (hhit ▸ hshort)⟩

/-! ### Literals -/

theorem exec_lit (b : Byte) (s : State) : exec (.lit b) s = s.onInf (settleBody (s.inf.literal b)) := rfl

theorem Inflate.literal_of_room {d : Inflate} (b : Byte) (h : d.writePos < d.outLimit)
    (hl : d.outLimit ≤ Config.histBufSize) : d.literal b = .ok { d with
      histBuf := d.histBuf.put d.writePos b, writePos := d.writePos + 1, stage := .parse } := by
  simp only [Inflate.literal, if_pos h, Inflate.storeByte_ok.2 ⟨h.trans_le hl, rfl⟩, orFault_ok, except_ok_bind]

/-- Settles O31: the store is one cell written. -/
theorem literalStored : Obligations.LiteralStored := by
  unfold Obligations.LiteralStored
  intro s b h hl
  refine ⟨s.inf.histBuf.put s.inf.writePos b, ?_, Cells.get_put_same .., fun a ha => Cells.get_put_other _ _ ha⟩
  rw [exec_lit, Inflate.literal_of_room b h hl, settleBody_of_ok, State.onInf_ok]

/-- What a literal that finds the output full stashes: itself and the held literals, the next one lowest (rule R264). -/
def Inflate.overflowLits (b : Byte) (d : Inflate) : Nat :=
  (b.toNat ||| (d.nextLits.toNat <<< 8)) % 2 ^ (8 * (d.symCount + 1))

/-- The bytes of the stash (rule R264). -/
theorem Inflate.overflowLits_bytes {d : Inflate} (b : Byte) (h : d.symCount ≤ 2) :
    d.overflowLits b < 2 ^ 32 ∧ BitVec.ofNat 8 (d.overflowLits b) = b
      ∧ ∀ j, j < d.symCount →
        BitVec.ofNat 8 (d.overflowLits b / 2 ^ (8 * (1 + j))) = BitVec.ofNat 8 (d.nextLits.toNat / 2 ^ (8 * j)) := by
  have hb := b.isLt
  unfold Inflate.overflowLits
  rw [or_shift_eq_add _ hb]
  obtain ⟨x, hx⟩ : ∃ x, x = d.nextLits.toNat := ⟨_, rfl⟩
  rw [← hx]
  have hcases : d.symCount = 0 ∨ d.symCount = 1 ∨ d.symCount = 2 := by omega
  refine ⟨?_, BitVec.eq_of_toNat_eq ?_, fun j hj => BitVec.eq_of_toNat_eq ?_⟩
  · rcases hcases with h | h | h <;> rw [h] <;> omega
  · rw [BitVec.toNat_ofNat]
    rcases hcases with h | h | h <;> rw [h] <;> omega
  · rw [BitVec.toNat_ofNat, BitVec.toNat_ofNat]
    obtain ⟨hs, rfl⟩ | ⟨hs, rfl⟩ | ⟨hs, rfl⟩ : d.symCount = 1 ∧ j = 0 ∨ d.symCount = 2 ∧ j = 0 ∨ d.symCount = 2 ∧ j = 1 := by
      omega
    all_goals rw [hs]; omega

/-- The drain of stashed literals alone (rule R290): four bytes are written, the stashed ones are counted. -/
theorem Inflate.drain_of_lits {d : Inflate} (hc : d.copyOverflowLength = 0) (hl : 0 < d.writeOverflowLen)
    (hroom : d.writePos + 4 ≤ Config.histBufSize) :
    ∃ m : Memory, d.drain = .ok { d with
        histBuf := m, writePos := d.writePos + d.writeOverflowLen, writeOverflowLits := 0, writeOverflowLen := 0 }
      ∧ (∀ j, j < 4 → m.get? (d.writePos + j) = some (BitVec.ofNat 8 (d.writeOverflowLits.toNat / 2 ^ (8 * j))))
      ∧ ∀ a, a < d.writePos ∨ d.writePos + 4 ≤ a → m.get? a = d.histBuf.get? a := by
  obtain ⟨m, hw, hin, hout⟩ := writeLE_spec .hist Config.histBufSize d.histBuf d.writePos 4 d.writeOverflowLits.toNat
    (.inr hroom)
  refine ⟨m, ?_, hin, hout⟩
  simp only [Inflate.drain, Inflate.drainLits, if_pos hl, hw, except_ok_bind, Inflate.drainCopy, hc, Nat.lt_irrefl,
    if_false]

/-- Settles O32: the literal and those held are stashed, and the drain writes the stash. -/
theorem literalOverflow : Obligations.LiteralOverflow := by
  unfold Obligations.LiteralOverflow
  intro s b hfull hroom hdr herr hsym
  obtain ⟨hlt, hb0, hbj⟩ := Inflate.overflowLits_bytes (d := s.inf) b hsym
  obtain ⟨d, hd⟩ : ∃ d, d = { s.inf with
      writeOverflowLits := BitVec.ofNat 32 (s.inf.overflowLits b), writeOverflowLen := s.inf.symCount + 1,
      nextLits := 0, symCount := 0 } := ⟨_, rfl⟩
  have hlits : d.writeOverflowLits.toNat = s.inf.overflowLits b := by
    rw [hd]; exact Nat.mod_eq_of_lt hlt
  obtain ⟨m, hdrain, hin, hout⟩ := Inflate.drain_of_lits (d := d) (by rw [hd]; exact hdr.2) (by rw [hd]; exact Nat.succ_pos _)
    (by rw [hd]; exact hroom)
  rw [hlits] at hin
  refine ⟨m, ?_, ?_, fun j hj => ?_, fun a ha => ?_⟩
  · have hlit : s.inf.literal b = .error (.overflow d) := by
      rw [hd]; simp only [Inflate.literal, if_neg (Nat.not_lt.2 hfull)]; rfl
    rw [exec_lit, hlit]
    show s.onInf (d.endDecode .outputOverflow) = _
    rw [Inflate.endDecode_of_drain _ hdrain (by rw [hd]; exact herr), State.onInf_ok]
    subst hd
    simp only [hdr.1]
  · have h0 := hin 0 (by omega)
    rw [hd] at h0
    simpa [hb0] using h0
  · have h1 := hin (1 + j) (by omega)
    rw [hbj j hj, hd] at h1
    rw [← h1, Nat.add_assoc]
  · have h2 := hout a
    rw [hd] at h2
    exact h2 ha

/-! ### Length symbols -/

/-- A length symbol holds its base and its extra value as the match length (rules R121, R266). -/
theorem onInf_lengthSymbol (s : State) {sym : Nat} (e : Nat) (h1 : 257 ≤ sym) (h2 : sym ≤ 285) :
    s.onInf (settleBody (.ok (s.inf.lengthSymbol sym e))) = .next (s.withLength (lenBase sym + e)) := by
  have hsym : expandedSym sym e - Config.lenOffset = lenBase sym + e := by
    rw [expandedSym, if_neg (by omega), if_neg (by omega), if_neg (by omega)]
    omega
  rw [settleBody_of_ok, State.onInf_ok, Inflate.lengthSymbol, hsym, State.withLength]

/-- Settles O34: each length symbol is `lengthSymbol` of its row. -/
theorem matchLengths : Obligations.MatchLengths := by
  unfold Obligations.MatchLengths
  intro s a b c d e
  have key (sym x : Nat) (h : decide (257 ≤ sym) && decide (sym ≤ 285) = true) :
      s.onInf (settleBody (.ok (s.inf.lengthSymbol sym x))) = .next (s.withLength (lenBase sym + x)) := by
    simp only [Bool.and_eq_true, decide_eq_true_eq] at h
    exact onInf_lengthSymbol s x h.1 h.2
  exact ⟨key 257 0 rfl, key 258 0 rfl, key 259 0 rfl, key 260 0 rfl, key 261 0 rfl, key 262 0 rfl, key 263 0 rfl,
    key 264 0 rfl, key 265 _ rfl, key 266 _ rfl, key 267 _ rfl, key 268 _ rfl, key 269 _ rfl, key 270 _ rfl,
    key 271 _ rfl, key 272 _ rfl, key 273 _ rfl, key 274 _ rfl, key 275 _ rfl, key 276 _ rfl, key 277 _ rfl,
    key 278 _ rfl, key 279 _ rfl, key 280 _ rfl, key 281 _ rfl, key 282 _ rfl, key 283 _ rfl, key 284 _ rfl,
    key 285 0 rfl⟩

end Sys2Proof.Machine
end

section
/-! PROOFS. Matches and stored blocks: the bytes copied to `HIST` (rules R258, R266 to R270). -/

namespace Sys2Proof.Machine

theorem Inflate.sameButReader.hist {d d' : Inflate} (h : d.sameButReader d') :
    d'.histBuf = d.histBuf ∧ d'.writePos = d.writePos ∧ d'.outLimit = d.outLimit
      ∧ d'.repeatLength = d.repeatLength := by
  unfold Inflate.sameButReader at h
  rw [h]
  exact ⟨rfl, rfl, rfl, rfl⟩

/-! ### Distances -/

/-- The rows are the distance symbols below 30, each with its extra-bit count and its start (rule R123). -/
theorem distanceRows_eq : distanceRows =
    (List.range 30).filterMap fun s => (distanceInstr s).map fun i => (i, distExtraBits s, distStart s) := by decide

/-- A distance symbol below 30 is `distanceSymbol` of its number. -/
theorem exec_of_distanceInstr {sym : Nat} {i : Instr} (hsym : sym < 30) (h : distanceInstr sym = some i) (s : State) :
    exec i s = s.onInf (settleBody (s.inf.distanceSymbol sym)) := by
  interval_cases sym <;> cases h <;> rfl

theorem exec_of_distanceRow {i : Instr} {k start : Nat} (h : (i, k, start) ∈ distanceRows) :
    ∃ sym, sym < 30 ∧ distExtraBits sym = k ∧ distStart sym = start
      ∧ ∀ s, exec i s = s.onInf (settleBody (s.inf.distanceSymbol sym)) := by
  rw [distanceRows_eq, List.mem_filterMap] at h
  obtain ⟨sym, hsym, h⟩ := h
  obtain ⟨j, hj, he⟩ := Option.map_eq_some_iff.1 h
  cases he
  have hlt := List.mem_range.1 hsym
  exact ⟨sym, hlt, rfl, rfl, fun s => exec_of_distanceInstr hlt hj s⟩

theorem distExtraBits_le {sym : Nat} (h : sym < 30) : distExtraBits sym ≤ 13 := by
  unfold distExtraBits
  split <;> omega

theorem distStart_pos (sym : Nat) : 1 ≤ distStart sym := by
  unfold distStart
  split <;> omega

/-- What a distance symbol does with its distance (rules R268, R269). -/
def Inflate.distanceChecked (dist : Nat) (d : Inflate) : Parse Inflate :=
  if d.writePos < dist then .error (.raise .invalidLookBack d) else d.copyMatch dist

theorem Inflate.distanceSymbol_of_refill {d d0 : Inflate} (sym : Nat) (h0 : d.refill Config.refillMain = .ok d0) :
    d.distanceSymbol sym = if (d0.consume (distExtraBits sym)).underflowed then
        .error (.underflow (d0.consume (distExtraBits sym)))
      else Inflate.distanceChecked (distStart sym + d0.peek (distExtraBits sym)) (d0.consume (distExtraBits sym)) := by
  simp only [Inflate.distanceSymbol, h0, orFault_ok, except_ok_bind]
  rfl

/-- A distance symbol whose extra bits are at hand reads them, then checks the distance. -/
theorem Inflate.distanceSymbol_of_le_avail {d : Inflate} {sym : Nat} (hsym : sym < 30) (h : d.readerOk)
    (ha : distExtraBits sym ≤ d.avail) : ∃ e, Inflate.ReadBits (distExtraBits sym) d e
      ∧ d.distanceSymbol sym = Inflate.distanceChecked (distStart sym + d.streamNum % 2 ^ distExtraBits sym) e := by
  have hle := distExtraBits_le hsym
  obtain ⟨d0, hlook⟩ := Inflate.lookup (m := Config.refillMain) (by decide) h
  have h57 : distExtraBits sym ≤ Config.refillMain := hle.trans (by decide)
  obtain ⟨hu, hread⟩ := hlook.enough _ h57 ha
  refine ⟨_, hread, ?_⟩
  rw [Inflate.distanceSymbol_of_refill sym hlook.refill, if_neg (by rw [hu]; decide), Inflate.peek, hlook.shows _ h57]

/-- A distance symbol whose extra bits are not at hand underflows, and has only read. -/
theorem Inflate.distanceSymbol_of_avail_lt {d : Inflate} {sym : Nat} (hsym : sym < 30) (h : d.readerOk)
    (ha : d.avail < distExtraBits sym) : ∃ e, d.distanceSymbol sym = .error (.underflow e) ∧ d.Advanced e := by
  have hle := distExtraBits_le hsym
  obtain ⟨d0, hlook⟩ := Inflate.lookup (m := Config.refillMain) (by decide) h
  refine ⟨_, ?_, hlook.advanced.trans (d0.consume_advanced (distExtraBits sym))⟩
  rw [Inflate.distanceSymbol_of_refill sym hlook.refill, if_pos (hlook.short _ (hle.trans (by decide)) ha)]

/-- Settles O37: the extra bits are read first, the distance is checked before anything is copied. -/
theorem distanceStops : Obligations.DistanceStops := by
  unfold Obligations.DistanceStops
  intro s i k start hrow h hdr
  obtain ⟨sym, hsym, rfl, rfl, hexec⟩ := exec_of_distanceRow hrow
  refine ⟨fun ha herr hsnap => ?_, fun ha hfar => ?_⟩
  · obtain ⟨e, he, hadv⟩ := Inflate.distanceSymbol_of_avail_lt hsym h ha
    rw [hexec, he, settleBody_of_underflow, Inflate.bodyUnderflow_of_advanced hadv hsnap hdr herr, State.onInf_ok]
  · obtain ⟨d, hread, hd⟩ := Inflate.distanceSymbol_of_le_avail hsym h ha
    obtain ⟨-, hw, -, -⟩ := hread.same.hist
    refine ⟨d, hread, ?_⟩
    rw [hexec, hd, Inflate.distanceChecked, if_pos (by rw [hw]; exact hfar),
      settleBody_of_raise _ (hread.same.drained hdr), State.onInf_ok]

/-! ### The copy of a match -/

/-- Bytes copied from inside a readable stretch make it longer. -/
theorem readable_of_copied {m m0 : Memory} {a w n dist : Nat} (hd1 : 1 ≤ dist) (hd2 : a + dist ≤ w)
    (h0 : m0.readable a w) (hold : ∀ k, k < w → m.get? k = m0.get? k)
    (hnew : ∀ j, j < n → m.get? (w + j) = m.get? (w + j - dist)) : m.readable a (w + n) := by
  intro k
  induction k using Nat.strong_induction_on with
  | _ k ih =>
    intro h1 h2
    rcases Nat.lt_or_ge k w with hlt | hge
    · rw [hold k hlt]; exact h0 k h1 hlt
    · obtain ⟨j, rfl⟩ := Nat.exists_eq_add_of_le hge
      rw [hnew j (by omega)]
      exact ih (w + j - dist) (by omega) (by omega) (by omega)

theorem Inflate.copyMatch_of_fits {d : Inflate} {dist : Nat} (hd1 : 1 ≤ dist) (hd2 : dist ≤ d.writePos)
    (hfit : d.writePos + d.repeatLength ≤ d.outLimit) (hlim : d.outLimit ≤ Config.histBufSize)
    (hread : d.histBuf.readable (d.writePos - dist) d.writePos) :
    ∃ m : Memory, d.copyMatch dist = .ok { d with
        histBuf := m, writePos := d.writePos + d.repeatLength, stage := .parse }
      ∧ (∀ j, j < d.repeatLength → m.get? (d.writePos + j) = m.get? (d.writePos + j - dist))
      ∧ ∀ a, a < d.writePos ∨ d.writePos + d.repeatLength ≤ a → m.get? a = d.histBuf.get? a := by
  obtain ⟨m, hc, hnew, hold⟩ := Inflate.copyHistory_spec hd1 hd2 (n := d.repeatLength) (by omega) hread
  refine ⟨m, ?_, hnew, hold⟩
  simp only [Inflate.copyMatch, show min d.repeatLength (d.outLimit - d.writePos) = d.repeatLength by omega, hc,
    orFault_ok, except_ok_bind, Nat.lt_irrefl, if_false]

/-- The drain of an owed copy alone (rule R290). -/
theorem Inflate.drain_of_copy {d : Inflate} (hl : d.writeOverflowLen = 0) (hc : 0 < d.copyOverflowLength)
    (hd1 : 1 ≤ d.copyOverflowDistance) (hd2 : d.copyOverflowDistance ≤ d.writePos)
    (hroom : d.writePos + d.copyOverflowLength ≤ Config.histBufSize)
    (hread : d.histBuf.readable (d.writePos - d.copyOverflowDistance) d.writePos) :
    ∃ m : Memory, d.drain = .ok { d with
        histBuf := m, writePos := d.writePos + d.copyOverflowLength, copyOverflowLength := 0, copyOverflowDistance := 0 }
      ∧ (∀ j, j < d.copyOverflowLength → m.get? (d.writePos + j) = m.get? (d.writePos + j - d.copyOverflowDistance))
      ∧ ∀ a, a < d.writePos ∨ d.writePos + d.copyOverflowLength ≤ a → m.get? a = d.histBuf.get? a := by
  obtain ⟨m, h1, hnew, hold⟩ := Inflate.copyHistory_spec hd1 hd2 hroom hread
  refine ⟨m, ?_, hnew, hold⟩
  simp only [Inflate.drain, Inflate.drainLits, hl, Nat.lt_irrefl, if_false, except_ok_bind, Inflate.drainCopy, if_pos hc,
    h1]

/-- A match that does not fit is copied up to the limit, and its rest by the drain (rules R269, R290). -/
theorem Inflate.copyMatch_of_overflow {d : Inflate} {dist : Nat} (hd1 : 1 ≤ dist) (hd2 : dist ≤ d.writePos)
    (hlim : d.writePos ≤ d.outLimit) (hover : d.outLimit < d.writePos + d.repeatLength)
    (hroom : d.writePos + d.repeatLength ≤ Config.histBufSize) (hdr : d.drained)
    (hread : d.histBuf.readable (d.writePos - dist) d.writePos) :
    ∃ (e : Inflate) (m : Memory), d.copyMatch dist = .error (.overflow e)
      ∧ e.drain = .ok { d with
        histBuf := m, writePos := d.writePos + d.repeatLength, copyOverflowDistance := 0, stage := .parse }
      ∧ (∀ j, j < d.repeatLength → m.get? (d.writePos + j) = m.get? (d.writePos + j - dist))
      ∧ ∀ a, a < d.writePos ∨ d.writePos + d.repeatLength ≤ a → m.get? a = d.histBuf.get? a := by
  obtain ⟨n, hn⟩ : ∃ n, n = min d.repeatLength (d.outLimit - d.writePos) := ⟨_, rfl⟩
  obtain ⟨m1, hc, hnew1, hold1⟩ := Inflate.copyHistory_spec hd1 hd2 (n := n) (by omega) hread
  obtain ⟨e, he⟩ : ∃ e : Inflate, e = { d with
      histBuf := m1, writePos := d.writePos + n, copyOverflowLength := d.repeatLength - n, copyOverflowDistance := dist,
      stage := .parse } := ⟨_, rfl⟩
  have hread1 : m1.readable (d.writePos - dist) (d.writePos + n) :=
    readable_of_copied hd1 (by omega) hread (fun k hk => hold1 k (.inl hk)) hnew1
  obtain ⟨m, hdrain, hnew, hold⟩ := Inflate.drain_of_copy (d := e) (by rw [he]; exact hdr.1) (by rw [he]; simp only; omega)
    (by rw [he]; exact hd1) (by rw [he]; simp only; omega) (by rw [he]; simp only; omega)
    (by rw [he]; exact fun k h1 h2 => hread1 k (by simp only at h1; omega) h2)
  subst he
  simp only at hnew hold hdrain
  refine ⟨_, m, ?_, hdrain.trans ?_, fun j hj => ?_, fun a ha => ?_⟩
  · simp only [Inflate.copyMatch, ← hn, hc, orFault_ok, except_ok_bind, if_pos (show n < d.repeatLength by omega)]
  · rw [Nat.add_assoc, show n + (d.repeatLength - n) = d.repeatLength by omega, hdr.2]
  · rcases Nat.lt_or_ge j n with hlt | hge
    · rw [hold _ (.inl (by omega)), hold _ (.inl (by omega)), hnew1 j hlt]
    · obtain ⟨i, rfl⟩ := Nat.exists_eq_add_of_le hge
      have := hnew i (by omega)
      rwa [Nat.add_assoc] at this
  · rw [hold a (by omega), hold1 a (by omega)]

/-- Settles O35: the distance bits are read, then the copy is one `copyHistory`. -/
theorem matchCopies : Obligations.MatchCopies := by
  unfold Obligations.MatchCopies
  intro s i k start dist hrow h ha hdist hback hfit hlim hread
  obtain ⟨sym, hsym, rfl, rfl, hexec⟩ := exec_of_distanceRow hrow
  have hpos := distStart_pos sym
  obtain ⟨d, hbits, hd⟩ := Inflate.distanceSymbol_of_le_avail hsym h ha
  obtain ⟨e1, e2, e3, e4⟩ := hbits.same.hist
  obtain ⟨m, hm, hnew, hold⟩ := Inflate.copyMatch_of_fits (d := d) (dist := dist) (by omega) (by rw [e2]; exact hback)
    (by rw [e2, e3, e4]; exact hfit) (by rw [e3]; exact hlim) (by rw [e1, e2]; exact hread)
  rw [e1] at hold
  refine ⟨d, m, hbits, ?_, by rw [← e2, ← e4]; exact ⟨hnew, hold⟩⟩
  rw [← e2, ← e4, hexec, hd, ← hdist, Inflate.distanceChecked, if_neg (by omega), hm, settleBody_of_ok, State.onInf_ok]

/-- Settles O36: what the copy to the limit leaves owed, the drain copies. -/
theorem matchOverflow : Obligations.MatchOverflow := by
  unfold Obligations.MatchOverflow
  intro s i k start dist hrow h hdr herr ha hdist hback hlim hover hroom hread
  obtain ⟨sym, hsym, rfl, rfl, hexec⟩ := exec_of_distanceRow hrow
  have hpos := distStart_pos sym
  obtain ⟨d, hbits, hd⟩ := Inflate.distanceSymbol_of_le_avail hsym h ha
  obtain ⟨e1, e2, e3, e4⟩ := hbits.same.hist
  obtain ⟨e, m, hm, hdrain, hnew, hold⟩ := Inflate.copyMatch_of_overflow (d := d) (dist := dist) (by omega)
    (by rw [e2]; exact hback) (by rw [e2, e3]; exact hlim) (by rw [e2, e3, e4]; exact hover)
    (by rw [e2, e4]; exact hroom) (hbits.same.drained hdr) (by rw [e1, e2]; exact hread)
  rw [e1] at hold
  refine ⟨d, m, hbits, ?_, by rw [← e2, ← e4]; exact ⟨hnew, hold⟩⟩
  rw [← e2, ← e4, hexec, hd, ← hdist, Inflate.distanceChecked, if_neg (by omega), hm]
  show s.onInf (e.endDecode .outputOverflow) = _
  rw [Inflate.endDecode_of_drain _ hdrain (by exact hbits.same.inErr.trans herr), State.onInf_ok]
  rfl

/-! ### Stored blocks -/

/-- A byte of a number is a byte of its low bits. -/
theorem byte_of_mod {x y j : Nat} (h : x % 2 ^ (8 * (j + 1)) = y % 2 ^ (8 * (j + 1))) :
    BitVec.ofNat 8 (x / 2 ^ (8 * j)) = BitVec.ofNat 8 (y / 2 ^ (8 * j)) := by
  apply BitVec.eq_of_toNat_eq
  rw [BitVec.toNat_ofNat, BitVec.toNat_ofNat, ← Nat.mod_mul_right_div_self, ← Nat.mod_mul_right_div_self, ← pow_add,
    show 8 * j + 8 = 8 * (j + 1) by ring, h]

/-- A byte of the little-endian value of a byte string. -/
theorem byte_of_leValue {bs : List Byte} {j : Nat} (h : j < bs.length) :
    BitVec.ofNat 8 (leValue bs / 2 ^ (8 * j)) = bs[j] := by
  have := leBytes_getElem bs.length (leValue bs) j (by simpa using h)
  rw [← this]
  congr 1
  exact leBytes_leValue bs

theorem Inflate.consume_zero (d : Inflate) : d.consume 0 = d := by
  cases d
  simp [Inflate.consume]

theorem Inflate.consume_consume (d : Inflate) (j k : Nat) : (d.consume j).consume k = d.consume (j + k) := by
  unfold Inflate.consume
  congr 1
  · rw [BitVec.shiftRight_add]
  · push_cast; ring

/-- The first loop of the stored copy (rule R258): whole bytes of the bit buffer, as many as block and output allow. -/
theorem Inflate.storedFromBits_spec {n : Nat} {d : Inflate} {c : Nat} (hn : n = d.litBlockLength) (h0 : 0 ≤ d.bitsLen)
    (hw : d.writePos ≤ d.outLimit) (hlim : d.outLimit ≤ Config.histBufSize)
    (hc : c = min n (min (d.bitsLen.toNat / 8) (d.outLimit - d.writePos))) :
    ∃ m : Memory, Inflate.storedFromBits n d = .ok { d.consume (8 * c) with
        histBuf := m, writePos := d.writePos + c, litBlockLength := d.litBlockLength - c }
      ∧ (∀ j, j < c → m.get? (d.writePos + j) = some (BitVec.ofNat 8 (d.bits.toNat / 2 ^ (8 * j))))
      ∧ ∀ a, a < d.writePos ∨ d.writePos + c ≤ a → m.get? a = d.histBuf.get? a := by
  have hstop (hc0 : c = 0) : (.ok d : Except Fault Inflate) = .ok { d.consume (8 * c) with
      histBuf := d.histBuf, writePos := d.writePos + c, litBlockLength := d.litBlockLength - c } := by
    rw [hc0, Nat.mul_zero, Inflate.consume_zero]; rfl
  induction n generalizing d c with
  | zero =>
    obtain rfl : c = 0 := by omega
    exact ⟨d.histBuf, hstop rfl, fun j hj => by omega, fun a _ => rfl⟩
  | succ n ih =>
    unfold Inflate.storedFromBits
    split
    case isFalse hno =>
      obtain rfl : c = 0 := by omega
      exact ⟨d.histBuf, hstop rfl, fun j hj => by omega, fun a _ => rfl⟩
    case isTrue hgo =>
      obtain ⟨hl, h8, hroom⟩ := hgo
      obtain ⟨c, rfl⟩ : ∃ c', c = c' + 1 := ⟨c - 1, by omega⟩
      obtain ⟨d1, hd1⟩ : ∃ d1 : Inflate, d1 = { d.consume 8 with
          histBuf := d.histBuf.put d.writePos (BitVec.ofNat 8 d.bits.toNat), writePos := d.writePos + 1,
          litBlockLength := d.litBlockLength - 1 } := ⟨_, rfl⟩
      have f1 : d1.bitsLen = d.bitsLen - 8 := by rw [hd1]; rfl
      have f2 : d1.writePos = d.writePos + 1 := by rw [hd1]
      have f3 : d1.outLimit = d.outLimit := by rw [hd1]; rfl
      have f4 : d1.litBlockLength = d.litBlockLength - 1 := by rw [hd1]
      have f5 : d1.bits.toNat = d.bits.toNat / 2 ^ 8 := by
        rw [hd1]; exact (BitVec.toNat_ushiftRight ..).trans (Nat.shiftRight_eq_div_pow ..)
      obtain ⟨m, hm, hin, hout⟩ := ih (d := d1) (c := c) (by omega) (by omega) (by omega) (by omega) (by omega)
        (fun hc0 => by rw [hc0, Nat.mul_zero, Inflate.consume_zero]; rfl)
      refine ⟨m, ?_, fun j hj => ?_, fun a ha => ?_⟩
      · rw [Inflate.storeByte_ok.2 ⟨by omega, rfl⟩, except_ok_bind]
        refine (show _ = Inflate.storedFromBits n d1 by rw [hd1]; rfl).trans (hm.trans ?_)
        rw [f2, f4, Nat.add_assoc, Nat.add_comm 1, Nat.sub_sub, Nat.add_comm 1, Nat.mul_succ, Nat.add_comm (8 * c),
          ← Inflate.consume_consume]
        subst hd1
        rfl
      · cases j with
        | zero =>
          rw [Nat.add_zero, hout _ (.inl (by omega)), hd1]
          simp
        | succ j =>
          have := hin j (by omega)
          rwa [f2, f5, ← div_pow_add, Nat.add_assoc, Nat.add_comm 1 j, show 8 + 8 * j = 8 * (j + 1) by ring] at this
      · rw [hout a (by omega), hd1]
        exact Cells.get_put_other _ _ (by omega)

/-- Skipping whole bytes of the slice behind an empty bit buffer reads their bits. -/
theorem Inflate.skipBytes_readBits {d : Inflate} {n : Nat} (h : d.readerOk) (hr : d.retry = false) (hb : d.bitsLen = 0)
    (hn : n ≤ d.inLen - d.inPos) :
    Inflate.ReadBits (8 * n) d { d with inPos := d.inPos + n, totalIn := d.totalIn + n } := by
  obtain ⟨hbuf, hpos, hread, hhdr⟩ := h
  have hbits : d.bits.toNat = 0 := by
    have := hbuf.2.2
    rw [hb] at this
    simpa using this
  simp only [Inflate.srcPos, Inflate.srcLen, Inflate.srcMem, hr, Bool.false_eq_true, if_false] at hpos hread
  refine ⟨⟨hbuf, ?_, ?_, hhdr⟩, ?_, ?_, ?_, rfl⟩
  · simp only [Inflate.srcPos, Inflate.srcLen, hr, Bool.false_eq_true, if_false]; omega
  · simp only [Inflate.srcPos, Inflate.srcLen, Inflate.srcMem, hr, Bool.false_eq_true, if_false]
    exact fun k h1 h2 => hread k (by omega) h2
  · simp only [Inflate.avail, Inflate.srcPos, Inflate.srcLen, hr, Bool.false_eq_true, if_false]; omega
  · simp only [Inflate.streamNum, Inflate.srcPos, Inflate.srcLen, Inflate.srcMem, hr, Bool.false_eq_true, if_false, hb,
      hbits, Int.toNat_zero, pow_zero, Nat.one_mul, Nat.zero_add]
    have hlt := leValue_lt (d.inBuf.window d.inPos n)
    rw [Cells.window_length] at hlt
    rw [show d.inLen - d.inPos = n + (d.inLen - (d.inPos + n)) by omega, Cells.window_append, leValue_append,
      Cells.window_length, Nat.add_mul_div_left _ _ (by positivity), Nat.div_eq_of_lt hlt, Nat.zero_add]
  · simp only; push_cast; ring

/-- The direct copy of a stored block (rule R258), an empty bit buffer before it. -/
theorem Inflate.storedFromSlice_spec {d : Inflate} {n : Nat} (h : d.readerOk) (hr : d.retry = false)
    (hl : 0 < d.litBlockLength) (hb : d.bitsLen = 0) (hlim : d.outLimit ≤ Config.histBufSize)
    (hw : d.writePos ≤ d.outLimit) (hn : n = min d.litBlockLength (min (d.inLen - d.inPos) (d.outLimit - d.writePos))) :
    ∃ m : Memory, d.storedFromSlice = .ok { d with
        histBuf := m, inPos := d.inPos + n, totalIn := d.totalIn + n, writePos := d.writePos + n,
        litBlockLength := d.litBlockLength - n }
      ∧ (∀ j, j < n → m.get? (d.writePos + j) = some (BitVec.ofNat 8 (d.streamNum / 2 ^ (8 * j))))
      ∧ ∀ a, a < d.writePos ∨ d.writePos + n ≤ a → m.get? a = d.histBuf.get? a := by
  obtain ⟨hbuf, hpos, hread, hhdr⟩ := h
  have hbits : d.bits.toNat = 0 := by
    have := hbuf.2.2
    rw [hb] at this
    simpa using this
  simp only [Inflate.srcPos, Inflate.srcLen, Inflate.srcMem, hr, Bool.false_eq_true, if_false] at hpos hread
  have hrb : readBytes .inp d.inLen d.inBuf d.inPos n = .ok (d.inBuf.window d.inPos n) :=
    readBytes_readable (by omega) fun k h1 h2 => hread k h1 (by omega)
  obtain ⟨m, hm, hin, hout⟩ := writeBytes_spec .hist Config.histBufSize d.histBuf d.writePos (d.inBuf.window d.inPos n)
    (.inr (by rw [Cells.window_length]; omega))
  simp only [Cells.window_length] at hin hout
  have hst : d.streamNum = leValue (d.inBuf.window d.inPos (d.inLen - d.inPos)) := by
    simp [Inflate.streamNum, Inflate.srcPos, Inflate.srcLen, Inflate.srcMem, hr, hb, hbits]
  refine ⟨m, ?_, fun j hj => ?_, hout⟩
  · simp only [Inflate.storedFromSlice, if_pos (And.intro hl hb), ← hn, hrb, except_ok_bind, hm]
  · rw [hin j hj, hst, byte_of_leValue (by rw [Cells.window_length]; omega)]
    simp only [Cells.window, tabulateFrom_getElem]

theorem Inflate.storedFromSlice_of_not {d : Inflate} (h : ¬ (0 < d.litBlockLength ∧ d.bitsLen = 0)) :
    d.storedFromSlice = .ok d := by
  simp only [Inflate.storedFromSlice, if_neg h]

/-- Both loops of the stored copy (rule R258): the next stream bytes, as many as block, input and output allow. -/
theorem Inflate.storedCopy_spec {d : Inflate} {n : Nat} (h : d.readerOk) (hr : d.retry = false)
    (hal : d.bitsLen % 8 = 0) (hw : d.writePos ≤ d.outLimit) (hlim : d.outLimit ≤ Config.histBufSize)
    (hn : n = min d.litBlockLength (min (d.avail / 8) (d.outLimit - d.writePos))) :
    ∃ (e d1 : Inflate) (m : Memory), Inflate.storedFromBits d.litBlockLength d = .ok d1
      ∧ d1.storedFromSlice = .ok { e with
        histBuf := m, writePos := d.writePos + n, litBlockLength := d.litBlockLength - n }
      ∧ Inflate.ReadBits (8 * n) d e
      ∧ (∀ j, j < n → m.get? (d.writePos + j) = some (BitVec.ofNat 8 (d.streamNum / 2 ^ (8 * j))))
      ∧ ∀ a, a < d.writePos ∨ d.writePos + n ≤ a → m.get? a = d.histBuf.get? a := by
  have h0 := h.1.1
  obtain ⟨c, hc⟩ : ∃ c, c = min d.litBlockLength (min (d.bitsLen.toNat / 8) (d.outLimit - d.writePos)) := ⟨_, rfl⟩
  obtain ⟨m1, hm1, hin1, hout1⟩ := Inflate.storedFromBits_spec rfl h0 hw hlim hc
  have hread1 : Inflate.ReadBits (8 * c) d (d.consume (8 * c)) := Inflate.consume_readBits h (by omega)
  have hav : d.avail = d.bitsLen.toNat + 8 * (d.inLen - d.inPos) := by
    simp [Inflate.avail, Inflate.srcLen, Inflate.srcPos, hr]
  have hbyte : ∀ j, j < c → BitVec.ofNat 8 (d.bits.toNat / 2 ^ (8 * j)) = BitVec.ofNat 8 (d.streamNum / 2 ^ (8 * j)) :=
    fun j hj => byte_of_mod (Inflate.streamNum_mod (.inl (by omega))).symm
  by_cases hgo : 0 < d.litBlockLength - c ∧ d.bitsLen - (8 * c : Nat) = 0
  case neg =>
    obtain rfl : n = c := by omega
    refine ⟨d.consume (8 * n), _, m1, hm1, Inflate.storedFromSlice_of_not hgo, hread1, fun j hj => ?_, hout1⟩
    rw [hin1 j hj, hbyte j hj]
  case pos =>
    obtain ⟨k, hk⟩ : ∃ k, k = min (d.litBlockLength - c) (min (d.inLen - d.inPos) (d.outLimit - (d.writePos + c))) :=
      ⟨_, rfl⟩
    obtain rfl : n = c + k := by omega
    obtain ⟨d1, hd1⟩ : ∃ d1 : Inflate, d1 = { d.consume (8 * c) with
        histBuf := m1, writePos := d.writePos + c, litBlockLength := d.litBlockLength - c } := ⟨_, rfl⟩
    have hok1 : d1.readerOk := by rw [hd1]; exact hread1.ok
    have hst1 : d1.streamNum = d.streamNum / 2 ^ (8 * c) := by rw [hd1]; exact hread1.rest
    obtain ⟨m, hm, hin, hout⟩ := Inflate.storedFromSlice_spec (d := d1) (n := k) hok1 (by rw [hd1]; exact hr)
      (by rw [hd1]; exact hgo.1) (by rw [hd1]; exact hgo.2) (by rw [hd1]; exact hlim)
      (by rw [hd1]; show d.writePos + c ≤ d.outLimit; omega) (by rw [hd1]; exact hk)
    have hread2 := Inflate.skipBytes_readBits (n := k) hread1.ok hr hgo.2
      (by rw [Inflate.consume_inLen, Inflate.consume_inPos]; omega)
    rw [hst1] at hin
    have hread := hread1.trans hread2
    rw [← Nat.mul_add] at hread
    refine ⟨{ d.consume (8 * c) with inPos := d.inPos + k, totalIn := d.totalIn + k }, d1, m, by rw [hm1, hd1],
      hm.trans ?_, hread, fun j hj => ?_, fun a ha => ?_⟩
    · subst hd1
      simp only [Nat.add_assoc, Nat.sub_sub]
      rfl
    · have hw1 : d1.writePos = d.writePos + c := by rw [hd1]
      rcases Nat.lt_or_ge j c with hlt | hge
      · rw [hout _ (.inl (by omega)), hd1, hin1 j hlt, hbyte j hlt]
      · obtain ⟨i, rfl⟩ := Nat.exists_eq_add_of_le hge
        have := hin i (by omega)
        rwa [← div_pow_add, ← Nat.mul_add, hw1, Nat.add_assoc] at this
    · have hw1 : d1.writePos = d.writePos + c := by rw [hd1]
      rw [hout a (by omega), hd1, hout1 a (by omega)]

/-- What the stored copy makes of the state its two loops leave (rule R258). -/
def Inflate.storedEnds (d : Inflate) : Parse Inflate :=
  if d.litBlockLength = 0 then .ok d.endBlock
  else if d.outLimit ≤ d.writePos then .error (.overflow d)
  else .error (.endInput d)

theorem Inflate.copyStored_of_loops {d d1 d2 : Inflate} (h1 : Inflate.storedFromBits d.litBlockLength d = .ok d1)
    (h2 : d1.storedFromSlice = .ok d2) : d.copyStored = d2.storedEnds := by
  simp only [Inflate.copyStored, h1, orFault_ok, except_ok_bind, h2]
  rfl

theorem fetchElement_of_litBlock {p : Config.Params} {d : Inflate} (hs : d.stage = .parse) (hp : d.phase = .litBlock) :
    fetchElement p d = insideBy (settleBody d.copyStored) := by
  simp only [fetchElement, hs, hp]

/-- Settles O38: the two loops copy the bytes; what is left of the block, and the room, choose the end. -/
theorem storedCopy : Obligations.StoredCopy := by
  unfold Obligations.StoredCopy
  intro s n hs hp hr h hdr herr hal hw hlim hn
  obtain ⟨d, d1, m, h1, h2, hread, hin, hout⟩ := Inflate.storedCopy_spec h hr hal hw hlim hn
  have hstep {t : Inflate} (ht : settleBody s.inf.copyStored = .ok t) : step s = .next { s with inf := t } := by
    refine step_of_inside (by rw [hs]; decide) ?_
    rw [fetchElement_of_litBlock hs hp, ht]
    rfl
  rw [Inflate.copyStored_of_loops h1 h2] at hstep
  obtain ⟨-, -, hout', -⟩ := hread.same.hist
  have hdr' := hread.same.drained hdr
  have herr' := hread.same.inErr.trans herr
  have hbf : d.bfinal = s.inf.bfinal := by
    have hsame := hread.same
    unfold Inflate.sameButReader at hsame
    rw [hsame]
  refine ⟨d, m, hread, hin, hout, fun hend => hstep ?_, fun hpart hfull => hstep ?_, fun hpart hroom => hstep ?_⟩
  · rw [Inflate.storedEnds, if_pos (by simp only; omega), settleBody_of_ok, Inflate.endBlock,
      show s.inf.litBlockLength - n = 0 by omega]
    simp only [hbf]
  · rw [Inflate.storedEnds, if_neg (by simp only; omega), if_pos (by simp only; omega)]
    exact Inflate.endDecode_of_drained _ hdr' herr'
  · rw [Inflate.storedEnds, if_neg (by simp only; omega), if_neg (by simp only; omega)]
    exact Inflate.endDecode_of_drained _ hdr' herr'

end Sys2Proof.Machine
end

section
/-! PROOFS. The commands' resets and refusals, the fold, the state after reset, and what a step runs. -/

namespace Sys2Proof.Machine

/-! ### The step -/

theorem step_of_token {s : State} {t : Word} {d : Deflate} (h1 : s.inf.stage = .idle) (h2 : s.df.stage = .tokens)
    (h3 : s.df.tokNext < s.df.tokCount) (h4 : s.df.fetchToken = .ok (t, d)) :
    step s = runWord ⟨.token, t.toNat, {}⟩ { s with df := d } := by
  have hs : s.df.stage ≠ .idle := by rw [h2]; decide
  simp only [step, h1, ne_eq, not_true, if_false, if_pos hs, stepToken, if_pos h3, h4]

theorem step_of_commands {s : State} (h1 : s.inf.stage = .idle) (h2 : s.df.stage = .idle) : step s = stepCommand s := by
  simp only [step, h1, h2, ne_eq, not_true, if_false]

theorem runWord_of_decode {c : Code} {i : Instr} (h : decode c = .ok i) (s : State) : runWord c s = exec i s := by
  simp only [runWord, h]

/-- Settles O6: each of the three kinds of step is `runWord` of the word it fetches. -/
theorem stepRunsInstruction : Obligations.StepRunsInstruction := by
  unfold Obligations.StepRunsInstruction
  refine ⟨fun s c d i hs hf hd => ?element, fun s t d i h1 h2 h3 h4 hd => ?token, fun s c cs i h1 h2 hc hd => ?command,
    fun s h1 h2 hc => ?idle⟩
  case element => rw [step_of_word hs hf, runWord_of_decode hd]
  case token => rw [step_of_token h1 h2 h3 h4, runWord_of_decode hd]
  case command => rw [step_of_commands h1 h2, stepCommand, hc]; exact runWord_of_decode hd _
  case idle => rw [step_of_commands h1 h2, stepCommand, hc]

/-! ### IN_RESET, IN_STEP refused, the fold -/

theorem exec_inReset (s : State) : exec .inReset s = .next { s with inf := s.inf.clear.returns .ok 0 [] } := rfl

/-- Settles O40: `clear` writes the registers of rule R60, `returns` the return. -/
theorem inResetClears : Obligations.InResetClears := by
  unfold Obligations.InResetClears
  exact fun s => ⟨s.inf.clear.returns .ok 0 [], exec_inReset s, rfl⟩

theorem exec_inStep_of_inErr {s : State} {kind : ErrKind} {off : Nat} (slice : List Byte)
    (h : s.inf.inErr = some (kind, off)) :
    exec (.inStep slice) s = .next { s with inf := s.inf.returns (.corruptInput off) 0 [] } := by
  show execInStep slice s = _
  simp only [execInStep, h]

theorem exec_inStep_of_refused {s : State} {slice : List Byte} (h : s.inf.inErr = none)
    (hr : s.inf.stepRefused s.params slice.length = true) :
    exec (.inStep slice) s = .next { s with inf := s.inf.returns .refused 0 [] } := by
  show execInStep slice s = _
  simp only [execInStep, h, hr, if_true]

/-- What refuses an IN_STEP (rule R289, 93 U10). -/
theorem Inflate.stepRefused_iff (p : Config.Params) (d : Inflate) (n : Nat) : d.stepRefused p n = true ↔
    d.readPos ≠ d.writePos ∨ n < (d.bitsLen / 8).toNat ∨ p.sliceMax < n := by
  rw [Inflate.stepRefused, Bool.or_eq_true, Bool.or_eq_true, decide_eq_true_eq, decide_eq_true_eq, decide_eq_true_eq,
    Inflate.skip, or_assoc]

/-- Settles O43: the latched error is looked at first, then the preconditions. -/
theorem stepRefuses : Obligations.StepRefuses := by
  unfold Obligations.StepRefuses
  exact fun s slice => ⟨fun kind off h => exec_inStep_of_inErr slice h,
    fun h hr => exec_inStep_of_refused h ((Inflate.stepRefused_iff ..).2 hr)⟩

/-- The fold of a history that can be read (rule R286). -/
theorem Inflate.foldIfDue_of_due {d : Inflate} (h : 2 * Config.historySize ≤ d.writePos)
    (hw : d.writePos ≤ Config.histBufSize) (hread : d.histBuf.readable (d.writePos - Config.historySize) d.writePos) :
    ∃ m : Memory, d.foldIfDue = .ok { d with
        histBuf := m, readPos := Config.historySize, writePos := Config.historySize }
      ∧ (∀ j, j < Config.historySize → m.get? j = d.histBuf.get? (d.writePos - Config.historySize + j))
      ∧ ∀ a, Config.historySize ≤ a → m.get? a = d.histBuf.get? a := by
  obtain ⟨m, hm, -, hin, hout⟩ := copyAscending_spec .hist Config.histBufSize d.histBuf (d.writePos - Config.historySize) 0
    Config.historySize (.inr (by omega)) (fun k h1 h2 _ => hread k h1 (by omega))
    (.inr (.inr ⟨by omega, fun k h1 h2 => hread k h1 (by omega)⟩))
  refine ⟨m, ?_, fun j hj => ?_, fun a ha => hout a (.inr (by omega))⟩
  · simp only [Inflate.foldIfDue, if_pos h, Inflate.fold, hm, except_ok_bind]
  · have := hin (by omega) j hj
    rwa [Nat.zero_add] at this

theorem Inflate.foldIfDue_of_not_due {d : Inflate} (h : d.writePos < 2 * Config.historySize) : d.foldIfDue = .ok d := by
  simp only [Inflate.foldIfDue, if_neg (Nat.not_le.2 h)]

/-- Settles O45: the fold is one copy to lower addresses. -/
theorem foldKeepsHistory : Obligations.FoldKeepsHistory := by
  unfold Obligations.FoldKeepsHistory
  exact fun d h hw hread => Inflate.foldIfDue_of_due h hw hread

/-! ### DF_RESET, and commands that do nothing -/

/-- `hashMask` as rules R40 and R329 give it. -/
theorem hashMaskOf_eq (p : Config.Params) (level : Int) (window : Nat) : hashMaskOf p level window =
    if level = -2 then 0
    else if window = 4096 then 2 ^ (if level = 1 then p.hashBits4k1 else p.hashBits4k2) - 1
    else if level = 1 then 0x0FFF else 0x7FFF := by
  simp only [hashMaskOf, mask, hashBits, Config.window4k]
  split
  · rfl
  · split
    · rfl
    · split <;> rfl

theorem resetAccepted_iff (level : Int) (window : Nat) : resetAccepted level window = true ↔
    (level = -2 ∨ level = 1 ∨ level = 2) ∧ (window = 32768 ∨ window = 4096) := by
  simp only [resetAccepted, Bool.and_eq_true, Bool.or_eq_true, beq_iff_eq, Config.windowFull, Config.window4k, or_assoc]

/-- Settles O50: DF_RESET clears or refuses by `resetAccepted`. -/
theorem dfResetClears : Obligations.DfResetClears := by
  unfold Obligations.DfResetClears
  intro s level window hashMask hmask
  rw [← hashMaskOf_eq] at hmask
  refine ⟨fun hl hw => ?_, fun hno => ?_⟩
  · show execDfReset level window s = _
    rw [execDfReset, if_pos ((resetAccepted_iff ..).2 ⟨hl, hw⟩), hmask]
    rfl
  · show execDfReset level window s = _
    rw [execDfReset, if_neg (mt (resetAccepted_iff ..).1 hno)]
    rfl

/-- What is barred answers its status and does nothing (rules R381, R388, R389). -/
theorem exec_of_barred {s : State} {i : Instr} {st : Status} (hi : (∃ data, i = .dfWrite data) ∨ i = .dfFlush ∨ i = .dfClose)
    (h : s.df.barred = some st) : exec i s = .next { s with df := s.df.returns st 0 } := by
  obtain ⟨data, rfl⟩ | rfl | rfl := hi
  · show execDfWrite data s = _
    simp only [execDfWrite, h]
  · show execDfFlush s = _
    simp only [execDfFlush, h]
  · show execDfClose s = _
    simp only [execDfClose, h]

theorem Deflate.barred_of_outErr {d : Deflate} {e : Nat} (h : d.outErr = some e) : d.barred = some (.sinkError e) := by
  simp only [Deflate.barred, h]

theorem Deflate.barred_of_closed {d : Deflate} (h : d.outErr = none) (hc : d.closed = true) : d.barred = some .ok := by
  simp only [Deflate.barred, h, hc, if_true]

theorem Deflate.barred_of_open {d : Deflate} (h : d.outErr = none) (hc : d.closed = false) : d.barred = none := by
  simp only [Deflate.barred, h, hc, Bool.false_eq_true, if_false]

/-- Settles O51: `barred` looks at the error first. -/
theorem closedOrFailedAnswers : Obligations.ClosedOrFailedAnswers := by
  unfold Obligations.ClosedOrFailedAnswers
  exact fun s i hi => ⟨fun e h => exec_of_barred hi (Deflate.barred_of_outErr h),
    fun h hc => exec_of_barred hi (Deflate.barred_of_closed h hc)⟩

/-! ### The state after reset -/

theorem bufferOk_zero : bufferOk 0 0 := ⟨le_refl _, by decide, by decide⟩

theorem readable_empty {w : Nat} (m : Cells w) : m.readable 0 0 := fun k _ h => absurd h (Nat.not_lt_zero k)

theorem Inflate.reset_sound : Inflate.reset.Sound where
  always := {
    buffer := bufferOk_zero
    cursors := ⟨le_refl _, Nat.zero_le _⟩
    history := readable_empty _
    drained := ⟨rfl, rfl⟩
    header := fun h => by rcases h with h | h <;> cases h
    held := Nat.zero_le _ }
  idle _ := ⟨rfl, rfl⟩
  decoding h := absurd rfl h
  parse h := by cases h
  clSeq h := by cases h
  dist h := by cases h
  aligned h := by cases h

theorem Deflate.reset_sound : Deflate.reset.Sound where
  stage := rfl
  acc := ⟨Nat.zero_le _, by decide, Nat.zero_le _, readable_empty _⟩
  room := by decide
  window := .inl rfl
  cursors := ⟨le_refl _, Nat.zero_le _⟩
  shiftable h := by cases h
  filled := readable_empty _
  tokens := ⟨Nat.zero_le _, readable_empty _⟩
  fresh _ := rfl
  kinds k h := absurd h (Nat.not_lt_zero k)

/-- A table with no entry answers every lookup alike. -/
theorem SmallTable.find_empty (x : Nat) : SmallTable.empty.find x = ⟨0, 0⟩ := by
  simp [SmallTable.find, SmallTable.empty, field]
theorem LargeTable.find_empty (x : Nat) : LargeTable.empty.find x = ⟨0, 0, 0⟩ := by
  simp [LargeTable.find, LargeTable.empty, field]

theorem Inflate.reset_tablesOk : Inflate.reset.TablesOk where
  lens := List.forall_mem_nil _
  clc h := by cases h
  litLen x := by
    show LargeTable.empty.find x = LargeTable.empty.find _ ∧ (LargeTable.empty.find x).bitCount ≤ 57
    rw [LargeTable.find_empty, LargeTable.find_empty]
    exact ⟨rfl, Nat.zero_le _⟩
  dist x := by
    show SmallTable.empty.find x = SmallTable.empty.find _ ∧ (SmallTable.empty.find x).len ≤ 57
    rw [SmallTable.find_empty, SmallTable.find_empty]
    exact ⟨rfl, Nat.zero_le _⟩

/-- Settles O60: both sides at reset are empty and at rest. -/
theorem resetIsSound : Obligations.ResetIsSound :=
  ⟨Inflate.reset_sound, Deflate.reset_sound, State.reset_memoriesWf, rfl, rfl, rfl, rfl, rfl, bufferOk_zero,
    Inflate.reset_tablesOk⟩

end Sys2Proof.Machine
end

section
/-! PROOFS. What each stream element does, in one list of thirteen shapes; the two sides do not meet (rules R87, R422). -/

namespace Sys2Proof.Machine

/-! ### The meanings of the stream elements -/

/-- The thirteen shapes a stream element's meaning has: its format, how the operation settles, and the operation. -/
inductive Meaning : Format → (Parse Inflate → Except Fault Inflate) → (Inflate → Parse Inflate) → Prop
  | stored (f : Bool) : Meaning .blkhdr settleHeader fun d => (d.setBlockFlags f 0b00).storedHeader
  | static (f : Bool) : Meaning .blkhdr settleHeader fun d => .ok (d.setBlockFlags f 0b01).staticHeader
  | dynamic (f : Bool) : Meaning .blkhdr settleHeader fun d => (d.setBlockFlags f 0b10).dynamicHeader
  | reservedBlock (f : Bool) :
      Meaning .blkhdr settleHeader fun d => .error (.raise .invalidBlock (d.setBlockFlags f 0b11))
  | clLen (l : BitVec 4) : Meaning .clsym settleHeader fun d => .ok (d.appendLens [l.toNat])
  | clCopyPrev : Meaning .clsym settleHeader Inflate.copyPrevLen
  | clZeros3To10 : Meaning .clsym settleHeader fun d => d.repeatLens 3 3 0
  | clZeros11To138 : Meaning .clsym settleHeader fun d => d.repeatLens 7 11 0
  | lit (b : Byte) : Meaning .llsym settleBody (Inflate.literal b)
  | eob : Meaning .llsym settleBody fun d => .ok { d.endBlock with stage := .parse }
  | length (sym e : Nat) : 257 ≤ sym → sym ≤ 285 → e < 2 ^ lenExtra sym →
      Meaning .llsym settleBody fun d => .ok (d.lengthSymbol sym e)
  | distance (sym : Nat) : sym < 30 → Meaning .dsym settleBody (Inflate.distanceSymbol sym)
  | reservedSymbol (fmt : Format) : fmt = .llsym ∨ fmt = .dsym →
      Meaning fmt settleBody fun d => .error (.raise .invalidSymbol d)

/-- The instruction's meaning is one of the thirteen, one of its format. -/
def HasMeaning (fmt : Format) (i : Instr) : Prop :=
  ∃ settle op, Meaning fmt settle op ∧ ∀ s, exec i s = s.onInf (settle (op s.inf)) ∧ runElement i s = exec i s

theorem hasMeaning_of_decodeBlkhdr {h : Nat} {i : Instr} (hd : decodeBlkhdr h = .ok i) : HasMeaning .blkhdr i := by
  unfold decodeBlkhdr at hd
  split at hd <;> cases hd
  · exact ⟨_, _, .stored _, fun s => ⟨rfl, rfl⟩⟩
  · exact ⟨_, _, .static _, fun s => ⟨rfl, rfl⟩⟩
  · exact ⟨_, _, .dynamic _, fun s => ⟨rfl, rfl⟩⟩
  · exact ⟨_, _, .reservedBlock _, fun s => ⟨rfl, rfl⟩⟩

theorem hasMeaning_of_decodeClsym {c : Nat} {i : Instr} (hd : decodeClsym c = .ok i) : HasMeaning .clsym i := by
  unfold decodeClsym at hd
  split at hd
  · cases hd; exact ⟨_, _, .clLen _, fun s => ⟨rfl, rfl⟩⟩
  · split at hd
    · cases hd; exact ⟨_, _, .clCopyPrev, fun s => ⟨rfl, rfl⟩⟩
    · cases hd; exact ⟨_, _, .clZeros3To10, fun s => ⟨rfl, rfl⟩⟩
    · cases hd; exact ⟨_, _, .clZeros11To138, fun s => ⟨rfl, rfl⟩⟩
    · split at hd <;> cases hd

/-- An extra value in a bit vector of the width its symbol's extra bits have is that value. -/
theorem toNat_ofNat_lenExtra {sym k e : Nat} (hk : lenExtra sym = k) (he : e < 2 ^ lenExtra sym) :
    (BitVec.ofNat k e).toNat = e := by
  rw [BitVec.toNat_ofNat, Nat.mod_eq_of_lt (hk ▸ he)]

/-- A length instruction, or a reserved symbol of the same alphabet. -/
theorem hasMeaning_of_lengthInstr {sym e : Nat} {i : Instr} (h : lengthInstr sym e = some i)
    (he : e < 2 ^ lenExtra sym) : HasMeaning .llsym i := by
  have hlen (h1 : 257 ≤ sym) (h2 : sym ≤ 285) (hx : ∀ s : State,
      exec i s = s.onInf (settleBody (.ok (s.inf.lengthSymbol sym e))) ∧ runElement i s = exec i s) :
      HasMeaning .llsym i :=
    ⟨_, _, .length sym e h1 h2 he, hx⟩
  unfold lengthInstr at h
  split at h <;> cases h
  case h_30 | h_31 => exact ⟨_, _, .reservedSymbol _ (.inl rfl), fun s => ⟨rfl, rfl⟩⟩
  case h_1 | h_2 | h_3 | h_4 | h_5 | h_6 | h_7 | h_8 | h_29 =>
    obtain rfl : e = 0 := Nat.lt_one_iff.1 he
    exact hlen (by decide) (by decide) fun s => ⟨rfl, rfl⟩
  all_goals
    refine hlen (by decide) (by decide) fun s => ⟨?_, rfl⟩
    conv_rhs => rw [← toNat_ofNat_lenExtra rfl he]
    rfl

theorem hasMeaning_of_decodeLlsym {w : Nat} {i : Instr} (hd : decodeLlsym w = .ok i) : HasMeaning .llsym i := by
  simp only [decodeLlsym] at hd
  split at hd
  · split at hd
    · cases hd
    · split at hd <;> cases hd
      · exact ⟨_, _, .lit _, fun s => ⟨rfl, rfl⟩⟩
      · exact ⟨_, _, .eob, fun s => ⟨rfl, rfl⟩⟩
  · split at hd
    · cases hd
    · split at hd
      case h_1 hi => cases hd; exact hasMeaning_of_lengthInstr hi (by omega)
      case h_2 => cases hd

/-- A distance instruction runs inside `Decode()` as `exec` runs it. -/
theorem runElement_of_distanceInstr {w : Nat} {i : Instr} (h : distanceInstr w = some i) (s : State) :
    runElement i s = exec i s := by
  unfold distanceInstr at h
  split at h <;> cases h <;> rfl

theorem hasMeaning_of_decodeDsym {w : Nat} {i : Instr} (hd : decodeDsym w = .ok i) : HasMeaning .dsym i := by
  unfold decodeDsym at hd
  split at hd
  case h_2 => cases hd
  case h_1 hi =>
    cases hd
    rcases Nat.lt_or_ge w 30 with hlt | hge
    · exact ⟨_, _, .distance w hlt, fun s => ⟨exec_of_distanceInstr hlt hi s, runElement_of_distanceInstr hi s⟩⟩
    · refine ⟨_, _, .reservedSymbol _ (.inr rfl), fun s => ⟨?_, runElement_of_distanceInstr hi s⟩⟩
      obtain ⟨k, rfl⟩ := Nat.exists_eq_add_of_le hge
      match k, hi with
      | 0, hi => cases hi; rfl
      | 1, hi => cases hi; rfl
      | k + 2, hi => rw [Nat.add_comm] at hi; cases hi

/-- The formats of the stream elements (rule R158). -/
def Format.isElement (f : Format) : Bool := f ≠ .token ∧ f ≠ .cmd

/-- A word of one of the four stream formats that decodes has one of the thirteen meanings. -/
theorem hasMeaning_of_decode {c : Code} {i : Instr} (hf : Format.isElement c.fmt = true) (hd : decode c = .ok i) :
    HasMeaning c.fmt i := by
  obtain ⟨fmt, w, a⟩ := c
  cases fmt with
  | blkhdr => exact hasMeaning_of_decodeBlkhdr hd
  | clsym => exact hasMeaning_of_decodeClsym hd
  | llsym => exact hasMeaning_of_decodeLlsym hd
  | dsym => exact hasMeaning_of_decodeDsym hd
  | token => cases hf
  | cmd => cases hf

/-- Every instruction whose word has a stream format has one of the thirteen meanings. -/
theorem hasMeaning_of_isElement {i : Instr} (h : Format.isElement (encode i).fmt = true) :
    HasMeaning (encode i).fmt i := by
  refine hasMeaning_of_decode h (decode_encode ?_)
  cases i with
  | tmatch l d x => cases h
  | _ => rfl

/-- An instruction of the inflate side is a stream element or one of the four inflate commands. -/
theorem inflateSide_cases {i : Instr} (h : onInflateSide i = true) : (∃ fmt, HasMeaning fmt i) ∨ i = .inReset
    ∨ (∃ slice, i = .inStep slice) ∨ (∃ n, i = .inRead n) ∨ i = .inClose := by
  by_cases he : Format.isElement (encode i).fmt = true
  · exact .inl ⟨_, hasMeaning_of_isElement he⟩
  · right
    cases i with
    | inReset => exact .inl rfl
    | inStep slice => exact .inr (.inl ⟨slice, rfl⟩)
    | inRead n => exact .inr (.inr (.inl ⟨n, rfl⟩))
    | inClose => exact .inr (.inr (.inr rfl))
    | tlit _ | teob | tmatch _ _ _ | dfReset _ _ | dfWrite _ | dfFlush | dfClose => cases h
    | _ => exact absurd rfl he

/-- An instruction of the deflate side is a token or one of the four deflate commands. -/
theorem deflateSide_cases {i : Instr} (h : onInflateSide i = false) :
    (∃ litlen dist extra, ∀ s, exec i s = s.onDf (s.df.encodeToken litlen dist extra))
      ∨ (∃ level window, i = .dfReset level window) ∨ (∃ data, i = .dfWrite data) ∨ i = .dfFlush ∨ i = .dfClose := by
  cases i with
  | tlit b => exact .inl ⟨_, _, _, fun s => rfl⟩
  | teob => exact .inl ⟨_, _, _, fun s => rfl⟩
  | tmatch l d x => exact .inl ⟨_, _, _, fun s => rfl⟩
  | dfReset level window => exact .inr (.inl ⟨level, window, rfl⟩)
  | dfWrite data => exact .inr (.inr (.inl ⟨data, rfl⟩))
  | dfFlush => exact .inr (.inr (.inr (.inl rfl)))
  | dfClose => exact .inr (.inr (.inr (.inr rfl)))
  | _ => cases h

/-! ### The inflate side by itself -/

/-- What the operation does is an outcome of the inflate side that parameters and inflate side determine. -/
def InfLocal (f : State → Host.Outcome State Fault Refusal) : Prop :=
  ∀ (p : Config.Params) (d : Inflate), ∃ r : Except Fault Inflate, ∀ s : State, s.params = p → s.inf = d → f s = s.onInf r

theorem HasMeaning.infLocal {fmt : Format} {i : Instr} (h : HasMeaning fmt i) : InfLocal (exec i) := by
  obtain ⟨settle, op, -, hx⟩ := h
  exact fun p d => ⟨settle (op d), fun s _ hd => by rw [(hx s).1, hd]⟩

theorem runElement_infLocal (i : Instr) : InfLocal (runElement i) := by
  by_cases he : Format.isElement (encode i).fmt = true
  · obtain ⟨settle, op, -, hx⟩ := hasMeaning_of_isElement he
    exact fun p d => ⟨settle (op d), fun s _ hd => by rw [(hx s).2, (hx s).1, hd]⟩
  · refine fun p d => ⟨.error .commandInsideCommand, fun s _ _ => ?_⟩
    cases i with
    | tlit _ | teob | tmatch _ _ _ | inReset | inStep _ | inRead _ | inClose | dfReset _ _ | dfWrite _ | dfFlush
    | dfClose => rfl
    | _ => exact absurd rfl he

theorem elementStep_infLocal : InfLocal elementStep := by
  intro p d
  cases hf : fetchElement p d with
  | error f => exact ⟨.error f, fun s hp hd => by simp only [elementStep, hp, hd, hf]; rfl⟩
  | ok g =>
    cases g with
    | inside e => exact ⟨.ok e, fun s hp hd => by subst hp hd; simp only [elementStep, hf]; rfl⟩
    | word c e =>
      cases hc : decode c with
      | error x => exact ⟨.error (.undecodable x), fun s hp hd => by simp only [elementStep, hp, hd, hf, hc]; rfl⟩
      | ok i =>
        obtain ⟨r, hr⟩ := runElement_infLocal i p e
        refine ⟨r, fun s hp hd => ?_⟩
        subst hp hd
        simp only [elementStep, hf, hc]
        exact hr { s with inf := e } rfl rfl

theorem decodeLoop_infLocal (n : Nat) : InfLocal (decodeLoop n) := by
  induction n with
  | zero =>
    intro p d
    by_cases hs : d.stage = .idle
    · exact ⟨.ok d, fun s _ hd => by subst hd; rw [decodeLoop, if_pos hs]; rfl⟩
    · exact ⟨.error .decodeBoundExceeded, fun s _ hd => by subst hd; rw [decodeLoop, if_neg hs]; rfl⟩
  | succ n ih =>
    intro p d
    by_cases hs : d.stage = .idle
    · exact ⟨.ok d, fun s _ hd => by subst hd; rw [decodeLoop, if_pos hs]; rfl⟩
    · obtain ⟨r, hr⟩ := elementStep_infLocal p d
      cases r with
      | error f => exact ⟨.error f, fun s hp hd => by rw [decodeLoop, if_neg (hd ▸ hs), hr s hp hd]; rfl⟩
      | ok e =>
        obtain ⟨r', hr'⟩ := ih p e
        refine ⟨r', fun s hp hd => ?_⟩
        rw [decodeLoop, if_neg (hd ▸ hs), hr s hp hd]
        exact hr' { s with inf := e } hp rfl

theorem execInStep_infLocal (slice : List Byte) : InfLocal (execInStep slice) := by
  intro p d
  cases he : d.inErr with
  | some k => exact ⟨.ok (d.returns (.corruptInput k.2) 0 []), fun s _ hd => by simp only [execInStep, hd, he]; rfl⟩
  | none =>
    by_cases hr : d.stepRefused p slice.length = true
    · exact ⟨.ok (d.returns .refused 0 []), fun s hp hd => by subst hp hd; simp only [execInStep, he, hr]; rfl⟩
    · cases hd0 : d.enterDecode slice with
      | error f => exact ⟨.error f, fun s hp hd => by simp only [execInStep, hd, he, hp, hr, hd0]; rfl⟩
      | ok e =>
        obtain ⟨r, hr'⟩ := decodeLoop_infLocal (decodeBound e) p e
        refine ⟨r, fun s hp hd => ?_⟩
        subst hp hd
        simp only [execInStep, he, hr, hd0]
        exact hr' { s with inf := e } rfl rfl

/-- No instruction of the inflate side looks beyond it. -/
theorem exec_infLocal {i : Instr} (h : onInflateSide i = true) : InfLocal (exec i) := by
  obtain ⟨fmt, hm⟩ | rfl | ⟨slice, rfl⟩ | ⟨n, rfl⟩ | rfl := inflateSide_cases h
  · exact hm.infLocal
  · exact fun p d => ⟨.ok (d.clear.returns .ok 0 []), fun s _ hd => by rw [exec_inReset, hd]; rfl⟩
  · exact execInStep_infLocal slice
  · exact fun p d => ⟨d.read n, fun s _ hd => by rw [exec_inRead, hd]⟩
  · exact fun p d => ⟨.ok (d.returns .ok 0 []), fun s _ hd => by rw [exec_inClose, hd]; rfl⟩

/-! ### The deflate side by itself -/

/-- What the operation of the driver does is what parameters and deflate side determine, and done to the deflate side. -/
def DfLocal (f : State → Drive State) : Prop :=
  ∀ (p : Config.Params) (d : Deflate), ∃ r : Emit Deflate, ∀ s : State, s.params = p → s.df = d → f s = s.drive r

theorem DfLocal.drive (g : Config.Params → Deflate → Emit Deflate) : DfLocal fun s => s.drive (g s.params s.df) :=
  fun p d => ⟨g p d, fun s hp hd => by subst hp hd; rfl⟩

theorem DfLocal.pure (g : Deflate → Deflate) : DfLocal fun s => .ok { s with df := g s.df } :=
  fun _ d => ⟨.ok (g d), fun s _ hd => by subst hd; rfl⟩

theorem DfLocal.bind {f g : State → Drive State} (hf : DfLocal f) (hg : DfLocal g) : DfLocal fun s => f s >>= g := by
  intro p d
  obtain ⟨r, hr⟩ := hf p d
  cases r with
  | error e => exact ⟨.error e, fun s hp hd => by simp only [hr s hp hd]; cases e <;> rfl⟩
  | ok e =>
    obtain ⟨r', hr'⟩ := hg p e
    exact ⟨r', fun s hp hd => by simp only [hr s hp hd]; exact hr' { s with df := e } hp rfl⟩

/-- A choice that parameters and deflate side determine. -/
theorem DfLocal.ite {f g : State → Drive State} (c : Config.Params → Deflate → Prop) [∀ p d, Decidable (c p d)]
    (hf : DfLocal f) (hg : DfLocal g) : DfLocal fun s => if c s.params s.df then f s else g s := by
  intro p d
  by_cases hc : c p d
  · obtain ⟨r, hr⟩ := hf p d
    exact ⟨r, fun s hp hd => by simp only [hp, hd, if_pos hc]; exact hr s hp hd⟩
  · obtain ⟨r, hr⟩ := hg p d
    exact ⟨r, fun s hp hd => by simp only [hp, hd, if_neg hc]; exact hr s hp hd⟩

theorem driveOutcome_onDf (s : State) (r : Except Fault Deflate) : driveOutcome (s.onDf r) = s.drive (orDfFault r) := by
  cases r <;> rfl

theorem runToken_dfLocal (i : Instr) : DfLocal fun s => driveOutcome (runToken i s) := by
  have htok (litlen dist extra : Nat) : DfLocal fun s => driveOutcome (s.onDf (s.df.encodeToken litlen dist extra)) := by
    intro p d
    exact ⟨orDfFault (d.encodeToken litlen dist extra), fun s _ hd => by subst hd; exact driveOutcome_onDf _ _⟩
  cases i with
  | tlit b => exact htok _ _ _
  | teob => exact htok _ _ _
  | tmatch l d x => exact htok _ _ _
  | _ => exact fun _ _ => ⟨.error (.fault .commandInsideCommand), fun _ _ _ => rfl⟩

theorem tokenStep_dfLocal : DfLocal tokenStep := by
  intro p d
  cases hf : d.fetchToken with
  | error h =>
    refine ⟨.error h, fun s _ hd => ?_⟩
    simp only [tokenStep, hd, hf]
    cases h <;> rfl
  | ok a =>
    obtain ⟨t, e⟩ := a
    cases hc : decode ⟨.token, t.toNat, {}⟩ with
    | error x => exact ⟨.error (.fault (.reservedToken t)), fun s _ hd => by simp only [tokenStep, hd, hf, hc]; rfl⟩
    | ok i =>
      obtain ⟨r, hr⟩ := runToken_dfLocal i p e
      refine ⟨r, fun s hp hd => ?_⟩
      simp only [tokenStep, hd, hf, hc]
      exact hr { s with df := e } hp rfl

theorem tokenLoop_dfLocal (n : Nat) : DfLocal (tokenLoop n) := by
  induction n with
  | zero => exact DfLocal.pure id
  | succ n ih =>
    exact DfLocal.ite (fun _ d => d.tokNext < d.tokCount) (tokenStep_dfLocal.bind ih) (DfLocal.pure id)

theorem emitBlock_dfLocal (bfinal : Bool) : DfLocal (emitBlock bfinal) := by
  have hloop : DfLocal fun s => tokenLoop s.df.tokCount s := fun p d => by
    obtain ⟨r, hr⟩ := tokenLoop_dfLocal d.tokCount p d
    exact ⟨r, fun s hp hd => by simp only [hd]; exact hr s hp hd⟩
  exact (DfLocal.drive fun p d => d.beginBlock bfinal p).bind (hloop.bind (DfLocal.pure Deflate.finishBlock))

/-- The block of a round of `compressBlock`, if one is due (rule R385). -/
def blockIfDue (flush final : Bool) (s : State) : Drive State :=
  match s.df.blockDue flush final with
  | some bfinal => emitBlock bfinal s
  | none => .ok s

/-- A round of `compressBlock`: the matcher, the block that is due, and, unless the input was used up, the next round. -/
theorem compressLoop_succ (flush final : Bool) (n : Nat) (s : State) :
    compressLoop flush final (n + 1) s = s.drive (orDfFault (s.df.runMatcher flush)) >>= fun t =>
      blockIfDue flush final t >>= fun u =>
        if t.df.exhausted flush then .ok u else compressLoop flush final n u := by
  show (s.drive (orDfFault (s.df.runMatcher flush)) >>= _) = _
  congr 1
  funext t
  unfold blockIfDue
  cases t.df.blockDue flush final <;> rfl

theorem blockIfDue_dfLocal (flush final : Bool) : DfLocal (blockIfDue flush final) := by
  intro p d
  cases hb : d.blockDue flush final with
  | none => exact ⟨.ok d, fun s _ hd => by subst hd; simp only [blockIfDue, hb]; rfl⟩
  | some bfinal =>
    obtain ⟨r, hr⟩ := emitBlock_dfLocal bfinal p d
    exact ⟨r, fun s hp hd => by simp only [blockIfDue, hd, hb]; exact hr s hp hd⟩

theorem compressLoop_dfLocal (flush final : Bool) (n : Nat) : DfLocal (compressLoop flush final n) := by
  induction n with
  | zero => exact fun _ _ => ⟨.error (.fault .driverBoundExceeded), fun _ _ _ => rfl⟩
  | succ n ih =>
    have htail : DfLocal fun t => blockIfDue flush final t >>= fun u =>
        if t.df.exhausted flush then .ok u else compressLoop flush final n u := by
      intro p d
      cases hx : d.exhausted flush with
      | true =>
        obtain ⟨r, hr⟩ := ((blockIfDue_dfLocal flush final).bind (DfLocal.pure id)) p d
        exact ⟨r, fun s hp hd => by simp only [hd, hx]; exact hr s hp hd⟩
      | false =>
        obtain ⟨r, hr⟩ := ((blockIfDue_dfLocal flush final).bind ih) p d
        exact ⟨r, fun s hp hd => by simp only [hd, hx]; exact hr s hp hd⟩
    rw [funext (compressLoop_succ flush final n)]
    exact (DfLocal.drive fun _ d => orDfFault (d.runMatcher flush)).bind htail

theorem compressBlock_dfLocal (flush final : Bool) : DfLocal (compressBlock flush final) := by
  have hloop : DfLocal fun s => compressLoop flush final (s.df.wend - s.df.widx + 2) s := fun p d => by
    obtain ⟨r, hr⟩ := compressLoop_dfLocal flush final (d.wend - d.widx + 2) p d
    exact ⟨r, fun s hp hd => by simp only [hd]; exact hr s hp hd⟩
  exact DfLocal.ite (fun _ d => final = true ∧ d.wend = 0) (DfLocal.drive fun _ d => d.emptyFinal) hloop

/-- A round of `DF_WRITE`'s loop: what fits goes into the window, and a full window is compressed (rule R381). -/
theorem writeLoop_of_accumulate {n pos k : Nat} {data : List Byte} {s : State} {d : Deflate} (hdata : data ≠ [])
    (h : s.df.accumulate data = .ok (k, d)) :
    writeLoop (n + 1) pos data s =
      (if d.wend = d.fill then compressBlock false false { s with df := d.returns .ok (pos + k) }
        else .ok { s with df := d.returns .ok (pos + k) }) >>= writeLoop n (pos + k) (data.drop k) := by
  rw [writeLoop, if_neg hdata, h]
  show (if d.wend = d.fill then _ else _) = _
  split <;> rfl

theorem writeLoop_dfLocal (n pos : Nat) (data : List Byte) : DfLocal (writeLoop n pos data) := by
  induction n generalizing pos data with
  | zero =>
    exact DfLocal.ite (fun _ _ => data = []) (DfLocal.pure id)
      fun _ _ => ⟨.error (.fault .driverBoundExceeded), fun _ _ _ => rfl⟩
  | succ n ih =>
    by_cases hdata : data = []
    · subst hdata
      exact DfLocal.pure id
    intro p d
    cases ha : d.accumulate data with
    | error f => exact ⟨.error (.fault f), fun s _ hd => by rw [writeLoop, if_neg hdata, hd, ha]; rfl⟩
    | ok a =>
      obtain ⟨k, e⟩ := a
      obtain ⟨r, hr⟩ := ((DfLocal.ite (fun _ d' => d'.wend = d'.fill) (compressBlock_dfLocal false false)
        (DfLocal.pure id)).bind (ih (pos + k) (data.drop k))) p (e.returns .ok (pos + k))
      refine ⟨r, fun s hp hd => ?_⟩
      rw [writeLoop_of_accumulate hdata (hd ▸ ha)]
      exact hr { s with df := e.returns .ok (pos + k) } hp rfl

/-- What the operation does is what the driver's return makes of an operation of the deflate side alone. -/
def DfEnds (f : State → Host.Outcome State Fault Refusal) : Prop :=
  ∀ (p : Config.Params) (d : Deflate), ∃ r : Emit Deflate, ∀ s : State, s.params = p → s.df = d → f s = finishDf (s.drive r)

/-- A driver operation, unless the state is barred. -/
theorem DfEnds.of_barred {f : State → Host.Outcome State Fault Refusal} {g : State → Drive State} (hg : DfLocal g)
    (hbar : ∀ s st, s.df.barred = some st → f s = .next { s with df := s.df.returns st 0 })
    (hopen : ∀ s, s.df.barred = none → f s = finishDf (g { s with df := s.df.returns .ok 0 })) : DfEnds f := by
  intro p d
  cases hb : d.barred with
  | some st => exact ⟨.ok (d.returns st 0), fun s _ hd => by rw [hbar s st (hd ▸ hb), hd]; rfl⟩
  | none =>
    obtain ⟨r, hr⟩ := hg p (d.returns .ok 0)
    refine ⟨r, fun s hp hd => ?_⟩
    subst hp hd
    rw [hopen s hb, show g { s with df := s.df.returns .ok 0 } = _ from hr _ rfl rfl]
    cases r with
    | ok e => rfl
    | error h => cases h <;> rfl

theorem exec_dfWrite_of_open {s : State} (data : List Byte) (h : s.df.barred = none) :
    exec (.dfWrite data) s = finishDf (writeLoop (2 * data.length + 2) 0 data { s with df := s.df.returns .ok 0 }) := by
  show execDfWrite data s = _
  simp only [execDfWrite, h]

theorem exec_dfFlush_of_open {s : State} (h : s.df.barred = none) :
    exec .dfFlush s = finishDf (compressBlock true false { s with df := s.df.returns .ok 0 } >>= fun t =>
      t.drive t.df.syncMarker) := by
  show execDfFlush s = _
  simp only [execDfFlush, h]

theorem exec_dfClose_of_open {s : State} (h : s.df.barred = none) :
    exec .dfClose s = finishDf (compressBlock true true { s with df := s.df.returns .ok 0 } >>= fun t =>
      t.drive t.df.sealStream) := by
  show execDfClose s = _
  simp only [execDfClose, h]

/-- No instruction of the deflate side looks beyond it. -/
theorem exec_dfEnds {i : Instr} (h : onInflateSide i = false) : DfEnds (exec i) := by
  obtain ⟨litlen, dist, extra, hx⟩ | ⟨level, window, rfl⟩ | ⟨data, rfl⟩ | rfl | rfl := deflateSide_cases h
  · refine fun p d => ⟨orDfFault (d.encodeToken litlen dist extra), fun s _ hd => ?_⟩
    rw [hx, hd]
    cases d.encodeToken litlen dist extra <;> rfl
  · intro p d
    by_cases ha : resetAccepted level window = true
    · refine ⟨.ok ((d.clear p level window).returns .ok 0), fun s hp hd => ?_⟩
      show execDfReset level window s = _
      subst hp hd
      rw [execDfReset, if_pos ha]
      rfl
    · refine ⟨.ok (d.returns .refused 0), fun s hp hd => ?_⟩
      show execDfReset level window s = _
      subst hd
      rw [execDfReset, if_neg ha]
      rfl
  · exact .of_barred (writeLoop_dfLocal _ 0 data) (fun s st hb => exec_of_barred (.inl ⟨data, rfl⟩) hb)
      fun s hb => exec_dfWrite_of_open data hb
  · exact .of_barred ((compressBlock_dfLocal true false).bind (DfLocal.drive fun _ d => d.syncMarker))
      (fun s st hb => exec_of_barred (.inr (.inl rfl)) hb) fun s hb => exec_dfFlush_of_open hb
  · exact .of_barred ((compressBlock_dfLocal true true).bind (DfLocal.drive fun _ d => d.sealStream))
      (fun s st hb => exec_of_barred (.inr (.inr rfl)) hb) fun s hb => exec_dfClose_of_open hb

/-! ### The two statements -/

/-- What the driver's return leaves alone. -/
theorem finishDf_drive_frame {s t : State} {r : Emit Deflate} (h : finishDf (s.drive r) = .next t) :
    t.params = s.params ∧ t.commands = s.commands ∧ t.inf = s.inf := by
  cases r with
  | ok d => cases h; exact ⟨rfl, rfl, rfl⟩
  | error e =>
    cases e with
    | fault f => cases h
    | sink e d => cases h; exact ⟨rfl, rfl, rfl⟩

/-- Settles O53: an instruction works on its own side alone. -/
theorem sidesIndependent : Obligations.SidesIndependent := by
  unfold Obligations.SidesIndependent
  intro i s t h
  cases hi : onInflateSide i with
  | true =>
    obtain ⟨r, hr⟩ := exec_infLocal hi s.params s.inf
    rw [hr s rfl rfl] at h
    obtain ⟨d, -, rfl⟩ := State.onInf_next h
    exact ⟨rfl, rfl, fun _ => ⟨rfl, rfl⟩, fun h => by cases h⟩
  | false =>
    obtain ⟨r, hr⟩ := exec_dfEnds hi s.params s.df
    rw [hr s rfl rfl] at h
    obtain ⟨h1, h2, h3⟩ := finishDf_drive_frame h
    exact ⟨h1, h2, (fun h => by cases h), fun _ => h3⟩

/-- Settles O54: an instruction that works on its own side alone does the same to equal sides. -/
theorem sidesDoNotLeak : Obligations.SidesDoNotLeak := by
  unfold Obligations.SidesDoNotLeak
  intro i s1 s2 t1 h hp
  refine ⟨fun hi hinf => ?_, fun hi hdf hfree => ?_⟩
  · obtain ⟨r, hr⟩ := exec_infLocal hi s1.params s1.inf
    rw [hr s1 rfl rfl] at h
    obtain ⟨d, rfl, rfl⟩ := State.onInf_next h
    exact ⟨{ s2 with inf := d }, by rw [hr s2 hp.symm hinf.symm]; rfl, rfl⟩
  · obtain ⟨r, hr⟩ := exec_dfEnds hi s1.params s1.df
    rw [hr s1 rfl rfl] at h
    rw [hr s2 hp.symm hdf.symm]
    cases r with
    | ok d => cases h; exact ⟨_, rfl, rfl⟩
    | error e =>
      cases e with
      | fault f => cases h
      | sink e d => cases h; exact ⟨_, rfl, by rw [hfree]⟩

end Sys2Proof.Machine
end

section
/-! PROOFS. What any step keeps whatever state it starts in: a latched error, the canonical form of the memories, the bits
above the valid ones (rules R23, R34, R35; log 7). -/

namespace Sys2Proof.Machine

/-! ### The inflate side: what an operation may not lose -/

/-- The bit buffer and its snapshot keep their invariant (rule R23). -/
def Inflate.buffersOk (d : Inflate) : Prop := bufferOk d.bits d.bitsLen ∧ bufferOk d.snapBits d.snapBitsLen

/-- What is left after an underflow: a latched error, canonical memories and the snapshot, but not the bit buffer. -/
structure Inflate.Torn (d t : Inflate) : Prop where
  err : d.inErr ≠ none → t.inErr ≠ none
  wf : d.memoriesWf = true → t.memoriesWf = true
  snap : d.buffersOk → bufferOk t.snapBits t.snapBitsLen

/-- What every complete operation keeps: the bit buffer too. -/
structure Inflate.Kept (d t : Inflate) : Prop extends Inflate.Torn d t where
  bits : d.buffersOk → bufferOk t.bits t.bitsLen

theorem Inflate.Kept.refl (d : Inflate) : d.Kept d := ⟨⟨id, id, fun h => h.2⟩, fun h => h.1⟩

theorem Inflate.Kept.buffers {d t : Inflate} (h : d.Kept t) (hb : d.buffersOk) : t.buffersOk := ⟨h.bits hb, h.snap hb⟩

theorem Inflate.Kept.torn {a b c : Inflate} (h1 : a.Kept b) (h2 : b.Torn c) : a.Torn c :=
  ⟨fun h => h2.err (h1.err h), fun h => h2.wf (h1.wf h), fun h => h2.snap (h1.buffers h)⟩

theorem Inflate.Kept.trans {a b c : Inflate} (h1 : a.Kept b) (h2 : b.Kept c) : a.Kept c :=
  ⟨h1.torn h2.toTorn, fun h => h2.bits (h1.buffers h)⟩

theorem Inflate.memoriesWf_iff (d : Inflate) :
    d.memoriesWf = true ↔ d.inBuf.wf = true ∧ d.histBuf.wf = true ∧ d.hdrBuf.wf = true := by
  simp only [Inflate.memoriesWf, Bool.and_eq_true, and_assoc]

/-- The registers the invariants speak of are the same in both states. -/
structure Inflate.SameKept (d t : Inflate) : Prop where
  inErr : t.inErr = d.inErr
  bits : t.bits = d.bits
  bitsLen : t.bitsLen = d.bitsLen
  snapBits : t.snapBits = d.snapBits
  snapBitsLen : t.snapBitsLen = d.snapBitsLen

/-- An operation that writes memories only, each in canonical form, keeps everything. -/
theorem Inflate.Kept.of_memories {d t : Inflate} (hs : d.SameKept t)
    (hm : d.memoriesWf = true → t.memoriesWf = true) : d.Kept t := by
  obtain ⟨he, hb, hl, hsb, hsl⟩ := hs
  refine ⟨⟨fun h => he ▸ h, hm, fun h => ?_⟩, fun h => ?_⟩
  · rw [hsb, hsl]; exact h.2
  · rw [hb, hl]; exact h.1

/-- An operation on the other registers keeps everything. -/
theorem Inflate.Kept.of_same {d t : Inflate} (hs : d.SameKept t)
    (hm : t.inBuf = d.inBuf ∧ t.histBuf = d.histBuf ∧ t.hdrBuf = d.hdrBuf) : d.Kept t := by
  obtain ⟨h1, h2, h3⟩ := hm
  exact .of_memories hs fun h => by rwa [Inflate.memoriesWf_iff, h1, h2, h3, ← Inflate.memoriesWf_iff]

/-- Reading changes the bit buffer and the cursors only. -/
theorem Inflate.Torn.of_reader {d t : Inflate} (h : d.sameButReader t) : d.Torn t := by
  unfold Inflate.sameButReader at h
  rw [h]
  exact ⟨id, id, fun h => h.2⟩

theorem Inflate.Kept.of_reader {d t : Inflate} (h : d.sameButReader t) (hb : bufferOk d.bits d.bitsLen → bufferOk t.bits t.bitsLen) :
    d.Kept t := ⟨.of_reader h, fun h => hb h.1⟩

/-! ### Reading -/

/-- Bits consumed that are there. -/
theorem bufferOk.shift {b : Wide} {l : Int} {k : Nat} (h : bufferOk b l) (hk : (k : Int) ≤ l) :
    bufferOk (b >>> k) (l - k) := by
  obtain ⟨h0, h64, hlt⟩ := h
  have hsplit : 2 ^ l.toNat = 2 ^ (l - (k : Int)).toNat * 2 ^ k := by
    rw [← pow_add]; congr 1; omega
  refine ⟨by omega, by omega, ?_⟩
  rw [BitVec.toNat_ushiftRight, Nat.shiftRight_eq_div_pow, Nat.div_lt_iff_lt_mul (by positivity), ← hsplit]
  exact hlt

/-- Bytes put above the valid bits. -/
theorem bufferOk.append {b : Wide} {l : Int} {n v : Nat} (h : bufferOk b l) (hl : l + 8 * n ≤ 64) (hv : v < 2 ^ (8 * n)) :
    bufferOk (b ||| (BitVec.ofNat 64 v <<< l.toNat)) (l + 8 * n) := by
  obtain ⟨h0, h64, hlt⟩ := h
  have hlen : (l + 8 * (n : Int)).toNat = 8 * n + l.toNat := by omega
  refine ⟨by omega, hl, ?_⟩
  rw [hlen, BitVec.toNat_or]
  refine Nat.or_lt_two_pow (lt_of_lt_of_le hlt (Nat.pow_le_pow_right (by decide) (by omega))) ?_
  rw [BitVec.toNat_shiftLeft, BitVec.toNat_ofNat, Nat.shiftLeft_eq, pow_add]
  calc _ ≤ v % 2 ^ 64 * 2 ^ l.toNat := Nat.mod_le _ _
    _ ≤ v * 2 ^ l.toNat := Nat.mul_le_mul_right _ (Nat.mod_le _ _)
    _ < _ := Nat.mul_lt_mul_of_pos_right hv (by positivity)

/-- A value cut to the valid bits. -/
theorem bufferOk_mask {b : Wide} {l : Int} {n : Nat} (hl : l = n) (hn : n ≤ 64) :
    bufferOk (b &&& BitVec.ofNat 64 (mask n)) l := by
  subst hl
  refine ⟨by omega, by omega, ?_⟩
  rw [wide_and_mask_toNat b hn]
  exact Nat.mod_lt _ (by positivity)

theorem Inflate.consume_torn (d : Inflate) (k : Nat) : d.Torn (d.consume k) := .of_reader (d.consume_same k)

theorem Inflate.consume_kept {d : Inflate} {k : Nat} (h : (d.consume k).underflowed = false) : d.Kept (d.consume k) := by
  refine .of_reader (d.consume_same k) fun hb => hb.shift ?_
  have : ¬ d.bitsLen - k < 0 := by simpa [Inflate.underflowed, Inflate.consume] using h
  omega

/-- The source's bytes are as many as are asked for. -/
theorem Inflate.srcBytes_length {d : Inflate} {a n : Nat} {bs : List Byte} (h : d.srcBytes a n = .ok bs) :
    bs.length = n := by
  unfold Inflate.srcBytes at h
  split at h <;> rw [(readBytes_ok h).1, Cells.window_length]

theorem Inflate.refillSlow_kept {m n : Nat} {d t : Inflate} (hm : m ≤ 57) (h : Inflate.refillSlow m n d = .ok t) :
    d.Kept t := by
  induction n generalizing d with
  | zero => cases h; exact .refl _
  | succ n ih =>
    unfold Inflate.refillSlow at h
    split at h
    · cases h; exact .refl _
    · obtain ⟨bs, h1, h⟩ := except_bind_ok h
      have hv : leValue bs < 2 ^ (8 * 1) := Inflate.srcBytes_length h1 ▸ leValue_lt bs
      refine Inflate.Kept.trans (.of_reader (d.moveIn_same 1 _) fun hb => ?_) (ih h)
      rw [Inflate.moveIn_bits, Inflate.moveIn_bitsLen]
      exact hb.append (by omega) hv

theorem Inflate.refillFast_kept {d t : Inflate} (h : d.refillFast = .ok t) (hl : d.bitsLen < 57) : d.Kept t := by
  unfold Inflate.refillFast at h
  obtain ⟨bs, -, h⟩ := except_bind_ok h
  cases h
  refine .of_reader (d.moveIn_same _ _) fun hb => ?_
  rw [Inflate.moveIn_bits, Inflate.moveIn_bitsLen]
  have := hb.1
  exact bufferOk_mask (by omega) (by omega)

theorem Inflate.refill_kept {m : Nat} {d t : Inflate} (hm : m ≤ 57) (h : d.refill m = .ok t) : d.Kept t := by
  unfold Inflate.refill at h
  split at h
  · cases h; exact .refl _
  · split at h
    · exact Inflate.refillFast_kept h (by omega)
    · exact Inflate.refillSlow_kept hm h

theorem Inflate.snapshot_kept (d : Inflate) : d.Kept d.snapshot := ⟨⟨id, id, fun h => h.1⟩, fun h => h.1⟩

theorem Inflate.setBlockFlags_kept (d : Inflate) (f : Bool) (b : BitVec 2) : d.Kept (d.setBlockFlags f b) :=
  .of_same ⟨rfl, rfl, rfl, rfl, rfl⟩ ⟨rfl, rfl, rfl⟩

theorem Inflate.setSrcPos_kept (d : Inflate) (p : Nat) : d.Kept (d.setSrcPos p) := by
  unfold Inflate.setSrcPos
  split <;> exact .of_same ⟨rfl, rfl, rfl, rfl, rfl⟩ ⟨rfl, rfl, rfl⟩

/-- `restore` mends what an underflow has torn. -/
theorem Inflate.Torn.restore {d e : Inflate} (h : d.Torn e) : d.Kept e.restore :=
  Inflate.Kept.trans (b := { e with
      totalIn := e.totalIn - (e.srcPos - e.snapInPos), bits := e.snapBits, bitsLen := e.snapBitsLen, writePos := e.snapWritePos })
    ⟨⟨h.err, h.wf, h.snap⟩, h.snap⟩ (Inflate.setSrcPos_kept _ _)

/-! ### The ends of `Decode()` -/

theorem Inflate.parkHeader_kept {d t : Inflate} (h : d.parkHeader = .ok t) : d.Kept t := by
  obtain ⟨h1, hw⟩ := Inflate.parkHeader_ok h
  rw [h1]
  refine .of_memories ⟨rfl, rfl, rfl, rfl, rfl⟩ fun hm => ?_
  rw [Inflate.memoriesWf_iff] at hm ⊢
  exact ⟨hm.1, hm.2.1, hw hm.2.2⟩

theorem Inflate.enterRetry_kept {d t : Inflate} (h : d.enterRetry = .ok t) : d.Kept t := by
  obtain ⟨h1, hw⟩ := Inflate.enterRetry_ok h
  rw [h1]
  refine .of_memories ⟨rfl, rfl, rfl, rfl, rfl⟩ fun hm => ?_
  rw [Inflate.memoriesWf_iff] at hm ⊢
  exact ⟨hm.1, hm.2.1, hw hm.2.2⟩

/-- An operation that rewrites `HIST`, each write in canonical form. -/
theorem Inflate.Kept.of_hist {d t : Inflate} (hs : d.SameKept t) (hb : t.inBuf = d.inBuf ∨ t.inBuf = Cells.empty)
    (hh : t.hdrBuf = d.hdrBuf) (hw : d.histBuf.wf = true → t.histBuf.wf = true) : d.Kept t := by
  refine .of_memories hs fun hm => ?_
  rw [Inflate.memoriesWf_iff] at hm ⊢
  refine ⟨?_, hw hm.2.1, hh ▸ hm.2.2⟩
  rcases hb with hb | hb <;> rw [hb]
  · exact hm.1
  · exact Cells.empty_wf

theorem Inflate.endDecode_kept {d t : Inflate} {st : Status} (h : d.endDecode st = .ok t) : d.Kept t := by
  obtain ⟨e, h1, rfl⟩ := Inflate.endDecode_ok h
  obtain ⟨h2, hw⟩ := Inflate.drain_ok h1
  exact .of_hist (by rw [h2]; exact ⟨rfl, rfl, rfl, rfl, rfl⟩) (.inr rfl) (by rw [h2]) hw

theorem Inflate.raiseTerminal_kept {d t : Inflate} {k : ErrKind} (h : d.raiseTerminal k = .ok t) : d.Kept t := by
  have hl : d.Kept (d.latch k) := ⟨⟨fun _ => Option.some_ne_none _, id, fun h => h.2⟩, fun h => h.1⟩
  exact hl.trans (Inflate.endDecode_kept h)

/-- The way of a header cut short, written out (rule R253). -/
theorem Inflate.headerUnderflow_eq (e : Inflate) : e.headerUnderflow =
    (if e.restore.retry then .ok e.restore else e.restore.parkHeader) >>= fun d =>
      Inflate.endDecode .endInput { d with phase := .decodingHeader } := by
  unfold Inflate.headerUnderflow
  simp only
  split <;> rfl

theorem Inflate.headerUnderflow_kept {d e t : Inflate} (hd : d.Torn e) (h : e.headerUnderflow = .ok t) : d.Kept t := by
  rw [Inflate.headerUnderflow_eq] at h
  obtain ⟨r, h1, h2⟩ := except_bind_ok h
  have hr : e.restore.Kept r := by
    split at h1
    · cases h1; exact .refl _
    · exact Inflate.parkHeader_kept h1
  refine hd.restore.trans (hr.trans (Inflate.Kept.trans (.of_same ?_ ?_) (Inflate.endDecode_kept h2)))
  · exact ⟨rfl, rfl, rfl, rfl, rfl⟩
  · exact ⟨rfl, rfl, rfl⟩

theorem Inflate.bodyUnderflow_kept {d e t : Inflate} (hd : d.Torn e) (h : e.bodyUnderflow = .ok t) : d.Kept t :=
  hd.restore.trans (Inflate.endDecode_kept h)

/-! ### Operations inside `Decode()` -/

/-- However an operation ends, what it leaves keeps what the state `d` had; a result has the property `Q`. -/
def Parse.Leaves {α : Type} (d : Inflate) (Q : α → Prop) : Parse α → Prop
  | .ok a => Q a
  | .error (.fault _) => True
  | .error (.underflow t) => d.Torn t
  | .error (.endInput t) => d.Kept t
  | .error (.overflow t) => d.Kept t
  | .error (.raise _ t) => d.Kept t

theorem Parse.Leaves.bind {α β : Type} {d : Inflate} {Q : α → Prop} {R : β → Prop} {r : Parse α} {f : α → Parse β}
    (h : Parse.Leaves d Q r) (hf : ∀ a, Q a → Parse.Leaves d R (f a)) : Parse.Leaves d R (r >>= f) := by
  cases r with
  | ok a => exact hf a h
  | error e => cases e <;> exact h

theorem Parse.leaves_orFault {α : Type} {d : Inflate} {Q : α → Prop} {r : Except Fault α} (h : ∀ a, r = .ok a → Q a) :
    Parse.Leaves d Q (orFault r) := by
  cases r with
  | ok a => exact h a rfl
  | error f => trivial

theorem Parse.leaves_raise {α : Type} {d t : Inflate} {Q : α → Prop} {k : ErrKind} (h : d.Kept t) :
    Parse.Leaves d Q (.error (.raise k t)) := h

theorem settleHeader_kept {d t : Inflate} {r : Parse Inflate} (hr : Parse.Leaves d d.Kept r)
    (h : settleHeader r = .ok t) : d.Kept t := by
  obtain rfl | ⟨e, rfl, h⟩ | ⟨e, rfl, h⟩ | ⟨e, rfl, h⟩ | ⟨k, e, rfl, h⟩ := settleHeader_ok h
  · exact hr
  · exact Inflate.headerUnderflow_kept hr h
  · exact Inflate.Kept.trans hr (Inflate.endDecode_kept h)
  · exact Inflate.Kept.trans hr (Inflate.endDecode_kept h)
  · exact Inflate.Kept.trans hr (Inflate.raiseTerminal_kept h)

theorem settleBody_kept {d t : Inflate} {r : Parse Inflate} (hr : Parse.Leaves d d.Kept r)
    (h : settleBody r = .ok t) : d.Kept t := by
  obtain rfl | ⟨e, rfl, h⟩ | ⟨e, rfl, h⟩ | ⟨e, rfl, h⟩ | ⟨k, e, rfl, h⟩ := settleBody_ok h
  · exact hr
  · exact Inflate.bodyUnderflow_kept hr h
  · exact Inflate.Kept.trans hr (Inflate.endDecode_kept h)
  · exact Inflate.Kept.trans hr (Inflate.endDecode_kept h)
  · exact Inflate.Kept.trans hr (Inflate.raiseTerminal_kept h)

/-- Bits consumed after a refill: there, or an underflow. -/
theorem Inflate.consume_leaves {α : Type} {d e : Inflate} {k : Nat} {Q : α → Prop} {f : Inflate → Parse α} (h : d.Kept e)
    (hf : d.Kept (e.consume k) → Parse.Leaves d Q (f (e.consume k))) :
    Parse.Leaves d Q (if (e.consume k).underflowed then .error (.underflow (e.consume k)) else f (e.consume k)) := by
  cases hu : (e.consume k).underflowed with
  | true => exact h.torn (e.consume_torn k)
  | false => exact hf (h.trans (Inflate.consume_kept hu))

theorem Inflate.take_leaves {d e : Inflate} {k : Nat} (hk : k ≤ 57) (h : d.Kept e) :
    Parse.Leaves d (fun r => d.Kept r.2) (e.take k) := by
  refine Parse.Leaves.bind (Q := d.Kept) (Parse.leaves_orFault fun a ha => ?_) fun a ha => ?_
  · exact h.trans (Inflate.refill_kept (by omega) ha)
  · exact Inflate.consume_leaves (f := fun d => .ok (a.peek k, d)) ha id

theorem Inflate.takeMany_leaves {d e : Inflate} {k : Nat} (n : Nat) (hk : k ≤ 57) (h : d.Kept e) :
    Parse.Leaves d (fun r => d.Kept r.2) (Inflate.takeMany k n e) := by
  induction n generalizing e with
  | zero => exact h
  | succ n ih =>
    rw [Inflate.takeMany_succ]
    exact (Inflate.take_leaves hk h).bind fun r hr => (ih hr).bind fun q hq => hq

theorem Inflate.acceptHeader_kept (d : Inflate) (ph : Phase) : d.Kept (d.acceptHeader ph) := by
  cases hr : d.retry with
  | false => rw [Inflate.acceptHeader_of_slice ph hr]; exact .of_same ⟨rfl, rfl, rfl, rfl, rfl⟩ ⟨rfl, rfl, rfl⟩
  | true => rw [Inflate.acceptHeader_of_retry ph hr]; exact .of_same ⟨rfl, rfl, rfl, rfl, rfl⟩ ⟨rfl, rfl, rfl⟩

theorem Inflate.Kept.accepted {d e : Inflate} (h : d.Kept e) (ph : Phase) : d.Kept (e.acceptHeader ph) :=
  h.trans (e.acceptHeader_kept ph)

theorem Inflate.alignToByte_kept (d : Inflate) : d.Kept d.alignToByte := by
  refine .of_reader (d.consume_same _) fun hb => hb.shift ?_
  have := hb.1
  omega

theorem Inflate.storedHeader_leaves {d e : Inflate} (h : d.Kept e) : Parse.Leaves d d.Kept e.storedHeader := by
  rw [Inflate.storedHeader_eq]
  refine (Inflate.take_leaves (by decide) (h.trans e.alignToByte_kept)).bind fun r hr =>
    (Inflate.take_leaves (by decide) hr).bind fun q hq => ?_
  unfold Inflate.storedChecked
  split
  · exact Parse.leaves_raise hq
  · refine Inflate.Kept.accepted ?_ _
    exact hq.trans (.of_same ⟨rfl, rfl, rfl, rfl, rfl⟩ ⟨rfl, rfl, rfl⟩)

theorem Inflate.dynamicHeader_leaves {d e : Inflate} (h : d.Kept e) : Parse.Leaves d d.Kept e.dynamicHeader := by
  rw [Inflate.dynamicHeader_eq]
  refine (Inflate.take_leaves (by decide) h).bind fun a ha => (Inflate.take_leaves (by decide) ha).bind fun b hb =>
    (Inflate.take_leaves (by decide) hb).bind fun c hc => ?_
  unfold Inflate.countsChecked
  split
  · exact hc
  · refine (Inflate.takeMany_leaves _ (by decide) hc).bind fun r hr => ?_
    unfold Inflate.clcChecked
    simp only
    split
    · exact hr
    · exact hr.trans (.of_same ⟨rfl, rfl, rfl, rfl, rfl⟩ ⟨rfl, rfl, rfl⟩)

theorem Inflate.appendLens_kept (d : Inflate) (ls : List Nat) : d.Kept (d.appendLens ls) :=
  .of_same ⟨rfl, rfl, rfl, rfl, rfl⟩ ⟨rfl, rfl, rfl⟩

theorem Inflate.repeatLens_leaves (d : Inflate) {k : Nat} (base v : Nat) (hk : k ≤ 57) :
    Parse.Leaves d d.Kept (d.repeatLens k base v) := by
  rw [Inflate.repeatLens_eq]
  refine (Inflate.take_leaves hk (.refl d)).bind fun r hr => ?_
  unfold Inflate.repeatChecked
  split
  · exact hr
  · exact hr.trans (Inflate.appendLens_kept _ _)

theorem Inflate.copyPrevLen_leaves (d : Inflate) : Parse.Leaves d d.Kept d.copyPrevLen := by
  unfold Inflate.copyPrevLen
  split
  · exact .refl d
  · exact d.repeatLens_leaves _ _ (by decide)

theorem Inflate.finishDynamic_leaves (p : Config.Params) (d : Inflate) : Parse.Leaves d d.Kept (d.finishDynamic p) := by
  simp only [Inflate.finishDynamic]
  split
  · exact Parse.leaves_raise (.refl d)
  · refine Inflate.Kept.accepted ?_ _
    exact .of_same ⟨rfl, rfl, rfl, rfl, rfl⟩ ⟨rfl, rfl, rfl⟩

theorem Inflate.storeByte_kept {d t : Inflate} {b : Byte} (h : d.storeByte b = .ok t) : d.Kept t := by
  obtain ⟨-, rfl⟩ := Inflate.storeByte_ok.1 h
  exact .of_hist ⟨rfl, rfl, rfl, rfl, rfl⟩ (.inl rfl) rfl (Cells.put_wf _ _ _)

theorem Inflate.copyHistory_kept {d t : Inflate} {n dist : Nat} (h : d.copyHistory n dist = .ok t) : d.Kept t := by
  obtain ⟨-, m, h1, rfl⟩ := Inflate.copyHistory_ok h
  exact .of_hist ⟨rfl, rfl, rfl, rfl, rfl⟩ (.inl rfl) rfl (copyAscending_wf h1)

theorem Inflate.lengthSymbol_kept (d : Inflate) (sym e : Nat) : d.Kept (d.lengthSymbol sym e) := by
  unfold Inflate.lengthSymbol
  generalize expandedSym sym e - Config.lenOffset = n
  exact .of_same ⟨rfl, rfl, rfl, rfl, rfl⟩ ⟨rfl, rfl, rfl⟩

theorem Inflate.literal_leaves (b : Byte) (d : Inflate) : Parse.Leaves d d.Kept (d.literal b) := by
  unfold Inflate.literal
  split
  · refine Parse.Leaves.bind (Q := d.Kept) (Parse.leaves_orFault fun a ha => Inflate.storeByte_kept ha) fun a ha => ?_
    exact ha.trans (.of_same ⟨rfl, rfl, rfl, rfl, rfl⟩ ⟨rfl, rfl, rfl⟩)
  · exact .of_same ⟨rfl, rfl, rfl, rfl, rfl⟩ ⟨rfl, rfl, rfl⟩

theorem Inflate.copyMatch_leaves {d e : Inflate} (dist : Nat) (h : d.Kept e) : Parse.Leaves d d.Kept (e.copyMatch dist) := by
  refine Parse.Leaves.bind (Q := d.Kept) (Parse.leaves_orFault fun a ha => h.trans (Inflate.copyHistory_kept ha)) fun a ha => ?_
  split
  · exact ha.trans (.of_same ⟨rfl, rfl, rfl, rfl, rfl⟩ ⟨rfl, rfl, rfl⟩)
  · exact ha.trans (.of_same ⟨rfl, rfl, rfl, rfl, rfl⟩ ⟨rfl, rfl, rfl⟩)

theorem Inflate.distanceSymbol_leaves (sym : Nat) (d : Inflate) : Parse.Leaves d d.Kept (d.distanceSymbol sym) := by
  refine Parse.Leaves.bind (Q := d.Kept) (Parse.leaves_orFault fun a ha => Inflate.refill_kept (by decide) ha) fun a ha => ?_
  refine Inflate.consume_leaves (f := Inflate.distanceChecked (distStart sym + a.peek (distExtraBits sym))) ha fun hc => ?_
  unfold Inflate.distanceChecked
  split
  · exact hc
  · exact Inflate.copyMatch_leaves _ hc

/-- Whatever a stream element means, it keeps what every operation keeps. -/
theorem Meaning.kept {fmt : Format} {settle : Parse Inflate → Except Fault Inflate} {op : Inflate → Parse Inflate}
    (hm : Meaning fmt settle op) {d t : Inflate} (h : settle (op d) = .ok t) : d.Kept t := by
  cases hm with
  | stored f => exact settleHeader_kept (Inflate.storedHeader_leaves (d.setBlockFlags_kept _ _)) h
  | static f =>
    cases h
    refine Inflate.Kept.accepted ?_ _
    exact .of_same ⟨rfl, rfl, rfl, rfl, rfl⟩ ⟨rfl, rfl, rfl⟩
  | dynamic f => exact settleHeader_kept (Inflate.dynamicHeader_leaves (d.setBlockFlags_kept _ _)) h
  | reservedBlock f => exact settleHeader_kept (Parse.leaves_raise (d.setBlockFlags_kept _ _)) h
  | clLen l => cases h; exact d.appendLens_kept _
  | clCopyPrev => exact settleHeader_kept d.copyPrevLen_leaves h
  | clZeros3To10 => exact settleHeader_kept (d.repeatLens_leaves _ _ (by decide)) h
  | clZeros11To138 => exact settleHeader_kept (d.repeatLens_leaves _ _ (by decide)) h
  | lit b => exact settleBody_kept (d.literal_leaves b) h
  | eob => cases h; exact .of_same ⟨rfl, rfl, rfl, rfl, rfl⟩ ⟨rfl, rfl, rfl⟩
  | length sym e h1 h2 he => cases h; exact d.lengthSymbol_kept sym e
  | distance sym hs => exact settleBody_kept (d.distanceSymbol_leaves sym) h
  | reservedSymbol fmt hf => exact settleBody_kept (Parse.leaves_raise (.refl d)) h

theorem HasMeaning.kept {fmt : Format} {i : Instr} (h : HasMeaning fmt i) {s t : State} (hx : exec i s = .next t) :
    s.inf.Kept t.inf := by
  obtain ⟨settle, op, hm, he⟩ := h
  rw [(he s).1] at hx
  obtain ⟨d, hd, rfl⟩ := State.onInf_next hx
  exact hm.kept hd

/-! ### The fetch of an element -/

/-- The state a fetched element or part leaves. -/
def Fetched.state : Fetched → Inflate
  | .word _ d => d
  | .inside d => d

/-- The format of a fetched word is that of a stream element. -/
def Fetched.isElement : Fetched → Prop
  | .word c _ => Format.isElement c.fmt = true
  | .inside _ => True

theorem fetchedBy_kept {d : Inflate} {settle : Parse Inflate → Except Fault Inflate} {r : Parse (Code × Inflate)}
    {g : Fetched} (hs : ∀ {r t}, Parse.Leaves d d.Kept r → settle r = .ok t → d.Kept t)
    (hr : Parse.Leaves d (fun a => d.Kept a.2 ∧ Format.isElement a.1.fmt = true) r) (h : fetchedBy settle r = .ok g) :
    d.Kept g.state ∧ g.isElement := by
  cases r with
  | ok a => cases h; exact hr
  | error e =>
    obtain ⟨t, ht, h⟩ := except_bind_ok h
    cases h
    exact ⟨hs (by cases e <;> exact hr) ht, trivial⟩

theorem insideBy_kept {d : Inflate} {r : Except Fault Inflate} {g : Fetched} (hr : ∀ t, r = .ok t → d.Kept t)
    (h : insideBy r = .ok g) : d.Kept g.state ∧ g.isElement := by
  obtain ⟨t, ht, h⟩ := except_bind_ok h
  cases h
  exact ⟨hr t ht, trivial⟩

theorem Inflate.fetchHeader_leaves (d : Inflate) :
    Parse.Leaves d (fun a => d.Kept a.2 ∧ Format.isElement a.1.fmt = true) d.fetchHeader := by
  have htake {a : Inflate} (ha : d.Kept a) :
      Parse.Leaves d (fun a : Code × Inflate => d.Kept a.2 ∧ Format.isElement a.1.fmt = true)
        (a.snapshot.take 3 >>= fun r => .ok (⟨.blkhdr, r.1, {}⟩, r.2)) :=
    (Inflate.take_leaves (by decide) (ha.trans a.snapshot_kept)).bind fun r hr => ⟨hr, rfl⟩
  unfold Inflate.fetchHeader
  simp only
  split
  · exact Parse.Leaves.bind (Q := d.Kept) (Parse.leaves_orFault fun a ha => Inflate.enterRetry_kept ha) fun a ha => htake ha
  · exact htake (.refl d)

theorem Inflate.fetchClSymbol_leaves (d : Inflate) :
    Parse.Leaves d (fun a => d.Kept a.2 ∧ Format.isElement a.1.fmt = true) d.fetchClSymbol := by
  refine Parse.Leaves.bind (Q := d.Kept) (Parse.leaves_orFault fun a ha => Inflate.refill_kept (by decide) ha) fun a ha => ?_
  simp only
  split
  · exact ha
  · exact Inflate.consume_leaves (f := fun d => .ok ((⟨.clsym, (a.scratch.clcTable.find a.bits.toNat).sym9, {}⟩ : Code), d)) ha
      fun hc => ⟨hc, rfl⟩

theorem reservedDistance_fmt {btype : BitVec 2} {bits : Nat} {c : Code} (h : reservedDistance btype bits = some c) :
    c.fmt = .dsym := by
  unfold reservedDistance at h
  split at h
  · cases h
  · split at h
    · cases h; rfl
    · split at h
      · cases h; rfl
      · cases h

theorem expandedCode_fmt {y : Nat} {c : Code} (h : expandedCode y = some c) : c.fmt = .llsym := by
  unfold expandedCode at h
  split at h
  · cases h; rfl
  · split at h
    · cases h; rfl
    · split at h
      · cases h; rfl
      · cases h

theorem Inflate.fetchDistance_leaves (d : Inflate) :
    Parse.Leaves d (fun a => d.Kept a.2 ∧ Format.isElement a.1.fmt = true) d.fetchDistance := by
  refine Parse.Leaves.bind (Q := d.Kept) (Parse.leaves_orFault fun a ha => Inflate.refill_kept (by decide) ha) fun a ha => ?_
  simp only
  split
  · split
    · rename_i hc
      exact ⟨ha, by rw [reservedDistance_fmt hc]; rfl⟩
    · exact ha
  · exact Inflate.consume_leaves
      (f := fun d => .ok ((⟨.dsym, (a.distTable.find a.bits.toNat).sym9 % 32, {}⟩ : Code), d)) ha fun hc => ⟨hc, rfl⟩

theorem Inflate.symbolOf_leaves {d e : Inflate} (hit : LargeHit) (h : d.Kept e) :
    Parse.Leaves d (fun a => d.Kept a.2 ∧ Format.isElement a.1.fmt = true) (Inflate.symbolOf hit e) := by
  unfold Inflate.symbolOf
  split
  · exact ⟨h.trans (.of_same ⟨rfl, rfl, rfl, rfl, rfl⟩ ⟨rfl, rfl, rfl⟩), rfl⟩
  · split
    · exact ⟨h, rfl⟩
    · split
      · rename_i hc
        exact ⟨h, by rw [expandedCode_fmt hc]; rfl⟩
      · exact h

theorem Inflate.fetchSymbol_leaves (d : Inflate) :
    Parse.Leaves d (fun a => d.Kept a.2 ∧ Format.isElement a.1.fmt = true) d.fetchSymbol := by
  unfold Inflate.fetchSymbol
  split
  · exact .refl d
  · refine Parse.Leaves.bind (Q := d.Kept) (Parse.leaves_orFault fun a ha => Inflate.refill_kept (by decide) ha) fun a ha => ?_
    have hs := ha.trans a.snapshot_kept
    simp only
    split
    · exact hs
    · exact Inflate.consume_leaves (f := Inflate.symbolOf (a.snapshot.litLenTable.find a.snapshot.bits.toNat)) hs fun hc =>
        Inflate.symbolOf_leaves _ hc

theorem Inflate.storedFromBits_kept {n : Nat} {d t : Inflate} (h : Inflate.storedFromBits n d = .ok t) : d.Kept t := by
  induction n generalizing d with
  | zero => cases h; exact .refl _
  | succ n ih =>
    unfold Inflate.storedFromBits at h
    split at h
    · rename_i hc
      obtain ⟨e, h1, h⟩ := except_bind_ok h
      have he : e.bitsLen = d.bitsLen := by rw [(Inflate.storeByte_ok.1 h1).2]
      have hu : (e.consume 8).underflowed = false :=
        decide_eq_false (by have : (e.consume 8).bitsLen = d.bitsLen - 8 := by rw [← he]; rfl
                            omega)
      refine (Inflate.storeByte_kept h1).trans ((Inflate.consume_kept hu).trans (Inflate.Kept.trans (.of_same ?_ ?_) (ih h)))
      · exact ⟨rfl, rfl, rfl, rfl, rfl⟩
      · exact ⟨rfl, rfl, rfl⟩
    · cases h; exact .refl _

theorem Inflate.storedFromSlice_kept {d t : Inflate} (h : d.storedFromSlice = .ok t) : d.Kept t := by
  unfold Inflate.storedFromSlice at h
  split at h
  · obtain ⟨bs, -, h⟩ := except_bind_ok h
    obtain ⟨m, h1, h⟩ := except_bind_ok h
    cases h
    exact .of_hist ⟨rfl, rfl, rfl, rfl, rfl⟩ (.inl rfl) rfl (writeBytes_wf h1)
  · cases h; exact .refl _

theorem Inflate.copyStored_leaves (d : Inflate) : Parse.Leaves d d.Kept d.copyStored := by
  refine Parse.Leaves.bind (Q := d.Kept) (Parse.leaves_orFault fun a ha => Inflate.storedFromBits_kept ha) fun a ha => ?_
  refine Parse.Leaves.bind (Q := d.Kept) (Parse.leaves_orFault fun b hb => ha.trans (Inflate.storedFromSlice_kept hb)) fun b hb => ?_
  split
  · exact hb.trans (.of_same ⟨rfl, rfl, rfl, rfl, rfl⟩ ⟨rfl, rfl, rfl⟩)
  · split
    · exact hb
    · exact hb

/-- Whatever the parser finds next, what every operation keeps is kept. -/
theorem fetchElement_kept {p : Config.Params} {d : Inflate} {g : Fetched} (h : fetchElement p d = .ok g) :
    d.Kept g.state ∧ g.isElement := by
  unfold fetchElement at h
  split at h
  · cases h; exact ⟨.refl d, trivial⟩
  · split at h
    · exact fetchedBy_kept settleHeader_kept d.fetchClSymbol_leaves h
    · exact insideBy_kept (fun t => settleHeader_kept (d.finishDynamic_leaves p)) h
  · exact fetchedBy_kept settleBody_kept d.fetchDistance_leaves h
  · split at h
    · exact fetchedBy_kept settleHeader_kept d.fetchHeader_leaves h
    · exact fetchedBy_kept settleHeader_kept d.fetchHeader_leaves h
    · exact insideBy_kept (fun t => settleBody_kept d.copyStored_leaves) h
    · split at h
      · cases h
        exact ⟨.of_same ⟨rfl, rfl, rfl, rfl, rfl⟩ ⟨rfl, rfl, rfl⟩, rfl⟩
      · exact fetchedBy_kept settleBody_kept d.fetchSymbol_leaves h
    · exact insideBy_kept (fun t => Inflate.endDecode_kept) h
    · exact insideBy_kept (fun t => Inflate.endDecode_kept) h

end Sys2Proof.Machine
end

section
/-! PROOFS. What any step keeps, over whole instructions and steps: sticky errors, canonical memories, the bit buffer. -/

namespace Sys2Proof.Machine

/-! ### The inflate side -/

theorem elementStep_of_word {s : State} {c : Code} {d : Inflate} {i : Instr}
    (h : fetchElement s.params s.inf = .ok (.word c d)) (hd : decode c = .ok i) :
    elementStep s = runElement i { s with inf := d } := by
  simp only [elementStep, h, hd]

theorem elementStep_of_inside {s : State} {d : Inflate} (h : fetchElement s.params s.inf = .ok (.inside d)) :
    elementStep s = .next { s with inf := d } := by
  simp only [elementStep, h]

/-- Everything a step inside `Decode()` can do: a part that is no element, or an element's meaning. -/
theorem elementStep_next {s t : State} (h : elementStep s = .next t) :
    (∃ d, fetchElement s.params s.inf = .ok (.inside d) ∧ t = { s with inf := d })
      ∨ ∃ c d i, fetchElement s.params s.inf = .ok (.word c d) ∧ HasMeaning c.fmt i
        ∧ exec i { s with inf := d } = .next t := by
  cases hf : fetchElement s.params s.inf with
  | error f => simp only [elementStep, hf] at h; cases h
  | ok g =>
    cases g with
    | inside d => rw [elementStep_of_inside hf] at h; cases h; exact .inl ⟨d, rfl, rfl⟩
    | word c d =>
      cases hc : decode c with
      | error e => simp only [elementStep, hf, hc] at h; cases h
      | ok i =>
        have hm := hasMeaning_of_decode (fetchElement_kept hf).2 hc
        obtain ⟨_, _, _, hx⟩ := id hm
        rw [elementStep_of_word hf hc, (hx _).2] at h
        exact .inr ⟨c, d, i, rfl, hm, h⟩

/-- A step of the machine inside `Decode()` is a step of the loop `Decode()`. -/
theorem stepElement_eq (s : State) : stepElement s = elementStep s := by
  cases hf : fetchElement s.params s.inf with
  | error f => simp only [stepElement, elementStep, hf]
  | ok g =>
    cases g with
    | inside d => simp only [stepElement, elementStep, hf]
    | word c d =>
      cases hc : decode c with
      | error e => simp only [stepElement, elementStep, hf, runWord, hc]
      | ok i =>
        obtain ⟨_, _, _, hx⟩ := hasMeaning_of_decode (fetchElement_kept hf).2 hc
        simp only [stepElement, elementStep, hf, runWord, hc, (hx _).2]

theorem elementStep_kept {s t : State} (h : elementStep s = .next t) : s.inf.Kept t.inf := by
  obtain ⟨d, hf, rfl⟩ | ⟨c, d, i, hf, hm, hx⟩ := elementStep_next h
  · exact (fetchElement_kept hf).1
  · exact (fetchElement_kept hf).1.trans (hm.kept hx)

theorem decodeLoop_kept {n : Nat} {s t : State} (h : decodeLoop n s = .next t) : s.inf.Kept t.inf := by
  induction n generalizing s with
  | zero =>
    unfold decodeLoop at h
    split at h
    · cases h; exact .refl _
    · cases h
  | succ n ih =>
    unfold decodeLoop at h
    split at h
    · cases h; exact .refl _
    · split at h
      · exact (elementStep_kept (by assumption)).trans (ih h)
      · cases h
      · cases h

theorem Inflate.returns_kept (d : Inflate) (st : Status) (n : Int) (data : List Byte) : d.Kept (d.returns st n data) :=
  .of_same ⟨rfl, rfl, rfl, rfl, rfl⟩ ⟨rfl, rfl, rfl⟩

/-- Everything the entry of `IN_STEP` can do: the fold, then the registers of rules R287 and R288. -/
theorem Inflate.enterDecode_ok {d e : Inflate} {slice : List Byte} (h : d.enterDecode slice = .ok e) :
    ∃ f, d.foldIfDue = .ok f ∧ e = f.entered slice d.skip := by
  obtain ⟨f, h1, h2⟩ := except_bind_ok h
  cases h2
  exact ⟨f, h1, rfl⟩

theorem Inflate.enterDecode_kept {d e : Inflate} {slice : List Byte} (h : d.enterDecode slice = .ok e) : d.Kept e := by
  obtain ⟨f, hf, rfl⟩ := Inflate.enterDecode_ok h
  have hd : d.Kept f := by
    obtain ⟨-, rfl⟩ | ⟨-, hw, hf⟩ := Inflate.foldIfDue_ok hf
    · exact .refl _
    · exact .of_hist (by rw [hf]; exact ⟨rfl, rfl, rfl, rfl, rfl⟩) (.inl (by rw [hf])) (by rw [hf]) hw
  refine hd.trans (.of_memories ⟨rfl, rfl, rfl, rfl, rfl⟩ fun hm => ?_)
  rw [Inflate.memoriesWf_iff] at hm ⊢
  exact ⟨Cells.ofList_wf slice, hm.2⟩

theorem execInStep_kept {slice : List Byte} {s t : State} (h : execInStep slice s = .next t) : s.inf.Kept t.inf := by
  unfold execInStep at h
  split at h
  · cases h; exact s.inf.returns_kept _ _ _
  · split at h
    · cases h; exact s.inf.returns_kept _ _ _
    · split at h
      · cases h
      · exact (Inflate.enterDecode_kept (by assumption)).trans (decodeLoop_kept h)

theorem Inflate.readNothing_kept (d : Inflate) : d.Kept d.readNothing := by
  unfold Inflate.readNothing
  split
  · exact d.returns_kept _ _ _
  · split
    · exact .of_same ⟨rfl, rfl, rfl, rfl, rfl⟩ ⟨rfl, rfl, rfl⟩
    · exact d.returns_kept _ _ _

theorem Inflate.read_kept {n : Nat} {d t : Inflate} (h : d.read n = .ok t) : d.Kept t := by
  obtain ⟨data, -, h⟩ := except_bind_ok h
  split at h
  · cases h; exact .of_same ⟨rfl, rfl, rfl, rfl, rfl⟩ ⟨rfl, rfl, rfl⟩
  · cases h; exact d.readNothing_kept

/-- What every instruction of the inflate side but IN_RESET keeps. -/
theorem exec_kept {i : Instr} {s t : State} (hi : onInflateSide i = true) (hr : i ≠ .inReset)
    (h : exec i s = .next t) : s.inf.Kept t.inf := by
  obtain ⟨fmt, hm⟩ | rfl | ⟨slice, rfl⟩ | ⟨n, rfl⟩ | rfl := inflateSide_cases hi
  · exact hm.kept h
  · exact absurd rfl hr
  · exact execInStep_kept h
  · rw [exec_inRead] at h
    obtain ⟨d, hd, rfl⟩ := State.onInf_next h
    exact Inflate.read_kept hd
  · rw [exec_inClose] at h
    cases h
    exact s.inf.returns_kept _ _ _

/-- IN_RESET keeps the memories in canonical form and leaves no stray bits. -/
theorem Inflate.clear_kept (d : Inflate) (st : Status) : (d.memoriesWf = true → (d.clear.returns st 0 []).memoriesWf = true)
    ∧ (d.buffersOk → (d.clear.returns st 0 []).buffersOk) := by
  refine ⟨fun h => ?_, fun h => ⟨bufferOk_zero, h.2⟩⟩
  rw [Inflate.memoriesWf_iff] at h ⊢
  exact ⟨Cells.empty_wf, h.2⟩

/-- Any instruction of the inflate side keeps the memories in canonical form and leaves no stray bits. -/
theorem exec_inflate_kept {i : Instr} {s t : State} (hi : onInflateSide i = true) (h : exec i s = .next t) :
    (s.inf.memoriesWf = true → t.inf.memoriesWf = true) ∧ (s.inf.buffersOk → t.inf.buffersOk) := by
  by_cases hr : i = .inReset
  · subst hr
    rw [exec_inReset] at h
    cases h
    exact s.inf.clear_kept .ok
  · exact ⟨(exec_kept hi hr h).wf, (exec_kept hi hr h).buffers⟩

/-! ### What results have -/

/-- A result, if there is one, has the property. -/
def ExceptYields {ε α : Type} (Q : α → Prop) : Except ε α → Prop
  | .ok a => Q a
  | .error _ => True

theorem ExceptYields.bind {ε α β : Type} {Q : α → Prop} {R : β → Prop} {r : Except ε α} {f : α → Except ε β}
    (h : ExceptYields Q r) (hf : ∀ a, Q a → ExceptYields R (f a)) : ExceptYields R (r >>= f) := by
  cases r with
  | ok a => exact hf a h
  | error e => trivial

theorem exceptYields_iff {ε α : Type} {Q : α → Prop} {r : Except ε α} :
    ExceptYields Q r ↔ ∀ a, r = .ok a → Q a := by
  cases r with
  | ok a => exact ⟨fun h b hb => Except.ok.inj hb ▸ h, fun h => h a rfl⟩
  | error e => exact ⟨nofun, fun _ => trivial⟩

theorem ExceptYields.orDfFault {α : Type} {Q : α → Prop} {r : Except Fault α} (h : ExceptYields Q r) :
    ExceptYields Q (orDfFault r) := by
  cases r <;> exact h

/-- An operation whose result nothing is said of. -/
theorem exceptYields_true {ε α : Type} (r : Except ε α) : ExceptYields (fun _ => True) r := by
  cases r <;> trivial

/-! ### The memories of the deflate side -/

/-- Canonical memories stay canonical. -/
def Deflate.KeepsWf (d t : Deflate) : Prop := d.memoriesWf = true → t.memoriesWf = true

theorem Deflate.KeepsWf.refl (d : Deflate) : d.KeepsWf d := id

theorem Deflate.KeepsWf.trans {a b c : Deflate} (h1 : a.KeepsWf b) (h2 : b.KeepsWf c) : a.KeepsWf c := fun h => h2 (h1 h)

theorem Deflate.memoriesWf_iff (d : Deflate) : d.memoriesWf = true ↔ d.outBuf.wf = true ∧ d.winBuf.wf = true
    ∧ d.tokBuf.wf = true ∧ d.hashTable.slotsWf = true ∧ d.litCodes.slotsWf = true ∧ d.distCodes.slotsWf = true := by
  simp only [Deflate.memoriesWf, Bool.and_eq_true, and_assoc]

/-- The memory `OUT` rewritten in canonical form, the other memories as they were. -/
theorem Deflate.KeepsWf.of_out {d t : Deflate} (ho : d.outBuf.wf = true → t.outBuf.wf = true)
    (hs : t.winBuf = d.winBuf ∧ t.tokBuf = d.tokBuf ∧ t.hashTable = d.hashTable ∧ t.litCodes = d.litCodes
      ∧ t.distCodes = d.distCodes) : d.KeepsWf t := by
  obtain ⟨h1, h2, h3, h4, h5⟩ := hs
  intro h
  rw [Deflate.memoriesWf_iff] at h ⊢
  rw [h1, h2, h3, h4, h5]
  exact ⟨ho h.1, h.2⟩

theorem Deflate.putbits_keepsWf (d : Deflate) (v n : Nat) : ExceptYields d.KeepsWf (d.putbits v n) :=
  exceptYields_iff.2 fun t h => by
    obtain ⟨hs, hw⟩ := Deflate.putbits_same h
    exact .of_out hw (by rw [hs]; exact ⟨rfl, rfl, rfl, rfl, rfl⟩)

theorem Deflate.flushToByte_keepsWf (d : Deflate) : ExceptYields d.KeepsWf d.flushToByte :=
  exceptYields_iff.2 fun t h => by
    obtain ⟨m, hm, rfl⟩ := Deflate.flushToByte_ok h
    exact .of_out (writeLE_wf hm) ⟨rfl, rfl, rfl, rfl, rfl⟩

theorem Deflate.drainOut_keepsWf (d : Deflate) : ExceptYields d.KeepsWf d.drainOut :=
  exceptYields_iff.2 fun t h => by
    rw [(Deflate.drainOut_ok h).1]
    exact .of_out id ⟨rfl, rfl, rfl, rfl, rfl⟩

theorem Deflate.guardOut_keepsWf (d : Deflate) : ExceptYields d.KeepsWf d.guardOut := by
  unfold Deflate.guardOut
  split
  · exact d.drainOut_keepsWf
  · exact .refl d

theorem Deflate.hput_keepsWf (d : Deflate) (v n : Nat) : ExceptYields d.KeepsWf (d.hput v n) :=
  d.guardOut_keepsWf.bind fun e he => exceptYields_iff.2 fun t h =>
    he.trans (exceptYields_iff.1 (e.putbits_keepsWf v n) t (orDfFault_next h))

theorem Deflate.hflush_keepsWf (d : Deflate) : ExceptYields d.KeepsWf d.hflush :=
  d.guardOut_keepsWf.bind fun e he => exceptYields_iff.2 fun t h =>
    he.trans (exceptYields_iff.1 e.flushToByte_keepsWf t (orDfFault_next h))

/-- What follows an operation that keeps the memories canonical. -/
theorem Deflate.KeepsWf.then {ε : Type} {d e : Deflate} {r : Except ε Deflate} (h : d.KeepsWf e)
    (hr : ExceptYields e.KeepsWf r) : ExceptYields d.KeepsWf r :=
  exceptYields_iff.2 fun t ht => h.trans (exceptYields_iff.1 hr t ht)

theorem Deflate.hputAll_keepsWf (gs : List (Nat × Nat)) (d : Deflate) : ExceptYields d.KeepsWf (Deflate.hputAll gs d) := by
  induction gs generalizing d with
  | nil => exact .refl d
  | cons g gs ih => exact (d.hput_keepsWf g.1 g.2).bind fun e he => he.then (ih e)

theorem Deflate.writeDynamicHeader_keepsWf (bfinal : Bool) (p : Config.Params) (d : Deflate) :
    ExceptYields d.KeepsWf (d.writeDynamicHeader bfinal p) :=
  Deflate.KeepsWf.then (fun h => h) (Deflate.hputAll_keepsWf _ _)

theorem Deflate.emptyFinal_keepsWf (d : Deflate) : ExceptYields d.KeepsWf d.emptyFinal :=
  (d.hput_keepsWf _ _).bind fun e he => he.then (e.hput_keepsWf _ _)

theorem Deflate.syncMarker_keepsWf (d : Deflate) : ExceptYields d.KeepsWf d.syncMarker :=
  (d.hput_keepsWf _ _).bind fun e he => (he.then e.hflush_keepsWf).bind fun f hf =>
    (hf.then (f.hput_keepsWf _ _)).bind fun g hg => (hg.then g.hflush_keepsWf).bind fun k hk =>
      hk.then k.drainOut_keepsWf

theorem Deflate.sealStream_keepsWf (d : Deflate) : ExceptYields d.KeepsWf d.sealStream :=
  d.hflush_keepsWf.bind fun _ he => (he.then (Deflate.drainOut_keepsWf _)).bind fun _ hf => hf

theorem Deflate.storeToken_keepsWf (d : Deflate) (t : Word) : ExceptYields d.KeepsWf (d.storeToken t) :=
  exceptYields_iff.2 fun e h => by
    obtain ⟨-, rfl⟩ := Deflate.storeToken_ok.1 h
    intro hw
    rw [Deflate.memoriesWf_iff] at hw ⊢
    obtain ⟨h1, h2, h3, h4⟩ := hw
    exact ⟨h1, h2, Cells.put_wf _ _ _ h3, h4⟩

theorem Deflate.countLit_keepsWf (d : Deflate) (i : Nat) : d.KeepsWf (d.countLit i) := by
  intro hw
  rw [Deflate.memoriesWf_iff] at hw ⊢
  obtain ⟨h1, h2, h3, h4, h5, h6⟩ := hw
  exact ⟨h1, h2, h3, h4, Cells.setSlot_slotsWf _ _ _ h5, h6⟩

theorem Deflate.countDist_keepsWf (d : Deflate) (i : Nat) : d.KeepsWf (d.countDist i) := by
  intro hw
  rw [Deflate.memoriesWf_iff] at hw ⊢
  obtain ⟨h1, h2, h3, h4, h5, h6⟩ := hw
  exact ⟨h1, h2, h3, h4, h5, Cells.setSlot_slotsWf _ _ _ h6⟩

theorem Deflate.setHash_keepsWf (d : Deflate) (i : Nat) (v : Half) :
    d.KeepsWf { d with hashTable := d.hashTable.setSlot i v } := by
  intro hw
  rw [Deflate.memoriesWf_iff] at hw ⊢
  obtain ⟨h1, h2, h3, h4, h5, h6⟩ := hw
  exact ⟨h1, h2, h3, Cells.setSlot_slotsWf _ _ _ h4, h5, h6⟩

theorem Deflate.emitMatch_keepsWf (d : Deflate) (len dist : Nat) : ExceptYields d.KeepsWf (d.emitMatch len dist) :=
  (d.storeToken_keepsWf _).bind fun e he => he.trans ((e.countLit_keepsWf _).trans (Deflate.countDist_keepsWf _ _))

theorem Deflate.emitLiteral_keepsWf (d : Deflate) (b : Byte) : ExceptYields d.KeepsWf (d.emitLiteral b) :=
  (d.storeToken_keepsWf _).bind fun e he => he.trans (e.countLit_keepsWf _)

theorem Deflate.emitWinByte_keepsWf (d : Deflate) (p : Nat) : ExceptYields d.KeepsWf (d.emitWinByte p) :=
  (exceptYields_true _).bind fun b _ => d.emitLiteral_keepsWf b

theorem Deflate.appendEob_keepsWf (d : Deflate) : ExceptYields d.KeepsWf d.appendEob :=
  (d.storeToken_keepsWf _).bind fun e he => he.trans (e.countLit_keepsWf _)

theorem Deflate.enterHash_keepsWf (relative : Int) (p : Nat) (d : Deflate) :
    ExceptYields d.KeepsWf (Deflate.enterHash relative p d) :=
  (exceptYields_true _).bind fun _ _ => d.setHash_keepsWf _ _

theorem Deflate.updateHash3_keepsWf (relative : Int) (offset : Nat) (d : Deflate) :
    ExceptYields d.KeepsWf (Deflate.updateHash3 relative offset d) :=
  (d.enterHash_keepsWf _ _).bind fun e he => (he.then (e.enterHash_keepsWf _ _)).bind fun f hf =>
    hf.then (f.enterHash_keepsWf _ _)

/-- Canonical memories stay canonical where an operation also covers some bytes. -/
def Deflate.CoversWf {α : Type} (d : Deflate) (r : α × Deflate) : Prop := d.KeepsWf r.2

theorem Deflate.emitLong_keepsWf (matchLen dist fuel n : Nat) (d : Deflate) :
    ExceptYields d.CoversWf (Deflate.emitLong matchLen dist fuel n d) := by
  induction fuel generalizing n d with
  | zero => exact Deflate.KeepsWf.refl d
  | succ fuel ih =>
    unfold Deflate.emitLong
    split
    · exact (d.emitMatch_keepsWf _ _).bind fun e he => exceptYields_iff.2 fun r hr =>
        he.trans (exceptYields_iff.1 (ih _ e) r hr)
    · exact Deflate.KeepsWf.refl d

theorem Deflate.emitMatches_keepsWf (d : Deflate) (matchLen dist : Nat) :
    ExceptYields d.CoversWf (d.emitMatches matchLen dist) := by
  refine (d.emitLong_keepsWf _ _ _ _).bind fun r hr => ?_
  simp only
  split
  · exact (Deflate.KeepsWf.then hr (r.2.emitMatch_keepsWf _ _)).bind fun e he => he
  · exact hr

theorem Deflate.candidate_keepsWf (relative : Int) (offset : Nat) (d : Deflate) :
    ExceptYields d.CoversWf (Deflate.candidate relative offset d) := by
  refine (exceptYields_true (d.hashIndex offset)).bind fun h _ => ?_
  simp only
  split
  · exact d.setHash_keepsWf _ _
  · exact d.setHash_keepsWf _ _

theorem Deflate.tryMatch_keepsWf (relative : Int) (offset dist : Nat) (d : Deflate) :
    ExceptYields d.CoversWf (Deflate.tryMatch relative offset dist d) := by
  refine (exceptYields_true (d.matchLength (offset - dist) offset)).bind fun n _ => ?_
  split
  · refine (d.emitMatches_keepsWf _ _).bind fun r hr => ?_
    simp only
    split
    · exact (Deflate.KeepsWf.then hr (r.2.updateHash3_keepsWf _ _)).bind fun e he => he
    · exact hr
  · exact Deflate.KeepsWf.refl d

/-- The bytes a candidate covers, 0 without one. -/
def Deflate.tryCandidate (relative : Int) (offset : Nat) (c : Option Nat) (d : Deflate) : Except Fault (Nat × Deflate) :=
  match c with
  | some dist => Deflate.tryMatch relative offset dist d
  | none => .ok (0, d)

/-- What a position becomes when so many bytes have been covered: nothing more, or a literal (rule R310). -/
def Deflate.stepBy (offset n : Nat) (d : Deflate) : Except Fault (Nat × Deflate) :=
  if 0 < n then .ok (offset + n, d) else d.emitWinByte offset >>= fun e => .ok (offset + 1, e)

/-- One position of the matcher, written out (rule R310). -/
theorem Deflate.matchStep_eq (relative : Int) (offset : Nat) (d : Deflate) : Deflate.matchStep relative offset d =
    Deflate.candidate relative offset d >>= fun r =>
      Deflate.tryCandidate relative offset r.1 r.2 >>= fun q => Deflate.stepBy offset q.1 q.2 := by
  unfold Deflate.matchStep Deflate.tryCandidate
  congr 1
  funext r
  obtain ⟨c, e⟩ := r
  cases c <;> rfl

theorem Deflate.matchStep_keepsWf (relative : Int) (offset : Nat) (d : Deflate) :
    ExceptYields d.CoversWf (Deflate.matchStep relative offset d) := by
  rw [Deflate.matchStep_eq]
  refine (d.candidate_keepsWf _ _).bind fun r hr => ExceptYields.bind (Q := d.CoversWf) ?_ fun q hq => ?_
  · unfold Deflate.tryCandidate
    split
    · exact exceptYields_iff.2 fun q hq => Deflate.KeepsWf.trans hr (exceptYields_iff.1 (r.2.tryMatch_keepsWf _ _ _) q hq)
    · exact hr
  · unfold Deflate.stepBy
    split
    · exact hq
    · exact (Deflate.KeepsWf.then hq (q.2.emitWinByte_keepsWf _)).bind fun e he => he

theorem Deflate.matchLoop_keepsWf (relative : Int) (fuel offset : Nat) (d : Deflate) :
    ExceptYields d.CoversWf (Deflate.matchLoop relative fuel offset d) := by
  induction fuel generalizing offset d with
  | zero => exact Deflate.KeepsWf.refl d
  | succ fuel ih =>
    unfold Deflate.matchLoop
    split
    · exact (d.matchStep_keepsWf _ _).bind fun r hr => exceptYields_iff.2 fun q hq =>
        Deflate.KeepsWf.trans hr (exceptYields_iff.1 (ih r.1 r.2) q hq)
    · exact Deflate.KeepsWf.refl d

theorem Deflate.literalLoop_keepsWf (fuel offset : Nat) (d : Deflate) :
    ExceptYields d.CoversWf (Deflate.literalLoop fuel offset d) := by
  induction fuel generalizing offset d with
  | zero => exact Deflate.KeepsWf.refl d
  | succ fuel ih =>
    unfold Deflate.literalLoop
    split
    · exact (d.emitWinByte_keepsWf _).bind fun e he => exceptYields_iff.2 fun q hq =>
        Deflate.KeepsWf.trans he (exceptYields_iff.1 (ih _ e) q hq)
    · exact Deflate.KeepsWf.refl d

theorem Deflate.matchFrom_keepsWf (flush : Bool) (d : Deflate) : ExceptYields d.CoversWf (d.matchFrom flush) := by
  unfold Deflate.matchFrom
  simp only
  split
  · exact d.literalLoop_keepsWf _ _
  · refine (d.matchLoop_keepsWf _ _ _).bind fun r hr => ?_
    split
    · exact exceptYields_iff.2 fun q hq => Deflate.KeepsWf.trans hr (exceptYields_iff.1 (r.2.literalLoop_keepsWf _ _) q hq)
    · exact hr

theorem Deflate.runMatcher_keepsWf (flush : Bool) (d : Deflate) : ExceptYields d.KeepsWf (d.runMatcher flush) :=
  (d.matchFrom_keepsWf flush).bind fun _ hr => hr

theorem Deflate.shift_keepsWf (d : Deflate) : ExceptYields d.KeepsWf d.shift :=
  exceptYields_iff.2 fun t h => by
    obtain ⟨-, rfl⟩ | ⟨-, hw, ht⟩ := Deflate.shift_ok h
    · exact .refl _
    · intro hm
      rw [Deflate.memoriesWf_iff] at hm ⊢
      rw [ht]
      exact ⟨hm.1, hw hm.2.1, hm.2.2⟩

theorem Deflate.accumulate_keepsWf (data : List Byte) (d : Deflate) : ExceptYields d.CoversWf (d.accumulate data) := by
  refine d.shift_keepsWf.bind fun e he => exceptYields_iff.2 fun r hr => ?_
  obtain ⟨m, hm, h⟩ := except_bind_ok hr
  cases h
  refine he.trans fun hw => ?_
  rw [Deflate.memoriesWf_iff] at hw ⊢
  exact ⟨hw.1, writeBytes_wf hm hw.2.1, hw.2.2⟩

/-- The slots built from a list of values are in canonical form. -/
theorem slotsFrom_rising (i : Nat) (vs : List Word) :
    Cells.rising i (slotsFrom i vs) = true ∧ ∀ c ∈ slotsFrom i vs, c.2 ≠ 0 := by
  induction vs generalizing i with
  | nil => exact ⟨rfl, by simp [slotsFrom]⟩
  | cons v vs ih =>
    obtain ⟨h1, h2⟩ := ih (i + 1)
    unfold slotsFrom
    split
    · exact ⟨Cells.rising_mono (Nat.le_succ i) _ h1, h2⟩
    · exact ⟨by simp [Cells.rising, h1], by simpa using ⟨by assumption, fun a b h => h2 (a, b) h⟩⟩

theorem slotsFrom_slotsWf (vs : List Word) : (⟨slotsFrom 0 vs⟩ : Cells 32).slotsWf = true := by
  obtain ⟨h1, h2⟩ := slotsFrom_rising 0 vs
  simp only [Cells.slotsWf, Cells.wf, h1, Bool.true_and, List.all_eq_true]
  exact fun c hc => bne_iff_ne.2 (h2 c hc)

theorem Deflate.buildCodes_keepsWf (recLL recD : List Word) (d : Deflate) : d.KeepsWf (d.buildCodes recLL recD) := by
  intro hw
  rw [Deflate.memoriesWf_iff] at hw ⊢
  obtain ⟨h1, h2, h3, h4, -⟩ := hw
  exact ⟨h1, h2, h3, h4, slotsFrom_slotsWf _, slotsFrom_slotsWf _⟩

theorem Deflate.beginBlock_keepsWf (bfinal : Bool) (p : Config.Params) (d : Deflate) :
    ExceptYields d.KeepsWf (d.beginBlock bfinal p) := by
  refine d.appendEob_keepsWf.orDfFault.bind fun e he => ?_
  refine (he.then (Deflate.KeepsWf.then (fun h => h) ((e.generateLengths p).writeDynamicHeader_keepsWf bfinal p))).bind
    fun f hf => ?_
  exact hf.trans (f.buildCodes_keepsWf _ _)

theorem Deflate.encodeToken_keepsWf (litlen dist extra : Nat) (d : Deflate) :
    ExceptYields d.KeepsWf (d.encodeToken litlen dist extra) :=
  exceptYields_iff.2 fun t h => by
    obtain ⟨hs, hw⟩ := Deflate.encodeToken_same h
    exact .of_out hw (by rw [hs]; exact ⟨rfl, rfl, rfl, rfl, rfl⟩)

theorem Deflate.finishBlock_keepsWf (d : Deflate) : d.KeepsWf d.finishBlock := by
  intro hw
  rw [Deflate.memoriesWf_iff] at hw ⊢
  obtain ⟨h1, h2, h3, h4, -⟩ := hw
  exact ⟨h1, h2, h3, h4, Cells.empty_slotsWf, Cells.empty_slotsWf⟩

theorem Deflate.clear_keepsWf (p : Config.Params) (level : Int) (window : Nat) (d : Deflate) :
    d.KeepsWf (d.clear p level window) := by
  intro hw
  rw [Deflate.memoriesWf_iff] at hw ⊢
  obtain ⟨h1, h2, h3, -⟩ := hw
  exact ⟨h1, h2, h3, Cells.empty_slotsWf, Cells.empty_slotsWf, Cells.empty_slotsWf⟩

/-- After a sink error the memories hold nothing, the tables free values in canonical form (log 11). -/
theorem Deflate.afterSinkError_wf (n e : Nat) (d : Deflate) : (d.afterSinkError n e).memoriesWf = true := by
  rw [Deflate.memoriesWf_iff]
  exact ⟨Cells.empty_wf, Cells.empty_wf, Cells.empty_wf, Cells.ofSlots_slotsWf _, Cells.ofSlots_slotsWf _,
    Cells.ofSlots_slotsWf _⟩

/-! ### The driver -/

/-- Canonical memories stay canonical over an operation of the driver. -/
def State.KeepsDfWf (s t : State) : Prop := s.df.KeepsWf t.df

theorem State.KeepsDfWf.then {s t : State} {r : Drive State} (h : s.KeepsDfWf t) (hr : ExceptYields t.KeepsDfWf r) :
    ExceptYields s.KeepsDfWf r :=
  exceptYields_iff.2 fun u hu => Deflate.KeepsWf.trans h (exceptYields_iff.1 hr u hu)

theorem State.drive_keepsWf (s : State) {r : Emit Deflate} (h : ExceptYields s.df.KeepsWf r) :
    ExceptYields s.KeepsDfWf (s.drive r) :=
  exceptYields_iff.2 fun t ht => by
    obtain ⟨d, hd, rfl⟩ := State.drive_ok ht
    exact exceptYields_iff.1 h d hd

theorem runToken_keepsWf (i : Instr) (s : State) : ExceptYields s.KeepsDfWf (driveOutcome (runToken i s)) := by
  have htok (litlen dist extra : Nat) :
      ExceptYields s.KeepsDfWf (driveOutcome (s.onDf (s.df.encodeToken litlen dist extra))) := by
    rw [driveOutcome_onDf]
    exact s.drive_keepsWf (s.df.encodeToken_keepsWf _ _ _).orDfFault
  cases i with
  | tlit b => exact htok _ _ _
  | teob => exact htok _ _ _
  | tmatch l d x => exact htok _ _ _
  | _ => trivial

theorem Deflate.fetchToken_keepsWf (d : Deflate) : ExceptYields d.CoversWf d.fetchToken :=
  d.guardOut_keepsWf.bind fun _ he => (exceptYields_true _).bind fun _ _ => he

theorem tokenStep_keepsWf (s : State) : ExceptYields s.KeepsDfWf (tokenStep s) := by
  have hf := exceptYields_iff.1 s.df.fetchToken_keepsWf
  unfold tokenStep
  split
  · trivial
  · trivial
  · rename_i t d hd
    split
    · exact State.KeepsDfWf.then (t := { s with df := d }) (hf _ hd) (runToken_keepsWf _ _)
    · trivial

theorem tokenLoop_keepsWf (n : Nat) (s : State) : ExceptYields s.KeepsDfWf (tokenLoop n s) := by
  induction n generalizing s with
  | zero => exact Deflate.KeepsWf.refl s.df
  | succ n ih =>
    unfold tokenLoop
    split
    · exact (tokenStep_keepsWf s).bind fun t ht => ht.then (ih t)
    · exact Deflate.KeepsWf.refl s.df

theorem emitBlock_keepsWf (bfinal : Bool) (s : State) : ExceptYields s.KeepsDfWf (emitBlock bfinal s) :=
  (s.drive_keepsWf (s.df.beginBlock_keepsWf _ _)).bind fun t ht => (ht.then (tokenLoop_keepsWf _ t)).bind fun u hu =>
    Deflate.KeepsWf.trans hu u.df.finishBlock_keepsWf

theorem blockIfDue_keepsWf (flush final : Bool) (s : State) : ExceptYields s.KeepsDfWf (blockIfDue flush final s) := by
  unfold blockIfDue
  split
  · exact emitBlock_keepsWf _ s
  · exact Deflate.KeepsWf.refl s.df

theorem compressLoop_keepsWf (flush final : Bool) (n : Nat) (s : State) :
    ExceptYields s.KeepsDfWf (compressLoop flush final n s) := by
  induction n generalizing s with
  | zero => trivial
  | succ n ih =>
    rw [compressLoop_succ]
    refine (s.drive_keepsWf (s.df.runMatcher_keepsWf flush).orDfFault).bind fun t ht =>
      (ht.then (blockIfDue_keepsWf flush final t)).bind fun u hu => ?_
    split
    · exact hu
    · exact hu.then (ih u)

theorem compressBlock_keepsWf (flush final : Bool) (s : State) : ExceptYields s.KeepsDfWf (compressBlock flush final s) := by
  unfold compressBlock
  split
  · exact s.drive_keepsWf s.df.emptyFinal_keepsWf
  · exact compressLoop_keepsWf _ _ _ s

theorem writeLoop_keepsWf (n pos : Nat) (data : List Byte) (s : State) :
    ExceptYields s.KeepsDfWf (writeLoop n pos data s) := by
  induction n generalizing pos data s with
  | zero =>
    unfold writeLoop
    split
    · exact Deflate.KeepsWf.refl s.df
    · trivial
  | succ n ih =>
    by_cases hdata : data = []
    · subst hdata
      exact Deflate.KeepsWf.refl s.df
    cases ha : s.df.accumulate data with
    | error f => rw [writeLoop, if_neg hdata, ha]; trivial
    | ok r =>
      have hr : s.KeepsDfWf { s with df := r.2.returns .ok (pos + r.1) } :=
        exceptYields_iff.1 (s.df.accumulate_keepsWf data) r ha
      rw [writeLoop_of_accumulate hdata ha]
      refine ExceptYields.bind (Q := s.KeepsDfWf) ?_ fun t ht => ht.then (ih _ _ t)
      split
      · exact hr.then (compressBlock_keepsWf _ _ _)
      · exact hr

/-- The end of a deflate command leaves canonical memories, whichever way the command ended. -/
theorem finishDf_wf {s t : State} {r : Drive State} (hs : s.df.memoriesWf = true) (hr : ExceptYields s.KeepsDfWf r)
    (h : finishDf r = .next t) : t.df.memoriesWf = true := by
  cases r with
  | ok u => cases h; exact hr hs
  | error e =>
    cases e with
    | fault f => cases h
    | refused r => cases h
    | sink e u => cases h; exact Deflate.afterSinkError_wf _ _ _

/-- A command that may be barred leaves canonical memories. -/
theorem wf_of_barred {i : Instr} {g : State → Drive State} {s t : State} (hs : s.df.memoriesWf = true)
    (hi : (∃ data, i = .dfWrite data) ∨ i = .dfFlush ∨ i = .dfClose)
    (hopen : s.df.barred = none → exec i s = finishDf (g { s with df := s.df.returns .ok 0 }))
    (hg : ∀ s, ExceptYields s.KeepsDfWf (g s)) (h : exec i s = .next t) : t.df.memoriesWf = true := by
  cases hb : s.df.barred with
  | some st => rw [exec_of_barred hi hb] at h; cases h; exact hs
  | none => rw [hopen hb] at h; exact finishDf_wf (s := { s with df := s.df.returns .ok 0 }) hs (hg _) h

/-- Every instruction of the deflate side leaves canonical memories. -/
theorem exec_deflate_wf {i : Instr} {s t : State} (hi : onInflateSide i = false) (hs : s.df.memoriesWf = true)
    (h : exec i s = .next t) : t.df.memoriesWf = true := by
  obtain ⟨litlen, dist, extra, hx⟩ | ⟨level, window, rfl⟩ | ⟨data, rfl⟩ | rfl | rfl := deflateSide_cases hi
  · rw [hx] at h
    obtain ⟨d, hd, rfl⟩ := State.onDf_next h
    exact exceptYields_iff.1 (s.df.encodeToken_keepsWf _ _ _) d hd hs
  · change execDfReset level window s = .next t at h
    unfold execDfReset at h
    split at h
    · cases h; exact s.df.clear_keepsWf s.params level window hs
    · cases h; exact hs
  · exact wf_of_barred hs (.inl ⟨data, rfl⟩) (exec_dfWrite_of_open data) (writeLoop_keepsWf _ 0 data) h
  · exact wf_of_barred hs (.inr (.inl rfl)) exec_dfFlush_of_open
      (fun s => (compressBlock_keepsWf _ _ s).bind fun t ht => ht.then (t.drive_keepsWf t.df.syncMarker_keepsWf)) h
  · exact wf_of_barred hs (.inr (.inr rfl)) exec_dfClose_of_open
      (fun s => (compressBlock_keepsWf _ _ s).bind fun t ht => ht.then (t.drive_keepsWf t.df.sealStream_keepsWf)) h

/-! ### Instructions and steps -/

/-- Settles O55: an operation keeps a latched error; a deflate command is barred by its own. -/
theorem errorsAreSticky : Obligations.ErrorsAreSticky := by
  unfold Obligations.ErrorsAreSticky
  intro i s t h
  obtain ⟨-, -, hinf, hdf⟩ := sidesIndependent i s t h
  refine ⟨fun he hr => ?_, fun he hr => ?_⟩
  · cases hi : onInflateSide i with
    | true => exact (exec_kept hi hr h).err he
    | false => rw [hdf hi]; exact he
  · cases hi : onInflateSide i with
    | true => rw [(hinf hi).1]
    | false =>
      obtain ⟨e, he⟩ := Option.ne_none_iff_exists'.1 he
      have hb := Deflate.barred_of_outErr he
      obtain ⟨litlen, dist, extra, hx⟩ | ⟨level, window, rfl⟩ | ⟨data, rfl⟩ | rfl | rfl := deflateSide_cases hi
      · rw [hx] at h
        obtain ⟨d, hd, rfl⟩ := State.onDf_next h
        show d.outErr = _
        rw [(Deflate.encodeToken_same hd).1]
      · exact absurd rfl (hr level window)
      · rw [exec_of_barred (.inl ⟨data, rfl⟩) hb] at h; cases h; rfl
      · rw [exec_of_barred (.inr (.inl rfl)) hb] at h; cases h; rfl
      · rw [exec_of_barred (.inr (.inr rfl)) hb] at h; cases h; rfl

/-- Everything a step can do: an element of `Decode()`, a part of the token loop, an instruction, or nothing. -/
theorem step_next {s t : State} (h : step s = .next t) :
    (s.inf.stage ≠ .idle ∧ elementStep s = .next t)
      ∨ (s.inf.stage = .idle ∧ s.df.stage ≠ .idle ∧ stepToken s = .next t)
      ∨ (s.inf.stage = .idle ∧ s.df.stage = .idle
        ∧ (t = s ∨ ∃ cs i, (encode i).fmt = .cmd ∧ exec i { s with commands := cs } = .next t)) := by
  unfold step at h
  split at h
  · exact .inl ⟨by assumption, stepElement_eq s ▸ h⟩
  · rename_i h1
    split at h
    · exact .inr (.inl ⟨not_not.1 h1, by assumption, h⟩)
    · rename_i h2
      refine .inr (.inr ⟨not_not.1 h1, not_not.1 h2, ?_⟩)
      unfold stepCommand at h
      split at h
      · cases h; exact .inl rfl
      · unfold runWord at h
        split at h
        · exact .inr ⟨_, _, (encode_of_decodeCmd (by assumption)).2.1, h⟩
        · cases h

/-- A token is on the deflate side. -/
theorem not_onInflateSide_of_token {i : Instr} (h : (encode i).fmt = .token) : onInflateSide i = false := by
  cases i with
  | tlit _ | teob | tmatch _ _ _ => rfl
  | _ => cases h

theorem elementStep_df {s t : State} (h : elementStep s = .next t) : t.df = s.df := by
  obtain ⟨r, hr⟩ := elementStep_infLocal s.params s.inf
  rw [hr s rfl rfl] at h
  obtain ⟨d, -, rfl⟩ := State.onInf_next h
  rfl

/-- A part of the token loop touches the deflate side only, and leaves canonical memories. -/
theorem stepToken_next {s t : State} (h : stepToken s = .next t) :
    t.inf = s.inf ∧ (s.df.memoriesWf = true → t.df.memoriesWf = true) := by
  have hf := exceptYields_iff.1 s.df.fetchToken_keepsWf
  unfold stepToken at h
  split at h
  · split at h
    · cases h
    · cases h; exact ⟨rfl, fun _ => Deflate.afterSinkError_wf _ _ _⟩
    · rename_i w d hd
      unfold runWord at h
      split at h
      · rename_i i hi
        have hside := not_onInflateSide_of_token (encode_of_decodeToken hi).2.1
        exact ⟨(sidesIndependent _ _ _ h).2.2.2 hside, fun hs => exec_deflate_wf hside (hf _ hd hs) h⟩
      · cases h
  · cases h; exact ⟨rfl, s.df.finishBlock_keepsWf⟩

theorem State.memoriesWf_iff (s : State) : s.memoriesWf = true ↔ s.inf.memoriesWf = true ∧ s.df.memoriesWf = true := by
  simp only [State.memoriesWf, Bool.and_eq_true]

/-- Settles O56: each side keeps its memories in canonical form. -/
theorem stepKeepsMemories : Obligations.StepKeepsMemories := by
  unfold Obligations.StepKeepsMemories
  intro s t hs h
  rw [State.memoriesWf_iff] at hs ⊢
  obtain ⟨hinf, hdf⟩ := hs
  obtain ⟨-, h⟩ | ⟨-, -, h⟩ | ⟨-, -, rfl | ⟨cs, i, -, h⟩⟩ := step_next h
  · exact ⟨(elementStep_kept h).wf hinf, elementStep_df h ▸ hdf⟩
  · exact ⟨(stepToken_next h).1 ▸ hinf, (stepToken_next h).2 hdf⟩
  · exact ⟨hinf, hdf⟩
  · obtain ⟨-, -, h1, h2⟩ := sidesIndependent _ _ _ h
    cases hi : onInflateSide i with
    | true => exact ⟨(exec_inflate_kept hi h).1 hinf, (h1 hi).1 ▸ hdf⟩
    | false => exact ⟨h2 hi ▸ hinf, exec_deflate_wf hi (s := { s with commands := cs }) hdf h⟩

/-- Settles O57: the inflate side keeps its bit buffer and snapshot, the deflate side does not touch them. -/
theorem stepKeepsBitBuffer : Obligations.StepKeepsBitBuffer := by
  unfold Obligations.StepKeepsBitBuffer
  intro s t hb hsnap h
  have hs : s.inf.buffersOk := ⟨hb, hsnap⟩
  obtain ⟨-, h⟩ | ⟨-, -, h⟩ | ⟨-, -, rfl | ⟨cs, i, -, h⟩⟩ := step_next h
  · exact (elementStep_kept h).buffers hs
  · rw [(stepToken_next h).1]; exact hs
  · exact hs
  · cases hi : onInflateSide i with
    | true => exact (exec_inflate_kept hi h).2 hs
    | false => rw [(sidesIndependent _ _ _ h).2.2.2 hi]; exact hs

end Sys2Proof.Machine
end

section
/-! PROOFS. Canonical codes: the numbers `GenerateCode` gives, their Kraft sum, and that codes and expanded codes are
free of prefixes (rules R181 to R184, R214). -/

namespace Sys2Proof.Machine

/-! ### Reversed bits -/

theorem bitrev_lt (v n : Nat) : bitrev v n < 2 ^ n := by
  induction n generalizing v with
  | zero => exact Nat.one_pos
  | succ n ih =>
    have h := ih (v / 2)
    have : v % 2 * 2 ^ n ≤ 1 * 2 ^ n := Nat.mul_le_mul_right _ (by omega)
    rw [bitrev, pow_succ]
    omega

/-- The low bits of a reversed number are its high bits reversed. -/
theorem bitrev_mod (v a k : Nat) : bitrev v (a + k) % 2 ^ a = bitrev (v / 2 ^ k) a := by
  induction k generalizing v with
  | zero => simpa using Nat.mod_eq_of_lt (bitrev_lt v a)
  | succ k ih =>
    rw [← Nat.add_assoc, bitrev, pow_add, ← Nat.mul_assoc, Nat.mul_right_comm, Nat.mul_comm _ (2 ^ a),
      Nat.mul_add_mod, ih, pow_succ', Nat.div_div_eq_div_mul]

theorem bitrev_inj {v w n : Nat} (hv : v < 2 ^ n) (hw : w < 2 ^ n) (h : bitrev v n = bitrev w n) : v = w := by
  induction n generalizing v w with
  | zero => omega
  | succ n ih =>
    rw [bitrev, bitrev] at h
    have h1 := bitrev_lt (v / 2) n
    have h2 := bitrev_lt (w / 2) n
    have hr : v % 2 = w % 2 := by
      rcases Nat.mod_two_eq_zero_or_one v with a | a <;> rcases Nat.mod_two_eq_zero_or_one w with b | b <;>
        rw [a, b] at h <;> omega
    have hq := ih (v := v / 2) (w := w / 2) (by omega) (by omega) (by rw [hr] at h; omega)
    omega

/-! ### The first code of each length -/

/-- The first canonical code number of a length (rule R181). -/
def firstCode (lens : List Nat) : Nat → Nat
  | 0 => 0
  | l + 1 => 2 * (firstCode lens l + countLen lens l)

/-- One past the last canonical code number of a length. -/
def endCode (lens : List Nat) (l : Nat) : Nat := firstCode lens l + countLen lens l

theorem firstCode_succ (lens : List Nat) (l : Nat) : firstCode lens (l + 1) = 2 * endCode lens l := rfl

theorem nextCodesFrom_getD (lens : List Nat) {n l i : Nat} (hi : i < n) :
    (nextCodesFrom lens n (l + 1) (firstCode lens l)).getD i 0 = firstCode lens (l + 1 + i) := by
  induction n generalizing l i with
  | zero => omega
  | succ n ih =>
    have hc : (firstCode lens l + countLen lens (l + 1 - 1)) * 2 = firstCode lens (l + 1) := Nat.mul_comm _ _
    simp only [nextCodesFrom, hc]
    cases i with
    | zero => rfl
    | succ i => rw [List.getD_cons_succ, ih (by omega)]; congr 1; omega

theorem nextCodesFrom_length (lens : List Nat) (n l prev : Nat) : (nextCodesFrom lens n l prev).length = n := by
  induction n generalizing l prev with
  | zero => rfl
  | succ n ih => simp [nextCodesFrom, ih]

theorem nextCodes_length (maxLen : Nat) (lens : List Nat) : (nextCodes maxLen lens).length = maxLen + 1 := by
  simp [nextCodes, nextCodesFrom_length]

theorem nextCodes_getD {maxLen l : Nat} (lens : List Nat) (hl : l ≤ maxLen) :
    (nextCodes maxLen lens).getD l 0 = firstCode lens l := by
  cases l with
  | zero => rfl
  | succ l =>
    have h := nextCodesFrom_getD lens (n := maxLen) (l := 0) (i := l) hl
    rw [nextCodes, List.getD_cons_succ]
    rw [Nat.add_comm l 1]
    exact h

theorem overSubscribed_iff (maxLen : Nat) (lens : List Nat) :
    overSubscribed maxLen lens = true ↔ 2 ^ maxLen < endCode lens maxLen := by
  simp only [overSubscribed, nextCodes_getD lens (le_refl maxLen), decide_eq_true_eq, endCode]

/-- The code numbers of a length end where the Kraft sum of the lengths up to it says. -/
theorem endCode_cons (x : Nat) (lens : List Nat) (l : Nat) :
    endCode (x :: lens) l = endCode lens l + if 0 < x ∧ x ≤ l then 2 ^ (l - x) else 0 := by
  have hcount (k : Nat) : countLen (x :: lens) k = countLen lens k + if 0 < x ∧ x = k then 1 else 0 := by
    unfold countLen
    rw [List.count_cons]
    by_cases hk : k = 0
    · subst hk; simp; omega
    · by_cases hx : x = k
      · subst hx; simp [hk, Nat.pos_of_ne_zero hk]
      · simp [hk, hx]
  induction l with
  | zero => simp only [endCode, firstCode, hcount]; split_ifs <;> omega
  | succ l ih =>
    show firstCode (x :: lens) (l + 1) + countLen (x :: lens) (l + 1)
      = firstCode lens (l + 1) + countLen lens (l + 1) + _
    rw [firstCode_succ, firstCode_succ, ih, hcount]
    rcases Nat.lt_trichotomy x (l + 1) with hx | hx | hx
    · have hp : 2 ^ (l + 1 - x) = 2 * 2 ^ (l - x) := by
        rw [← pow_succ']; congr 1; omega
      split_ifs <;> omega
    · subst hx
      simp [Nat.add_assoc]
    · split_ifs <;> omega

theorem endCode_nil (l : Nat) : endCode [] l = 0 := by
  induction l with
  | zero => rfl
  | succ l ih => rw [endCode, firstCode_succ, ih]; simp [countLen]

/-- The code numbers of the greatest length end at the scaled Kraft sum. -/
theorem endCode_eq_kraftScaled {maxLen : Nat} {lens : List Nat} (h : ∀ l ∈ lens, l ≤ maxLen) :
    endCode lens maxLen = kraftScaled maxLen (lens.filter (fun l => decide (0 < l))) := by
  induction lens with
  | nil => rw [endCode_nil]; rfl
  | cons x lens ih =>
    obtain ⟨hx, hl⟩ := List.forall_mem_cons.1 h
    rw [endCode_cons, ih hl]
    by_cases h0 : 0 < x
    · rw [if_pos ⟨h0, hx⟩, List.filter_cons_of_pos (by simpa using h0)]
      simp [kraftScaled, Nat.add_comm]
    · rw [if_neg (fun h => h0 h.1), List.filter_cons_of_neg (by simpa using h0)]
      rfl

/-- Settles O18: both sides say that the last code number lies above two to the greatest length. -/
theorem overSubscriptionIsKraft : Obligations.OverSubscriptionIsKraft := by
  unfold Obligations.OverSubscriptionIsKraft
  intro maxLen lens h
  rw [overSubscribed_iff, endCode_eq_kraftScaled h]

/-- The numbers of a length lie, moved to a greater length, before that length's numbers. -/
theorem endCode_mul_le_firstCode (lens : List Nat) (l k : Nat) : endCode lens l * 2 ^ (k + 1) ≤ firstCode lens (l + k + 1) := by
  induction k with
  | zero => rw [firstCode_succ, Nat.mul_comm]; exact Nat.mul_le_mul_right _ (by decide)
  | succ k ih =>
    rw [← Nat.add_assoc l, firstCode_succ, endCode, pow_succ', Nat.mul_left_comm]
    exact Nat.mul_le_mul_left _ (Nat.le_add_right_of_le ih)

/-- Codes that are not over-subscribed fit their length. -/
theorem endCode_le {maxLen l : Nat} {lens : List Nat} (h : overSubscribed maxLen lens = false) (hl : l ≤ maxLen) :
    endCode lens l ≤ 2 ^ l := by
  have htop : endCode lens maxLen ≤ 2 ^ maxLen := by
    rw [← Nat.not_lt, ← overSubscribed_iff, h]; exact Bool.false_ne_true
  obtain ⟨k, rfl⟩ := Nat.exists_eq_add_of_le hl
  cases k with
  | zero => exact htop
  | succ k =>
    have h1 := (endCode_mul_le_firstCode lens l k).trans (Nat.le_add_right _ (countLen lens (l + k + 1)))
    have h2 : endCode lens l * 2 ^ (k + 1) ≤ 2 ^ l * 2 ^ (k + 1) := by
      rw [← pow_add]; exact h1.trans htop
    exact Nat.le_of_mul_le_mul_right h2 (by positivity)

/-! ### The number of each symbol -/

/-- The canonical code number of the symbol at an index: the first of its length, and one more for each earlier symbol of
that length (rule R181). -/
def codeNumber (lens : List Nat) (i : Nat) : Nat :=
  firstCode lens (lens.getD i 0) + (lens.take i).count (lens.getD i 0)

/-- An earlier position with the value counts: there are more of them in the longer list. -/
theorem count_take_lt {lens : List Nat} {i j : Nat} (hij : i < j) (hi : i < lens.length) :
    (lens.take i).count (lens.getD i 0) < (lens.take j).count (lens.getD i 0) := by
  have h1 : (lens.take (i + 1)).count (lens.getD i 0) = (lens.take i).count (lens.getD i 0) + 1 := by
    rw [List.take_add_one, List.count_append, List.getElem?_eq_getElem hi, List.getD_eq_getElem lens 0 hi]
    simp
  have h2 : (lens.take (i + 1)).count (lens.getD i 0) ≤ (lens.take j).count (lens.getD i 0) :=
    (List.take_sublist_take_left hij).count_le _
  omega

theorem codeNumber_lt {lens : List Nat} {i : Nat} (hi : i < lens.length) (h0 : 0 < lens.getD i 0) :
    codeNumber lens i < endCode lens (lens.getD i 0) := by
  have h := count_take_lt (lens := lens) hi hi
  rw [List.take_length] at h
  rw [codeNumber, endCode, countLen, if_neg (by omega)]
  omega

theorem assignCodes_length (ls next : List Nat) : (assignCodes ls next).length = ls.length := by
  induction ls generalizing next with
  | nil => rfl
  | cons l ls ih =>
    rw [assignCodes]
    split <;> simp [ih]

/-- The record `GenerateCode` gives the symbol at an index: 0 without a code, else its number reversed. -/
theorem assignCodes_getD {ls next : List Nat} (h : ∀ l ∈ ls, l < next.length) {i : Nat} (hi : i < ls.length) :
    (assignCodes ls next).getD i 0 = if ls.getD i 0 = 0 then 0
      else huffRec (bitrev (next.getD (ls.getD i 0) 0 + (ls.take i).count (ls.getD i 0)) (ls.getD i 0)) (ls.getD i 0) := by
  induction ls generalizing next i with
  | nil => cases hi
  | cons l ls ih =>
    obtain ⟨hl, hls⟩ := List.forall_mem_cons.1 h
    unfold assignCodes
    cases i with
    | zero =>
      split
      · simp_all
      · simp_all
    | succ i =>
      have hi' : i < ls.length := by simpa using hi
      split
      · rename_i h0
        simp only [List.getD_cons_succ]
        rw [ih hls hi', List.take_succ_cons, List.count_cons]
        split
        · rfl
        · rw [if_neg (by simp only [beq_iff_eq]; omega)]; rfl
      · simp only [List.getD_cons_succ]
        rw [ih (by simpa using hls) hi', List.take_succ_cons, List.count_cons]
        split
        · rfl
        · congr 2
          by_cases he : ls.getD i 0 = l
          · rw [he, List.getD_eq_getElem?_getD, List.getElem?_set_self hl]
            simp only [Option.getD_some, beq_self_eq_true, if_true]
            omega
          · rw [if_neg (by simpa using fun h => he h.symm), List.getD_eq_getElem?_getD,
              List.getElem?_set_ne (by simpa using fun h => he h.symm)]
            rfl

/-- The two fields of a record. -/
theorem huffRec_fields {c l : Nat} (hc : c < 2 ^ 24) (hl : l < 256) : recCode (huffRec c l) = c ∧ recLen (huffRec c l) = l := by
  have hv : (huffRec c l).toNat = c + 2 ^ 24 * l := by
    rw [huffRec, or_shift_eq_add l hc, BitVec.toNat_ofNat]
    exact Nat.mod_eq_of_lt (by omega)
  rw [recCode, recLen, hv]
  simp only [field, Nat.shiftRight_eq_div_pow]
  omega

/-- What `GenerateCode` gives the symbol at an index. -/
theorem generateCode_fields {maxLen : Nat} {lens : List Nat} (hm : maxLen ≤ 15) (h : ∀ l ∈ lens, l ≤ maxLen) {i : Nat}
    (hi : i < lens.length) : recLen ((generateCode maxLen lens).getD i 0) = lens.getD i 0
      ∧ (0 < lens.getD i 0 → recCode ((generateCode maxLen lens).getD i 0) = bitrev (codeNumber lens i) (lens.getD i 0)) := by
  have hle : lens.getD i 0 ≤ maxLen := List.getD_eq_getElem lens 0 hi ▸ h _ (List.getElem_mem hi)
  rw [generateCode, assignCodes_getD (by simpa [nextCodes_length, Nat.lt_succ_iff] using h) hi,
    nextCodes_getD lens hle]
  split
  · rename_i h0
    rw [h0]
    exact ⟨by decide, fun h => by omega⟩
  · have hr : bitrev (firstCode lens (lens.getD i 0) + (lens.take i).count (lens.getD i 0)) (lens.getD i 0)
        < 2 ^ lens.getD i 0 := bitrev_lt _ _
    have hp : 2 ^ lens.getD i 0 ≤ 2 ^ 15 := Nat.pow_le_pow_right (by decide) (by omega)
    exact ⟨(huffRec_fields (by omega) (by omega)).2, fun _ => (huffRec_fields (by omega) (by omega)).1⟩

theorem generateCode_length (maxLen : Nat) (lens : List Nat) : (generateCode maxLen lens).length = lens.length :=
  assignCodes_length lens _

/-! ### Prefix-freeness -/

/-- Numbers of two different lengths, reversed: the shorter code does not begin the longer. -/
theorem bitrev_apart {maxLen a b m n : Nat} {lens : List Nat} (h : overSubscribed maxLen lens = false) (hb : b ≤ maxLen)
    (hab : a < b) (hm : m < endCode lens a) (hn1 : firstCode lens b ≤ n) (hn2 : n < endCode lens b) :
    bitrev m a ≠ bitrev n b % 2 ^ a := by
  obtain ⟨k, rfl⟩ := Nat.exists_eq_add_of_lt hab
  have hbelow : endCode lens a ≤ n / 2 ^ (k + 1) :=
    (Nat.le_div_iff_mul_le (by positivity)).2 ((endCode_mul_le_firstCode lens a k).trans hn1)
  have habove : n / 2 ^ (k + 1) < 2 ^ a := by
    rw [Nat.div_lt_iff_lt_mul (by positivity), ← pow_add]
    exact lt_of_lt_of_le hn2 (endCode_le h hb)
  rw [Nat.add_assoc, bitrev_mod]
  intro he
  have := bitrev_inj (lt_of_lt_of_le hm (endCode_le h (by omega))) habove he
  omega

/-- The codes of two symbols: neither begins the other. -/
theorem codes_apart {maxLen : Nat} {lens : List Nat} (hm : maxLen ≤ 15) (h : ∀ l ∈ lens, l ≤ maxLen)
    (ho : overSubscribed maxLen lens = false) {i j : Nat} (hij : i < j) (hj : j < lens.length)
    (h0 : 0 < lens.getD i 0) (h1 : 0 < lens.getD j 0) :
    recCode ((generateCode maxLen lens).getD i 0) % 2 ^ min (lens.getD i 0) (lens.getD j 0)
      ≠ recCode ((generateCode maxLen lens).getD j 0) % 2 ^ min (lens.getD i 0) (lens.getD j 0) := by
  have hi : i < lens.length := by omega
  have hli : lens.getD i 0 ≤ maxLen := List.getD_eq_getElem lens 0 hi ▸ h _ (List.getElem_mem hi)
  have hlj : lens.getD j 0 ≤ maxLen := List.getD_eq_getElem lens 0 hj ▸ h _ (List.getElem_mem hj)
  have hni := codeNumber_lt hi h0
  have hnj := codeNumber_lt hj h1
  rw [(generateCode_fields hm h hi).2 h0, (generateCode_fields hm h hj).2 h1]
  rcases Nat.lt_trichotomy (lens.getD i 0) (lens.getD j 0) with hlt | heq | hgt
  · rw [Nat.min_eq_left hlt.le, Nat.mod_eq_of_lt (bitrev_lt _ _)]
    exact bitrev_apart ho hlj hlt hni (Nat.le_add_right _ _) hnj
  · have hlt := count_take_lt hij hi
    have hne : codeNumber lens i < codeNumber lens j := by
      unfold codeNumber
      rw [← heq]
      omega
    have hle := endCode_le ho hlj
    rw [heq] at hni
    rw [heq, Nat.min_self, Nat.mod_eq_of_lt (bitrev_lt _ _), Nat.mod_eq_of_lt (bitrev_lt _ _)]
    intro he
    have := bitrev_inj (by omega) (by omega) he
    omega
  · rw [Nat.min_eq_right hgt.le, Nat.mod_eq_of_lt (bitrev_lt (codeNumber lens j) _)]
    exact fun he => bitrev_apart ho hli hgt hnj (Nat.le_add_right _ _) hni he.symm

theorem symbolCodes_length (value : Nat → Nat) (s : Nat) (rs : List Word) : (symbolCodes value s rs).length = rs.length := by
  induction rs generalizing s with
  | nil => rfl
  | cons r rs ih => simp [symbolCodes, ih]

theorem symbolCodes_getElem (value : Nat → Nat) (s : Nat) (rs : List Word) (i : Nat)
    (hi : i < (symbolCodes value s rs).length) :
    (symbolCodes value s rs)[i] = ⟨recCode (rs.getD i 0), recLen (rs.getD i 0), value (s + i)⟩ := by
  induction rs generalizing s i with
  | nil => cases hi
  | cons r rs ih =>
    cases i with
    | zero => rfl
    | succ i =>
      simp only [symbolCodes, List.getElem_cons_succ, List.getD_cons_succ]
      rw [ih, show s + 1 + i = s + (i + 1) by omega]

/-- The canonical codes of lengths that are not over-subscribed, whatever value a leaf carries. -/
theorem symbolCodes_ok {maxLen valueBits : Nat} {lens : List Nat} {value : Nat → Nat} (hm : maxLen ≤ 15)
    (h : ∀ l ∈ lens, l ≤ maxLen) (hv : ∀ i, i < lens.length → value i < 2 ^ valueBits)
    (ho : overSubscribed maxLen lens = false) :
    tableCodesOk maxLen valueBits (symbolCodes value 0 (generateCode maxLen lens)) := by
  have hlen : (symbolCodes value 0 (generateCode maxLen lens)).length = lens.length := by
    rw [symbolCodes_length, generateCode_length]
  refine ⟨List.pairwise_iff_getElem.2 fun i j hi hj hij => ?_, fun c hc => ?_⟩
  · rw [hlen] at hi hj
    rw [symbolCodes_getElem, symbolCodes_getElem, TableCode.apart, (generateCode_fields hm h hi).1,
      (generateCode_fields hm h hj).1]
    exact fun h0 h1 => codes_apart hm h ho hij hj h0 h1
  · obtain ⟨i, hi, rfl⟩ := List.getElem_of_mem hc
    rw [symbolCodes_getElem]
    rw [hlen] at hi
    obtain ⟨hl, hcode⟩ := generateCode_fields hm h hi
    refine ⟨?_, ?_, ?_⟩
    · show recLen _ ≤ maxLen
      rw [hl, List.getD_eq_getElem lens 0 hi]
      exact h _ (List.getElem_mem hi)
    · show recCode _ < 2 ^ recLen _
      rw [hl]
      by_cases h0 : 0 < lens.getD i 0
      · rw [hcode h0]; exact bitrev_lt _ _
      · have hz : (generateCode maxLen lens).getD i 0 = 0 := by
          rw [generateCode, assignCodes_getD (by simpa [nextCodes_length, Nat.lt_succ_iff] using h) hi, if_pos (by omega)]
        rw [hz]
        exact (by decide : recCode 0 = 0) ▸ Nat.two_pow_pos _
    · show value (0 + i) < _
      rw [Nat.zero_add]
      exact hv i hi

/-- Settles O17. -/
theorem canonicalCodesPrefixFree : Obligations.CanonicalCodesPrefixFree := by
  unfold Obligations.CanonicalCodesPrefixFree
  intro maxLen valueBits lens hm h hv ho
  exact symbolCodes_ok hm h (fun i hi => lt_of_lt_of_le hi hv) ho

/-! ### The expanded codes -/

/-- The lengths a symbol stands for end at 258 (rule R121); a symbol without a row stands for none. -/
theorem lenRow_bounds (s : Nat) : lenExtra s ≤ 5 ∧ lenBase s + 2 ^ lenExtra s ≤ 259 := by
  unfold lenExtra lenBase
  rcases Nat.lt_or_ge s 257 with h | h
  · rw [if_pos h, if_pos h]; decide
  · rw [if_neg (by omega), if_neg (by omega)]
    obtain ⟨i, rfl⟩ := Nat.exists_eq_add_of_le h
    rw [Nat.add_sub_cancel_left]
    rcases Nat.lt_or_ge i 29 with hi | hi
    · have : ∀ i < 29, (lenRows.getD i (0, 0)).1 ≤ 5
          ∧ (lenRows.getD i (0, 0)).2 + 2 ^ (lenRows.getD i (0, 0)).1 ≤ 259 := by decide
      exact this i hi
    · rw [List.getD_eq_default _ _ (show lenRows.length ≤ i from hi)]
      decide

theorem expandedSym_lt {s e : Nat} (he : e < 2 ^ lenExtra s) : expandedSym s e < 2 ^ 10 := by
  have := (lenRow_bounds s).2
  have hoff : Config.lenOffset = 254 := rfl
  unfold expandedSym
  split
  · omega
  · split
    · decide
    · split
      · decide
      · omega

theorem mem_expandSymbol {s code len k n e : Nat} {c : TableCode} (h : c ∈ expandSymbol s code len k n e) :
    ∃ x, e ≤ x ∧ x < e + n ∧ c = ⟨code ||| (x <<< len), len + k, expandedSym s x⟩ := by
  induction n generalizing e with
  | zero => cases h
  | succ n ih =>
    rcases List.mem_cons.1 h with rfl | h
    · exact ⟨e, le_refl e, by omega, rfl⟩
    · obtain ⟨x, h1, h2, rfl⟩ := ih h
      exact ⟨x, by omega, by omega, rfl⟩

/-- An expanded code is the code of a symbol with an extra value above it. -/
theorem mem_expandedCodes {s : Nat} {rs : List Word} {c : TableCode} (h : c ∈ expandedCodes s rs) :
    ∃ i e, i < rs.length ∧ recLen (rs.getD i 0) ≠ 0 ∧ e < 2 ^ lenExtra (s + i)
      ∧ c = ⟨recCode (rs.getD i 0) ||| (e <<< recLen (rs.getD i 0)), recLen (rs.getD i 0) + lenExtra (s + i),
        expandedSym (s + i) e⟩ := by
  induction rs generalizing s with
  | nil => cases h
  | cons r rs ih =>
    have tail (h : c ∈ expandedCodes (s + 1) rs) : ∃ i e, i < (r :: rs).length ∧ recLen ((r :: rs).getD i 0) ≠ 0
        ∧ e < 2 ^ lenExtra (s + i) ∧ c = ⟨recCode ((r :: rs).getD i 0) ||| (e <<< recLen ((r :: rs).getD i 0)),
          recLen ((r :: rs).getD i 0) + lenExtra (s + i), expandedSym (s + i) e⟩ := by
      obtain ⟨i, e, h1, h2, h3, h4⟩ := ih h
      rw [show s + 1 + i = s + (i + 1) by omega] at h3 h4
      exact ⟨i + 1, e, by simpa using h1, h2, h3, h4⟩
    unfold expandedCodes at h
    split at h
    · exact tail h
    · rename_i h0
      rcases List.mem_append.1 h with h | h
      · obtain ⟨x, -, hx, rfl⟩ := mem_expandSymbol h
        exact ⟨0, x, by simp, h0, by simpa using hx, rfl⟩
      · exact tail h

/-- Two expansions of one symbol differ in their extra values. -/
theorem expandSymbol_pairwise {code len : Nat} (hc : code < 2 ^ len) (s k n e : Nat) (hn : e + n ≤ 2 ^ k) :
    (expandSymbol s code len k n e).Pairwise TableCode.apart := by
  induction n generalizing e with
  | zero => exact .nil
  | succ n ih =>
    refine List.pairwise_cons.2 ⟨fun b hb _ _ => ?_, ih (e + 1) (by omega)⟩
    obtain ⟨x, h1, h2, rfl⟩ := mem_expandSymbol hb
    have hlt (y : Nat) (hy : y < 2 ^ k) : code + 2 ^ len * y < 2 ^ (len + k) := by
      have : 2 ^ len * y + 2 ^ len ≤ 2 ^ len * 2 ^ k := by rw [← Nat.mul_succ]; exact Nat.mul_le_mul_left _ hy
      rw [pow_add]; omega
    simp only [Nat.min_self, or_shift_eq_add _ hc]
    rw [Nat.mod_eq_of_lt (hlt e (by omega)), Nat.mod_eq_of_lt (hlt x (by omega))]
    intro he
    have := Nat.eq_of_mul_eq_mul_left (by positivity : 0 < 2 ^ len) (Nat.add_left_cancel he)
    omega

/-- Codes that are apart stay apart when bits are put behind them. -/
theorem apart_of_extended {a b x y j k m n : Nat} (ha : a < 2 ^ m) (hb : b < 2 ^ n)
    (h : a % 2 ^ min m n ≠ b % 2 ^ min m n) :
    (a ||| (x <<< m)) % 2 ^ min (m + j) (n + k) ≠ (b ||| (y <<< n)) % 2 ^ min (m + j) (n + k) := by
  intro he
  have hdvd : (2 : Nat) ^ min m n ∣ 2 ^ min (m + j) (n + k) := pow_dvd_pow _ (by omega)
  have hlow (c z p : Nat) (hc : c < 2 ^ p) (hp : min m n ≤ p) : (c ||| (z <<< p)) % 2 ^ min m n = c % 2 ^ min m n := by
    rw [or_shift_eq_add z hc]
    obtain ⟨q, hq⟩ := Nat.exists_eq_add_of_le hp
    rw [hq, pow_add, Nat.mul_assoc, Nat.add_mul_mod_self_left]
  apply h
  rw [← hlow a x m ha (Nat.min_le_left _ _), ← hlow b y n hb (Nat.min_le_right _ _), ← Nat.mod_mod_of_dvd _ hdvd, he,
    Nat.mod_mod_of_dvd _ hdvd]

/-- The expansions of records that are apart, each fitting its length, are apart. -/
theorem expandedCodes_pairwise {rs : List Word} (hfit : ∀ i, i < rs.length → recCode (rs.getD i 0) < 2 ^ recLen (rs.getD i 0))
    (hap : ∀ i j, i < j → j < rs.length → 0 < recLen (rs.getD i 0) → 0 < recLen (rs.getD j 0) →
      recCode (rs.getD i 0) % 2 ^ min (recLen (rs.getD i 0)) (recLen (rs.getD j 0))
        ≠ recCode (rs.getD j 0) % 2 ^ min (recLen (rs.getD i 0)) (recLen (rs.getD j 0))) (s : Nat) :
    (expandedCodes s rs).Pairwise TableCode.apart := by
  induction rs generalizing s with
  | nil => exact .nil
  | cons r rs ih =>
    have htail := ih (fun i hi => hfit (i + 1) (by simpa using hi))
      (fun i j hij hj => hap (i + 1) (j + 1) (by omega) (by simpa using hj)) (s + 1)
    unfold expandedCodes
    split
    · exact htail
    · rename_i h0
      have hr := hfit 0 (by simp)
      refine List.pairwise_append.2 ⟨expandSymbol_pairwise hr s _ _ 0 (by omega), htail, fun a ha b hb _ _ => ?_⟩
      obtain ⟨x, -, -, rfl⟩ := mem_expandSymbol ha
      obtain ⟨i, y, hi, hi0, -, rfl⟩ := mem_expandedCodes hb
      exact apart_of_extended hr (hfit (i + 1) (by simpa using hi))
        (hap 0 (i + 1) (by omega) (by simpa using hi) (Nat.pos_of_ne_zero h0) (Nat.pos_of_ne_zero hi0))

/-- Settles O19: extra bits behind codes none of which starts another. -/
theorem expandedCodesPrefixFree : Obligations.ExpandedCodesPrefixFree := by
  unfold Obligations.ExpandedCodesPrefixFree
  intro lens hn h ho
  have hlen := generateCode_length 15 lens
  obtain ⟨-, hbase⟩ := symbolCodes_ok (value := fun _ => 0) (valueBits := 1) (le_refl 15) h (fun _ _ => by decide) ho
  have hfit (i : Nat) (hi : i < lens.length) : recLen ((generateCode 15 lens).getD i 0) ≤ 15
      ∧ recCode ((generateCode 15 lens).getD i 0) < 2 ^ recLen ((generateCode 15 lens).getD i 0) := by
    have hi' : i < (symbolCodes (fun _ => 0) 0 (generateCode 15 lens)).length := by rwa [symbolCodes_length, hlen]
    have hb := hbase _ (List.getElem_mem hi')
    rw [symbolCodes_getElem] at hb
    exact ⟨hb.1, hb.2.1⟩
  refine ⟨expandedCodes_pairwise (fun i hi => (hfit i (hlen ▸ hi)).2) (fun i j hij hj h0 h1 => ?_) 0, fun c hc => ?_⟩
  · rw [hlen] at hj
    rw [(generateCode_fields (le_refl 15) h (by omega : i < lens.length)).1] at h0 ⊢
    rw [(generateCode_fields (le_refl 15) h hj).1] at h1 ⊢
    exact codes_apart (le_refl 15) h ho hij hj h0 h1
  · obtain ⟨i, e, hi, -, he, rfl⟩ := mem_expandedCodes hc
    rw [hlen] at hi
    rw [Nat.zero_add] at he ⊢
    obtain ⟨h1, h2⟩ := hfit i hi
    refine ⟨Nat.add_le_add h1 (lenRow_bounds i).1, ?_, expandedSym_lt he⟩
    show recCode _ ||| (e <<< recLen _) < 2 ^ (recLen _ + lenExtra i)
    rw [or_shift_eq_add e h2, pow_add]
    have : 2 ^ recLen ((generateCode 15 lens).getD i 0) * e + 2 ^ recLen ((generateCode 15 lens).getD i 0)
        ≤ 2 ^ recLen ((generateCode 15 lens).getD i 0) * 2 ^ lenExtra i := by
      rw [← Nat.mul_succ]; exact Nat.mul_le_mul_left _ he
    omega

end Sys2Proof.Machine
end

section
/-! PROOFS. The contents of the decode tables (rules R206 to R223): each lookup finds the code that starts the bit string. -/

namespace Sys2Proof.Machine

/-! ### Codes that start a bit string -/

theorem TableCode.startsAt_iff (c : TableCode) (x : Nat) : c.startsAt x = true ↔ 0 < c.len ∧ x % 2 ^ c.len = c.code := by
  simp only [TableCode.startsAt, Bool.and_eq_true, decide_eq_true_eq, beq_iff_eq]

/-- The low bits of a number cut short are the number's own. -/
theorem mod_shift_mod {n a b : Nat} (h : a + b ≤ n) (x : Nat) : ((x % 2 ^ n) >>> a) % 2 ^ b = (x >>> a) % 2 ^ b := by
  obtain ⟨k, rfl⟩ := Nat.exists_eq_add_of_le h
  rw [Nat.shiftRight_eq_div_pow, Nat.shiftRight_eq_div_pow, Nat.add_assoc, pow_add, Nat.mod_mul_right_div_self,
    Nat.mod_mod_of_dvd _ (pow_dvd_pow 2 (Nat.le_add_right b k))]

/-- A bit string cut to at least the code's length starts with the same code. -/
theorem TableCode.startsAt_mod {c : TableCode} {n : Nat} (h : c.len ≤ n) (x : Nat) : c.startsAt (x % 2 ^ n) = c.startsAt x := by
  simp only [TableCode.startsAt, Nat.mod_mod_of_dvd x (pow_dvd_pow 2 h)]

/-- Of codes none of which starts another only one starts a bit string. -/
theorem startsAt_unique {codes : List TableCode} (h : codes.Pairwise TableCode.apart) {a b : TableCode} (ha : a ∈ codes)
    (hb : b ∈ codes) {x : Nat} (hsa : a.startsAt x = true) (hsb : b.startsAt x = true) : a = b := by
  obtain ⟨ha0, hca⟩ := (a.startsAt_iff x).1 hsa
  obtain ⟨hb0, hcb⟩ := (b.startsAt_iff x).1 hsb
  have hsame : a.code % 2 ^ min a.len b.len = b.code % 2 ^ min a.len b.len := by
    rw [← hca, ← hcb, Nat.mod_mod_of_dvd _ (pow_dvd_pow 2 (Nat.min_le_left _ _)),
      Nat.mod_mod_of_dvd _ (pow_dvd_pow 2 (Nat.min_le_right _ _))]
  have hsymm : Std.Symm TableCode.apart :=
    ⟨fun c d hcd h1 h2 he => hcd h2 h1 (by rw [Nat.min_comm]; exact he.symm)⟩
  by_contra hne
  exact h.forall ha hb hne ha0 hb0 hsame

theorem startingCode_some {codes : List TableCode} {n x : Nat} {c : TableCode} (h : startingCode codes n x = some c) :
    c ∈ codes ∧ c.len ≤ n ∧ c.startsAt x = true := by
  have hp := List.find?_some h
  rw [Bool.and_eq_true, decide_eq_true_eq] at hp
  exact ⟨List.mem_of_find?_eq_some h, hp.1, hp.2⟩

theorem startingCode_none {codes : List TableCode} {n x : Nat} (h : startingCode codes n x = none) {c : TableCode}
    (hc : c ∈ codes) (hl : c.len ≤ n) : c.startsAt x = false := by
  have := List.find?_eq_none.1 h c hc
  simpa [hl] using this

/-- The code that starts the bit string is the one that is found. -/
theorem startingCode_of_startsAt {codes : List TableCode} (h : codes.Pairwise TableCode.apart) {n x : Nat} {c : TableCode}
    (hc : c ∈ codes) (hl : c.len ≤ n) (hs : c.startsAt x = true) : startingCode codes n x = some c := by
  cases hf : startingCode codes n x with
  | none => rw [startingCode_none hf hc hl] at hs; cases hs
  | some d =>
    obtain ⟨hd, -, hsd⟩ := startingCode_some hf
    rw [startsAt_unique h hd hc hsd hs]

/-- Bits above the longest code that is looked for do not matter. -/
theorem startingCode_mod (codes : List TableCode) {n m : Nat} (h : n ≤ m) (x : Nat) :
    startingCode codes n (x % 2 ^ m) = startingCode codes n x := by
  unfold startingCode
  congr 1
  funext c
  by_cases hl : c.len ≤ n
  · rw [TableCode.startsAt_mod (hl.trans h)]
  · simp [hl]

/-! ### Groups of long codes -/

theorem mem_groupMembers {n p : Nat} {codes : List TableCode} {c : TableCode} :
    c ∈ groupMembers n codes p ↔ c ∈ codes ∧ n < c.len ∧ c.code % 2 ^ n = p := by
  simp [groupMembers]

theorem mem_insertUniq {x y : Nat} {l : List Nat} : y ∈ insertUniq x l ↔ y = x ∨ y ∈ l := by
  induction l with
  | nil => simp [insertUniq]
  | cons z l ih =>
    unfold insertUniq
    split
    · simp
    · split
      · subst_vars; simp
      · rw [List.mem_cons, ih, List.mem_cons]; tauto

theorem insertUniq_ascending (x : Nat) {l : List Nat} (h : l.Pairwise (· < ·)) : (insertUniq x l).Pairwise (· < ·) := by
  induction l with
  | nil => simp [insertUniq]
  | cons z l ih =>
    obtain ⟨hz, hl⟩ := List.pairwise_cons.1 h
    unfold insertUniq
    split
    · rename_i hx
      exact List.pairwise_cons.2 ⟨List.forall_mem_cons.2 ⟨hx, fun y hy => hx.trans (hz y hy)⟩, h⟩
    · split
      · exact h
      · refine List.pairwise_cons.2 ⟨fun y hy => ?_, ih hl⟩
        rcases mem_insertUniq.1 hy with rfl | hy
        · omega
        · exact hz y hy

theorem insertUniq_length (x : Nat) (l : List Nat) : (insertUniq x l).length ≤ l.length + 1 := by
  induction l with
  | nil => simp [insertUniq]
  | cons z l ih =>
    unfold insertUniq
    split
    · simp
    · split
      · simp
      · simpa using ih

/-- The prefixes of the long codes (rule R209), each once. -/
theorem groupPrefixes_spec (n : Nat) (codes : List TableCode) :
    (∀ p, p ∈ groupPrefixes n codes ↔ ∃ c ∈ codes, n < c.len ∧ c.code % 2 ^ n = p)
      ∧ (groupPrefixes n codes).Pairwise (· < ·) ∧ (groupPrefixes n codes).length ≤ codes.length := by
  unfold groupPrefixes
  induction codes with
  | nil => simp
  | cons c codes ih =>
    obtain ⟨hm, hs, hl⟩ := ih
    by_cases hc : n < c.len
    · rw [List.filter_cons_of_pos (by simpa using hc), List.foldr_cons]
      refine ⟨fun p => ?_, insertUniq_ascending _ hs, (insertUniq_length _ _).trans (by simpa using hl)⟩
      rw [mem_insertUniq, hm, List.exists_mem_cons_iff]
      simp [hc, eq_comm]
    · rw [List.filter_cons_of_neg (by simpa using hc)]
      refine ⟨fun p => ?_, hs, hl.trans (by simp)⟩
      rw [hm, List.exists_mem_cons_iff]
      simp [hc]

/-- There are no more prefixes than an index of `n` bits has values. -/
theorem groupPrefixes_length_le (n : Nat) (codes : List TableCode) : (groupPrefixes n codes).length ≤ 2 ^ n := by
  obtain ⟨hm, hs, -⟩ := groupPrefixes_spec n codes
  have hsub : groupPrefixes n codes ⊆ List.range (2 ^ n) := fun p hp => by
    obtain ⟨c, -, -, rfl⟩ := (hm p).1 hp
    exact List.mem_range.2 (Nat.mod_lt _ (by positivity))
  have hnd : (groupPrefixes n codes).Nodup := hs.imp fun h => ne_of_lt h
  simpa using (hnd.subperm hsub).length_le

/-- The greatest length of a group's members. -/
def groupMax (n : Nat) (codes : List TableCode) (p : Nat) : Nat :=
  (groupMembers n codes p).foldl (fun m c => max m c.len) 0

theorem le_foldl_maxLen {l : List TableCode} {a : Nat} :
    a ≤ l.foldl (fun m c => max m c.len) a ∧ ∀ c ∈ l, c.len ≤ l.foldl (fun m c => max m c.len) a := by
  induction l generalizing a with
  | nil => simp
  | cons d l ih =>
    obtain ⟨h1, h2⟩ := ih (a := max a d.len)
    exact ⟨(Nat.le_max_left _ _).trans h1, List.forall_mem_cons.2 ⟨(Nat.le_max_right _ _).trans h1, h2⟩⟩

theorem foldl_maxLen_le {l : List TableCode} {a b : Nat} (ha : a ≤ b) (h : ∀ c ∈ l, c.len ≤ b) :
    l.foldl (fun m c => max m c.len) a ≤ b := by
  induction l generalizing a with
  | nil => exact ha
  | cons d l ih =>
    obtain ⟨hd, hl⟩ := List.forall_mem_cons.1 h
    exact ih (Nat.max_le.2 ⟨ha, hd⟩) hl

theorem groupMax_le {n b p : Nat} {codes : List TableCode} (h : ∀ c ∈ codes, c.len ≤ b) : groupMax n codes p ≤ b :=
  foldl_maxLen_le (Nat.zero_le b) fun c hc => h c (mem_groupMembers.1 hc).1

theorem tabulate_getD {α : Type} {n i : Nat} (f : Nat → α) (d : α) (h : i < n) : (tabulate n f).getD i d = f i := by
  have hi : i < (tabulate n f).length := by rw [tabulate, tabulateFrom_length]; exact h
  rw [List.getD_eq_getElem _ _ hi]
  exact (tabulateFrom_getElem f n 0 i hi).trans (by rw [Nat.zero_add])

/-- The slots of a group begin at its offset, after those of the groups before it (rules R208, R209, R220). -/
theorem layoutGroups_slots {n off : Nat} {codes : List TableCode} {ps : List Nat} {g : Group}
    (h : g ∈ layoutGroups n codes off ps) : g.low ∈ ps ∧ g.maxLen = groupMax n codes g.low ∧ off ≤ g.offset
      ∧ g.offset - off + 2 ^ (g.maxLen - n) ≤ (longLookup n codes (layoutGroups n codes off ps)).length
      ∧ ∀ j, j < 2 ^ (g.maxLen - n) → (longLookup n codes (layoutGroups n codes off ps)).getD (g.offset - off + j) 0
        = longSlot n (groupMembers n codes g.low) j := by
  induction ps generalizing off with
  | nil => cases h
  | cons p ps ih =>
    have hsplit : longLookup n codes (layoutGroups n codes off (p :: ps))
        = tabulate (2 ^ (groupMax n codes p - n)) (longSlot n (groupMembers n codes p))
          ++ longLookup n codes (layoutGroups n codes (off + 2 ^ (groupMax n codes p - n)) ps) := rfl
    have hlen : (tabulate (2 ^ (groupMax n codes p - n)) (longSlot n (groupMembers n codes p))).length
        = 2 ^ (groupMax n codes p - n) := tabulateFrom_length _ _ _
    rw [hsplit, List.length_append, hlen]
    rcases List.mem_cons.1 h with rfl | h
    · refine ⟨List.mem_cons_self .., rfl, le_refl _, ?_, fun j hj => ?_⟩
      · show off - off + 2 ^ (groupMax n codes p - n) ≤ _
        omega
      · show List.getD _ (off - off + j) 0 = _
        rw [Nat.sub_self, Nat.zero_add, List.getD_append _ _ _ _ (by rw [hlen]; exact hj)]
        exact tabulate_getD _ _ hj
    · obtain ⟨h1, h2, h3, h4, h5⟩ := ih (off := off + 2 ^ (groupMax n codes p - n)) h
      refine ⟨List.mem_cons_of_mem _ h1, h2, by omega, by omega, fun j hj => ?_⟩
      rw [List.getD_append_right _ _ _ _ (by rw [hlen]; omega), hlen, ← h5 j hj]
      congr 1
      omega

/-- Each value of the first bits has its group. -/
theorem exists_mem_layoutGroups (n : Nat) (codes : List TableCode) {off p : Nat} {ps : List Nat} (h : p ∈ ps) :
    ∃ g ∈ layoutGroups n codes off ps, g.low = p := by
  induction ps generalizing off with
  | nil => cases h
  | cons q ps ih =>
    rcases List.mem_cons.1 h with rfl | h
    · exact ⟨_, List.mem_cons_self .., rfl⟩
    · obtain ⟨g, hg, hl⟩ := ih (off := off + 2 ^ (groupMax n codes q - n)) h
      exact ⟨g, List.mem_cons_of_mem _ hg, hl⟩

/-- The long table has at most so many slots. -/
theorem longLookup_length_le {n b off : Nat} {codes : List TableCode} (hb : ∀ c ∈ codes, c.len ≤ b) (ps : List Nat) :
    (longLookup n codes (layoutGroups n codes off ps)).length ≤ ps.length * 2 ^ (b - n) := by
  induction ps generalizing off with
  | nil => simp [layoutGroups, longLookup]
  | cons p ps ih =>
    have hm : 2 ^ (groupMax n codes p - n) ≤ 2 ^ (b - n) :=
      Nat.pow_le_pow_right (by decide) (Nat.sub_le_sub_right (groupMax_le hb) n)
    have hlen : (longLookup n codes (layoutGroups n codes off (p :: ps))).length = 2 ^ (groupMax n codes p - n)
        + (longLookup n codes (layoutGroups n codes (off + 2 ^ (groupMax n codes p - n)) ps)).length := by
      rw [show longLookup n codes (layoutGroups n codes off (p :: ps))
        = tabulate (2 ^ (groupMax n codes p - n)) (longSlot n (groupMembers n codes p))
          ++ longLookup n codes (layoutGroups n codes (off + 2 ^ (groupMax n codes p - n)) ps) from rfl,
        List.length_append, tabulate, tabulateFrom_length]
    rw [hlen, List.length_cons, Nat.succ_mul, Nat.add_comm]
    exact Nat.add_le_add ih hm

/-- What the group of an index is. -/
theorem groupAt_some {n b p : Nat} {codes : List TableCode} {g : Group} (hb : ∀ c ∈ codes, c.len ≤ b)
    (h : groupAt (longGroups n codes) p = some g) : g.maxLen ≤ b ∧ g.maxLen = groupMax n codes p
      ∧ g.offset < (longLookup n codes (longGroups n codes)).length
      ∧ ∀ j, j < 2 ^ (g.maxLen - n) → (longLookup n codes (longGroups n codes)).getD (g.offset + j) 0
        = longSlot n (groupMembers n codes p) j := by
  have hlow : g.low = p := by simpa using List.find?_some h
  obtain ⟨-, h2, -, h4, h5⟩ := layoutGroups_slots (List.mem_of_find?_eq_some h)
  have hpos := Nat.two_pow_pos (g.maxLen - n)
  rw [hlow] at h2 h5
  refine ⟨h2 ▸ groupMax_le hb, h2, ?_, fun j hj => ?_⟩
  · rw [longGroups]; omega
  · have := h5 j hj
    rwa [Nat.sub_zero] at this

/-- A long code has a group, at the index its low bits are. -/
theorem groupAt_of_mem {n : Nat} {codes : List TableCode} {c : TableCode} (hc : c ∈ codes) (hl : n < c.len) :
    ∃ g, groupAt (longGroups n codes) (c.code % 2 ^ n) = some g := by
  obtain ⟨g, hg, hlow⟩ := exists_mem_layoutGroups n codes (off := 0)
    (((groupPrefixes_spec n codes).1 (c.code % 2 ^ n)).2 ⟨c, hc, hl, rfl⟩)
  cases hf : groupAt (longGroups n codes) (c.code % 2 ^ n) with
  | some g' => exact ⟨g', rfl⟩
  | none => exact absurd hlow (by simpa using List.find?_eq_none.1 hf g hg)

/-- A member of a group fits a slot exactly when it starts the bit string the slot is looked up with. -/
theorem member_fits_iff {n m x : Nat} {codes : List TableCode} {c : TableCode} (hc : c ∈ groupMembers n codes (x % 2 ^ n))
    (hm : c.len ≤ m) : ((x % 2 ^ m) >>> n) % 2 ^ (c.len - n) = c.code >>> n ↔ c.startsAt x = true := by
  obtain ⟨-, hl, hlow⟩ := mem_groupMembers.1 hc
  obtain ⟨k, hk⟩ := Nat.exists_eq_add_of_le hl.le
  rw [mod_shift_mod (by omega), c.startsAt_iff, hk, Nat.add_sub_cancel_left, Nat.shiftRight_eq_div_pow,
    Nat.shiftRight_eq_div_pow, pow_add, Nat.mod_mul]
  have hcode := Nat.mod_add_div c.code (2 ^ n)
  rw [hlow] at hcode
  constructor
  · intro h; exact ⟨by omega, by rw [h, hcode]⟩
  · rintro ⟨-, h⟩
    exact Nat.eq_of_mul_eq_mul_left (Nat.two_pow_pos n) (Nat.add_left_cancel (h.trans hcode.symm))

/-- The slot that a bit string looks up holds the long code that starts it. -/
theorem longSlot_of_startsAt {n m x : Nat} {codes : List TableCode} (h : codes.Pairwise TableCode.apart) {c : TableCode}
    (hc : c ∈ codes) (hl : n < c.len) (hm : ∀ c ∈ groupMembers n codes (x % 2 ^ n), c.len ≤ m) (hs : c.startsAt x = true) :
    longSlot n (groupMembers n codes (x % 2 ^ n)) ((x % 2 ^ m) >>> n) = BitVec.ofNat 16 ((c.len <<< 10) ||| c.value) := by
  have hlow : c.code % 2 ^ n = x % 2 ^ n := by
    rw [← ((c.startsAt_iff x).1 hs).2, Nat.mod_mod_of_dvd _ (pow_dvd_pow 2 hl.le)]
  have hmem : c ∈ groupMembers n codes (x % 2 ^ n) := mem_groupMembers.2 ⟨hc, hl, hlow⟩
  unfold longSlot
  split
  · rename_i d hd
    have hdm := List.mem_of_find?_eq_some hd
    have hds := (member_fits_iff hdm (hm d hdm)).1 (by simpa using List.find?_some hd)
    rw [startsAt_unique h (mem_groupMembers.1 hdm).1 hc hds hs]
  · rename_i hn
    exact absurd ((member_fits_iff hmem (hm c hmem)).2 hs) (by simpa using List.find?_eq_none.1 hn c hmem)

/-- The slot that a bit string looks up is invalid when no long code starts it. -/
theorem longSlot_of_none {n m x : Nat} {codes : List TableCode} (hm : ∀ c ∈ groupMembers n codes (x % 2 ^ n), c.len ≤ m)
    (hs : ∀ c ∈ codes, c.startsAt x = false) : longSlot n (groupMembers n codes (x % 2 ^ n)) ((x % 2 ^ m) >>> n) = 0 := by
  unfold longSlot
  split
  · rename_i d hd
    have hdm := List.mem_of_find?_eq_some hd
    have hds := (member_fits_iff hdm (hm d hdm)).1 (by simpa using List.find?_some hd)
    rw [hs d (mem_groupMembers.1 hdm).1] at hds
    cases hds
  · rfl

/-- The long leaf a bit string finds through the group of its low bits. -/
theorem longLookup_find {n b x : Nat} {codes : List TableCode} {g : Group} (h : codes.Pairwise TableCode.apart)
    (hb : ∀ c ∈ codes, c.len ≤ b) (hg : groupAt (longGroups n codes) (x % 2 ^ n) = some g) :
    (∀ c, c ∈ codes → n < c.len → c.startsAt x = true →
        (longLookup n codes (longGroups n codes)).getD (g.offset + (x % 2 ^ g.maxLen) >>> n) 0
          = BitVec.ofNat 16 ((c.len <<< 10) ||| c.value))
      ∧ ((∀ c ∈ codes, c.startsAt x = false) →
        (longLookup n codes (longGroups n codes)).getD (g.offset + (x % 2 ^ g.maxLen) >>> n) 0 = 0) := by
  obtain ⟨-, hmax, -, hslots⟩ := groupAt_some hb hg
  have hm : ∀ c ∈ groupMembers n codes (x % 2 ^ n), c.len ≤ g.maxLen := hmax ▸ le_foldl_maxLen.2
  have hj : (x % 2 ^ g.maxLen) >>> n < 2 ^ (g.maxLen - n) := by
    rw [Nat.shiftRight_eq_div_pow, Nat.div_lt_iff_lt_mul (Nat.two_pow_pos n), ← pow_add]
    exact lt_of_lt_of_le (Nat.mod_lt _ (Nat.two_pow_pos _)) (Nat.pow_le_pow_right (by decide) (by omega))
  rw [hslots _ hj]
  exact ⟨fun c hc hl hs => longSlot_of_startsAt h hc hl hm hs, longSlot_of_none hm⟩

/-! ### The fields of the entries -/

/-- A leaf of a long table (rules R110, R113). -/
theorem longLeaf_toNat {len value : Nat} (hl : len < 64) (hv : value < 2 ^ 10) :
    (BitVec.ofNat 16 ((len <<< 10) ||| value)).toNat = value + 2 ^ 10 * len := by
  rw [Nat.or_comm, or_shift_eq_add len hv, BitVec.toNat_ofNat]
  omega

/-- A leaf of a small short table (rule R108). -/
theorem smallLeaf_toNat {len value : Nat} (hl : len < 32) (hv : value < 2 ^ 9) :
    (BitVec.ofNat 16 ((len <<< 11) ||| value)).toNat = value + 2 ^ 11 * len := by
  rw [Nat.or_comm, or_shift_eq_add len (by omega), BitVec.toNat_ofNat]
  omega

/-- A pointer of a small short table (rule R109). -/
theorem smallPointer_toNat {maxLen offset : Nat} (hl : maxLen < 32) (ho : offset < 2 ^ 10) :
    (BitVec.ofNat 16 ((maxLen <<< 11) ||| (1 <<< 10) ||| offset)).toNat = offset + 2 ^ 10 + 2 ^ 11 * maxLen := by
  rw [Nat.or_assoc, Nat.or_comm, Nat.or_comm (1 <<< 10), or_shift_eq_add 1 ho, or_shift_eq_add maxLen (by omega),
    BitVec.toNat_ofNat]
  omega

/-- A pointer of a large short table (rule R113). -/
theorem largePointer_toNat {maxLen offset : Nat} (hl : maxLen < 64) (ho : offset < 2 ^ 25) :
    (BitVec.ofNat 32 ((maxLen <<< 26) ||| (1 <<< 25) ||| offset)).toNat = offset + 2 ^ 25 + 2 ^ 26 * maxLen := by
  rw [Nat.or_assoc, Nat.or_comm, Nat.or_comm (1 <<< 25), or_shift_eq_add 1 ho, or_shift_eq_add maxLen (by omega),
    BitVec.toNat_ofNat]
  omega

/-- An entry of packed literals, or of one symbol (rule R112). -/
theorem symsEntry_toNat {lits count bits : Nat} (hl : lits < 2 ^ 25) (hc : count < 4) (hb : bits < 16) :
    (symsEntry lits count bits).toNat = lits + 2 ^ 26 * count + 2 ^ 28 * bits := by
  rw [symsEntry, Nat.or_assoc, Nat.or_comm, Nat.or_comm (count <<< 26), or_shift_eq_add count (by omega),
    or_shift_eq_add bits (by omega), BitVec.toNat_ofNat]
  omega

/-! ### The small table -/

/-- A small lookup through a leaf. -/
theorem SmallTable.find_of_leaf {t : SmallTable} {x e : Nat} (he : (t.short.getD (x % 2 ^ 10) 0).toNat = e)
    (h : field e 10 1 = 0) : t.find x = ⟨field e 0 9, field e 11 5⟩ := by
  subst he
  exact if_pos h

/-- A small lookup through a pointer. -/
theorem SmallTable.find_of_pointer {t : SmallTable} {x e : Nat} (he : (t.short.getD (x % 2 ^ 10) 0).toNat = e)
    (h : field e 10 1 ≠ 0) : t.find x =
      ⟨field (t.long.getD (field e 0 10 + (x % 2 ^ field e 11 5) >>> 10) 0).toNat 0 9,
        field (t.long.getD (field e 0 10 + (x % 2 ^ field e 11 5) >>> 10) 0).toNat 10 6⟩ := by
  subst he
  exact if_neg h

/-- What a lookup in a small table gives for a code, or for none. -/
def smallHitOf : Option TableCode → SmallHit
  | some c => ⟨c.value, c.len⟩
  | none => ⟨0, 0⟩

/-- The contents theorem of the small table (rule R211): a lookup finds the code that starts the bit string. -/
theorem buildSmall_find {codes : List TableCode} (h : tableCodesOk 15 9 codes)
    (hsize : (longLookup Config.distLookupBits codes (longGroups Config.distLookupBits codes)).length ≤ 1024) (x : Nat) :
    (buildSmall codes).find x = smallHitOf (startingCode codes 15 x) := by
  obtain ⟨hap, hfit⟩ := h
  have hb : ∀ c ∈ codes, c.len ≤ 15 := fun c hc => (hfit c hc).1
  have hentry : ((buildSmall codes).short.getD (x % 2 ^ 10) 0)
      = smallShortEntry codes (longGroups 10 codes) (x % 2 ^ 10) :=
    tabulate_getD _ _ (Nat.mod_lt _ (by decide))
  have hstart : startingCode codes Config.distLookupBits (x % 2 ^ 10) = startingCode codes 10 x :=
    startingCode_mod codes (le_refl 10) x
  unfold smallShortEntry at hentry
  rw [hstart] at hentry
  cases hc : startingCode codes 10 x with
  | some c =>
    obtain ⟨hmem, hl, hs⟩ := startingCode_some hc
    obtain ⟨-, -, hv⟩ := hfit c hmem
    rw [hc] at hentry
    rw [startingCode_of_startsAt hap hmem (hb c hmem) hs,
      SmallTable.find_of_leaf ((congrArg BitVec.toNat hentry).trans (smallLeaf_toNat (by omega) hv))]
    · simp only [field, Nat.shiftRight_eq_div_pow, smallHitOf, SmallHit.mk.injEq]
      omega
    · simp only [field, Nat.shiftRight_eq_div_pow]
      omega
  | none =>
    rw [hc] at hentry
    cases hg : groupAt (longGroups 10 codes) (x % 2 ^ 10) with
    | none =>
      rw [hg] at hentry
      have hnone : startingCode codes 15 x = none := by
        cases hd : startingCode codes 15 x with
        | none => rfl
        | some c =>
          obtain ⟨hmem, hl, hs⟩ := startingCode_some hd
          have hlong : 10 < c.len := by
            by_contra hshort
            rw [startingCode_none hc hmem (by omega)] at hs
            cases hs
          obtain ⟨g, hg'⟩ := groupAt_of_mem hmem hlong
          rw [← ((c.startsAt_iff x).1 hs).2, Nat.mod_mod_of_dvd _ (pow_dvd_pow 2 hlong.le), hg] at hg'
          cases hg'
      rw [hnone, SmallTable.find_of_leaf (congrArg BitVec.toNat hentry) (by decide)]
      decide
    | some g =>
      rw [hg] at hentry
      obtain ⟨hmax, -, hoff, -⟩ := groupAt_some hb hg
      have hoff' : g.offset < 1024 := lt_of_lt_of_le hoff hsize
      obtain ⟨hsome, hnone⟩ := longLookup_find hap hb hg
      have he := (congrArg BitVec.toNat hentry).trans (smallPointer_toNat (by omega) hoff')
      have h10 : field (g.offset + 2 ^ 10 + 2 ^ 11 * g.maxLen) 10 1 ≠ 0 := by
        simp only [field, Nat.shiftRight_eq_div_pow]; omega
      have h0 : field (g.offset + 2 ^ 10 + 2 ^ 11 * g.maxLen) 0 10 = g.offset := by
        simp only [field, Nat.shiftRight_eq_div_pow]; omega
      have h11 : field (g.offset + 2 ^ 10 + 2 ^ 11 * g.maxLen) 11 5 = g.maxLen := by
        simp only [field, Nat.shiftRight_eq_div_pow]; omega
      rw [SmallTable.find_of_pointer he h10, h0, h11]
      cases hd : startingCode codes 15 x with
      | none =>
        rw [show (buildSmall codes).long.getD _ 0 = _ from hnone fun c hc => startingCode_none hd hc (hb c hc)]
        decide
      | some c =>
        obtain ⟨hmem, hl, hs⟩ := startingCode_some hd
        have hlong : 10 < c.len := by
          by_contra hshort
          rw [startingCode_none hc hmem (by omega)] at hs
          cases hs
        obtain ⟨-, -, hv⟩ := hfit c hmem
        rw [show (buildSmall codes).long.getD _ 0 = _ from hsome c hmem hlong hs,
          longLeaf_toNat (by omega) (by omega)]
        simp only [field, Nat.shiftRight_eq_div_pow, smallHitOf, SmallHit.mk.injEq]
        omega

/-- Settles O20: the contents theorem, read for a code and for none. -/
theorem smallTableContents : Obligations.SmallTableContents := by
  unfold Obligations.SmallTableContents
  intro codes x h hsize
  rw [buildSmall_find h hsize]
  exact ⟨fun c hc => by rw [hc]; rfl, fun hn => by rw [hn]; rfl⟩

/-- A small table whose codes have at most `n` bits looks at `n` bits only. -/
theorem buildSmall_narrow {codes : List TableCode} {n : Nat} (hn : n ≤ 15) (h : tableCodesOk n 9 codes)
    (hsize : (longLookup Config.distLookupBits codes (longGroups Config.distLookupBits codes)).length ≤ 1024) {m : Nat}
    (hm : 15 ≤ m) : (buildSmall codes).narrow m ∧ ∀ x, ((buildSmall codes).find x).len ≤ n := by
  have h15 : tableCodesOk 15 9 codes := ⟨h.1, fun c hc => ⟨(h.2 c hc).1.trans hn, (h.2 c hc).2⟩⟩
  have hlen (x : Nat) : ((buildSmall codes).find x).len ≤ n := by
    rw [buildSmall_find h15 hsize]
    cases hc : startingCode codes 15 x with
    | none => exact Nat.zero_le n
    | some c => exact (h.2 c (startingCode_some hc).1).1
  refine ⟨fun x => ⟨?_, by have := hlen x; omega⟩, hlen⟩
  rw [buildSmall_find h15 hsize, buildSmall_find h15 hsize, startingCode_mod codes hm]

/-! ### The large table -/

/-- A large lookup through an entry of symbols. -/
theorem LargeTable.find_of_leaf {t : LargeTable} {x e : Nat} (he : (t.short.getD (x % 2 ^ 12) 0).toNat = e)
    (h : field e 25 1 = 0) : t.find x = ⟨field e 28 4, field e 26 2, field e 0 25⟩ := by
  subst he
  exact if_pos h

/-- A large lookup through a pointer. -/
theorem LargeTable.find_of_pointer {t : LargeTable} {x e : Nat} (he : (t.short.getD (x % 2 ^ 12) 0).toNat = e)
    (h : field e 25 1 ≠ 0) : t.find x =
      ⟨field (t.long.getD (field e 0 25 + (x % 2 ^ field e 26 6) >>> 12) 0).toNat 10 6, 1,
        field (t.long.getD (field e 0 25 + (x % 2 ^ field e 26 6) >>> 12) 0).toNat 0 10⟩ := by
  subst he
  exact if_neg h

/-- The codes an entry of the large short table packs, after the first (rules R216 to R218). -/
def literalRun (multisym : Nat) (codes : List TableCode) (c1 : TableCode) (x : Nat) : List TableCode :=
  if 255 < c1.value ∨ multisym = 1 then []
  else match startingLiteral codes (12 - c1.len) (x >>> c1.len) with
  | none => []
  | some c2 =>
    if multisym = 2 then [c2]
    else match startingLiteral codes (12 - (c1.len + c2.len)) (x >>> (c1.len + c2.len)) with
    | none => [c2]
    | some c3 => [c2, c3]

/-- The entry that packs a run of codes. -/
def runEntry (cs : List TableCode) : Word := symsEntry (packLits cs) cs.length (cs.map (·.len)).sum

theorem startingLiteral_some {codes : List TableCode} {n x : Nat} {c : TableCode} (h : startingLiteral codes n x = some c) :
    c ∈ codes ∧ c.value < 256 ∧ c.len ≤ n ∧ c.startsAt x = true := by
  have hp := List.find?_some h
  simp only [Bool.and_eq_true, decide_eq_true_eq] at hp
  obtain ⟨⟨h1, h2⟩, h3⟩ := hp
  exact ⟨List.mem_of_find?_eq_some h, h1, h2, h3⟩

theorem packLits_two {a b : Nat} (ha : a < 256) : a ||| (b <<< 8) = a + 256 * (b + 256 * 0) := by
  rw [or_shift_eq_add b (show a < 2 ^ 8 from ha)]
  omega

theorem packLits_three {a b c : Nat} (ha : a < 256) (hb : b < 256) :
    a ||| (b <<< 8) ||| (c <<< 16) = a + 256 * (b + 256 * (c + 256 * 0)) := by
  rw [or_shift_eq_add b (show a < 2 ^ 8 from ha), or_shift_eq_add c (by omega : a + 2 ^ 8 * b < 2 ^ 16)]
  omega

/-- What follows the first code in an entry: literals that follow it in the bit string, in at most 12 bits together. -/
theorem literalRun_spec {multisym x : Nat} {codes : List TableCode} {c1 : TableCode} (hap : codes.Pairwise TableCode.apart)
    (hb : ∀ c ∈ codes, c.len ≤ 20) (hl : c1.len ≤ 12) :
    readsFrom codes 20 (x >>> c1.len) (literalRun multisym codes c1 (x % 2 ^ 12))
      ∧ (literalRun multisym codes c1 (x % 2 ^ 12)).length ≤ 2
      ∧ (1 ≤ multisym → (literalRun multisym codes c1 (x % 2 ^ 12)).length < multisym)
      ∧ (literalRun multisym codes c1 (x % 2 ^ 12) ≠ [] → c1.value < 256)
      ∧ (∀ b ∈ literalRun multisym codes c1 (x % 2 ^ 12), b.value < 256)
      ∧ c1.len + ((literalRun multisym codes c1 (x % 2 ^ 12)).map (·.len)).sum ≤ 12 := by
  have hread {c : TableCode} {a : Nat} (h : startingLiteral codes (12 - a) ((x % 2 ^ 12) >>> a) = some c) (ha : a ≤ 12) :
      startingCode codes 20 (x >>> a) = some c ∧ c.value < 256 ∧ a + c.len ≤ 12 := by
    obtain ⟨hm, hv, hlen, hs⟩ := startingLiteral_some h
    refine ⟨startingCode_of_startsAt hap hm (hb c hm) ?_, hv, by omega⟩
    rw [c.startsAt_iff] at hs ⊢
    rwa [mod_shift_mod (by omega)] at hs
  unfold literalRun
  split
  · exact ⟨trivial, by simp, fun h => h, fun h => absurd rfl h, by simp, by simpa using hl⟩
  · rename_i hone
    obtain ⟨hv1, hm1⟩ := not_or.1 hone
    split
    · exact ⟨trivial, by simp, fun h => h, fun h => absurd rfl h, by simp, by simpa using hl⟩
    · rename_i c2 h2
      obtain ⟨r2, v2, l2⟩ := hread h2 hl
      split
      · exact ⟨⟨r2, trivial⟩, by simp, fun h => by simp; omega, fun _ => by omega, by simpa using v2, by simpa using l2⟩
      · rename_i hm2
        split
        · exact ⟨⟨r2, trivial⟩, by simp, fun h => by simp; omega, fun _ => by omega, by simpa using v2, by simpa using l2⟩
        · rename_i c3 h3
          obtain ⟨r3, v3, l3⟩ := hread h3 l2
          rw [Nat.shiftRight_add] at r3
          refine ⟨⟨r2, r3, trivial⟩, by simp, fun h => by simp; omega, fun _ => by omega, by simp [v2, v3], ?_⟩
          simp
          omega

/-- The entry of an index that a short code starts packs its run. -/
theorem largeShortEntry_of_some {multisym x : Nat} {codes : List TableCode} {gs : List Group} {c1 : TableCode}
    (h : startingCode codes 12 x = some c1) :
    largeShortEntry multisym codes gs x = runEntry (c1 :: literalRun multisym codes c1 x) := by
  unfold largeShortEntry literalRun runEntry
  rw [show startingCode codes Config.litlenLookupBits x = some c1 from h]
  simp only
  split
  · simp [packLits]
  · rename_i hone
    have hv1 : c1.value < 256 := by have := not_or.1 hone; omega
    rw [show Config.litlenLookupBits = 12 from rfl]
    cases h2 : startingLiteral codes (12 - c1.len) (x >>> c1.len) with
    | none => simp [packLits]
    | some c2 =>
      have hv2 := (startingLiteral_some h2).2.1
      simp only
      split
      · rw [packLits_two hv1]; simp [packLits]
      · cases h3 : startingLiteral codes (12 - (c1.len + c2.len)) (x >>> (c1.len + c2.len)) with
        | none => rw [packLits_two hv1]; simp [packLits]
        | some c3 =>
          simp only
          rw [packLits_three hv1 hv2]
          simp [packLits, Nat.add_assoc]

theorem packLits_lt {cs : List TableCode} (h : ∀ c ∈ cs, c.value < 256) : packLits cs < 256 ^ cs.length := by
  induction cs with
  | nil => exact Nat.one_pos
  | cons c cs ih =>
    obtain ⟨hc, hcs⟩ := List.forall_mem_cons.1 h
    have := ih hcs
    rw [packLits, List.length_cons, pow_succ]
    omega

/-- What a lookup gives for a run of codes. -/
def runHit (cs : List TableCode) : LargeHit := ⟨(cs.map (·.len)).sum, cs.length, packLits cs⟩

/-- A lookup that an entry of symbols answers. -/
theorem LargeTable.find_of_runEntry {t : LargeTable} {x : Nat} {cs : List TableCode}
    (he : t.short.getD (x % 2 ^ 12) 0 = runEntry cs) (hl : packLits cs < 2 ^ 25) (hc : cs.length < 4)
    (hb : (cs.map (·.len)).sum < 16) : t.find x = runHit cs := by
  rw [LargeTable.find_of_leaf ((congrArg BitVec.toNat he).trans (symsEntry_toNat hl hc hb))]
  · simp only [field, Nat.shiftRight_eq_div_pow, runHit, LargeHit.mk.injEq]
    omega
  · simp only [field, Nat.shiftRight_eq_div_pow]
    omega

/-- The long table of codes of at most 20 bits is small enough for a pointer's offset field. -/
theorem largeLong_length {codes : List TableCode} (hb : ∀ c ∈ codes, c.len ≤ 20) :
    (longLookup 12 codes (longGroups 12 codes)).length < 2 ^ 25 := by
  have h1 := longLookup_length_le (n := 12) (off := 0) hb (groupPrefixes 12 codes)
  have h2 := Nat.mul_le_mul_right (2 ^ (20 - 12)) (groupPrefixes_length_le 12 codes)
  exact lt_of_le_of_lt (h1.trans h2) (by decide)

/-- A lookup through a pointer finds the long leaf of its group. -/
theorem buildLarge_find_long {multisym x : Nat} {codes : List TableCode} {g : Group} (hb : ∀ c ∈ codes, c.len ≤ 20)
    (hc : startingCode codes 12 x = none) (hg : groupAt (longGroups 12 codes) (x % 2 ^ 12) = some g) :
    (buildLarge multisym codes).find x =
      ⟨field ((longLookup 12 codes (longGroups 12 codes)).getD (g.offset + (x % 2 ^ g.maxLen) >>> 12) 0).toNat 10 6, 1,
        field ((longLookup 12 codes (longGroups 12 codes)).getD (g.offset + (x % 2 ^ g.maxLen) >>> 12) 0).toNat 0 10⟩ := by
  obtain ⟨hmax, -, hoff, -⟩ := groupAt_some hb hg
  have hoff' : g.offset < 2 ^ 25 := hoff.trans (largeLong_length hb)
  have hentry : (buildLarge multisym codes).short.getD (x % 2 ^ 12) 0
      = BitVec.ofNat 32 ((g.maxLen <<< 26) ||| (1 <<< 25) ||| g.offset) := by
    refine (tabulate_getD _ _ (Nat.mod_lt _ (by decide))).trans ?_
    unfold largeShortEntry
    rw [show startingCode codes Config.litlenLookupBits (x % 2 ^ 12) = none from (startingCode_mod codes (le_refl 12) x).trans hc,
      show groupAt (longGroups Config.litlenLookupBits codes) (x % 2 ^ 12) = some g from hg]
  have he := (congrArg BitVec.toNat hentry).trans (largePointer_toNat (by omega) hoff')
  have h25 : field (g.offset + 2 ^ 25 + 2 ^ 26 * g.maxLen) 25 1 ≠ 0 := by
    simp only [field, Nat.shiftRight_eq_div_pow]; omega
  have h0 : field (g.offset + 2 ^ 25 + 2 ^ 26 * g.maxLen) 0 25 = g.offset := by
    simp only [field, Nat.shiftRight_eq_div_pow]; omega
  have h26 : field (g.offset + 2 ^ 25 + 2 ^ 26 * g.maxLen) 26 6 = g.maxLen := by
    simp only [field, Nat.shiftRight_eq_div_pow]; omega
  rw [LargeTable.find_of_pointer he h25, h0, h26]
  rfl

/-- A lookup of an index without an entry. -/
theorem buildLarge_find_empty {multisym x : Nat} {codes : List TableCode}
    (hc : startingCode codes 12 x = none) (hg : groupAt (longGroups 12 codes) (x % 2 ^ 12) = none) :
    (buildLarge multisym codes).find x = ⟨0, 0, 0⟩ := by
  have hentry : (buildLarge multisym codes).short.getD (x % 2 ^ 12) 0 = 0 := by
    refine (tabulate_getD _ _ (Nat.mod_lt _ (by decide))).trans ?_
    unfold largeShortEntry
    rw [show startingCode codes Config.litlenLookupBits (x % 2 ^ 12) = none from (startingCode_mod codes (le_refl 12) x).trans hc,
      show groupAt (longGroups Config.litlenLookupBits codes) (x % 2 ^ 12) = none from hg]
  exact LargeTable.find_of_leaf (congrArg BitVec.toNat hentry) (by decide)

/-- A lookup that a short code answers: its run (rules R216 to R218). -/
theorem buildLarge_find_short {multisym x : Nat} {codes : List TableCode} {c : TableCode} (h : tableCodesOk 20 10 codes)
    (hc : startingCode codes 12 x = some c) :
    (buildLarge multisym codes).find x = runHit (c :: literalRun multisym codes c (x % 2 ^ 12)) := by
  obtain ⟨hap, hfit⟩ := h
  obtain ⟨hmem, hl, -⟩ := startingCode_some hc
  obtain ⟨-, hlen, -, hv1, hvs, hsum⟩ := literalRun_spec (multisym := multisym) (x := x) (c1 := c) hap
    (fun c hc => (hfit c hc).1) hl
  have hentry : (buildLarge multisym codes).short.getD (x % 2 ^ 12) 0
      = runEntry (c :: literalRun multisym codes c (x % 2 ^ 12)) :=
    (tabulate_getD _ _ (Nat.mod_lt _ (by decide))).trans
      (largeShortEntry_of_some ((startingCode_mod codes (le_refl 12) x).trans hc))
  have hv := (hfit c hmem).2.2
  generalize literalRun multisym codes c (x % 2 ^ 12) = cs at hlen hv1 hvs hsum hentry ⊢
  refine LargeTable.find_of_runEntry hentry ?_ (by simp; omega) (by simp; omega)
  by_cases hcs : cs = []
  · subst hcs
    simp only [packLits]
    omega
  · have hp := packLits_lt (List.forall_mem_cons.2 ⟨hv1 hcs, hvs⟩)
    rw [List.length_cons] at hp
    exact lt_of_lt_of_le hp ((Nat.pow_le_pow_right (by decide) (Nat.succ_le_succ hlen)).trans (by decide))

/-- A code that starts the bit string, and no short one: it is a long code. -/
theorem long_of_startingCode {codes : List TableCode} {n m x : Nat} {c : TableCode} (hshort : startingCode codes n x = none)
    (h : startingCode codes m x = some c) : c ∈ codes ∧ n < c.len ∧ c.startsAt x = true := by
  obtain ⟨hmem, -, hs⟩ := startingCode_some h
  refine ⟨hmem, ?_, hs⟩
  by_contra hle
  rw [startingCode_none hshort hmem (by omega)] at hs
  cases hs

/-- The group of a bit string that a long code starts. -/
theorem groupAt_of_startsAt {n x : Nat} {codes : List TableCode} {c : TableCode} (hc : c ∈ codes) (hl : n < c.len)
    (hs : c.startsAt x = true) : ∃ g, groupAt (longGroups n codes) (x % 2 ^ n) = some g := by
  obtain ⟨g, hg⟩ := groupAt_of_mem hc hl
  rw [← ((c.startsAt_iff x).1 hs).2, Nat.mod_mod_of_dvd _ (pow_dvd_pow 2 hl.le)] at hg
  exact ⟨g, hg⟩

/-- Settles O21: a short code with its run, a long code through its group, or nothing. -/
theorem largeTableContents : Obligations.LargeTableContents := by
  unfold Obligations.LargeTableContents
  intro multisym codes x h1 h3 h
  obtain ⟨hap, hfit⟩ := id h
  have hb : ∀ c ∈ codes, c.len ≤ 20 := fun c hc => (hfit c hc).1
  refine ⟨fun hn => ?_, fun c hc => ?_⟩
  · have hall : ∀ c ∈ codes, c.startsAt x = false := fun c hc => startingCode_none hn hc (hb c hc)
    have hshort : startingCode codes 12 x = none := List.find?_eq_none.2 fun c hc => by simp [hall c hc]
    cases hg : groupAt (longGroups 12 codes) (x % 2 ^ 12) with
    | none => rw [buildLarge_find_empty hshort hg]
    | some g => rw [buildLarge_find_long hb hshort hg, (longLookup_find hap hb hg).2 hall]; decide
  · cases hd : startingCode codes 12 x with
    | some c1 =>
      obtain ⟨hmem, hl, hs⟩ := startingCode_some hd
      obtain rfl : c1 = c := Option.some.inj ((startingCode_of_startsAt hap hmem (hb c1 hmem) hs).symm.trans hc)
      obtain ⟨hread, -, hlen, hv1, hvs, hsum⟩ := literalRun_spec (multisym := multisym) (x := x) hap hb hl
      refine ⟨literalRun multisym codes c1 (x % 2 ^ 12), ⟨hc, hread⟩, hlen h1,
        fun hne => List.forall_mem_cons.2 ⟨hv1 hne, hvs⟩, fun _ => by simpa using hsum, ?_⟩
      rw [buildLarge_find_short h hd, runHit, List.length_cons, Nat.add_comm]
    | none =>
      obtain ⟨hmem, hlong, hs⟩ := long_of_startingCode hd hc
      obtain ⟨g, hg⟩ := groupAt_of_startsAt hmem hlong hs
      obtain ⟨hlen, -, hv⟩ := hfit c hmem
      refine ⟨[], ⟨hc, trivial⟩, h1, fun h => absurd rfl h, fun h => absurd rfl h, ?_⟩
      rw [buildLarge_find_long hb hd hg, (longLookup_find hap hb hg).1 c hmem hlong hs, longLeaf_toNat (by omega) hv]
      simp only [field, Nat.shiftRight_eq_div_pow, packLits, List.map_cons, List.map_nil, List.sum_cons, List.sum_nil,
        List.length_nil, LargeHit.mk.injEq]
      exact ⟨by omega, trivial, by omega⟩

/-- A large table looks at 57 bits only, and gives no more. -/
theorem buildLarge_narrow (multisym : Nat) {codes : List TableCode} (h : tableCodesOk 20 10 codes) :
    (buildLarge multisym codes).narrow := by
  obtain ⟨hap, hfit⟩ := id h
  have hb : ∀ c ∈ codes, c.len ≤ 20 := fun c hc => (hfit c hc).1
  intro x
  have hidx : x % 2 ^ 57 % 2 ^ 12 = x % 2 ^ 12 := Nat.mod_mod_of_dvd _ (pow_dvd_pow 2 (by decide))
  have hstart : startingCode codes 12 (x % 2 ^ 57) = startingCode codes 12 x := startingCode_mod codes (by decide) x
  cases hd : startingCode codes 12 x with
  | some c =>
    obtain ⟨-, hl, -⟩ := startingCode_some hd
    obtain ⟨-, -, -, -, -, hsum⟩ := literalRun_spec (multisym := multisym) (x := x) hap hb hl
    rw [buildLarge_find_short h hd, buildLarge_find_short h (hstart.trans hd), hidx]
    refine ⟨rfl, ?_⟩
    simp only [runHit, List.map_cons, List.sum_cons]
    omega
  | none =>
    cases hg : groupAt (longGroups 12 codes) (x % 2 ^ 12) with
    | none =>
      rw [buildLarge_find_empty hd hg, buildLarge_find_empty (hstart.trans hd) (hidx ▸ hg)]
      exact ⟨rfl, by decide⟩
    | some g =>
      have hmax := (groupAt_some hb hg).1
      rw [buildLarge_find_long hb hd hg, buildLarge_find_long hb (hstart.trans hd) (hidx ▸ hg),
        Nat.mod_mod_of_dvd _ (pow_dvd_pow 2 (by omega : g.maxLen ≤ 57))]
      refine ⟨rfl, ?_⟩
      cases hc : startingCode codes 20 x with
      | none =>
        rw [(longLookup_find hap hb hg).2 fun c hm => startingCode_none hc hm (hb c hm)]
        decide
      | some c =>
        obtain ⟨hmem, hlong, hs⟩ := long_of_startingCode hd hc
        obtain ⟨hlen, -, hv⟩ := hfit c hmem
        rw [(longLookup_find hap hb hg).1 c hmem hlong hs, longLeaf_toNat (by omega) hv]
        simp only [field, Nat.shiftRight_eq_div_pow]
        omega

end Sys2Proof.Machine
end

section
/-! PROOFS. Length-limited code lengths: the Kraft repair, and what `LimitedLengths` gives each symbol (rules R186 to R192). -/

namespace Sys2Proof.Machine

/-! ### Weighted counts -/

/-- A list of counts, each counted with its index's weight. -/
def weigh (w : Nat → Nat) (lc : List Nat) : Nat := ∑ i ∈ Finset.range lc.length, lc.getD i 0 * w i

theorem getD_set {l : List Nat} {i : Nat} (v j : Nat) (hi : i < l.length) :
    (l.set i v).getD j 0 = if j = i then v else l.getD j 0 := by
  simp only [List.getD_eq_getElem?_getD, List.getElem?_set]
  by_cases h : i = j
  · subst h; simp [hi]
  · simp [h, Ne.symm h]

/-- A count replaced. -/
theorem weigh_set (w : Nat → Nat) {lc : List Nat} {i : Nat} (v : Nat) (hi : i < lc.length) :
    weigh w (lc.set i v) + lc.getD i 0 * w i = weigh w lc + v * w i := by
  have hmem : i ∈ Finset.range lc.length := Finset.mem_range.2 hi
  unfold weigh
  rw [List.length_set, ← Finset.add_sum_erase _ _ hmem, ← Finset.add_sum_erase _ (fun j => lc.getD j 0 * w j) hmem,
    getD_set v i hi, if_pos rfl]
  have hrest : ∑ j ∈ (Finset.range lc.length).erase i, (lc.set i v).getD j 0 * w j
      = ∑ j ∈ (Finset.range lc.length).erase i, lc.getD j 0 * w j :=
    Finset.sum_congr rfl fun j hj => by rw [getD_set v j hi, if_neg (Finset.ne_of_mem_erase hj)]
  rw [hrest]
  omega

theorem weigh_one (lc : List Nat) : weigh (fun _ => 1) lc = lc.sum := by
  have := sum_map_eq_range id lc
  simpa [weigh] using this.symm

theorem tabulate_sum (n : Nat) (f : Nat → Nat) : (tabulate n f).sum = ∑ i ∈ Finset.range n, f i := by
  have hlen : (tabulate n f).length = n := tabulateFrom_length f n 0
  have := sum_map_eq_range id (tabulate n f)
  rw [List.map_id, hlen] at this
  rw [this]
  exact Finset.sum_congr rfl fun i hi => tabulate_getD f 0 (Finset.mem_range.1 hi)

/-- The share of the code space a length takes, in codes of the limit's length; index 0 counts no code. -/
def codeShare (limit l : Nat) : Nat := if l = 0 then 0 else 2 ^ (limit - l)

theorem lenCountTotal_eq {limit : Nat} {lc : List Nat} (h : lc.length = limit + 1) :
    lenCountTotal limit lc = weigh (codeShare limit) lc := by
  unfold lenCountTotal weigh
  rw [tabulate_sum, h, Finset.sum_range_succ']
  simp [codeShare]

/-! ### The Kraft repair -/

theorem largestUsed_set (lc : List Nat) {n i : Nat} (v : Nat) (h : n < i) :
    largestUsed (lc.set i v) n = largestUsed lc n := by
  induction n with
  | zero => rfl
  | succ n ih =>
    have hg : (lc.set i v).getD (n + 1) 0 = lc.getD (n + 1) 0 := by
      simp only [List.getD_eq_getElem?_getD, List.getElem?_set, if_neg (show i ≠ n + 1 by omega)]
    rw [largestUsed, largestUsed, hg, ih (by omega)]

/-- The largest used length is one that is used, or none is. -/
theorem largestUsed_spec (lc : List Nat) (n : Nat) :
    (1 ≤ largestUsed lc n ∧ largestUsed lc n ≤ n ∧ 0 < lc.getD (largestUsed lc n) 0)
      ∨ ∀ i, 1 ≤ i → i ≤ n → lc.getD i 0 = 0 := by
  induction n with
  | zero => exact .inr fun i h1 h2 => by omega
  | succ n ih =>
    rw [largestUsed]
    split
    · exact .inl ⟨by omega, le_refl _, by assumption⟩
    · rcases ih with ⟨h1, h2, h3⟩ | h
      · exact .inl ⟨h1, by omega, h3⟩
      · refine .inr fun i h1 h2 => ?_
        rcases Nat.lt_or_ge i (n + 1) with hi | hi
        · exact h i h1 (by omega)
        · obtain rfl : i = n + 1 := by omega
          omega

theorem kraftStep_length (limit : Nat) (lc : List Nat) : (kraftStep limit lc).length = lc.length := by
  simp [kraftStep]

/-- What one turn of the repair moves: a code of the limit's length and one of a shorter length become two of the length
after that (rule R190). -/
theorem kraftStep_weigh (w : Nat → Nat) {limit l : Nat} {lc : List Nat} (hlen : lc.length = limit + 1)
    (hl : l = largestUsed lc (limit - 1)) (h1 : 1 ≤ l) (h2 : l < limit) (hlimit : 0 < lc.getD limit 0)
    (hused : 0 < lc.getD l 0) : weigh w (kraftStep limit lc) + w limit + w l = weigh w lc + 2 * w (l + 1) := by
  have hstep : kraftStep limit lc = ((lc.set limit (lc.getD limit 0 - 1)).set l (lc.getD l 0 - 1)).set (l + 1)
      (((lc.set limit (lc.getD limit 0 - 1)).set l (lc.getD l 0 - 1)).getD (l + 1) 0 + 2) := by
    simp only [kraftStep, largestUsed_set lc (lc.getD limit 0 - 1) (by omega : limit - 1 < limit), ← hl]
    rw [getD_set _ l (by omega), if_neg (by omega)]
  have e1 := weigh_set w (lc := lc) (i := limit) (lc.getD limit 0 - 1) (by omega)
  obtain ⟨lc1, hlc1⟩ : ∃ m, m = lc.set limit (lc.getD limit 0 - 1) := ⟨_, rfl⟩
  have hlen1 : lc1.length = limit + 1 := by rw [hlc1, List.length_set, hlen]
  have hl1 : lc1.getD l 0 = lc.getD l 0 := by rw [hlc1, getD_set _ _ (by omega), if_neg (by omega)]
  rw [hstep, ← hlc1]
  rw [← hlc1] at e1
  have e2 := weigh_set w (lc := lc1) (i := l) (lc.getD l 0 - 1) (by omega)
  obtain ⟨lc2, hlc2⟩ : ∃ m, m = lc1.set l (lc.getD l 0 - 1) := ⟨_, rfl⟩
  have hlen2 : lc2.length = limit + 1 := by rw [hlc2, List.length_set, hlen1]
  rw [← hlc2]
  rw [← hlc2, hl1] at e2
  have e3 := weigh_set w (lc := lc2) (i := l + 1) (lc2.getD (l + 1) 0 + 2) (by omega)
  obtain ⟨a, ha⟩ : ∃ a, lc.getD limit 0 = a + 1 := ⟨_, (Nat.succ_pred_eq_of_pos hlimit).symm⟩
  obtain ⟨b, hb⟩ : ∃ b, lc.getD l 0 = b + 1 := ⟨_, (Nat.succ_pred_eq_of_pos hused).symm⟩
  rw [ha, Nat.add_sub_cancel, Nat.add_mul, Nat.one_mul] at e1
  rw [hb, Nat.add_sub_cancel, Nat.add_mul, Nat.one_mul] at e2
  rw [Nat.add_mul] at e3
  omega

/-- What the turns of the repair rely on: no more symbols than codes of the limit's length, and the shorter codes take no
more than everything (rule R190). -/
structure Repairable (limit : Nat) (lc : List Nat) : Prop where
  length : lc.length = limit + 1
  zero : lc.getD 0 0 = 0
  sum : lc.sum ≤ 2 ^ limit
  short : lenCountTotal limit (lc.set limit 0) ≤ 2 ^ limit

/-- The share of the shorter codes. -/
def shortShare (limit l : Nat) : Nat := if l = limit then 0 else codeShare limit l

theorem lenCountTotal_set_limit {limit : Nat} {lc : List Nat} (h : lc.length = limit + 1) :
    lenCountTotal limit (lc.set limit 0) = weigh (shortShare limit) lc := by
  rw [lenCountTotal_eq (by rw [List.length_set, h])]
  unfold weigh
  rw [List.length_set]
  refine Finset.sum_congr rfl fun i hi => ?_
  rw [getD_set 0 i (by omega), shortShare]
  split <;> simp

/-- The codes of the limit's length and the shorter ones take everything together. -/
theorem weigh_codeShare_eq {limit : Nat} {lc : List Nat} (h : lc.length = limit + 1) (hl : 1 ≤ limit) :
    weigh (codeShare limit) lc = weigh (shortShare limit) lc + lc.getD limit 0 := by
  unfold weigh
  rw [h, Finset.sum_range_succ, Finset.sum_range_succ]
  have hlimit : codeShare limit limit = 1 := by simp [codeShare]; omega
  have hshort : ∑ i ∈ Finset.range limit, lc.getD i 0 * shortShare limit i
      = ∑ i ∈ Finset.range limit, lc.getD i 0 * codeShare limit i :=
    Finset.sum_congr rfl fun i hi => by rw [shortShare, if_neg (ne_of_lt (Finset.mem_range.1 hi))]
  rw [hshort, hlimit, shortShare, if_pos rfl]
  omega

/-- While the codes take more than everything, a turn of the repair takes one unit back. -/
theorem kraftStep_spec {limit : Nat} {lc : List Nat} (h : Repairable limit lc) (hover : 2 ^ limit < lenCountTotal limit lc) :
    Repairable limit (kraftStep limit lc) ∧ lenCountTotal limit (kraftStep limit lc) + 1 = lenCountTotal limit lc
      ∧ (kraftStep limit lc).sum = lc.sum := by
  obtain ⟨hlen, hzero, hsum, hshort⟩ := h
  have hl : 1 ≤ limit := by
    by_contra h0
    obtain rfl : limit = 0 := by omega
    simp [lenCountTotal, tabulate, tabulateFrom] at hover
  rw [lenCountTotal_eq hlen] at hover ⊢
  rw [lenCountTotal_set_limit hlen] at hshort
  have hsplit := weigh_codeShare_eq hlen hl
  have hlimit : 0 < lc.getD limit 0 := by omega
  rcases largestUsed_spec lc (limit - 1) with ⟨h1, h2, h3⟩ | hnone
  · obtain ⟨l, hl'⟩ : ∃ l, l = largestUsed lc (limit - 1) := ⟨_, rfl⟩
    rw [← hl'] at h1 h2 h3
    have hw (w : Nat → Nat) := kraftStep_weigh w hlen hl' h1 (by omega) hlimit h3
    have hlen' : (kraftStep limit lc).length = limit + 1 := by rw [kraftStep_length, hlen]
    have hpow : 2 ^ (limit - l) = 2 * 2 ^ (limit - (l + 1)) := by rw [← pow_succ']; congr 1; omega
    have ht := hw (codeShare limit)
    have hs := hw (shortShare limit)
    have h1' := hw fun _ => 1
    rw [weigh_one, weigh_one] at h1'
    have hz := hw fun i => if i = 0 then 1 else 0
    simp only [codeShare, if_neg (show limit ≠ 0 by omega), if_neg (show l ≠ 0 by omega), if_neg (Nat.succ_ne_zero l),
      Nat.sub_self, pow_zero] at ht
    have hzero' (m : List Nat) (hm : m.length = limit + 1) : weigh (fun i => if i = 0 then 1 else 0) m = m.getD 0 0 := by
      unfold weigh; rw [hm, Finset.sum_range_succ']; simp
    rw [hzero' _ hlen, hzero' _ hlen', if_neg (by omega), if_neg (by omega), if_neg (by omega), hzero] at hz
    refine ⟨⟨hlen', by omega, by omega, ?_⟩, ?_, by omega⟩
    · rw [lenCountTotal_set_limit hlen']
      simp only [shortShare, if_pos, if_neg (show l ≠ limit by omega), codeShare, if_neg (show l ≠ 0 by omega)] at hs
      split at hs
      · omega
      · rw [if_neg (Nat.succ_ne_zero l)] at hs; omega
    · rw [lenCountTotal_eq hlen']
      omega
  · exfalso
    have hall : weigh (shortShare limit) lc = 0 := by
      unfold weigh
      refine Finset.sum_eq_zero fun i hi => ?_
      rw [hlen, Finset.mem_range] at hi
      by_cases h0 : i = 0
      · rw [h0, hzero, Nat.zero_mul]
      · by_cases hil : i = limit
        · rw [shortShare, if_pos hil, Nat.mul_zero]
        · rw [hnone i (by omega) (by omega), Nat.zero_mul]
    have hle : lc.getD limit 0 ≤ lc.sum := by
      rw [List.getD_eq_getElem lc 0 (by omega)]
      exact List.le_sum_of_mem (List.getElem_mem _)
    omega

theorem kraftRepair_spec {limit n : Nat} {lc : List Nat} (h : Repairable limit lc)
    (hn : lenCountTotal limit lc = 2 ^ limit + n) : Repairable limit (kraftRepair limit n lc)
      ∧ lenCountTotal limit (kraftRepair limit n lc) = 2 ^ limit ∧ (kraftRepair limit n lc).sum = lc.sum := by
  induction n generalizing lc with
  | zero => exact ⟨h, hn, rfl⟩
  | succ n ih =>
    obtain ⟨h1, h2, h3⟩ := kraftStep_spec h (by omega)
    obtain ⟨h4, h5, h6⟩ := ih h1 (by omega)
    exact ⟨h4, h5, h6.trans h3⟩

/-- Settles O23: one turn for each unit above everything. -/
theorem kraftRepairIsExact : Obligations.KraftRepairIsExact := by
  unfold Obligations.KraftRepairIsExact
  intro limit lc h1 h2 h3 h4 h5
  exact (kraftRepair_spec ⟨h1, h2, h3, h5⟩ (by omega)).2

/-! ### Lengths along the sorted list -/

theorem expandLenCount_spec (lc : List Nat) (n l : Nat) :
    (∀ x ∈ expandLenCount lc n l, l ≤ x ∧ x < l + n) ∧ (expandLenCount lc n l).Pairwise (· ≤ ·)
      ∧ ∀ w : Nat → Nat, ((expandLenCount lc n l).map w).sum = ∑ i ∈ Finset.range n, lc.getD (l + i) 0 * w (l + i) := by
  induction n generalizing l with
  | zero => simp [expandLenCount]
  | succ n ih =>
    obtain ⟨h1, h2, h3⟩ := ih (l + 1)
    unfold expandLenCount
    refine ⟨fun x hx => ?_, List.pairwise_append.2 ⟨?_, h2, fun a ha b hb => ?_⟩, fun w => ?_⟩
    · rcases List.mem_append.1 hx with hx | hx
      · rw [List.eq_of_mem_replicate hx]; omega
      · have := h1 x hx; omega
    · exact List.pairwise_replicate.2 (.inr (le_refl l))
    · rw [List.eq_of_mem_replicate ha]
      have := h1 b hb
      omega
    · rw [List.map_append, List.sum_append, h3, Finset.sum_range_succ']
      simp [Nat.add_comm, Nat.add_left_comm]

theorem sum_count_mul (w : Nat → Nat) {n : Nat} {m : List Nat} (h : ∀ x ∈ m, x < n) :
    ∑ i ∈ Finset.range n, m.count i * w i = (m.map w).sum := by
  induction m with
  | nil => simp
  | cons x m ih =>
    obtain ⟨hx, hm⟩ := List.forall_mem_cons.1 h
    simp only [List.count_cons, Nat.add_mul, Finset.sum_add_distrib, ih hm, beq_iff_eq, ite_mul, Nat.one_mul, Nat.zero_mul,
      Finset.sum_ite_eq, Finset.mem_range, hx, if_true, List.map_cons, List.sum_cons]
    omega

/-- The counts of lengths moved to the limit, weighed, are the lengths weighed (rule R190). -/
theorem weigh_foldedLenCount (w : Nat → Nat) {limit : Nat} {ls : List Nat} (hl : 1 ≤ limit) (h : ∀ l ∈ ls, 1 ≤ l) :
    weigh w (foldedLenCount limit ls) = (ls.map fun l => w (min l limit)).sum := by
  have hmem : ∀ x ∈ ls.map (fun x => min x limit), 1 ≤ x ∧ x < limit + 1 := fun x hx => by
    obtain ⟨l, hl', rfl⟩ := List.mem_map.1 hx
    have := h l hl'
    exact ⟨Nat.le_min.2 ⟨this, hl⟩, Nat.lt_succ_of_le (Nat.min_le_right _ _)⟩
  have hlen : (foldedLenCount limit ls).length = limit + 1 := tabulateFrom_length _ _ _
  rw [show (ls.map fun l => w (min l limit)) = (ls.map fun x => min x limit).map w by rw [List.map_map]; rfl,
    ← sum_count_mul w fun x hx => (hmem x hx).2, weigh, hlen]
  refine Finset.sum_congr rfl fun i hi => ?_
  rw [foldedLenCount, tabulate_getD _ _ (Finset.mem_range.1 hi)]
  split
  · subst_vars
    rw [List.count_eq_zero_of_not_mem fun h0 => by have := (hmem 0 h0).1; omega]
  · rfl

/-- A complete code folded to a limit that leaves codes enough can be repaired. -/
theorem folded_repairable {limit m : Nat} {ls : List Nat} (hl : 1 ≤ limit) (h : CompleteLengths m ls) (hm : m ≤ 2 ^ limit) :
    Repairable limit (foldedLenCount limit ls) ∧ 2 ^ limit ≤ lenCountTotal limit (foldedLenCount limit ls)
      ∧ (foldedLenCount limit ls).sum = m := by
  have hlen : (foldedLenCount limit ls).length = limit + 1 := tabulateFrom_length _ _ _
  have hw (w : Nat → Nat) := weigh_foldedLenCount w hl h.pos
  have hsum : (foldedLenCount limit ls).sum = m := by
    rw [← weigh_one, hw, List.map_const', List.sum_replicate, smul_eq_mul, Nat.mul_one, h.length]
  obtain ⟨top, htop⟩ : ∃ top, top = limit + ls.foldl max 0 := ⟨_, rfl⟩
  have hle : ∀ l ∈ ls, l ≤ top := fun l hl => ((le_foldl_max ls 0).2 l hl).trans (by omega)
  have hscale (l : Nat) (hl' : l ≤ limit) : 2 ^ ls.foldl max 0 * 2 ^ (limit - l) = 2 ^ (top - l) := by
    rw [← pow_add]; congr 1; omega
  have hk := h.kraft top hle
  unfold kraftScaled at hk
  have htwo : 2 ^ top = 2 ^ ls.foldl max 0 * 2 ^ limit := by rw [← pow_add, htop, Nat.add_comm]
  rw [htwo] at hk
  refine ⟨⟨hlen, tabulate_getD _ _ (Nat.succ_pos _), hsum ▸ hm, ?_⟩, ?_, hsum⟩
  · rw [lenCountTotal_set_limit hlen, hw]
    refine Nat.le_of_mul_le_mul_left (c := 2 ^ ls.foldl max 0) ?_ (Nat.two_pow_pos _)
    rw [← hk, ← List.sum_map_mul_left]
    refine List.sum_le_sum fun l hl' => ?_
    have h1 := h.pos l hl'
    unfold shortShare
    split
    · exact Nat.zero_le _
    · rw [codeShare, if_neg (by omega), hscale _ (Nat.min_le_right _ _), Nat.min_eq_left (by omega)]
  · rw [lenCountTotal_eq hlen, hw]
    refine Nat.le_of_mul_le_mul_left (c := 2 ^ ls.foldl max 0) ?_ (Nat.two_pow_pos _)
    rw [← hk, ← List.sum_map_mul_left]
    refine List.sum_le_sum fun l hl' => ?_
    have h1 := h.pos l hl'
    rw [codeShare, if_neg (by omega), hscale _ (Nat.min_le_right _ _)]
    exact Nat.pow_le_pow_right (by decide) (by omega)

/-- The lengths of two or more symbols in order of frequency, limited: a complete code (rules R189, R190). -/
theorem limitLengths_complete {limit m : Nat} {ls : List Nat} (hl : 1 ≤ limit) (h : CompleteLengths m ls)
    (hm : m ≤ 2 ^ limit) : (limitLengths limit ls).length = m ∧ (∀ l ∈ limitLengths limit ls, 1 ≤ l)
      ∧ (limitLengths limit ls).Pairwise (· ≤ ·) ∧ kraftScaled limit (limitLengths limit ls) = 2 ^ limit := by
  unfold limitLengths
  split
  · rename_i hall
    exact ⟨h.length, h.pos, h.mono, h.kraft limit (by simpa using hall)⟩
  · obtain ⟨hr, htotal, hsum⟩ := folded_repairable hl h hm
    obtain ⟨⟨hlen, hzero, -, -⟩, hexact, hkeep⟩ := kraftRepair_spec hr (Nat.add_sub_of_le htotal).symm
    obtain ⟨h1, h2, h3⟩ := expandLenCount_spec (repairedLenCount limit ls) limit 1
    have hrep : repairedLenCount limit ls = kraftRepair limit (lenCountTotal limit (foldedLenCount limit ls) - 2 ^ limit)
      (foldedLenCount limit ls) := rfl
    rw [← hrep] at hlen hzero hexact hkeep
    refine ⟨?_, fun l hl' => (h1 l hl').1, h2, ?_⟩
    · have hone := h3 fun _ => 1
      rw [List.map_const', List.sum_replicate, smul_eq_mul, Nat.mul_one] at hone
      rw [hone, ← hsum, ← hkeep, ← weigh_one, weigh, hlen, Finset.sum_range_succ', hzero]
      simp [Nat.add_comm]
    · unfold kraftScaled
      rw [h3, ← hexact, lenCountTotal_eq hlen, weigh, hlen, Finset.sum_range_succ', hzero, Nat.zero_mul, Nat.add_zero]
      exact Finset.sum_congr rfl fun i _ => by
        rw [codeShare, if_neg (Nat.succ_ne_zero i), Nat.add_comm 1 i]

/-- No length is above the limit, whatever the repair makes of them. -/
theorem sortedLengths_le (p : Config.Params) {limit : Nat} (hl : 1 ≤ limit) (sorted : List Nat) :
    ∀ l ∈ sortedLengths p limit sorted, l ≤ limit := by
  intro l h
  unfold sortedLengths at h
  split at h
  · cases h
  · rw [List.mem_singleton.1 h]; exact hl
  · unfold limitLengths at h
    split at h
    · rename_i hall
      exact (by simpa using hall : ∀ l ∈ _, l ≤ limit) l h
    · have := (expandLenCount_spec _ _ _).1 l h
      omega

/-! ### The sorted list -/

/-- Sorting puts each symbol with a frequency into the list once, the most frequent first (rule R187). -/
structure SortedFrom (s : Nat) (fs : List Nat) (l : List (Nat × Nat)) : Prop where
  mem : ∀ t, t ∈ l ↔ s ≤ t.1 ∧ t.1 < s + fs.length ∧ t.2 = fs.getD (t.1 - s) 0 ∧ 0 < t.2
  nodup : (l.map (·.1)).Nodup
  descending : l.Pairwise fun a b => b.2 ≤ a.2
  length : l.length = (fs.filter (fun f => decide (0 < f))).length

theorem insertByFreq_perm (s : Nat × Nat) (l : List (Nat × Nat)) : (insertByFreq s l).Perm (s :: l) := by
  induction l with
  | nil => exact .refl _
  | cons t r ih =>
    unfold insertByFreq
    split
    · exact .refl _
    · exact (ih.cons t).trans (.swap s t r)

theorem insertByFreq_descending (s : Nat × Nat) {l : List (Nat × Nat)} (h : l.Pairwise fun a b => b.2 ≤ a.2) :
    (insertByFreq s l).Pairwise fun a b => b.2 ≤ a.2 := by
  induction l with
  | nil => simp [insertByFreq]
  | cons t r ih =>
    obtain ⟨ht, hr⟩ := List.pairwise_cons.1 h
    unfold insertByFreq
    split
    · refine List.pairwise_cons.2 ⟨List.forall_mem_cons.2 ⟨by omega, fun u hu => ?_⟩, h⟩
      have := ht u hu
      omega
    · refine List.pairwise_cons.2 ⟨fun u hu => ?_, ih hr⟩
      rcases List.mem_cons.1 ((insertByFreq_perm s r).mem_iff.1 hu) with rfl | hu
      · omega
      · exact ht u hu

theorem sortedFreqsFrom_spec (s : Nat) (fs : List Nat) : SortedFrom s fs (sortedFreqsFrom s fs) := by
  induction fs generalizing s with
  | nil => exact ⟨fun t => by simp [sortedFreqsFrom], by simp [sortedFreqsFrom], .nil, rfl⟩
  | cons f fs ih =>
    obtain ⟨h1, h2, h3, h4⟩ := ih (s + 1)
    have htail (t : Nat × Nat) : t ∈ sortedFreqsFrom (s + 1) fs ↔ s + 1 ≤ t.1 ∧ t.1 < s + (f :: fs).length
        ∧ t.2 = (f :: fs).getD (t.1 - s) 0 ∧ 0 < t.2 := by
      rw [h1, List.length_cons]
      refine and_congr_right fun hlt => ?_
      have hidx : t.1 - s = t.1 - (s + 1) + 1 := by omega
      rw [hidx, List.getD_cons_succ, Nat.add_assoc, Nat.add_comm 1]
    unfold sortedFreqsFrom
    split
    · rename_i hf
      subst hf
      refine ⟨fun t => ?_, h2, h3, by rw [h4]; rfl⟩
      rw [htail]
      refine ⟨fun ⟨a, b⟩ => ⟨by omega, b⟩, fun ⟨a, b, c, d⟩ => ⟨?_, b, c, d⟩⟩
      rcases Nat.lt_or_ge s t.1 with hlt | hge
      · exact hlt
      · rw [Nat.sub_eq_zero_of_le hge, List.getD_cons_zero] at c; omega
    · rename_i hf
      have hp := insertByFreq_perm (s, f) (sortedFreqsFrom (s + 1) fs)
      refine ⟨fun t => ?_, ?_, insertByFreq_descending _ h3, ?_⟩
      · rw [hp.mem_iff, List.mem_cons, htail]
        constructor
        · rintro (rfl | ⟨a, b⟩)
          · exact ⟨le_refl s, by simp, by simp, Nat.pos_of_ne_zero hf⟩
          · exact ⟨by omega, b⟩
        · rintro ⟨a, b, c, d⟩
          rcases Nat.lt_or_ge s t.1 with hlt | hge
          · exact .inr ⟨hlt, b, c, d⟩
          · rw [Nat.sub_eq_zero_of_le hge, List.getD_cons_zero] at c
            exact .inl (Prod.ext (Nat.le_antisymm hge a) c)
      · rw [(hp.map _).nodup_iff, List.map_cons, List.nodup_cons]
        refine ⟨fun hmem => ?_, h2⟩
        obtain ⟨t, ht, hts⟩ := List.mem_map.1 hmem
        have := ((h1 t).1 ht).1
        simp only at hts
        omega
      · rw [hp.length_eq, List.length_cons, h4, List.filter_cons_of_pos (by simpa using Nat.pos_of_ne_zero hf)]
        rfl

theorem sortedFreqs_spec (freq : List Nat) : SortedFrom 0 freq (sortedFreqs freq) := sortedFreqsFrom_spec 0 freq

/-! ### The length of each symbol -/

theorem lengthOf_of_not_mem {s : Nat} {l : List (Nat × Nat)} (h : s ∉ l.map (·.1)) (ls : List Nat) : lengthOf s l ls = 0 := by
  induction l generalizing ls with
  | nil => rfl
  | cons t r ih =>
    rw [List.map_cons, List.mem_cons, not_or] at h
    cases ls with
    | nil => rfl
    | cons x ls => rw [lengthOf, if_neg fun he => h.1 he.symm, ih h.2]

/-- The length of the symbol at a position. -/
theorem lengthOf_getElem {l : List (Nat × Nat)} {ls : List Nat} (hnd : (l.map (·.1)).Nodup) (hlen : ls.length = l.length)
    {i : Nat} (hi : i < l.length) : lengthOf l[i].1 l ls = ls.getD i 0 := by
  induction l generalizing ls i with
  | nil => cases hi
  | cons t r ih =>
    rw [List.map_cons, List.nodup_cons] at hnd
    cases ls with
    | nil => cases hlen
    | cons x ls =>
      cases i with
      | zero => exact if_pos rfl
      | succ i =>
        have hi' : i < r.length := by simpa using hi
        rw [List.getElem_cons_succ, lengthOf, if_neg, ih hnd.2 (by simpa using hlen) hi', List.getD_cons_succ]
        rintro he
        exact hnd.1 (List.mem_map.2 ⟨r[i], List.getElem_mem hi', he.symm⟩)

/-- The lengths of all symbols, weighed, are those along the sorted list, weighed. -/
theorem sum_lengthOf (w : Nat → Nat) (h0 : w 0 = 0) {n : Nat} {l : List (Nat × Nat)} {ls : List Nat}
    (hnd : (l.map (·.1)).Nodup) (hlt : ∀ t ∈ l, t.1 < n) (hlen : ls.length = l.length) :
    ∑ s ∈ Finset.range n, w (lengthOf s l ls) = (ls.map w).sum := by
  induction l generalizing ls with
  | nil =>
    obtain rfl := List.length_eq_zero_iff.1 hlen
    exact Finset.sum_eq_zero fun _ _ => h0
  | cons t r ih =>
    rw [List.map_cons, List.nodup_cons] at hnd
    obtain ⟨ht, hr⟩ := List.forall_mem_cons.1 hlt
    cases ls with
    | nil => cases hlen
    | cons x ls =>
      have hmem := Finset.mem_range.2 ht
      have hrest : ∑ s ∈ (Finset.range n).erase t.1, w (lengthOf s (t :: r) (x :: ls))
          = ∑ s ∈ (Finset.range n).erase t.1, w (lengthOf s r ls) :=
        Finset.sum_congr rfl fun s hs => by rw [lengthOf, if_neg (Finset.ne_of_mem_erase hs).symm]
      rw [← Finset.add_sum_erase _ _ hmem, hrest, lengthOf, if_pos rfl, List.map_cons, List.sum_cons,
        ← ih hnd.2 hr (by simpa using hlen), ← Finset.add_sum_erase _ (fun s => w (lengthOf s r ls)) hmem,
        lengthOf_of_not_mem hnd.1, h0, Nat.zero_add]

theorem limitedLengths_getD (p : Config.Params) {limit n s : Nat} (freq : List Nat) (hs : s < n) :
    (limitedLengths p limit n freq).getD s 0
      = lengthOf s (sortedFreqs freq) (sortedLengths p limit ((sortedFreqs freq).map (·.2))) :=
  tabulate_getD _ _ hs

/-- A length is that of some position, or 0. -/
theorem lengthOf_mem (s : Nat) (l : List (Nat × Nat)) (ls : List Nat) : lengthOf s l ls = 0 ∨ lengthOf s l ls ∈ ls := by
  induction l generalizing ls with
  | nil => exact .inl rfl
  | cons t r ih =>
    cases ls with
    | nil => exact .inl rfl
    | cons x ls =>
      rw [lengthOf]
      split
      · exact .inr (List.mem_cons_self ..)
      · exact (ih ls).imp_right (List.mem_cons_of_mem x)

/-- The lengths along the sorted list, when the limit leaves codes enough (rules R188 to R191). -/
theorem sortedLengths_spec (p : Config.Params) {limit : Nat} {sorted : List Nat} (hl : 1 ≤ limit)
    (hm : sorted.length ≤ 2 ^ limit) : (sortedLengths p limit sorted).length = sorted.length
      ∧ (∀ l ∈ sortedLengths p limit sorted, 1 ≤ l) ∧ (sortedLengths p limit sorted).Pairwise (· ≤ ·)
      ∧ (2 ≤ sorted.length → kraftScaled limit (sortedLengths p limit sorted) = 2 ^ limit)
      ∧ (sorted.length = 1 → kraftScaled limit (sortedLengths p limit sorted) = 2 ^ (limit - 1)) := by
  match sorted with
  | [] => exact ⟨rfl, by simp [sortedLengths], .nil, by simp, by simp⟩
  | [f] => exact ⟨rfl, by simp [sortedLengths], by simp [sortedLengths], by simp, by simp [sortedLengths, kraftScaled]⟩
  | f :: g :: r =>
    obtain ⟨h1, h2, h3, h4⟩ := limitLengths_complete hl (codeLengths_complete p (sorted := f :: g :: r) (by simp)) hm
    exact ⟨h1, h2, h3, fun _ => h4, fun h => by simp at h⟩

theorem sortedFreqs_length (freq : List Nat) :
    ((sortedFreqs freq).map (·.2)).length = (freq.filter (fun f => decide (0 < f))).length := by
  rw [List.length_map]
  exact (sortedFreqs_spec freq).length

/-- A symbol that occurs has a position in the sorted list. -/
theorem exists_sorted_position {freq : List Nat} {s : Nat} (h : 0 < freq.getD s 0) :
    ∃ (i : Nat) (hi : i < (sortedFreqs freq).length), (sortedFreqs freq)[i] = (s, freq.getD s 0) := by
  have hlt : s < freq.length := by
    by_contra hge
    rw [List.getD_eq_default _ _ (by omega)] at h
    omega
  have hmem : (s, freq.getD s 0) ∈ sortedFreqs freq := ((sortedFreqs_spec freq).mem _).2 ⟨Nat.zero_le _, by simpa using hlt, rfl, h⟩
  obtain ⟨i, hi, he⟩ := List.getElem_of_mem hmem
  exact ⟨i, hi, he⟩

/-- The lengths of the symbols that have one, weighed by their share of the code space. -/
theorem kraftScaled_filter (limit : Nat) (lens : List Nat) :
    kraftScaled limit (lens.filter (fun l => decide (0 < l))) = (lens.map (codeShare limit)).sum := by
  induction lens with
  | nil => rfl
  | cons x lens ih =>
    rw [List.map_cons, List.sum_cons, ← ih]
    by_cases h : 0 < x
    · rw [List.filter_cons_of_pos (by simpa using h), codeShare, if_neg (by omega)]
      simp [kraftScaled]
    · rw [List.filter_cons_of_neg (by simpa using h), codeShare, if_pos (by omega), Nat.zero_add]

/-- The scaled Kraft sum of the generated lengths is that of the lengths along the sorted list. -/
theorem kraftScaled_limitedLengths (p : Config.Params) {limit n : Nat} {freq : List Nat} (hl : 1 ≤ limit) (hn : freq.length ≤ n)
    (hm : ((sortedFreqs freq).map (·.2)).length ≤ 2 ^ limit) :
    kraftScaled limit ((limitedLengths p limit n freq).filter (fun l => decide (0 < l)))
      = kraftScaled limit (sortedLengths p limit ((sortedFreqs freq).map (·.2))) := by
  obtain ⟨hlen, hpos, -⟩ := sortedLengths_spec p hl hm
  obtain ⟨hmem, hnd, -, -⟩ := sortedFreqs_spec freq
  have htotal : (limitedLengths p limit n freq).length = n := tabulateFrom_length _ _ _
  rw [kraftScaled_filter, sum_map_eq_range, htotal,
    Finset.sum_congr rfl fun s hs => congrArg (codeShare limit) (limitedLengths_getD p freq (Finset.mem_range.1 hs)),
    sum_lengthOf (codeShare limit) rfl hnd (fun t ht => by have := ((hmem t).1 ht).2.1; omega) (by rw [hlen, List.length_map])]
  unfold kraftScaled
  congr 1
  exact List.map_congr_left fun l hl' => if_neg (by have := hpos l hl'; omega)

/-- Settles O22: the lengths along the sorted list, given to the symbols. -/
theorem lengthsWithinLimit : Obligations.LengthsWithinLimit := by
  unfold Obligations.LengthsWithinLimit
  rintro p limit n used freq lens hl rfl rfl
  obtain ⟨hmem, hnd, hdesc, -⟩ := sortedFreqs_spec freq
  have htotal : (limitedLengths p limit n freq).length = n := tabulateFrom_length _ _ _
  refine ⟨htotal, fun l h => ?_, fun s h => ?_, fun hn hm => ?_⟩
  · obtain ⟨s, hs, rfl⟩ := List.getElem_of_mem h
    rw [← List.getD_eq_getElem _ 0 hs, limitedLengths_getD p freq (htotal ▸ hs)]
    rcases lengthOf_mem s (sortedFreqs freq) (sortedLengths p limit ((sortedFreqs freq).map (·.2))) with h0 | h0
    · omega
    · exact sortedLengths_le p hl _ _ h0
  · rcases Nat.lt_or_ge s n with hs | hs
    · rw [limitedLengths_getD p freq hs]
      refine lengthOf_of_not_mem (fun hc => ?_) _
      obtain ⟨t, ht, rfl⟩ := List.mem_map.1 hc
      obtain ⟨-, -, h2, h3⟩ := (hmem t).1 ht
      rw [Nat.sub_zero, h] at h2
      omega
    · exact List.getD_eq_default _ _ (htotal.symm ▸ hs)
  · rw [← sortedFreqs_length] at hm ⊢
    obtain ⟨hlen, hpos, hmono, htwo, hone⟩ := sortedLengths_spec p hl hm
    rw [List.length_map] at hlen
    have hat {s : Nat} (h : 0 < freq.getD s 0) : ∃ (i : Nat) (hi : i < (sortedFreqs freq).length),
        (sortedFreqs freq)[i] = (s, freq.getD s 0)
          ∧ (limitedLengths p limit n freq).getD s 0 = (sortedLengths p limit ((sortedFreqs freq).map (·.2))).getD i 0 := by
      obtain ⟨i, hi, he⟩ := exists_sorted_position h
      have hs := ((hmem _).1 (he ▸ List.getElem_mem hi)).2.1
      refine ⟨i, hi, he, ?_⟩
      rw [limitedLengths_getD p freq (by omega), ← lengthOf_getElem hnd hlen hi]
      exact congrArg (fun t : Nat × Nat => lengthOf t.1 _ _) he.symm
    refine ⟨fun s h => ?_, fun h2 => (kraftScaled_limitedLengths p hl hn hm).trans (htwo h2),
      fun h1 => (kraftScaled_limitedLengths p hl hn hm).trans (hone h1), fun s t hs hst => ?_⟩
    · obtain ⟨i, hi, -, he⟩ := hat h
      rw [he, List.getD_eq_getElem _ 0 (hlen ▸ hi)]
      exact hpos _ (List.getElem_mem _)
    · obtain ⟨i, hi, hsi, hei⟩ := hat hs
      obtain ⟨j, hj, htj, hej⟩ := hat (hs.trans hst)
      rw [hei, hej]
      rcases Nat.lt_trichotomy i j with hij | rfl | hij
      · have := List.pairwise_iff_getElem.1 hdesc i j hi hj hij
        simp only [hsi, htj] at this
        omega
      · exact le_refl _
      · rw [List.getD_eq_getElem _ 0 (hlen ▸ hj), List.getD_eq_getElem _ 0 (hlen ▸ hi)]
        exact List.pairwise_iff_getElem.1 hmono j i (hlen ▸ hj) (hlen ▸ hi) hij

end Sys2Proof.Machine
end

section
/-! PROOFS. Inside `Decode()`, where an element may leave the inflate engine: sound again, further on in the stream or
at the end of `Decode()`; and what reading, suspending and failing contribute to it. -/

namespace Sys2Proof.Machine

/-! ### Where a step inside `Decode()` leads -/

/-- The stream bits that can still be read, a header kept in `HDR` that will be parsed again among them. -/
def Inflate.budget (d : Inflate) : Nat :=
  d.bitsLen.toNat + 8 * (d.inLen - d.inPos)
    + 8 * (if d.retry then d.hdrLen - d.hdrPos else if d.phase = .decodingHeader then d.hdrLen else 0)

/-- How many steps can follow that read no bit. -/
def Inflate.owedSteps (d : Inflate) : Nat :=
  match d.stage with
  | .idle => 0
  | .clSeq => 1
  | .dist => 0
  | .parse =>
    match d.phase with
    | .headerDecoded => d.symCount
    | .litBlock => 2
    | .streamEnd => 1
    | .finish => 1
    | _ => 0

/-- A bound on the steps left inside `Decode()` (rule R275). -/
def Inflate.stepsLeft (d : Inflate) : Nat := 4 * d.budget + d.owedSteps

/-- How `IN_STEP` can have returned (rule R288). -/
def Inflate.answered (t : Inflate) : Prop :=
  t.ret.status = .ok ∧ (t.phase = .streamEnd ∨ t.phase = .finish) ∨ t.ret.status = .endInput
    ∨ t.ret.status = .outputOverflow ∨ ∃ kind off, t.inErr = some (kind, off) ∧ t.ret.status = .corruptInput off

/-- `t` may follow `d` inside `Decode()`. -/
structure Inflate.Goes (d t : Inflate) : Prop where
  sound : t.Sound
  phase : d.phase.canBecome t.phase = true
  tables : d.TablesOk → t.TablesOk
  further : t.stage ≠ .idle → t.stepsLeft < d.stepsLeft ∧ t.inErr = d.inErr
  ended : t.stage = .idle → d.inErr = none → t.answered

theorem Phase.canBecome_refl (p : Phase) : p.canBecome p = true := by cases p <;> rfl

/-! ### Reading bits -/

theorem Inflate.readerOk_of_decoding {d : Inflate} (h : d.AlwaysOk) (hd : d.DecodingOk) : d.readerOk := by
  refine ⟨h.buffer, ?_, ?_, fun hr => (h.header (.inr hr)).1⟩
  all_goals
    unfold Inflate.srcPos Inflate.srcLen
    by_cases hr : d.retry = true <;> simp only [hr, if_true, Bool.false_eq_true, if_false]
  · exact hd.retryPos hr
  · exact hd.slice.1
  · simp only [Inflate.srcMem, hr, if_true]
    exact fun k _ h2 => (h.header (.inr hr)).2 k (Nat.zero_le _) h2
  · simp only [Inflate.srcMem, hr, Bool.false_eq_true, if_false]
    exact fun k _ h2 => hd.slice.2 k (Nat.zero_le _) h2

/-- `m'` is the engine after the next `k` stream bits, the cursor that is not read from unmoved. -/
structure Inflate.Reads (k : Nat) (m m' : Inflate) : Prop where
  read : Inflate.ReadBits k m m'
  advanced : m.Advanced m'

theorem Inflate.Advanced.cursors {d d' : Inflate} (h : d.Advanced d') :
    d.srcPos ≤ d'.srcPos ∧ (d.retry = true → d'.inPos = d.inPos) := by
  obtain ⟨n, b, l, rfl⟩ := h
  by_cases hr : d.retry = true <;> simp [Inflate.setSrcPos, Inflate.srcPos, hr]

theorem Inflate.sameButReader.exists {d d' : Inflate} (h : d.sameButReader d') : ∃ b l p q n,
    d' = { d with bits := b, bitsLen := l, inPos := p, hdrPos := q, totalIn := n } := ⟨_, _, _, _, _, h⟩

theorem Inflate.ReadBits.always {k : Nat} {m m' : Inflate} (h : Inflate.ReadBits k m m') (ha : m.AlwaysOk) :
    m'.AlwaysOk := by
  obtain ⟨b, l, p, q, n, rfl⟩ := h.same.exists
  exact ⟨h.ok.1, ha.cursors, ha.history, ha.drained, ha.header, ha.held⟩

theorem Inflate.ReadBits.decoding {k : Nat} {m m' : Inflate} (h : Inflate.ReadBits k m m')
    (hin : m.retry = true → m'.inPos = m.inPos) (hd : m.DecodingOk) : m'.DecodingOk := by
  have hsrc := h.ok.2.1
  obtain ⟨b, l, p, q, n, rfl⟩ := h.same.exists
  simp only [Inflate.srcPos, Inflate.srcLen] at hsrc
  refine ⟨hd.limit, ⟨?_, hd.slice.2⟩, fun hr => ?_⟩
  · by_cases hr : m.retry = true
    · rw [hin hr]; exact hd.slice.1
    · simpa [hr] using hsrc
  · simpa [show m.retry = true from hr] using hsrc

theorem Inflate.ReadBits.budget {k : Nat} {m m' : Inflate} (h : Inflate.ReadBits k m m')
    (hin : m.retry = true → m'.inPos = m.inPos) : m'.budget + k = m.budget := by
  have henough := h.enough
  obtain ⟨b, l, p, q, n, rfl⟩ := h.same.exists
  simp only [Inflate.avail, Inflate.srcPos, Inflate.srcLen, Inflate.budget] at henough hin ⊢
  by_cases hr : m.retry = true
  · simp only [hr, if_true] at henough ⊢
    have := hin hr
    omega
  · simp only [hr, Bool.false_eq_true, if_false] at henough ⊢
    omega

theorem Inflate.Reads.snapshotOk {k : Nat} {m m' : Inflate} (h : Inflate.Reads k m m') (hs : m.snapshotOk) :
    m'.snapshotOk := by
  have hpos := h.advanced.cursors.1
  obtain ⟨b, l, p, q, n, rfl⟩ := h.read.same.exists
  exact ⟨hs.1, hs.2.1, le_trans hs.2.2 hpos⟩

theorem Inflate.Reads.snapAvail {k : Nat} {m m' : Inflate} (h : Inflate.Reads k m m') : m'.snapAvail = m.snapAvail := by
  have hlen := (Inflate.sameButReader_src h.read.same).2.1
  obtain ⟨b, l, p, q, n, rfl⟩ := h.read.same.exists
  unfold Inflate.snapAvail
  rw [hlen]

theorem Inflate.take_reads {d : Inflate} {k : Nat} (hk : k ≤ 57) (h : d.readerOk) (ha : k ≤ d.avail) :
    ∃ d', d.take k = .ok (d.streamNum % 2 ^ k, d') ∧ Inflate.Reads k d d' := by
  obtain ⟨d', ht, hr⟩ := Inflate.take_of_le_avail hk h ha
  exact ⟨d', ht, hr, Inflate.take_advanced ht⟩

/-! ### The ends of `Decode()` -/

/-- `m` is where `Decode()`, begun a step at `d`, may stop. -/
structure Inflate.Rests (d m : Inflate) : Prop where
  always : m.AlwaysOk
  held : m.symCount = 0
  aligned : m.phase = .litBlock → m.bitsLen % 8 = 0
  phase : d.phase.canBecome m.phase = true
  inErr : m.inErr = d.inErr
  lens : m.scratch.lens = d.scratch.lens
  litLen : m.litLenTable = d.litLenTable
  dist : m.distTable = d.distTable

theorem Inflate.Rests.ends {d m t : Inflate} (h : d.Rests m) (ha : t.AlwaysOk)
    (ht : t = { m with inErr := t.inErr, inBuf := Cells.empty, retry := false, stage := .idle, ret := t.ret })
    (hans : d.inErr = none → t.answered) : d.Goes t := by
  generalize t.inErr = e at ht
  generalize t.ret = r at ht
  subst ht
  refine ⟨⟨ha, fun _ => ⟨rfl, h.held⟩, fun hs => absurd rfl hs, fun hs => (by cases hs), fun hs => (by cases hs),
    fun hs => (by cases hs), h.aligned⟩, h.phase, fun ht => ⟨?_, fun hs => (by cases hs), ?_, ?_⟩,
    fun hs => absurd rfl hs, fun _ => hans⟩
  · exact h.lens.symm ▸ ht.lens
  · exact h.litLen.symm ▸ ht.litLen
  · exact h.dist.symm ▸ ht.dist

theorem Inflate.AlwaysOk.of_ended {m t : Inflate} (h : m.AlwaysOk)
    (ht : t = { m with inErr := t.inErr, inBuf := Cells.empty, retry := false, stage := .idle, ret := t.ret }) :
    t.AlwaysOk := by
  generalize t.inErr = e at ht
  generalize t.ret = r at ht
  subst ht
  exact ⟨h.buffer, h.cursors, h.history, h.drained,
    fun hp => h.header (.inl (hp.resolve_right (by simp))), h.held⟩

/-- A suspension: what is owed is drained first. -/
theorem Inflate.Rests.suspends {d m e : Inflate} {st : Status} (hdr : m.drain = .ok e) (h : d.Rests e)
    (hst : st = .ok ∧ (e.phase = .streamEnd ∨ e.phase = .finish) ∨ st = .endInput ∨ st = .outputOverflow) :
    ∃ t, m.endDecode st = .ok t ∧ d.Goes t := by
  refine ⟨e.suspended (e.surfaced st), by simp only [Inflate.endDecode, hdr, except_ok_bind]; rfl,
    h.ends (h.always.of_ended rfl) rfl fun herr => ?_⟩
  have hs : e.surfaced st = st := by simp only [Inflate.surfaced, h.inErr.trans herr]
  simp only [Inflate.answered, Inflate.suspended, hs]
  obtain ⟨rfl, hp⟩ | rfl | rfl := hst
  · exact .inl ⟨rfl, hp⟩
  · exact .inr (.inl rfl)
  · exact .inr (.inr (.inl rfl))

/-- A suspension with nothing owed. -/
theorem Inflate.Rests.stops {d m : Inflate} {st : Status} (h : d.Rests m)
    (hst : st = .ok ∧ (m.phase = .streamEnd ∨ m.phase = .finish) ∨ st = .endInput ∨ st = .outputOverflow) :
    ∃ t, m.endDecode st = .ok t ∧ d.Goes t :=
  Inflate.Rests.suspends (Inflate.drain_of_drained h.always.drained) h hst

/-- A terminal error. -/
theorem Inflate.Rests.fails {d m : Inflate} (k : ErrKind) (h : d.Rests m) : ∃ t, m.raiseTerminal k = .ok t ∧ d.Goes t :=
  ⟨_, Inflate.raiseTerminal_of_drained k h.always.drained, h.ends (h.always.of_ended rfl) rfl fun _ =>
    .inr (.inr (.inr ⟨k, _, rfl, rfl⟩))⟩

/-! ### Inside an element -/

/-- `m` stands inside an element that was fetched from `d`: at least `b` bits have been read since, and at most `u`
since the snapshot. -/
structure Inflate.Within (d : Inflate) (u b : Nat) (m : Inflate) : Prop where
  always : m.AlwaysOk
  decoding : m.DecodingOk
  snap : m.snapshotOk
  used : m.snapAvail ≤ m.avail + u
  spent : m.budget + b ≤ d.budget
  held : m.symCount = 0
  phase : m.phase = d.phase
  stage : m.stage = d.stage
  inErr : m.inErr = d.inErr
  scratch : m.scratch = d.scratch
  litLen : m.litLenTable = d.litLenTable
  dist : m.distTable = d.distTable
  repeated : m.repeatLength = d.repeatLength
  retry : d.phase ≠ .decodingHeader → m.retry = d.retry

theorem Inflate.Within.readerOk {d m : Inflate} {u b : Nat} (h : d.Within u b m) : m.readerOk :=
  Inflate.readerOk_of_decoding h.always h.decoding

theorem Inflate.Within.flags {d m : Inflate} {u b : Nat} (h : d.Within u b m) (f : Bool) (t : BitVec 2) :
    d.Within u b (m.setBlockFlags f t) :=
  ⟨⟨h.always.buffer, h.always.cursors, h.always.history, h.always.drained, h.always.header, h.always.held⟩,
    ⟨h.decoding.limit, h.decoding.slice, h.decoding.retryPos⟩, h.snap, h.used, h.spent, h.held, h.phase, h.stage, h.inErr,
    h.scratch, h.litLen, h.dist, h.repeated, h.retry⟩

theorem Inflate.Within.reads {d m m' : Inflate} {u b k : Nat} (h : d.Within u b m) (hr : Inflate.Reads k m m') :
    d.Within (u + k) (b + k) m' := by
  have hin := hr.advanced.cursors.2
  have hbudget := hr.read.budget hin
  have hused : m'.snapAvail ≤ m'.avail + (u + k) := by
    have := h.used
    have := hr.read.enough
    rw [hr.snapAvail]
    omega
  refine ⟨hr.read.always h.always, hr.read.decoding hin h.decoding, hr.snapshotOk h.snap, hused,
    by have := h.spent; omega, ?_, ?_, ?_, ?_, ?_, ?_, ?_, ?_, ?_⟩
  all_goals obtain ⟨_, _, _, _, _, rfl⟩ := hr.read.same.exists
  exacts [h.held, h.phase, h.stage, h.inErr, h.scratch, h.litLen, h.dist, h.repeated, h.retry]

theorem Inflate.Within.rests {d m : Inflate} {u b : Nat} (h : d.Within u b m) (hp : d.phase ≠ .litBlock) : d.Rests m :=
  ⟨h.always, h.held, fun hl => absurd (h.phase.symm.trans hl) hp, by rw [h.phase]; exact Phase.canBecome_refl _, h.inErr,
    by rw [h.scratch], h.litLen, h.dist⟩

theorem Inflate.AlwaysOk.restore {m : Inflate} (h : m.AlwaysOk) (hs : m.snapshotOk) : m.restore.AlwaysOk := by
  obtain ⟨hbuf, hw, -⟩ := hs
  have hsnap : ∀ n p q, Inflate.AlwaysOk { m with
      totalIn := n, bits := m.snapBits, bitsLen := m.snapBitsLen, writePos := m.snapWritePos, inPos := p, hdrPos := q } :=
    fun n p q => ⟨hbuf, hw.symm ▸ h.cursors, hw.symm ▸ h.history, h.drained, h.header, h.held⟩
  dsimp only [Inflate.restore, Inflate.setSrcPos]
  split
  · exact hsnap _ _ _
  · exact hsnap _ _ _

/-- `restore` sets the reader's registers and `writePos`. -/
theorem Inflate.restore_exists (m : Inflate) : ∃ b l p q n w,
    m.restore = { m with bits := b, bitsLen := l, inPos := p, hdrPos := q, totalIn := n, writePos := w } := by
  dsimp only [Inflate.restore, Inflate.setSrcPos]
  split
  · exact ⟨_, _, _, _, _, _, rfl⟩
  · exact ⟨_, _, _, _, _, _, rfl⟩

/-- A block's body cut short is put back to its snapshot (rules R261, R262, R266). -/
theorem Inflate.Within.bodyCut {d m e : Inflate} {u b : Nat} (h : d.Within u b m) (hp : d.phase ≠ .litBlock)
    (he : m.Advanced e) : ∃ t, e.bodyUnderflow = .ok t ∧ d.Goes t := by
  have hrest : d.Rests m.restore := by
    have ha := h.always.restore h.snap
    obtain ⟨b, l, p, q, n, w, hr⟩ := m.restore_exists
    rw [hr] at ha ⊢
    exact ⟨ha, h.held, fun hl => absurd (h.phase.symm.trans hl) hp, (h.rests hp).phase, h.inErr,
      by rw [← h.scratch], h.litLen, h.dist⟩
  unfold Inflate.bodyUnderflow
  rw [he.restore h.snap.2.2]
  exact hrest.stops (.inr (.inl rfl))

/-- The engine a header cut short suspends from: put back, the header kept in `HDR` (rule R253). -/
theorem Inflate.Within.parked {d m : Inflate} {u b : Nat} (h : d.Within u b m) (hu : m.avail + u ≤ 2624) :
    ∃ p, (if m.restore.retry then .ok m.restore else m.restore.parkHeader) = .ok p ∧ p.AlwaysOk
      ∧ p = { m.restore with hdrBuf := p.hdrBuf, hdrLen := p.hdrLen, inPos := p.inPos }
      ∧ p.hdrLen ≤ Config.hdrBufSize ∧ p.hdrBuf.readable 0 p.hdrLen := by
  have ha := h.always.restore h.snap
  obtain ⟨r1, r2, r3, -, -, -, r7⟩ := m.restore_frame
  by_cases hr : m.restore.retry = true
  · obtain ⟨h1, h2⟩ := ha.header (.inr hr)
    exact ⟨m.restore, by rw [if_pos hr], ha, rfl, h1, h2⟩
  · have hf : m.retry = false := by simpa [r1] using hr
    have hpos : m.restore.inPos = m.snapInPos := by
      rw [← r7]; unfold Inflate.srcPos; rw [if_neg hr]
    have hfit : m.inLen - m.snapInPos ≤ 328 := by
      have := h.used
      simp only [Inflate.snapAvail, Inflate.srcLen, hf, Bool.false_eq_true, if_false] at this
      omega
    obtain ⟨mem, hm, hin, -⟩ := Inflate.parkHeader_spec (d := m.restore) (by rw [r2, hpos]; exact hfit)
      (fun k _ hk => by rw [r3]; exact h.decoding.slice.2 k (Nat.zero_le _) (by omega))
    have hread : mem.readable 0 (m.restore.inLen - m.restore.inPos) := fun k _ hk => by
      rw [hin k hk, r3]
      exact h.decoding.slice.2 _ (Nat.zero_le _) (by omega)
    rw [if_neg hr]
    refine ⟨_, hm, ⟨ha.buffer, ha.cursors, ha.history, ha.drained, fun _ => ⟨?_, hread⟩, ha.held⟩, rfl, ?_, hread⟩
    all_goals exact (by rw [r2, hpos]; exact hfit : m.restore.inLen - m.restore.inPos ≤ Config.hdrBufSize)

/-- A header cut short is put back to its snapshot and kept (rule R253). -/
theorem Inflate.Within.headerCut {d m e : Inflate} {u b : Nat} (h : d.Within u b m)
    (hp : d.phase = .newBlock ∨ d.phase = .decodingHeader) (he : m.Advanced e) (hu : m.avail + u ≤ 2624) :
    ∃ t, e.headerUnderflow = .ok t ∧ d.Goes t := by
  obtain ⟨p, hpark, ha, hsame, hlen, hread⟩ := h.parked hu
  have hrest : d.Rests { p with phase := .decodingHeader } := by
    refine ⟨⟨ha.buffer, ha.cursors, ha.history, ha.drained, fun _ => ⟨hlen, hread⟩, ha.held⟩, ?_, fun hl => (by cases hl), ?_,
      ?_, ?_, ?_, ?_⟩
    · obtain ⟨_, _, _, _, _, _, hr⟩ := m.restore_exists
      rw [hsame, hr]
      exact h.held
    · obtain hp | hp := hp <;> rw [hp] <;> rfl
    all_goals
      obtain ⟨_, _, _, _, _, _, hr⟩ := m.restore_exists
      rw [hsame, hr]
    exacts [h.inErr, congrArg (·.lens) h.scratch, h.litLen, h.dist]
  rw [Inflate.headerUnderflow_eq, he.restore h.snap.2.2, hpark, except_ok_bind]
  exact hrest.stops (.inr (.inl rfl))

/-! ### Operations that may stop -/

/-- The operation answers what `good` says, or stops `Decode()` where it may. -/
def Parse.Meets {α : Type} (settle : Parse Inflate → Except Fault Inflate) (d : Inflate) (r : Parse α) (good : α → Prop) :
    Prop :=
  (∃ a, r = .ok a ∧ good a) ∨ ∃ h t, r = .error h ∧ settle (.error h) = .ok t ∧ d.Goes t

theorem Parse.Meets.bind {α β : Type} {settle : Parse Inflate → Except Fault Inflate} {d : Inflate} {r : Parse α}
    {f : α → Parse β} {good : α → Prop} {fine : β → Prop} (h : Parse.Meets settle d r good)
    (hf : ∀ a, good a → Parse.Meets settle d (f a) fine) : Parse.Meets settle d (r >>= f) fine := by
  obtain ⟨a, rfl, ha⟩ | ⟨e, t, rfl, ht⟩ := h
  · exact hf a ha
  · exact .inr ⟨e, t, rfl, ht⟩

theorem Parse.Meets.settles {settle : Parse Inflate → Except Fault Inflate} {d : Inflate} {r : Parse Inflate}
    (h : Parse.Meets settle d r d.Goes) (hok : ∀ a, settle (.ok a) = .ok a) : ∃ t, settle r = .ok t ∧ d.Goes t := by
  obtain ⟨a, rfl, ha⟩ | ⟨e, t, rfl, ht⟩ := h
  · exact ⟨a, hok a, ha⟩
  · exact ⟨t, ht⟩

theorem Parse.meets_ok {α : Type} {settle : Parse Inflate → Except Fault Inflate} {d : Inflate} {good : α → Prop} {a : α}
    (h : good a) : Parse.Meets settle d (.ok a) good := .inl ⟨a, rfl, h⟩

theorem Inflate.Rests.raises {α : Type} {d m : Inflate} {settle : Parse Inflate → Except Fault Inflate} {good : α → Prop}
    (k : ErrKind) (h : d.Rests m) (hs : settle = settleHeader ∨ settle = settleBody) :
    Parse.Meets settle d (.error (.raise k m)) good := by
  obtain ⟨t, ht, hg⟩ := h.fails k
  exact .inr ⟨_, t, rfl, by obtain rfl | rfl := hs <;> exact ht, hg⟩

/-- A field of a header: read, or the header is cut short. -/
theorem Inflate.Within.take {d m : Inflate} {u b k : Nat} (h : d.Within u b m)
    (hp : d.phase = .newBlock ∨ d.phase = .decodingHeader) (hk : k ≤ 57) (hu : u + k ≤ 2624) :
    Parse.Meets settleHeader d (m.take k) fun r => r.1 < 2 ^ k ∧ Inflate.Reads k m r.2 := by
  by_cases ha : k ≤ m.avail
  · obtain ⟨m', ht, hr⟩ := Inflate.take_reads hk h.readerOk ha
    exact .inl ⟨_, ht, Nat.mod_lt _ (Nat.two_pow_pos k), hr⟩
  · obtain ⟨e, ht, -⟩ := Inflate.take_of_avail_lt hk h.readerOk (Nat.lt_of_not_le ha)
    obtain ⟨t, hcut, hg⟩ := h.headerCut hp (Inflate.take_underflow_advanced ht) (by omega)
    exact .inr ⟨_, t, ht, hcut, hg⟩

theorem Inflate.Within.takeMany {d m : Inflate} {u b k : Nat} (n : Nat) (h : d.Within u b m)
    (hp : d.phase = .newBlock ∨ d.phase = .decodingHeader) (hk : k ≤ 57) (hu : u + k * n ≤ 2624) :
    Parse.Meets settleHeader d (Inflate.takeMany k n m) fun r =>
      (∀ v ∈ r.1, v < 2 ^ k) ∧ d.Within (u + k * n) (b + k * n) r.2 := by
  induction n generalizing m u b with
  | zero => exact .inl ⟨_, rfl, by simp, h⟩
  | succ n ih =>
    rw [Nat.mul_succ] at hu
    rw [Inflate.takeMany_succ]
    refine (h.take hp hk (by omega)).bind fun r ⟨hv, hr⟩ => ?_
    refine (ih (h.reads hr) (by omega)).bind fun q ⟨hvs, hq⟩ => Parse.meets_ok ⟨by simpa using ⟨hv, hvs⟩, ?_⟩
    rw [show u + k * (n + 1) = u + k + k * n by ring, show b + k * (n + 1) = b + k + k * n by ring]
    exact hq

end Sys2Proof.Machine
end

section
/-! PROOFS. The elements of a header: a dynamic header's tables look at few bits, and each header element leaves the
engine where a step inside `Decode()` may (rules R236 to R254). -/

namespace Sys2Proof.Machine

/-! ### The tables a header builds -/

/-- A small table of canonical codes: its lookups look at 15 bits (rules R205 to R211). -/
theorem symbolTable_narrow {maxLen m : Nat} {lens : List Nat} {value : Nat → Nat} (hm : maxLen ≤ 15)
    (h : ∀ l ∈ lens, l ≤ maxLen) (hv : ∀ i, i < lens.length → value i < 2 ^ 9)
    (ho : overSubscribed maxLen lens = false) (hsize : lens.length * 2 ^ (maxLen - 10) ≤ 1024) (h15 : 15 ≤ m) :
    (buildSmall (symbolCodes value 0 (generateCode maxLen lens))).narrow m
      ∧ ∀ x, (buildSmall (symbolCodes value 0 (generateCode maxLen lens))).find x
          = smallHitOf (startingCode (symbolCodes value 0 (generateCode maxLen lens)) 15 x)
        ∧ ((buildSmall (symbolCodes value 0 (generateCode maxLen lens))).find x).len ≤ maxLen := by
  have hok := symbolCodes_ok hm h hv ho
  have hlong : (longLookup Config.distLookupBits (symbolCodes value 0 (generateCode maxLen lens))
      (longGroups Config.distLookupBits (symbolCodes value 0 (generateCode maxLen lens)))).length ≤ 1024 := by
    refine (longLookup_length_le (b := maxLen) (fun c hc => (hok.2 c hc).1) _).trans (le_trans ?_ hsize)
    refine Nat.mul_le_mul_right _ ((groupPrefixes_spec _ _).2.2.trans ?_)
    rw [symbolCodes_length, generateCode_length]
  obtain ⟨hn, hl⟩ := buildSmall_narrow hm hok hlong h15
  exact ⟨hn, fun x => ⟨buildSmall_find ⟨hok.1, fun c hc => ⟨(hok.2 c hc).1.trans hm, (hok.2 c hc).2⟩⟩ hlong x, hl x⟩⟩

/-- The code-length-code table of a header that passed its check (rules R105, R242). -/
theorem buildClcTable_ok {lens : List Nat} (hlen : lens.length = 19) (h : ∀ l ∈ lens, l ≤ 7)
    (ho : overSubscribed 7 lens = false) :
    (buildClcTable lens).clcOk ∧ (buildClcTable lens).narrow Config.refillHdr := by
  obtain ⟨hn, hf⟩ := symbolTable_narrow (value := id) (m := 15) (by omega) h
    (fun i hi => by simp only [id]; omega) ho (by omega) (le_refl _)
  refine ⟨fun x => ⟨?_, (hf x).2⟩, hn⟩
  show ((buildSmall _).find x).sym9 < 19
  rw [(hf x).1]
  cases hc : startingCode (symbolCodes id 0 (generateCode 7 lens)) 15 x with
  | none => exact (by decide : 0 < 19)
  | some c =>
    obtain ⟨i, hi, rfl⟩ := List.getElem_of_mem (startingCode_some hc).1
    rw [symbolCodes_length, generateCode_length, hlen] at hi
    simpa [smallHitOf, symbolCodes_getElem] using hi

theorem distLeafValue_lt (s : Nat) (h : s < 30) : distLeafValue s < 2 ^ 9 := by
  interval_cases s <;> decide

theorem buildDistTable_narrow {lens : List Nat} (hlen : lens.length = 30) (h : ∀ l ∈ lens, l ≤ 15)
    (ho : overSubscribed 15 lens = false) : (buildDistTable lens).narrow Config.refillMain :=
  (symbolTable_narrow (value := distLeafValue) (m := 57) (le_refl _) h (fun i hi => distLeafValue_lt i (by omega)) ho
    (by omega) (by omega)).1

theorem buildLitLen_narrow (multisym : Nat) {lens : List Nat} (hlen : lens.length ≤ 288) (h : ∀ l ∈ lens, l ≤ 15)
    (ho : overSubscribed 15 lens = false) :
    (buildLarge multisym (expandedCodes 0 (generateCode 15 lens))).narrow :=
  buildLarge_narrow multisym (expandedCodesPrefixFree lens hlen h ho)

theorem staticTables_narrow : staticLitLenTable.narrow ∧ staticDistTable.narrow Config.refillMain := by
  constructor
  · have hle : ∀ l ∈ staticLitLens, l ≤ 15 := fun l hl => by
      simp only [staticLitLens, List.mem_append, List.mem_replicate] at hl
      omega
    refine buildLitLen_narrow 3 ?_ hle ?_
    · simp only [staticLitLens, List.length_append, List.length_replicate]
      omega
    · have hpos : staticLitLens.filter (fun l => decide (0 < l)) = staticLitLens := List.filter_eq_self.2 fun l hl => by
        simp only [staticLitLens, List.mem_append, List.mem_replicate] at hl
        rw [decide_eq_true_iff]
        omega
      rw [← Bool.not_eq_true, overSubscribed_iff, endCode_eq_kraftScaled hle, hpos]
      simp only [kraftScaled, staticLitLens, List.map_append, List.map_replicate, List.sum_append, List.sum_replicate,
        smul_eq_mul]
      decide
  · exact buildDistTable_narrow (by simp [staticDistLens])
      (fun l hl => by simp only [staticDistLens, List.mem_replicate] at hl; omega) (by decide)

theorem placeClcLens_le {n : Nat} (order vs acc : List Nat) (hv : ∀ v ∈ vs, v ≤ n) (ha : ∀ v ∈ acc, v ≤ n) :
    ∀ v ∈ placeClcLens order vs acc, v ≤ n := by
  induction order generalizing vs acc with
  | nil => simpa [placeClcLens] using ha
  | cons i order ih =>
    cases vs with
    | nil => simpa [placeClcLens] using ha
    | cons w vs =>
      refine ih vs (acc.set i w) (fun v h => hv v (List.mem_cons_of_mem _ h)) fun v h => ?_
      obtain h | rfl := List.mem_or_eq_of_mem_set h
      · exact ha v h
      · exact hv v List.mem_cons_self

theorem mem_padZeros {n v b : Nat} {ls : List Nat} (h : ∀ l ∈ ls, l ≤ b) (hv : v ∈ padZeros n ls) : v ≤ b := by
  rw [padZeros, List.mem_append, List.mem_replicate] at hv
  obtain hv | ⟨-, rfl⟩ := hv
  · exact h v hv
  · exact Nat.zero_le b

theorem padZeros_length {n : Nat} {ls : List Nat} (h : ls.length ≤ n) : (padZeros n ls).length = n := by
  simp only [padZeros, List.length_append, List.length_replicate]
  omega

/-! ### A header accepted -/

/-- What an accepted header leaves of the engine (rules R230, R254). -/
theorem Inflate.acceptHeader_exists {m : Inflate} (hd : m.DecodingOk) (ph : Phase) : ∃ p q,
    m.acceptHeader ph = { m with inPos := p, hdrLen := q, retry := false, phase := ph, stage := .parse }
      ∧ p ≤ m.inLen ∧ m.bitsLen.toNat + 8 * (m.inLen - p) ≤ m.budget := by
  by_cases hr : m.retry = true
  · refine ⟨_, _, Inflate.acceptHeader_of_retry ph hr, ?_, ?_⟩
    · have := hd.slice.1
      omega
    · rw [Inflate.budget, if_pos hr]
      have := hd.retryPos hr
      have := hd.slice.1
      omega
  · have hr : m.retry = false := by simpa using hr
    refine ⟨m.inPos, m.hdrLen, by rw [Inflate.acceptHeader_of_slice ph hr, ← hr], hd.slice.1, ?_⟩
    rw [Inflate.budget]
    omega

/-- The steps owed once a header has been accepted. -/
def Phase.owed : Phase → Nat
  | .litBlock => 2
  | _ => 0

/-- A header accepted, whatever it has set besides. -/
theorem Inflate.acceptHeader_goes {d m : Inflate} {ph : Phase} (ha : m.AlwaysOk) (hd : m.DecodingOk) (h0 : m.symCount = 0)
    (hp : d.phase = .newBlock ∨ d.phase = .decodingHeader)
    (hph : ph = .litBlock ∧ m.bitsLen % 8 = 0 ∨ ph = .headerDecoded)
    (hsteps : 4 * m.budget + ph.owed < d.stepsLeft) (herr : m.inErr = d.inErr)
    (htab : d.TablesOk → (∀ l ∈ m.scratch.lens, l ≤ Config.maxCodeLen) ∧ m.litLenTable.narrow
      ∧ m.distTable.narrow Config.refillMain) : d.Goes (m.acceptHeader ph) := by
  obtain ⟨p, q, heq, hle, hbudget⟩ := m.acceptHeader_exists hd ph
  rw [heq]
  have hother : ph ≠ .decodingHeader := by obtain ⟨rfl, -⟩ | rfl := hph <;> decide
  refine ⟨⟨⟨ha.buffer, ha.cursors, ha.history, ha.drained, fun h => ?_, ha.held⟩, fun hs => (by cases hs),
    fun _ => ⟨hd.limit, ⟨hle, hd.slice.2⟩, fun hs => (by cases hs)⟩, fun _ => ⟨rfl, fun _ => h0⟩, fun hs => (by cases hs),
    fun hs => (by cases hs), fun hs => ?_⟩, ?_, fun ht => ?_, fun _ => ⟨?_, herr⟩, fun hs => (by cases hs)⟩
  · exact absurd (h.resolve_right (by simp)) hother
  · obtain ⟨-, hal⟩ | rfl := hph
    · exact hal
    · cases hs
  · obtain hp | hp := hp <;> obtain ⟨rfl, -⟩ | rfl := hph <;> rw [hp] <;> rfl
  · obtain ⟨h1, h2, h3⟩ := htab ht
    exact ⟨h1, fun hs => (by cases hs), h2, h3⟩
  · have hleft : Inflate.stepsLeft { m with inPos := p, hdrLen := q, retry := false, phase := ph, stage := .parse }
        = 4 * (m.bitsLen.toNat + 8 * (m.inLen - p)) + ph.owed := by
      obtain ⟨rfl, -⟩ | rfl := hph
      · rfl
      · simp only [Inflate.stepsLeft, Inflate.owedSteps, h0]
        rfl
    rw [hleft]
    omega

/-! ### The block headers -/

theorem Inflate.Within.below {d m : Inflate} {u b : Nat} (h : d.Within u b m) : 4 * m.budget + 4 * b ≤ d.stepsLeft := by
  have := h.spent
  rw [Inflate.stepsLeft]
  omega

theorem Inflate.Within.tables {d m : Inflate} {u b : Nat} (h : d.Within u b m) (ht : d.TablesOk) :
    (∀ l ∈ m.scratch.lens, l ≤ Config.maxCodeLen) ∧ m.litLenTable.narrow ∧ m.distTable.narrow Config.refillMain := by
  rw [h.scratch, h.litLen, h.dist]
  exact ⟨ht.lens, ht.litLen, ht.dist⟩

theorem Inflate.Within.notLit {d : Inflate} (hp : d.phase = .newBlock ∨ d.phase = .decodingHeader) : d.phase ≠ .litBlock := by
  obtain hp | hp := hp <;> rw [hp] <;> decide

theorem Inflate.Reads.bitsLen_mod {k : Nat} {m m' : Inflate} (h : Inflate.Reads k m m') :
    m'.bitsLen % 8 = (m.bitsLen - k) % 8 := by
  have := h.read.position
  omega

theorem Inflate.alignToByte_reads {d : Inflate} (h : d.readerOk) :
    Inflate.Reads (d.bitsLen % 8).toNat d d.alignToByte :=
  ⟨Inflate.alignToByte_readBits h, d.consume_advanced _⟩

theorem Inflate.storedHeader_meets {d m : Inflate} (h : d.Within 3 3 m)
    (hp : d.phase = .newBlock ∨ d.phase = .decodingHeader) : Parse.Meets settleHeader d m.storedHeader d.Goes := by
  have hal := Inflate.alignToByte_reads h.readerOk
  have h1 := h.reads hal
  have h0 := h.always.buffer.1
  rw [Inflate.storedHeader_eq]
  refine (h1.take hp (by omega) (by omega)).bind fun r ⟨_, hr⟩ => ?_
  refine ((h1.reads hr).take hp (by omega) (by omega)).bind fun q ⟨_, hq⟩ => ?_
  have h2 := (h1.reads hr).reads hq
  have hmod := hal.bitsLen_mod
  have hmod1 := hr.bitsLen_mod
  have hmod2 := hq.bitsLen_mod
  rw [Inflate.storedChecked]
  split
  · exact (h2.rests (Inflate.Within.notLit hp)).raises _ (.inl rfl)
  · refine Parse.meets_ok (Inflate.acceptHeader_goes
      ⟨h2.always.buffer, h2.always.cursors, h2.always.history, h2.always.drained, h2.always.header, h2.always.held⟩
      ⟨h2.decoding.limit, h2.decoding.slice, h2.decoding.retryPos⟩ h2.held hp (.inl ⟨rfl, ?_⟩) ?_ h2.inErr h2.tables)
    · show q.2.bitsLen % 8 = 0
      omega
    · have := h2.below
      show 4 * q.2.budget + 2 < _
      omega

theorem Inflate.staticHeader_goes {d m : Inflate} (h : d.Within 3 3 m)
    (hp : d.phase = .newBlock ∨ d.phase = .decodingHeader) : d.Goes m.staticHeader := by
  refine Inflate.acceptHeader_goes
    ⟨h.always.buffer, h.always.cursors, h.always.history, h.always.drained, h.always.header, h.always.held⟩
    ⟨h.decoding.limit, h.decoding.slice, h.decoding.retryPos⟩ h.held hp (.inr rfl) ?_ h.inErr
    fun ht => ⟨(h.tables ht).1, staticTables_narrow⟩
  have := h.below
  show 4 * m.budget + 0 < _
  omega

/-- The code-length code of a dynamic header, checked: the sequence begins (rules R241 to R243). -/
theorem Inflate.clcChecked_meets {d m : Inflate} {hlit hdist b : Nat} {vs : List Nat} (h : d.Within 74 b m) (hb : 1 ≤ b)
    (hp : d.phase = .newBlock ∨ d.phase = .decodingHeader) (hl : hlit + 257 ≤ 286) (hn : hdist + 1 ≤ 30)
    (hvs : ∀ v ∈ vs, v < 2 ^ 3) : Parse.Meets settleHeader d (Inflate.clcChecked hlit hdist vs m) d.Goes := by
  have hle : ∀ v ∈ placeClcLens clcOrder vs (List.replicate Config.clcSyms 0), v ≤ 7 :=
    placeClcLens_le _ _ _ (fun v hv => Nat.le_of_lt_succ (hvs v hv))
      fun v hv => by rw [List.mem_replicate] at hv; omega
  unfold Inflate.clcChecked
  dsimp only
  split
  · exact (h.rests (Inflate.Within.notLit hp)).raises _ (.inl rfl)
  · rename_i ho
    obtain ⟨hclc, hnarrow⟩ := buildClcTable_ok (by simp) hle (by simpa using ho)
    refine Parse.meets_ok ⟨⟨⟨h.always.buffer, h.always.cursors, h.always.history, h.always.drained, h.always.header,
      h.always.held⟩, fun hs => (by cases hs), fun _ => ⟨h.decoding.limit, h.decoding.slice, h.decoding.retryPos⟩,
      fun hs => (by cases hs), fun _ => ⟨h.snap, hclc, h.held, by rw [← h.phase] at hp; exact hp, hl, hn, Nat.zero_le _, h.used⟩,
      fun hs => (by cases hs), fun hs => absurd (h.phase.symm.trans hs) (Inflate.Within.notLit hp)⟩,
      by rw [← h.phase]; exact Phase.canBecome_refl _, fun ht => ?_, fun _ => ⟨?_, h.inErr⟩, fun hs => (by cases hs)⟩
    · exact ⟨fun l hl => (by cases hl), fun _ => hnarrow, h.litLen.symm ▸ ht.litLen, h.dist.symm ▸ ht.dist⟩
    · have := h.below
      show 4 * m.budget + 1 < _
      omega

theorem Inflate.Within.widen {d m : Inflate} {u u' b : Nat} (h : d.Within u b m) (hu : u ≤ u') : d.Within u' b m :=
  ⟨h.always, h.decoding, h.snap, h.used.trans (by omega), h.spent, h.held, h.phase, h.stage, h.inErr, h.scratch, h.litLen,
    h.dist, h.repeated, h.retry⟩

theorem Inflate.dynamicHeader_meets {d m : Inflate} (h : d.Within 3 3 m)
    (hp : d.phase = .newBlock ∨ d.phase = .decodingHeader) : Parse.Meets settleHeader d m.dynamicHeader d.Goes := by
  rw [Inflate.dynamicHeader_eq]
  refine (h.take hp (by omega) (by omega)).bind fun r ⟨_, hr⟩ => ?_
  have h1 := h.reads hr
  refine (h1.take hp (by omega) (by omega)).bind fun q ⟨_, hq⟩ => ?_
  have h2 := h1.reads hq
  refine (h2.take hp (by omega) (by omega)).bind fun c ⟨hc, hcr⟩ => ?_
  have h3 := h2.reads hcr
  unfold Inflate.countsChecked
  split
  · exact (h3.rests (Inflate.Within.notLit hp)).raises _ (.inl rfl)
  · rename_i hcounts
    have hc16 : c.1 < 16 := hc
    refine (h3.takeMany (c.1 + 4) hp (k := 3) (by omega) (by omega)).bind fun v ⟨hvs, hv⟩ => ?_
    have h286 : r.1 + 257 ≤ 286 := Nat.le_of_not_lt fun hx => hcounts (.inl hx)
    have h30 : q.1 + 1 ≤ 30 := Nat.le_of_not_lt fun hx => hcounts (.inr hx)
    exact Inflate.clcChecked_meets (hv.widen (by omega)) (by omega) hp h286 h30 hvs

theorem Meaning.header_goes {settle : Parse Inflate → Except Fault Inflate} {op : Inflate → Parse Inflate} {d m : Inflate}
    (hm : Meaning .blkhdr settle op) (h : d.Within 3 3 m) (hp : d.phase = .newBlock ∨ d.phase = .decodingHeader) :
    ∃ t, settle (op m) = .ok t ∧ d.Goes t := by
  cases hm with
  | stored f => exact (Inflate.storedHeader_meets (h.flags f _) hp).settles fun _ => rfl
  | static f => exact ⟨_, rfl, Inflate.staticHeader_goes (h.flags f _) hp⟩
  | dynamic f => exact (Inflate.dynamicHeader_meets (h.flags f _) hp).settles fun _ => rfl
  | reservedBlock f => exact ((h.flags f _).rests (Inflate.Within.notLit hp)).fails _
  | reservedSymbol _ hf => simp at hf

/-! ### The code-length sequence -/

/-- What holds of the engine before a code-length symbol. -/
theorem Inflate.Sound.clSeq_within {d : Inflate} (h : d.Sound) (hs : d.stage = .clSeq) :
    d.Within (74 + 7 * d.scratch.lens.length) 0 d := by
  obtain ⟨hsnap, -, h0, -, -, -, -, hused⟩ := h.clSeq hs
  exact ⟨h.always, h.decoding (by rw [hs]; decide), hsnap, by omega, le_refl _, h0, rfl, rfl, rfl, rfl, rfl, rfl, rfl,
    fun _ => rfl⟩

/-- Lengths appended behind a code-length symbol of `used` bits, its extra bits among them (rules R245, R249). -/
theorem Inflate.appendLens_goes {d m : Inflate} {ls : List Nat} {used b : Nat} (hd : d.Sound) (hs : d.stage = .clSeq)
    (h : d.Within (74 + 7 * d.scratch.lens.length + used) b m) (hb : 1 ≤ b) (hu : used ≤ 7 * ls.length)
    (hfit : d.scratch.lens.length + ls.length ≤ d.scratch.total)
    (hle : d.TablesOk → ∀ l ∈ ls, l ≤ 15) : d.Goes (m.appendLens ls) := by
  obtain ⟨-, hclc, -, hp, hlit, hdist, -, -⟩ := hd.clSeq hs
  rw [← h.phase] at hp
  have hstage : m.stage = .clSeq := h.stage.trans hs
  rw [← h.scratch] at hclc hlit hdist
  have hfit' : d.scratch.lens.length + ls.length ≤ m.scratch.nlit + m.scratch.ndist := by
    rw [h.scratch]
    exact hfit
  have hlen : (m.scratch.lens ++ ls).length = d.scratch.lens.length + ls.length := by
    rw [List.length_append, h.scratch]
  have hsound : (m.appendLens ls).Sound := by
    refine ⟨⟨h.always.buffer, h.always.cursors, h.always.history, h.always.drained, h.always.header, h.always.held⟩,
      fun hi => absurd (hstage.symm.trans hi) (by decide),
      fun _ => ⟨h.decoding.limit, h.decoding.slice, h.decoding.retryPos⟩,
      fun hi => absurd (hstage.symm.trans hi) (by decide),
      fun _ => ⟨h.snap, hclc, h.held, hp, hlit, hdist, ?_, ?_⟩, fun hi => absurd (hstage.symm.trans hi) (by decide),
      fun hi => absurd hi (Inflate.Within.notLit hp)⟩
    · exact hlen.le.trans hfit'
    · refine h.used.trans ?_
      show _ ≤ m.avail + 74 + 7 * (m.scratch.lens ++ ls).length
      rw [hlen]
      omega
  refine ⟨hsound, by rw [← h.phase]; exact Phase.canBecome_refl _, fun ht => ?_, fun _ => ⟨?_, h.inErr⟩,
    fun hi => absurd (hstage.symm.trans hi) (by decide)⟩
  · refine ⟨fun l hl => ?_, fun _ => ?_, h.litLen.symm ▸ ht.litLen, h.dist.symm ▸ ht.dist⟩
    · obtain hl | hl := List.mem_append.1 hl
      · exact ht.lens l (h.scratch ▸ hl)
      · exact hle ht l hl
    · show m.scratch.clcTable.narrow Config.refillHdr
      rw [h.scratch]
      exact ht.clc hs
  · have hbelow := h.spent
    have e1 : (m.appendLens ls).stepsLeft = 4 * m.budget + 1 := by
      simp only [Inflate.stepsLeft, Inflate.owedSteps, Inflate.appendLens, hstage, Inflate.budget]
    have e2 : d.stepsLeft = 4 * d.budget + 1 := by simp only [Inflate.stepsLeft, Inflate.owedSteps, hs]
    rw [e1, e2]
    omega

/-- A repeat of at most 7 extra bits that brings three lengths or more (rule R245). -/
theorem Inflate.repeatLens_meets {d m : Inflate} {k base v b : Nat} (hd : d.Sound) (hs : d.stage = .clSeq)
    (h : d.Within (74 + 7 * d.scratch.lens.length + 7) b m) (hb : 1 ≤ b) (hk : k ≤ 7) (hbase : 3 ≤ base)
    (hv : d.TablesOk → v ≤ 15) : Parse.Meets settleHeader d (m.repeatLens k base v) d.Goes := by
  obtain ⟨-, -, -, hp, hlit, hdist, hlen, -⟩ := hd.clSeq hs
  have hlit' : d.scratch.nlit ≤ 286 := hlit
  have hdist' : d.scratch.ndist ≤ 30 := hdist
  rw [Inflate.repeatLens_eq]
  refine (h.take hp (by omega) (by omega)).bind fun r ⟨_, hr⟩ => ?_
  have h1 := (h.reads hr).widen (u' := 74 + 7 * d.scratch.lens.length + 14) (by omega)
  unfold Inflate.repeatChecked
  split
  · exact (h1.rests (Inflate.Within.notLit hp)).raises _ (.inl rfl)
  · rename_i hfit
    rw [h1.scratch] at hfit
    refine Parse.meets_ok (Inflate.appendLens_goes hd hs h1 (by omega) ?_ ?_ fun ht l hl => ?_)
    · rw [List.length_replicate]; omega
    · rw [List.length_replicate]; omega
    · exact (List.eq_of_mem_replicate hl).symm ▸ hv ht

theorem Meaning.clSymbol_goes {settle : Parse Inflate → Except Fault Inflate} {op : Inflate → Parse Inflate} {d m : Inflate}
    {b : Nat} (hm : Meaning .clsym settle op) (hd : d.Sound) (hs : d.stage = .clSeq)
    (hlen : d.scratch.lens.length < d.scratch.total)
    (h : d.Within (74 + 7 * d.scratch.lens.length + 7) b m) (hb : 1 ≤ b) : ∃ t, settle (op m) = .ok t ∧ d.Goes t := by
  obtain ⟨-, -, -, hp, -, -, -, -⟩ := hd.clSeq hs
  cases hm with
  | clLen l =>
    exact ⟨_, rfl, Inflate.appendLens_goes hd hs h hb (by simp) (by simpa using hlen)
      fun _ x hx => by rw [List.mem_singleton] at hx; have := l.isLt; omega⟩
  | clCopyPrev =>
    refine Parse.Meets.settles ?_ fun _ => rfl
    cases hlast : m.scratch.lens.getLast? with
    | none =>
      rw [Inflate.copyPrevLen_of_nil (List.getLast?_eq_none_iff.1 hlast)]
      exact (h.rests (Inflate.Within.notLit hp)).raises _ (.inl rfl)
    | some v =>
      rw [Inflate.copyPrevLen_of_some hlast]
      refine Inflate.repeatLens_meets hd hs h hb (by omega) (by omega) fun ht => ht.lens v ?_
      rw [← h.scratch]
      exact List.mem_of_getLast? hlast
  | clZeros3To10 =>
    exact (Inflate.repeatLens_meets hd hs h hb (by omega) (by omega) fun _ => Nat.zero_le _).settles fun _ => rfl
  | clZeros11To138 =>
    exact (Inflate.repeatLens_meets hd hs h hb (by omega) (by omega) fun _ => Nat.zero_le _).settles fun _ => rfl
  | reservedSymbol _ hf => simp at hf

/-! ### The end of a dynamic header -/

theorem Inflate.finishDynamic_meets (p : Config.Params) {d : Inflate} (hd : d.Sound) (hs : d.stage = .clSeq) : Parse.Meets settleHeader d (d.finishDynamic p) d.Goes := by
  obtain ⟨-, -, -, hp, hlit, hdist, hle, -⟩ := hd.clSeq hs
  have h := hd.clSeq_within hs
  unfold Inflate.finishDynamic
  dsimp only
  split
  · exact (h.rests (Inflate.Within.notLit hp)).raises _ (.inl rfl)
  · rename_i ho
    simp only [not_or, Bool.not_eq_true] at ho
    refine Parse.meets_ok (Inflate.acceptHeader_goes
      ⟨h.always.buffer, h.always.cursors, h.always.history, h.always.drained, h.always.header, h.always.held⟩
      ⟨h.decoding.limit, h.decoding.slice, h.decoding.retryPos⟩ h.held hp (.inr rfl) ?_ rfl fun ht => ⟨ht.lens, ?_, ?_⟩)
    · have e2 : d.stepsLeft = 4 * d.budget + 1 := by simp only [Inflate.stepsLeft, Inflate.owedSteps, hs]
      rw [e2]
      exact Nat.lt_succ_self _
    · refine buildLitLen_narrow _ (le_trans (padZeros_length ?_).le (by decide))
        (fun l hl => mem_padZeros (fun l hl => ht.lens l (List.mem_of_mem_take hl)) hl) ho.2
      exact (List.length_take_le _ _).trans hlit
    · refine buildDistTable_narrow (padZeros_length ?_)
        (fun l hl => mem_padZeros (fun l hl => ht.lens l (List.mem_of_mem_drop hl)) hl) ho.1
      rw [List.length_drop]
      omega

end Sys2Proof.Machine
end

section
/-! PROOFS. What `Decode()` meets next, and the elements of a block's body: every step inside `Decode()` answers a state
that may follow (rules R230, R233, R258 to R273). -/

namespace Sys2Proof.Machine

/-! ### A step from a fetch -/

/-- The step from `s` inside `Decode()` answers a state that may follow. -/
def StepsOn (s : State) : Prop := ∃ t, elementStep s = .next { s with inf := t } ∧ s.inf.Goes t

theorem stepsOn_of_inside {s : State} (h : ∃ t, fetchElement s.params s.inf = .ok (.inside t) ∧ s.inf.Goes t) :
    StepsOn s := by
  obtain ⟨t, hf, hg⟩ := h
  exact ⟨t, elementStep_of_inside hf, hg⟩

theorem stepsOn_of_settled {s : State} {r : Except Fault Inflate} (hf : fetchElement s.params s.inf = insideBy r)
    (h : ∃ t, r = .ok t ∧ s.inf.Goes t) : StepsOn s := by
  obtain ⟨t, rfl, hg⟩ := h
  exact stepsOn_of_inside ⟨t, hf, hg⟩

/-- The step runs the fetched instruction on the engine after the fetch. -/
theorem stepsOn_of_instr {s : State} {c : Code} {m : Inflate} {i : Instr} {settle : Parse Inflate → Except Fault Inflate}
    {op : Inflate → Parse Inflate} (hf : fetchElement s.params s.inf = .ok (.word c m)) (hd : decode c = .ok i)
    (hrun : ∀ s, runElement i s = s.onInf (settle (op s.inf))) (h : ∃ t, settle (op m) = .ok t ∧ s.inf.Goes t) :
    StepsOn s := by
  obtain ⟨t, ht, hg⟩ := h
  refine ⟨t, ?_, hg⟩
  rw [elementStep_of_word hf hd, hrun, ht, State.onInf_ok]

/-- The step runs whatever element of the format was fetched. -/
theorem stepsOn_of_word {s : State} {c : Code} {m : Inflate} (hf : fetchElement s.params s.inf = .ok (.word c m))
    (hfmt : Format.isElement c.fmt = true) (hd : ∃ i, decode c = .ok i)
    (h : ∀ settle op, Meaning c.fmt settle op → ∃ t, settle (op m) = .ok t ∧ s.inf.Goes t) : StepsOn s := by
  obtain ⟨i, hi⟩ := hd
  obtain ⟨settle, op, hm, hx⟩ := hasMeaning_of_decode hfmt hi
  exact stepsOn_of_instr hf hi (fun s => (hx s).2.trans (hx s).1) (h settle op hm)

theorem fetchedBy_meets {settle : Parse Inflate → Except Fault Inflate} {d : Inflate} {r : Parse (Code × Inflate)}
    {good : Code × Inflate → Prop} (h : Parse.Meets settle d r good) :
    (∃ c m, fetchedBy settle r = .ok (.word c m) ∧ good (c, m))
      ∨ ∃ t, fetchedBy settle r = .ok (.inside t) ∧ d.Goes t := by
  obtain ⟨⟨c, m⟩, rfl, hg⟩ | ⟨e, t, rfl, ht, hg⟩ := h
  · exact .inl ⟨c, m, rfl, hg⟩
  · exact .inr ⟨t, fetchedBy_error settle ht, hg⟩

/-! ### Headers -/

theorem decode_blkhdr_ok {v : Nat} (h : v < 8) : ∃ i, decode ⟨.blkhdr, v, {}⟩ = .ok i := by
  interval_cases v <;> exact ⟨_, rfl⟩

/-- The snapshot an element begins with. -/
theorem Inflate.Within.begun {d m : Inflate} {b : Nat} (ha : m.AlwaysOk) (hd : m.DecodingOk) (hspent : m.budget + b ≤ d.budget)
    (h0 : m.symCount = 0) (hphase : m.phase = d.phase) (hstage : m.stage = d.stage) (herr : m.inErr = d.inErr)
    (hscratch : m.scratch = d.scratch) (hll : m.litLenTable = d.litLenTable) (hdist : m.distTable = d.distTable)
    (hrep : m.repeatLength = d.repeatLength) (hretry : d.phase ≠ .decodingHeader → m.retry = d.retry) :
    d.Within 0 b m.snapshot :=
  ⟨⟨ha.buffer, ha.cursors, ha.history, ha.drained, ha.header, ha.held⟩, ⟨hd.limit, hd.slice, hd.retryPos⟩,
    ⟨ha.buffer, rfl, le_refl _⟩, le_refl _, hspent, h0, hphase, hstage, herr, hscratch, hll, hdist, hrep, hretry⟩

/-- A slice appended to `HDR` (rule R252). -/
theorem Inflate.Resumed.within {d r : Inflate} (h : Inflate.Resumed d r) (hd : d.Sound) (hs : d.stage = .parse)
    (hp : d.phase = .decodingHeader) (hr : r.readerOk) : d.Within 0 0 r.snapshot := by
  obtain ⟨hretry, h0⟩ := hd.parse hs
  have hdec := hd.decoding (by rw [hs]; decide)
  obtain ⟨hlen, hread⟩ := hd.always.header (.inl hp)
  obtain ⟨hregs, hkept, hnew, -⟩ := h
  obtain ⟨hslice, hin⟩ := hdec.slice
  have hlen' : d.hdrLen ≤ 328 := hlen
  have hreadable : r.hdrBuf.readable 0 (d.hdrLen + min (d.inLen - d.inPos) (Config.hdrBufSize - d.hdrLen)) := by
    intro k _ hk
    rcases Nat.lt_or_ge k d.hdrLen with hlt | hge
    · rw [hkept k hlt]; exact hread k (Nat.zero_le _) hlt
    · obtain ⟨j, rfl⟩ := Nat.exists_eq_add_of_le hge
      rw [hnew j (by omega)]
      exact hin _ (Nat.zero_le _) (by omega)
  generalize r.hdrBuf = mem at hregs hreadable
  generalize hk : min (d.inLen - d.inPos) (Config.hdrBufSize - d.hdrLen) = k at hregs hreadable
  have hcap : Config.hdrBufSize = 328 := rfl
  subst hregs
  refine Inflate.Within.begun ⟨hd.always.buffer, hd.always.cursors, hd.always.history, hd.always.drained,
    fun _ => ⟨?_, hreadable⟩, hd.always.held⟩ ⟨hdec.limit, ⟨?_, hin⟩, fun _ => Nat.zero_le _⟩ ?_ (h0 (by rw [hp]; decide))
    rfl rfl rfl rfl rfl rfl rfl fun hx => absurd hp hx
  · show d.hdrLen + k ≤ Config.hdrBufSize
    omega
  · show d.inPos + k ≤ d.inLen
    omega
  · simp only [Inflate.budget, hretry, hp, if_true, Bool.false_eq_true, if_false]
    omega

theorem Inflate.fetchHeader_meets {d : Inflate} (hd : d.Sound) (hs : d.stage = .parse)
    (hp : d.phase = .newBlock ∨ d.phase = .decodingHeader) : Parse.Meets settleHeader d d.fetchHeader fun r =>
      r.1.fmt = .blkhdr ∧ (∃ i, decode r.1 = .ok i) ∧ d.Within 3 3 r.2 := by
  have hdec := hd.decoding (by rw [hs]; decide)
  have htake : ∀ m : Inflate, d.Within 0 0 m → Parse.Meets settleHeader d
      (m.take 3 >>= fun r => .ok ((⟨.blkhdr, r.1, {}⟩, r.2) : Code × Inflate)) fun r =>
        r.1.fmt = .blkhdr ∧ (∃ i, decode r.1 = .ok i) ∧ d.Within 3 3 r.2 := fun m hm =>
    (hm.take hp (by omega) (by omega)).bind fun r ⟨hv, hr⟩ =>
      Parse.meets_ok ⟨rfl, decode_blkhdr_ok hv, by simpa using hm.reads hr⟩
  obtain ⟨hretry, h0⟩ := hd.parse hs
  obtain hp | hp := hp
  · rw [Inflate.fetchHeader_of_newBlock hp]
    exact htake _ (.begun hd.always hdec (le_refl _) (h0 (by rw [hp]; decide)) rfl rfl rfl rfl rfl rfl rfl fun _ => rfl)
  · obtain ⟨hlen, hread⟩ := hd.always.header (.inl hp)
    obtain ⟨r, hr, hres, hok⟩ := Inflate.enterRetry_spec hretry (Inflate.readerOk_of_decoding hd.always hdec) hlen hread
    rw [Inflate.fetchHeader_of_resumed hp hr]
    exact htake _ (hres.within hd hs hp hok)

theorem stepsOn_header {s : State} (hd : s.inf.Sound) (hs : s.inf.stage = .parse)
    (hp : s.inf.phase = .newBlock ∨ s.inf.phase = .decodingHeader) : StepsOn s := by
  obtain ⟨c, m, hf, hfmt, hdec, hw⟩ | hin := fetchedBy_meets (Inflate.fetchHeader_meets hd hs hp)
  · rw [← fetchElement_of_header (p := s.params) hs hp] at hf
    exact stepsOn_of_word hf (by rw [hfmt]; rfl) hdec fun settle op hm => (hfmt ▸ hm).header_goes hw hp
  · rw [← fetchElement_of_header (p := s.params) hs hp] at hin
    exact stepsOn_of_inside hin

/-! ### Lookups -/

theorem Inflate.consume_reads {m : Inflate} {k : Nat} (h : m.readerOk) (hu : (m.consume k).underflowed = false) :
    Inflate.Reads k m (m.consume k) := by
  refine ⟨Inflate.consume_readBits h ?_, m.consume_advanced k⟩
  have : ¬ m.bitsLen - (k : Int) < 0 := by simpa [Inflate.underflowed] using hu
  omega

theorem Inflate.Lookup.reads {k : Nat} {d d0 : Inflate} (h : Inflate.Lookup k d d0) : Inflate.Reads 0 d d0 :=
  ⟨h.read, h.advanced⟩

theorem decode_clsym_ok {v : Nat} (h : v < 19) : ∃ i, decode ⟨.clsym, v, {}⟩ = .ok i := by
  interval_cases v <;> exact ⟨_, rfl⟩

theorem Inflate.fetchClSymbol_meets {d : Inflate} (hd : d.Sound) (hs : d.stage = .clSeq) :
    Parse.Meets settleHeader d d.fetchClSymbol fun r => r.1.fmt = .clsym ∧ (∃ i, decode r.1 = .ok i)
      ∧ ∃ b, 1 ≤ b ∧ d.Within (74 + 7 * d.scratch.lens.length + 7) b r.2 := by
  obtain ⟨-, hclc, -, hp, hlit, hdist, hlen, -⟩ := hd.clSeq hs
  have hlit' : d.scratch.nlit ≤ 286 := hlit
  have hdist' : d.scratch.ndist ≤ 30 := hdist
  have h := hd.clSeq_within hs
  obtain ⟨d0, hl⟩ := Inflate.lookup (m := Config.refillHdr) (by decide) h.readerOk
  have h0 := h.reads hl.reads
  rw [Inflate.fetchClSymbol_of_refill hl.refill]
  rw [← h0.scratch] at hclc
  obtain ⟨hsym, hbits⟩ := hclc d0.bits.toNat
  have h7 : (d0.scratch.clcTable.find d0.bits.toNat).len ≤ 7 := hbits
  split
  · exact (h0.rests (Inflate.Within.notLit hp)).raises _ (.inl rfl)
  · rename_i hlen0
    split
    · rename_i hu
      have hshort : d.avail < (d0.scratch.clcTable.find d0.bits.toNat).len := Nat.lt_of_not_le fun hle => by
        have := (hl.enough _ (hbits.trans (by decide)) hle).1
        rw [hu] at this
        cases this
      have hsame := hl.read.enough
      obtain ⟨t, ht, hg⟩ := h0.headerCut hp (d0.consume_advanced _) (by omega)
      exact .inr ⟨_, t, rfl, ht, hg⟩
    · rename_i hu
      have hr := Inflate.consume_reads h0.readerOk (Bool.eq_false_iff.2 hu)
      exact Parse.meets_ok ⟨rfl, decode_clsym_ok hsym, _, by omega, (h0.reads hr).widen (by omega)⟩

theorem stepsOn_clSeq {s : State} (hd : s.inf.Sound) (hs : s.inf.stage = .clSeq) : StepsOn s := by
  rcases Nat.lt_or_ge s.inf.scratch.lens.length s.inf.scratch.total with hlt | hge
  · obtain ⟨c, m, hf, hfmt, hdec, b, hb, hw⟩ | hin := fetchedBy_meets (Inflate.fetchClSymbol_meets hd hs)
    · rw [← fetchElement_of_clSeq (p := s.params) hs hlt] at hf
      exact stepsOn_of_word hf (by rw [hfmt]; rfl) hdec fun settle op hm => (hfmt ▸ hm).clSymbol_goes hd hs hlt hw hb
    · rw [← fetchElement_of_clSeq (p := s.params) hs hlt] at hin
      exact stepsOn_of_inside hin
  · exact stepsOn_of_settled (fetchElement_of_complete hs hge)
      ((Inflate.finishDynamic_meets s.params hd hs).settles fun _ => rfl)

/-! ### Going on inside a block -/

theorem readable_of_written {m m0 : Memory} {w n : Nat} (h0 : m0.readable 0 w)
    (hin : ∀ j, j < n → (m.get? (w + j)).isSome = true) (hout : ∀ a, a < w → m.get? a = m0.get? a) :
    m.readable 0 (w + n) := by
  intro k _ hk
  rcases Nat.lt_or_ge k w with hlt | hge
  · rw [hout k hlt]; exact h0 k (Nat.zero_le _) hlt
  · obtain ⟨j, rfl⟩ := Nat.exists_eq_add_of_le hge
    exact hin j (by omega)

/-- A state before the next element of the parser. -/
theorem Inflate.goes_parse {d t : Inflate} (ha : t.AlwaysOk) (hd : t.DecodingOk) (hs : t.stage = .parse) (hr : t.retry = false)
    (h0 : t.phase ≠ .headerDecoded → t.symCount = 0) (hal : t.phase = .litBlock → t.bitsLen % 8 = 0)
    (hph : d.phase.canBecome t.phase = true) (herr : t.inErr = d.inErr) (hscratch : t.scratch = d.scratch)
    (hll : t.litLenTable = d.litLenTable) (hdist : t.distTable = d.distTable) (hsteps : t.stepsLeft < d.stepsLeft) :
    d.Goes t := by
  have hno : ∀ st, st ≠ .parse → t.stage ≠ st := fun st hst h => hst (h.symm.trans hs)
  refine ⟨⟨ha, fun h => absurd h (hno _ (by decide)), fun _ => hd, fun _ => ⟨hr, h0⟩, fun h => absurd h (hno _ (by decide)),
    fun h => absurd h (hno _ (by decide)), hal⟩, hph, fun ht => ⟨?_, fun h => absurd h (hno _ (by decide)), ?_, ?_⟩,
    fun _ => ⟨hsteps, herr⟩, fun h => absurd h (hno _ (by decide))⟩
  · rw [hscratch]; exact ht.lens
  · rw [hll]; exact ht.litLen
  · rw [hdist]; exact ht.dist

/-- A literal of an entry, `e.symCount` more of which are held (rule R264). -/
theorem Inflate.literal_goes {d e : Inflate} (b : Byte) (ha : e.AlwaysOk) (hd : e.DecodingOk) (hp : e.phase = .headerDecoded)
    (hdp : d.phase = .headerDecoded) (hr : e.retry = false) (herr : e.inErr = d.inErr) (hscratch : e.scratch = d.scratch)
    (hll : e.litLenTable = d.litLenTable) (hdist : e.distTable = d.distTable)
    (hsteps : 4 * e.budget + e.symCount < d.stepsLeft) : ∃ t, settleBody (e.literal b) = .ok t ∧ d.Goes t := by
  obtain ⟨hlim, hw⟩ := hd.limit
  have h64 : 2 * Config.historySize = 65536 := rfl
  have hsize : Config.histBufSize = 65824 := rfl
  have hheld := ha.held
  rcases Nat.lt_or_ge e.writePos e.outLimit with hroom | hfull
  · rw [Inflate.literal_of_room b hroom (by omega)]
    have hread : (e.histBuf.put e.writePos b).readable 0 (e.writePos + 1) := by
      refine readable_of_written ha.history (fun j hj => ?_) fun a h => Cells.get_put_other _ _ (by omega)
      obtain rfl : j = 0 := by omega
      simp
    refine ⟨_, rfl, Inflate.goes_parse ⟨ha.buffer, ⟨?_, ?_⟩, hread, ha.drained, ha.header, ha.held⟩
      ⟨⟨hlim, hroom⟩, hd.slice, hd.retryPos⟩ rfl hr (fun h => absurd hp h)
      (fun h => absurd (hp.symm.trans h) (by decide)) ?_ herr hscratch hll hdist ?_⟩
    · exact Nat.le_succ_of_le ha.cursors.1
    · show e.writePos + 1 ≤ _
      omega
    · show d.phase.canBecome e.phase = true
      rw [hdp, hp]
      rfl
    · have hleft : ∀ m w, Inflate.stepsLeft { e with histBuf := m, writePos := w, stage := .parse }
          = 4 * e.budget + e.symCount := fun m w => by simp only [Inflate.stepsLeft, Inflate.owedSteps, Inflate.budget, hp]
      exact (hleft _ _).trans_lt hsteps
  · have hover : e.literal b = .error (.overflow { e with
        writeOverflowLits := BitVec.ofNat 32 (e.overflowLits b), writeOverflowLen := e.symCount + 1, nextLits := 0,
        symCount := 0 }) := by
      rw [Inflate.literal, if_neg (by omega)]
      rfl
    rw [hover]
    generalize BitVec.ofNat 32 (e.overflowLits b) = lits
    have hroom4 : e.writePos + 4 ≤ Config.histBufSize := by omega
    obtain ⟨mem, hdrain, hin, hout⟩ := Inflate.drain_of_lits (d := { e with
      writeOverflowLits := lits, writeOverflowLen := e.symCount + 1, nextLits := 0, symCount := 0 }) ha.drained.2
      (Nat.succ_pos _) hroom4
    have hread : mem.readable 0 (e.writePos + (e.symCount + 1)) :=
      readable_of_written ha.history (fun j hj => by rw [hin j (by omega)]; rfl) fun a h => hout a (.inl h)
    refine Inflate.Rests.suspends hdrain ⟨⟨ha.buffer, ⟨?_, ?_⟩, hread, ⟨rfl, ha.drained.2⟩, ha.header, Nat.zero_le _⟩, rfl,
      fun h => absurd (hp.symm.trans h) (by decide), ?_, herr, by rw [← hscratch], hll, hdist⟩ (.inr (.inr rfl))
    · exact ha.cursors.1.trans (Nat.le_add_right _ _)
    · show e.writePos + (e.symCount + 1) ≤ _
      omega
    · show d.phase.canBecome e.phase = true
      rw [hdp, hp]
      rfl

/-! ### The symbols of a Huffman block -/

theorem LargeTable.find_symCount_le (t : LargeTable) (x : Nat) : (t.find x).symCount ≤ 3 := by
  unfold LargeTable.find
  dsimp only
  split
  · exact Nat.le_of_lt_succ (Nat.mod_lt _ (by decide))
  · exact (by decide : 1 ≤ 3)

/-- What a symbol fetch brings: a literal with those held behind it, or another symbol with none. -/
def Inflate.symbolGood (d : Inflate) (r : Code × Inflate) : Prop :=
  (∃ m lits count v, (∃ u, d.Within u 1 m) ∧ count ≤ 2 ∧ v < 256 ∧ r = (llCode v 0, m.holdLits lits count))
    ∨ r.1.fmt = .llsym ∧ (∃ i, decode r.1 = .ok i) ∧ ∃ u, d.Within u 1 r.2

theorem Inflate.Within.atLeast {d m : Inflate} {u b b' : Nat} (h : d.Within u b m) (hb : b' ≤ b) : d.Within u b' m :=
  ⟨h.always, h.decoding, h.snap, h.used, by have := h.spent; omega, h.held, h.phase, h.stage, h.inErr, h.scratch, h.litLen,
    h.dist, h.repeated, h.retry⟩

theorem decode_llCode {sym e : Nat} (h1 : 257 ≤ sym) (h2 : sym ≤ 287) (he : e < 2 ^ lenExtra sym) :
    ∃ i, decode (llCode sym e) = .ok i := by
  have hi : ∃ i, lengthInstr sym e = some i := by interval_cases sym <;> exact ⟨_, rfl⟩
  obtain ⟨i, hi⟩ := hi
  refine ⟨i, ?_⟩
  show decodeLlsym (sym + 512 * e) = .ok i
  simp only [decodeLlsym, Nat.add_mul_mod_self_left, Nat.mod_eq_of_lt (show sym < 512 by omega),
    Nat.add_mul_div_left _ _ (show 0 < 512 by omega), Nat.div_eq_of_lt (show sym < 512 by omega), Nat.zero_add,
    if_neg (show ¬ sym ≤ 256 by omega), if_neg (show ¬ 2 ^ lenExtra sym ≤ e by omega), hi]

theorem decode_eob : decode (llCode 256 0) = .ok .eob := rfl

theorem expandedCode_decodes {y : Nat} {c : Code} (hy : 257 ≤ y) (h : expandedCode y = some c) :
    c.fmt = .llsym ∧ ∃ i, decode c = .ok i := by
  rcases Nat.lt_or_ge 512 y with hgt | hle
  · unfold expandedCode at h
    rw [if_neg (by omega)] at h
    split at h
    · cases h; exact ⟨rfl, decode_llCode (by omega) (by omega) (by decide)⟩
    · split at h
      · cases h; exact ⟨rfl, decode_llCode (by omega) (by omega) (by decide)⟩
      · cases h
  · obtain ⟨sym, e, -, h1, h2, he, hc⟩ := expandedCode_length hy hle
    cases hc.symm.trans h
    exact ⟨rfl, decode_llCode h1 (by omega) he⟩

theorem Inflate.symbolOf_meets {d m : Inflate} {hit : LargeHit} {u : Nat} (hp : d.phase = .headerDecoded) (h : d.Within u 1 m)
    (hcount : hit.symCount ≤ 3) : Parse.Meets settleBody d (Inflate.symbolOf hit m) d.symbolGood := by
  unfold Inflate.symbolOf
  split
  · exact Parse.meets_ok (.inl ⟨m, _, _, _, ⟨u, h⟩, by omega, Nat.mod_lt _ (by omega), rfl⟩)
  · rename_i hlit
    split
    · exact Parse.meets_ok (.inr ⟨rfl, ⟨.eob, decode_eob⟩, u, h⟩)
    · rename_i heob
      split
      · rename_i c hc
        have heob' : ¬ hit.nextLits = 256 := heob
        obtain ⟨hfmt, hdec⟩ := expandedCode_decodes (by omega) hc
        exact Parse.meets_ok (.inr ⟨hfmt, hdec, u, h⟩)
      · exact (h.rests (by rw [hp]; decide)).raises _ (.inr rfl)

theorem Inflate.fetchSymbol_meets {d : Inflate} (hd : d.Sound) (hs : d.stage = .parse) (hp : d.phase = .headerDecoded)
    (h0 : d.symCount = 0) : Parse.Meets settleBody d d.fetchSymbol d.symbolGood := by
  have hdec := hd.decoding (by rw [hs]; decide)
  have hlit : d.phase ≠ .litBlock := by rw [hp]; decide
  rcases Nat.lt_or_ge d.writePos d.outLimit with hroom | hfull
  · obtain ⟨d0, hl⟩ := Inflate.lookup (m := Config.refillMain) (by decide)
      (Inflate.readerOk_of_decoding hd.always hdec)
    have hr0 := hl.reads
    have hin := hr0.advanced.cursors.2
    have hw0 : d.Within 0 0 d0.snapshot := by
      have hbudget := hr0.read.budget hin
      have ha := hr0.read.always hd.always
      have hdc := hr0.read.decoding hin hdec
      have hb : d0.budget + 0 ≤ d.budget := by omega
      obtain ⟨_, _, _, _, _, rfl⟩ := hl.read.same.exists
      exact .begun ha hdc hb h0 rfl rfl rfl rfl rfl rfl rfl fun _ => rfl
    rw [Inflate.fetchSymbol_of_refill hroom hl.refill]
    split
    · exact (hw0.rests hlit).raises _ (.inr rfl)
    · rename_i hbits
      split
      · obtain ⟨t, ht, hg⟩ := hw0.bodyCut hlit (d0.snapshot.consume_advanced _)
        exact .inr ⟨_, t, rfl, ht, hg⟩
      · rename_i hu
        have hr := Inflate.consume_reads hw0.readerOk (Bool.eq_false_iff.2 hu)
        exact Inflate.symbolOf_meets hp ((hw0.reads hr).atLeast (by omega)) (LargeTable.find_symCount_le _ _)
  · rw [Inflate.fetchSymbol_of_full hfull]
    have hrest : d.Rests d := ⟨hd.always, h0, fun h => absurd h hlit, Phase.canBecome_refl _, rfl, rfl, rfl, rfl⟩
    obtain ⟨t, ht, hg⟩ := hrest.stops (st := .outputOverflow) (.inr (.inr rfl))
    exact .inr ⟨_, t, rfl, ht, hg⟩

theorem Meaning.symbol_goes {settle : Parse Inflate → Except Fault Inflate} {op : Inflate → Parse Inflate} {d m : Inflate}
    {u : Nat} (hm : Meaning .llsym settle op) (hp : d.phase = .headerDecoded)
    (h : d.Within u 1 m) (hr : m.retry = false) : ∃ t, settle (op m) = .ok t ∧ d.Goes t := by
  have hpm := h.phase.trans hp
  have hbelow := h.below
  cases hm with
  | lit b =>
    exact Inflate.literal_goes b h.always h.decoding hpm hp hr h.inErr h.scratch h.litLen h.dist (by rw [h.held]; omega)
  | eob =>
    refine ⟨_, rfl, ?_⟩
    have hcases : m.endBlock.phase = .streamEnd ∨ m.endBlock.phase = .newBlock := by
      unfold Inflate.endBlock
      cases m.bfinal
      · exact .inr rfl
      · exact .inl rfl
    have hbudget : m.budget = m.bitsLen.toNat + 8 * (m.inLen - m.inPos) := by
      simp only [Inflate.budget, hr, hpm, Bool.false_eq_true, if_false]
      rfl
    refine Inflate.goes_parse ⟨h.always.buffer, h.always.cursors, h.always.history, h.always.drained, fun hx => ?_,
      h.always.held⟩ ⟨h.decoding.limit, h.decoding.slice, h.decoding.retryPos⟩ rfl hr (fun _ => h.held) (fun hx => ?_) ?_
      h.inErr h.scratch h.litLen h.dist ?_
    · obtain hx | hx := hx
      · obtain he | he := hcases <;> exact absurd (he.symm.trans hx) (by decide)
      · exact absurd (hr.symm.trans hx) (by decide)
    · obtain he | he := hcases <;> exact absurd (he.symm.trans hx) (by decide)
    · show d.phase.canBecome m.endBlock.phase = true
      rw [hp]
      obtain he | he := hcases <;> rw [he] <;> rfl
    · have hleft : Inflate.stepsLeft { m.endBlock with stage := .parse } ≤ 4 * m.budget + 1 := by
        rw [hbudget]
        simp only [Inflate.stepsLeft, Inflate.owedSteps, Inflate.budget]
        cases hb : m.bfinal <;> simp [hb, Inflate.endBlock, hr]
      omega
  | length sym e h1 h2 he =>
    refine ⟨_, rfl, ?_⟩
    show d.Goes { m with repeatLength := expandedSym sym e - Config.lenOffset, stage := .dist }
    have hlen : expandedSym sym e - Config.lenOffset ≤ Config.maxMatch := by
      have hrow := (lenRow_bounds sym).2
      have : expandedSym sym e = 254 + lenBase sym + e := by
        rw [expandedSym, if_neg (by omega), if_neg (by omega), if_neg (by omega)]
      have e1 : Config.lenOffset = 254 := rfl
      have e2 : Config.maxMatch = 258 := rfl
      omega
    generalize expandedSym sym e - Config.lenOffset = n at hlen ⊢
    refine ⟨⟨⟨h.always.buffer, h.always.cursors, h.always.history, h.always.drained, h.always.header, h.always.held⟩,
      fun hx => (by cases hx), fun _ => ⟨h.decoding.limit, h.decoding.slice, h.decoding.retryPos⟩, fun hx => (by cases hx),
      fun hx => (by cases hx), fun _ => ⟨h.snap, hr, hpm, h.held, hlen⟩, fun hx => absurd (hpm.symm.trans hx) (by decide)⟩,
      ?_, fun ht => ⟨?_, fun hx => (by cases hx), h.litLen.symm ▸ ht.litLen, h.dist.symm ▸ ht.dist⟩, fun _ => ⟨?_, h.inErr⟩,
      fun hx => (by cases hx)⟩
    · show d.phase.canBecome m.phase = true
      rw [h.phase]
      exact Phase.canBecome_refl _
    · show ∀ l ∈ m.scratch.lens, _
      rw [h.scratch]
      exact ht.lens
    · show 4 * m.budget + 0 < _
      omega
  | reservedSymbol _ _ => exact (h.rests (by rw [hp]; decide)).fails _

theorem decode_literal {v : Nat} (h : v < 256) : decode (llCode v 0) = .ok (.lit (BitVec.ofNat 8 v)) := by
  show decodeLlsym (v + 512 * 0) = _
  simp only [decodeLlsym, Nat.mul_zero, Nat.add_zero, Nat.mod_eq_of_lt (show v < 512 by omega),
    Nat.div_eq_of_lt (show v < 512 by omega), if_pos (show v ≤ 256 by omega), if_neg (show ¬ (0 : Nat) ≠ 0 by omega), if_pos h]

/-- The step on a literal word, others held behind it. -/
theorem stepsOn_literal {s : State} {m : Inflate} {v lits count : Nat}
    (hf : fetchElement s.params s.inf = .ok (.word (llCode v 0) (m.holdLits lits count))) (hv : v < 256) (hcount : count ≤ 2)
    (ha : m.AlwaysOk) (hd : m.DecodingOk) (hp : m.phase = .headerDecoded) (hdp : s.inf.phase = .headerDecoded)
    (hr : m.retry = false) (herr : m.inErr = s.inf.inErr) (hscratch : m.scratch = s.inf.scratch)
    (hll : m.litLenTable = s.inf.litLenTable) (hdist : m.distTable = s.inf.distTable)
    (hsteps : 4 * m.budget + count < s.inf.stepsLeft) : StepsOn s :=
  stepsOn_of_instr hf (decode_literal hv) (fun _ => rfl)
    (Inflate.literal_goes _ ⟨ha.buffer, ha.cursors, ha.history, ha.drained, ha.header, hcount⟩
      ⟨hd.limit, hd.slice, hd.retryPos⟩ hp hdp hr herr hscratch hll hdist hsteps)

theorem stepsOn_symbol {s : State} (hd : s.inf.Sound) (hs : s.inf.stage = .parse) (hp : s.inf.phase = .headerDecoded) :
    StepsOn s := by
  have hdec := hd.decoding (by rw [hs]; decide)
  obtain ⟨hr, -⟩ := hd.parse hs
  rcases Nat.eq_zero_or_pos s.inf.symCount with h0 | hpos
  · have hretry : ∀ {u b m}, s.inf.Within u b m → m.retry = false := fun h =>
      (h.retry (by rw [hp]; decide)).trans hr
    obtain ⟨c, m, hf, hgood⟩ | hin := fetchedBy_meets (Inflate.fetchSymbol_meets hd hs hp h0)
    · rw [← fetchElement_of_headerDecoded (p := s.params) hs hp h0] at hf
      obtain ⟨m, lits, count, v, ⟨u, hw⟩, hcount, hv, heq⟩ | ⟨hfmt, hdecodes, u, hw⟩ := hgood
      · cases heq
        have := hw.below
        exact stepsOn_literal hf hv hcount hw.always hw.decoding (hw.phase.trans hp) hp (hretry hw) hw.inErr hw.scratch
          hw.litLen hw.dist (by omega)
      · exact stepsOn_of_word hf (by rw [hfmt]; rfl) hdecodes fun settle op hm =>
          (hfmt ▸ hm).symbol_goes hp hw (hretry hw)
    · rw [← fetchElement_of_headerDecoded (p := s.params) hs hp h0] at hin
      exact stepsOn_of_inside hin
  · have hleft : s.inf.stepsLeft = 4 * s.inf.budget + s.inf.symCount := by
      simp only [Inflate.stepsLeft, Inflate.owedSteps, hs, hp]
    exact stepsOn_literal (m := s.inf) (fetchElement_of_held hs hp hpos) (Nat.mod_lt _ (by omega))
      (by have := hd.always.held; omega) hd.always hdec hp hp hr rfl rfl rfl rfl (by omega)

end Sys2Proof.Machine
end

section
/-! PROOFS. Distances, stored blocks and the ends of a stream; then the invariants of the inflate side over steps and
commands, and IN_STEP run to its end (rules R230, R258, R266 to R290). -/

namespace Sys2Proof.Machine

/-! ### Distances -/

/-- What holds of the engine before a distance. -/
theorem Inflate.Sound.dist_within {d : Inflate} (h : d.Sound) (hs : d.stage = .dist) : d.Within d.snapAvail 0 d := by
  obtain ⟨hsnap, -, -, h0, -⟩ := h.dist hs
  exact ⟨h.always, h.decoding (by rw [hs]; decide), hsnap, Nat.le_add_left _ _, le_refl _, h0, rfl, rfl, rfl, rfl, rfl, rfl,
    rfl, fun _ => rfl⟩

theorem decode_dsym_ok {v : Nat} (h : v < 32) : ∃ i, decode ⟨.dsym, v, {}⟩ = .ok i := by
  interval_cases v <;> exact ⟨_, rfl⟩

/-- A reserved distance fails whatever the engine. -/
def reservedDsym (c : Code) : Prop :=
  ∃ i, decode c = .ok i ∧ ∀ s : State, runElement i s = s.onInf (settleBody (.error (.raise .invalidSymbol s.inf)))

theorem reservedDistance_some {btype : BitVec 2} {bits : Nat} {c : Code} (h : reservedDistance btype bits = some c) :
    reservedDsym c := by
  unfold reservedDistance at h
  split at h
  · cases h
  · split at h
    · cases h; exact ⟨.distReserved30, rfl, fun _ => rfl⟩
    · split at h
      · cases h; exact ⟨.distReserved31, rfl, fun _ => rfl⟩
      · cases h

/-- What a distance fetch brings: a reserved pattern with no bit read, or a symbol. -/
def Inflate.distanceGood (d : Inflate) (r : Code × Inflate) : Prop :=
  reservedDsym r.1 ∧ (∃ u, d.Within u 0 r.2)
    ∨ r.1.fmt = .dsym ∧ (∃ i, decode r.1 = .ok i) ∧ ∃ u, d.Within u 1 r.2

theorem Inflate.fetchDistance_meets {d : Inflate} (hd : d.Sound) (hs : d.stage = .dist) :
    Parse.Meets settleBody d d.fetchDistance d.distanceGood := by
  obtain ⟨-, -, hp, -, -⟩ := hd.dist hs
  have hlit : d.phase ≠ .litBlock := by rw [hp]; decide
  have h := hd.dist_within hs
  obtain ⟨d0, hl⟩ := Inflate.lookup (m := Config.refillMain) (by decide) h.readerOk
  have h0 := h.reads hl.reads
  rw [Inflate.fetchDistance_of_refill hl.refill]
  split
  · cases hres : reservedDistance d0.btype d0.bits.toNat with
    | some c =>
      rw [Inflate.noDistance_of_some hres]
      exact Parse.meets_ok (.inl ⟨reservedDistance_some hres, _, h0⟩)
    | none =>
      rw [Inflate.noDistance_of_none hres]
      exact (h0.rests hlit).raises _ (.inr rfl)
  · rename_i hlen
    split
    · obtain ⟨t, ht, hg⟩ := h0.bodyCut hlit (d0.consume_advanced _)
      exact .inr ⟨_, t, rfl, ht, hg⟩
    · rename_i hu
      have hr := Inflate.consume_reads h0.readerOk (Bool.eq_false_iff.2 hu)
      exact Parse.meets_ok (.inr ⟨rfl, decode_dsym_ok (Nat.mod_lt _ (by omega)), _, (h0.reads hr).atLeast (by omega)⟩)

/-- A match copied, all of it or as much as fits with the rest drained (rules R269, R290). -/
theorem Inflate.copyMatch_meets {d e : Inflate} {dist u : Nat} (h : d.Within u 1 e) (hp : d.phase = .headerDecoded)
    (hr : e.retry = false) (hrep : e.repeatLength ≤ Config.maxMatch) (hd1 : 1 ≤ dist) (hd2 : dist ≤ e.writePos) :
    Parse.Meets settleBody d (e.copyMatch dist) d.Goes := by
  obtain ⟨hlim, hw⟩ := h.decoding.limit
  have h64 : 2 * Config.historySize = 65536 := rfl
  have hsize : Config.histBufSize = 65824 := rfl
  have hmax : Config.maxMatch = 258 := rfl
  have hpe := h.phase.trans hp
  have hcur := h.always.cursors.1
  have hbelow := h.below
  have hread : e.histBuf.readable (e.writePos - dist) e.writePos := fun k _ hk => h.always.history k (Nat.zero_le _) hk
  have hfull : ∀ m : Memory, (∀ j, j < e.repeatLength → m.get? (e.writePos + j) = m.get? (e.writePos + j - dist)) →
      (∀ a, a < e.writePos ∨ e.writePos + e.repeatLength ≤ a → m.get? a = e.histBuf.get? a) →
      m.readable 0 (e.writePos + e.repeatLength) := fun m hnew hold =>
    readable_of_copied hd1 (by omega) h.always.history (fun k hk => hold k (.inl hk)) hnew
  rcases Nat.lt_or_ge e.outLimit (e.writePos + e.repeatLength) with hover | hfit
  · obtain ⟨x, m, hx, hdrain, hnew, hold⟩ := Inflate.copyMatch_of_overflow hd1 hd2 hw hover (by omega) h.always.drained hread
    rw [hx]
    have hrest : d.Rests { e with
        histBuf := m, writePos := e.writePos + e.repeatLength, copyOverflowDistance := 0, stage := .parse } :=
      ⟨⟨h.always.buffer, ⟨hcur.trans (Nat.le_add_right _ _), by show e.writePos + e.repeatLength ≤ _; omega⟩,
        hfull m hnew hold, h.always.drained, h.always.header, h.always.held⟩, h.held,
        fun hx => absurd (hpe.symm.trans hx) (by decide), (h.rests (by rw [hp]; decide)).phase, h.inErr,
        congrArg (·.lens) h.scratch, h.litLen, h.dist⟩
    obtain ⟨t, ht, hg⟩ := Inflate.Rests.suspends hdrain hrest (st := .outputOverflow) (.inr (.inr rfl))
    exact .inr ⟨_, t, rfl, ht, hg⟩
  · obtain ⟨m, hm, hnew, hold⟩ := Inflate.copyMatch_of_fits hd1 hd2 hfit (by omega) hread
    rw [hm]
    refine Parse.meets_ok (Inflate.goes_parse ⟨h.always.buffer, ⟨hcur.trans (Nat.le_add_right _ _), ?_⟩, hfull m hnew hold,
      h.always.drained, h.always.header, h.always.held⟩ ⟨⟨hlim, hfit⟩, h.decoding.slice, h.decoding.retryPos⟩ rfl hr
      (fun _ => h.held) (fun hx => absurd (hpe.symm.trans hx) (by decide)) (h.rests (by rw [hp]; decide)).phase h.inErr
      h.scratch h.litLen h.dist ?_)
    · show e.writePos + e.repeatLength ≤ _
      omega
    · have hleft : ∀ m w, Inflate.stepsLeft { e with histBuf := m, writePos := w, stage := .parse } = 4 * e.budget :=
        fun m w => by simp only [Inflate.stepsLeft, Inflate.owedSteps, Inflate.budget, hpe, h.held]; omega
      rw [hleft]
      omega

theorem Meaning.distance_goes {settle : Parse Inflate → Except Fault Inflate} {op : Inflate → Parse Inflate}
    {d m : Inflate} {u : Nat} (hm : Meaning .dsym settle op) (hd : d.Sound) (hs : d.stage = .dist)
    (h : d.Within u 1 m) : ∃ t, settle (op m) = .ok t ∧ d.Goes t := by
  obtain ⟨-, hr, hp, -, hrep⟩ := hd.dist hs
  have hlit : d.phase ≠ .litBlock := by rw [hp]; decide
  cases hm with
  | reservedSymbol _ _ => exact (h.rests hlit).fails _
  | distance sym hsym =>
    refine Parse.Meets.settles ?_ fun _ => rfl
    obtain ⟨d0, hl⟩ := Inflate.lookup (m := Config.refillMain) (by decide) h.readerOk
    have h0 := h.reads hl.reads
    rw [Inflate.distanceSymbol_of_refill sym hl.refill]
    split
    · obtain ⟨t, ht, hg⟩ := h0.bodyCut hlit (d0.consume_advanced _)
      exact .inr ⟨_, t, rfl, ht, hg⟩
    · rename_i hu
      have h1 := (h0.reads (Inflate.consume_reads h0.readerOk (Bool.eq_false_iff.2 hu))).atLeast (b' := 1) (by omega)
      unfold Inflate.distanceChecked
      split
      · exact (h1.rests hlit).raises _ (.inr rfl)
      · rename_i hback
        exact Inflate.copyMatch_meets h1 hp ((h1.retry (by rw [hp]; decide)).trans hr) (h1.repeated.trans_le hrep)
          (Nat.le_add_right_of_le (distStart_pos sym)) (Nat.le_of_not_lt hback)

theorem stepsOn_dist {s : State} (hd : s.inf.Sound) (hs : s.inf.stage = .dist) : StepsOn s := by
  obtain ⟨-, -, hp, -, -⟩ := hd.dist hs
  obtain ⟨c, m, hf, hgood⟩ | hin := fetchedBy_meets (Inflate.fetchDistance_meets hd hs)
  · rw [← fetchElement_of_dist (p := s.params) hs] at hf
    obtain ⟨⟨i, hi, hrun⟩, u, hw⟩ | ⟨hfmt, hdecodes, u, hw⟩ := hgood
    · exact stepsOn_of_instr (op := fun d => .error (.raise .invalidSymbol d)) hf hi hrun
        ((hw.rests (by rw [hp]; decide)).fails _)
    · exact stepsOn_of_word hf (by rw [hfmt]; rfl) hdecodes fun settle op hm => (hfmt ▸ hm).distance_goes hd hs hw
  · rw [← fetchElement_of_dist (p := s.params) hs] at hin
    exact stepsOn_of_inside hin

/-! ### Stored blocks and the end of the stream -/

/-- The stored copy, over with the block, the output or the input (rule R258). -/
theorem Inflate.storedEnds_meets {d e : Inflate} (ha : e.AlwaysOk) (hd : e.DecodingOk) (hr : e.retry = false)
    (h0 : e.symCount = 0) (hs : e.stage = .parse) (hp : e.phase = .litBlock) (hdp : d.phase = .litBlock)
    (hal : e.bitsLen % 8 = 0) (herr : e.inErr = d.inErr) (hscratch : e.scratch = d.scratch)
    (hll : e.litLenTable = d.litLenTable) (hdist : e.distTable = d.distTable) (hsteps : 4 * e.budget + 1 < d.stepsLeft) :
    Parse.Meets settleBody d e.storedEnds d.Goes := by
  have hrest : d.Rests e := ⟨ha, h0, fun _ => hal, by rw [hdp, hp]; rfl, herr, by rw [hscratch], hll, hdist⟩
  unfold Inflate.storedEnds
  split
  · have hcases : e.endBlock.phase = .streamEnd ∨ e.endBlock.phase = .newBlock := by
      unfold Inflate.endBlock
      cases e.bfinal
      · exact .inr rfl
      · exact .inl rfl
    have hnot : e.endBlock.phase ≠ .decodingHeader ∧ e.endBlock.phase ≠ .litBlock := by
      obtain he | he := hcases <;> rw [he] <;> decide
    refine Parse.meets_ok (Inflate.goes_parse ⟨ha.buffer, ha.cursors, ha.history, ha.drained, fun hx => ?_, ha.held⟩
      ⟨hd.limit, hd.slice, hd.retryPos⟩ hs hr (fun _ => h0) (fun hx => absurd hx hnot.2) ?_ herr hscratch hll hdist ?_)
    · obtain hx | hx := hx
      · exact absurd hx hnot.1
      · exact absurd (hr.symm.trans hx) (by decide)
    · rw [hdp]
      obtain he | he := hcases <;> rw [he] <;> rfl
    · have hleft : e.endBlock.stepsLeft ≤ 4 * e.budget + 1 := by
        simp only [Inflate.stepsLeft, Inflate.owedSteps, Inflate.budget]
        cases hb : e.bfinal <;> simp [hb, Inflate.endBlock, hr, hs, hp]
      omega
  · split
    · obtain ⟨t, ht, hg⟩ := hrest.stops (st := .outputOverflow) (.inr (.inr rfl))
      exact .inr ⟨_, t, rfl, ht, hg⟩
    · obtain ⟨t, ht, hg⟩ := hrest.stops (st := .endInput) (.inr (.inl rfl))
      exact .inr ⟨_, t, rfl, ht, hg⟩

theorem Inflate.copyStored_meets {d : Inflate} (hd : d.Sound) (hs : d.stage = .parse) (hp : d.phase = .litBlock) :
    Parse.Meets settleBody d d.copyStored d.Goes := by
  obtain ⟨hr, h0⟩ := hd.parse hs
  have hdec := hd.decoding (by rw [hs]; decide)
  obtain ⟨hlim, hw⟩ := hdec.limit
  have h64 : 2 * Config.historySize = 65536 := rfl
  have hsize : Config.histBufSize = 65824 := rfl
  have hhist : d.outLimit ≤ Config.histBufSize := by omega
  have hcur := hd.always.cursors.1
  obtain ⟨n, hn⟩ : ∃ n, n = min d.litBlockLength (min (d.avail / 8) (d.outLimit - d.writePos)) := ⟨_, rfl⟩
  obtain ⟨e, d1, m, h1, h2, hread, hin, hout⟩ := Inflate.storedCopy_spec
    (Inflate.readerOk_of_decoding hd.always hdec) hr (hd.aligned hp) hw hhist hn
  have hcursor : d.retry = true → e.inPos = d.inPos := fun hx => absurd (hr.symm.trans hx) (by decide)
  have hpos := hread.position
  have hal := hd.aligned hp
  have ha := hread.always hd.always
  have hde := hread.decoding hcursor hdec
  have hbudget := hread.budget hcursor
  have hmem : m.readable 0 (d.writePos + n) :=
    readable_of_written hd.always.history (fun j hj => by rw [hin j hj]; rfl) fun a h => hout a (.inl h)
  have hleft : d.stepsLeft = 4 * d.budget + 2 := by simp only [Inflate.stepsLeft, Inflate.owedSteps, hs, hp]
  rw [Inflate.copyStored_of_loops h1 h2]
  obtain ⟨b, l, p, q, k, rfl⟩ := hread.same.exists
  refine Inflate.storedEnds_meets ⟨ha.buffer, ⟨hcur.trans (Nat.le_add_right _ _), ?_⟩, hmem, ha.drained, ha.header, ha.held⟩
    ⟨⟨hlim, ?_⟩, hde.slice, hde.retryPos⟩ hr (h0 (by rw [hp]; decide)) hs hp hp ?_ rfl rfl rfl rfl ?_
  · show d.writePos + n ≤ _
    omega
  · show d.writePos + n ≤ d.outLimit
    omega
  · show l % 8 = 0
    simp only at hpos
    omega
  · rw [hleft]
    show 4 * Inflate.budget { d with bits := b, bitsLen := l, inPos := p, hdrPos := q, totalIn := k } + 1 < _
    omega

/-- Every step inside `Decode()` answers a state that may follow. -/
theorem Inflate.Sound.stepsOn {s : State} (hd : s.inf.Sound) (hs : s.inf.stage ≠ .idle) : StepsOn s := by
  cases hstage : s.inf.stage with
  | idle => exact absurd hstage hs
  | clSeq => exact stepsOn_clSeq hd hstage
  | dist => exact stepsOn_dist hd hstage
  | parse =>
    have hend : ∀ ph, s.inf.phase = ph → ph = .streamEnd ∨ ph = .finish →
        ∃ t, s.inf.endDecode .ok = .ok t ∧ s.inf.Goes t := fun ph hp hor => by
      have hdec : s.inf.phase ≠ .headerDecoded ∧ s.inf.phase ≠ .litBlock := by
        rw [hp]; obtain rfl | rfl := hor <;> decide
      exact Inflate.Rests.stops ⟨hd.always, (hd.parse hstage).2 hdec.1, fun hx => absurd hx hdec.2, Phase.canBecome_refl _,
        rfl, rfl, rfl, rfl⟩ (.inl ⟨rfl, hp ▸ hor⟩)
    cases hp : s.inf.phase with
    | newBlock => exact stepsOn_header hd hstage (.inl hp)
    | decodingHeader => exact stepsOn_header hd hstage (.inr hp)
    | litBlock =>
      exact stepsOn_of_settled (fetchElement_of_litBlock hstage hp)
        ((Inflate.copyStored_meets hd hstage hp).settles fun _ => rfl)
    | headerDecoded => exact stepsOn_symbol hd hstage hp
    | streamEnd =>
      exact stepsOn_of_settled (by simp only [fetchElement, hstage, hp]) (hend _ hp (.inl rfl))
    | finish =>
      exact stepsOn_of_settled (by simp only [fetchElement, hstage, hp]) (hend _ hp (.inr rfl))

theorem step_of_decoding {s : State} (hs : s.inf.stage ≠ .idle) : step s = elementStep s := by
  rw [step, if_pos hs, stepElement_eq]

/-- Settles O39: the phase of every step inside `Decode()` is one that `Inflate.Goes` allows. -/
theorem phaseTransitions : Obligations.PhaseTransitions := by
  unfold Obligations.PhaseTransitions
  intro s t hd hs h
  obtain ⟨u, hu, hg⟩ := hd.stepsOn hs
  rw [step_of_decoding hs, hu] at h
  cases h
  exact hg.phase

/-! ### `Decode()` run to its end -/

/-- The loop `Decode()` ends, with what follows step by step (rule R275). -/
theorem decodeLoop_completes (n : Nat) {s : State} (hd : s.inf.Sound) (hs : s.inf.stage ≠ .idle)
    (hn : s.inf.stepsLeft < n) :
    ∃ t, decodeLoop n s = .next { s with inf := t } ∧ t.Sound ∧ t.stage = .idle ∧ (s.inf.TablesOk → t.TablesOk)
      ∧ Decodes s { s with inf := t } ∧ (s.inf.inErr = none → t.answered) := by
  induction n generalizing s with
  | zero => exact absurd hn (Nat.not_lt_zero _)
  | succ n ih =>
    obtain ⟨u, hu, hg⟩ := hd.stepsOn hs
    have hstep := (step_of_decoding hs).trans hu
    simp only [decodeLoop, if_neg hs, hu]
    by_cases hidle : u.stage = .idle
    · refine ⟨u, ?_, hg.sound, hidle, hg.tables, .step _ _ _ hs hstep (.left _ hidle), hg.ended hidle⟩
      cases n <;> simp only [decodeLoop, hidle, if_true]
    · obtain ⟨hless, herr⟩ := hg.further hidle
      obtain ⟨t, ht, hsound, hti, htab, hdec, hans⟩ := ih (s := { s with inf := u }) hg.sound hidle
        (show u.stepsLeft < n by omega)
      exact ⟨t, ht, hsound, hti, fun h => htab (hg.tables h), .step _ _ _ hs hstep hdec, fun h => hans (herr.trans h)⟩

/-- The fold keeps the engine between two commands (rule R286). -/
theorem Inflate.foldIfDue_sound {d : Inflate} (hd : d.Sound) (hs : d.stage = .idle) : ∃ f, d.foldIfDue = .ok f
    ∧ (d.writePos < 2 * Config.historySize → f = d) ∧ f.Sound ∧ f.writePos < 2 * Config.historySize
    ∧ ∃ m r w, f = { d with histBuf := m, readPos := r, writePos := w } := by
  rcases Nat.lt_or_ge d.writePos (2 * Config.historySize) with hlt | hge
  · exact ⟨d, Inflate.foldIfDue_of_not_due hlt, fun _ => rfl, hd, hlt, _, _, _, rfl⟩
  · have h32 : Config.historySize = 32768 := rfl
    obtain ⟨m, hf, hm, -⟩ := Inflate.foldIfDue_of_due hge hd.always.cursors.2
      fun k _ hk => hd.always.history k (Nat.zero_le _) hk
    have hread : m.readable 0 Config.historySize := fun k _ hk => by
      rw [hm k hk]
      exact hd.always.history _ (Nat.zero_le _) (by omega)
    have hno : ∀ st, st ≠ .idle → d.stage ≠ st := fun st hst h => hst (h.symm.trans hs)
    exact ⟨_, hf, fun h => absurd h (Nat.not_lt.2 hge), ⟨⟨hd.always.buffer, ⟨le_refl _, by show 32768 ≤ 65824; omega⟩,
      hread, hd.always.drained, hd.always.header, hd.always.held⟩, hd.idle, fun h => absurd hs h,
      fun h => absurd h (hno _ (by decide)), fun h => absurd h (hno _ (by decide)), fun h => absurd h (hno _ (by decide)),
      hd.aligned⟩, (by show 32768 < 2 * 32768; omega), _, _, _, rfl⟩

/-- The state in which `Decode()` begins (rules R287, R288). -/
theorem Inflate.entered_sound {f : Inflate} {slice : List Byte} {skip : Nat} (hf : f.Sound) (hs : f.stage = .idle)
    (hw : f.writePos < 2 * Config.historySize) (hskip : skip ≤ slice.length) : (f.entered slice skip).Sound := by
  obtain ⟨hretry, h0⟩ := hf.idle hs
  refine ⟨⟨hf.always.buffer, hf.always.cursors, hf.always.history, hf.always.drained, hf.always.header, hf.always.held⟩,
    fun h => (by cases h), fun _ => ⟨⟨Nat.min_le_left _ _, ?_⟩, ⟨hskip, Cells.ofList_readable slice⟩,
      fun h => absurd (hretry.symm.trans h) (by decide)⟩,
    fun _ => ⟨hretry, fun _ => h0⟩, fun h => (by cases h), fun h => (by cases h), hf.aligned⟩
  exact Nat.le_min.2 ⟨hw.le, Nat.le_add_right _ _⟩

theorem Inflate.stepsLeft_lt_decodeBound {d : Inflate} (hr : d.retry = false) (h0 : d.symCount = 0) :
    d.stepsLeft < decodeBound d := by
  have howed : d.owedSteps ≤ 2 := by
    unfold Inflate.owedSteps
    split <;> try omega
    split <;> omega
  have hbudget : d.budget ≤ d.bitsLen.toNat + 8 * (d.inLen - d.inPos) + 8 * d.hdrLen := by
    simp only [Inflate.budget, hr, Bool.false_eq_true, if_false]
    split <;> omega
  simp only [Inflate.stepsLeft, decodeBound]
  omega

/-- IN_STEP when its preconditions hold (rules R286 to R289). -/
theorem exec_inStep_completes {s : State} {slice : List Byte} (hd : s.inf.Sound) (hs : s.inf.stage = .idle)
    (herr : s.inf.inErr = none) (hok : s.inf.stepRefused s.params slice.length = false) :
    ∃ f t, exec (.inStep slice) s = .next { s with inf := t } ∧ s.inf.foldIfDue = .ok f
      ∧ (s.inf.writePos < 2 * Config.historySize → f = s.inf)
      ∧ Decodes { s with inf := f.entered slice s.inf.skip } { s with inf := t }
      ∧ t.Sound ∧ t.stage = .idle ∧ t.answered ∧ (s.inf.TablesOk → t.TablesOk) := by
  obtain ⟨f, hf, hsame, hsound, hw, m, r, w, heq⟩ := Inflate.foldIfDue_sound hd hs
  have hskip : s.inf.skip ≤ slice.length := by
    have := (Inflate.stepRefused_iff s.params s.inf slice.length).not.1 (by rw [hok]; decide)
    simp only [not_or, Nat.not_lt] at this
    exact this.2.1
  have hfs : f.stage = .idle := by rw [heq]; exact hs
  have hent := Inflate.entered_sound hsound hfs hw hskip
  obtain ⟨hretry, h0⟩ := hsound.idle hfs
  obtain ⟨t, ht, hts, hti, htab, hdec, hans⟩ := decodeLoop_completes (decodeBound (f.entered slice s.inf.skip))
    (s := { s with inf := f.entered slice s.inf.skip }) hent (show InStage.parse ≠ .idle by decide)
    (Inflate.stepsLeft_lt_decodeBound hretry h0)
  refine ⟨f, t, ?_, hf, hsame, hdec, hts, hti, hans (by rw [heq]; exact herr), fun h => htab ?_⟩
  · have henter : s.inf.enterDecode slice = .ok (f.entered slice s.inf.skip) := by
      simp only [Inflate.enterDecode, hf, except_ok_bind]
      rfl
    show execInStep slice s = _
    rw [execInStep, herr]
    simp only [hok, henter, Bool.false_eq_true, if_false]
    exact ht
  · rw [heq]
    exact ⟨h.lens, fun hc => (by cases hc), h.litLen, h.dist⟩

/-- Only the return written: still a state between two commands. -/
theorem Inflate.returns_sound {d : Inflate} (hd : d.Sound) (st : Status) (n : Int) (bs : List Byte) :
    (d.returns st n bs).Sound :=
  ⟨⟨hd.always.buffer, hd.always.cursors, hd.always.history, hd.always.drained, hd.always.header, hd.always.held⟩, hd.idle,
    fun h => ⟨(hd.decoding h).limit, (hd.decoding h).slice, (hd.decoding h).retryPos⟩, hd.parse, hd.clSeq, hd.dist, hd.aligned⟩

/-- IN_STEP when it has nothing to do (rules R289, R412). -/
theorem exec_inStep_answers {s : State} {slice : List Byte}
    (h : s.inf.inErr ≠ none ∨ s.inf.stepRefused s.params slice.length = true) :
    ∃ st, exec (.inStep slice) s = .next { s with inf := s.inf.returns st 0 [] } ∧ (st = .refused ∨ ∃ off, st = .corruptInput off) := by
  cases herr : s.inf.inErr with
  | none => exact ⟨_, exec_inStep_of_refused herr (h.resolve_left fun h => h herr), .inl rfl⟩
  | some e => exact ⟨_, exec_inStep_of_inErr slice herr, .inr ⟨_, rfl⟩⟩

/-- Settles O44: where IN_STEP's preconditions hold, the loop `Decode()` ends from the state it begins in; elsewhere
IN_STEP answers at once. -/
theorem stepCompletes : Obligations.StepCompletes := by
  unfold Obligations.StepCompletes
  intro s slice skip hd hs hskip
  have hiff := Inflate.stepRefused_iff s.params s.inf slice.length
  rw [← hskip] at hiff
  by_cases hpre : s.inf.inErr = none ∧ s.inf.readPos = s.inf.writePos ∧ skip ≤ slice.length
      ∧ slice.length ≤ s.params.sliceMax
  · obtain ⟨herr, hpos, hlen, hmax⟩ := hpre
    obtain ⟨f, t, ht, hf, hsame, hdec, hsound, hidle, hans, -⟩ := exec_inStep_completes (slice := slice) hd hs herr
      (Bool.eq_false_iff.2 fun h => by
        obtain h | h | h := hiff.1 h
        · exact h hpos
        · omega
        · omega)
    exact ⟨_, ht, rfl, hsound, hidle, fun _ _ _ _ => ⟨⟨f, hf, hsame, by rw [hskip]; exact hdec⟩, hans⟩,
      fun h => absurd ⟨herr, hpos, hlen, hmax⟩ h⟩
  · obtain ⟨st, hst, hor⟩ := exec_inStep_answers (s := s) (slice := slice) <| by
      by_cases herr : s.inf.inErr = none
      · refine .inr (hiff.2 ?_)
        by_contra hno
        simp only [not_or, Nat.not_lt, not_not] at hno
        exact hpre ⟨herr, hno⟩
      · exact .inl herr
    exact ⟨_, hst, rfl, Inflate.returns_sound hd st 0 [], hs, fun h1 h2 h3 h4 => absurd ⟨h1, h2, h3, h4⟩ hpre,
      fun _ => ⟨st, rfl, hor⟩⟩

/-! ### The invariants over every step -/

/-- The engine keeps both invariants. -/
def Inflate.Holds (d t : Inflate) : Prop := t.Sound ∧ (d.TablesOk → t.TablesOk)

theorem Inflate.returns_holds {d : Inflate} (hd : d.Sound) (st : Status) (n : Int) (bs : List Byte) :
    d.Holds (d.returns st n bs) :=
  ⟨Inflate.returns_sound hd st n bs, fun h => ⟨h.lens, h.clc, h.litLen, h.dist⟩⟩

theorem Inflate.clear_holds (d : Inflate) (st : Status) (n : Int) (bs : List Byte) :
    d.Holds (d.clear.returns st n bs) := by
  refine ⟨⟨⟨bufferOk_zero, ⟨le_refl _, Nat.zero_le _⟩, fun k _ hk => absurd hk (Nat.not_lt_zero k), ⟨rfl, rfl⟩, fun h => ?_,
    Nat.zero_le _⟩, fun _ => ⟨rfl, rfl⟩, fun h => absurd rfl h, fun h => (by cases h), fun h => (by cases h),
    fun h => (by cases h), fun h => (by cases h)⟩, fun h => ⟨h.lens, fun hc => (by cases hc), h.litLen, h.dist⟩⟩
  obtain h | h := h <;> cases h

/-- The registers IN_READ writes (rule R284). -/
theorem Inflate.read_holds {d t : Inflate} {n : Nat} (hd : d.Sound) (hs : d.stage = .idle) (h : d.read n = .ok t) :
    d.Holds t := by
  obtain ⟨data, -, h⟩ := except_bind_ok h
  have hcur := hd.always.cursors
  split at h
  · cases h
    exact ⟨⟨⟨hd.always.buffer, ⟨by show d.readPos + min n (d.writePos - d.readPos) ≤ d.writePos; omega, hcur.2⟩,
      hd.always.history, hd.always.drained, hd.always.header, hd.always.held⟩, hd.idle,
      fun h => absurd hs h, hd.parse, hd.clSeq, hd.dist, hd.aligned⟩, fun h => ⟨h.lens, h.clc, h.litLen, h.dist⟩⟩
  · cases h
    unfold Inflate.readNothing
    split
    · exact Inflate.returns_holds hd _ _ _
    · split
      · obtain ⟨hr, h0⟩ := hd.idle hs
        have hno : ∀ st, st ≠ .idle → d.stage ≠ st := fun st hst h => hst (h.symm.trans hs)
        exact ⟨⟨⟨hd.always.buffer, hcur, hd.always.history, hd.always.drained,
          fun h => absurd (hr.symm.trans (h.resolve_left (by show Phase.finish ≠ _; decide))) (by decide),
          hd.always.held⟩, fun _ => ⟨hr, h0⟩, fun h => absurd hs h, fun h => absurd h (hno _ (by decide)),
          fun h => absurd h (hno _ (by decide)), fun h => absurd h (hno _ (by decide)), fun h => (by cases h)⟩,
          fun h => ⟨h.lens, h.clc, h.litLen, h.dist⟩⟩
      · exact Inflate.returns_holds hd _ _ _

/-- Every instruction a command can be keeps the inflate side sound. -/
theorem exec_command_holds {i : Instr} {s t : State} (hi : (encode i).fmt = .cmd) (hd : s.inf.Sound)
    (hs : s.inf.stage = .idle) (h : exec i s = .next t) : s.inf.Holds t.inf := by
  have hdf : onInflateSide i = false → s.inf.Holds t.inf := fun hside => by
    rw [(sidesIndependent i s t h).2.2.2 hside]
    exact ⟨hd, id⟩
  cases i with
  | dfReset _ _ | dfWrite _ | dfFlush | dfClose => exact hdf rfl
  | inReset => cases h; exact Inflate.clear_holds _ _ _ _
  | inClose => cases h; exact Inflate.returns_holds hd _ _ _
  | inRead n =>
    obtain ⟨d, hr, rfl⟩ := State.onInf_next (show s.onInf (s.inf.read n) = .next t from h)
    exact Inflate.read_holds hd hs hr
  | inStep slice =>
    by_cases hpre : s.inf.inErr ≠ none ∨ s.inf.stepRefused s.params slice.length = true
    · obtain ⟨st, hst, -⟩ := exec_inStep_answers hpre
      cases hst.symm.trans h
      exact Inflate.returns_holds hd _ _ _
    · simp only [not_or, not_not, Bool.not_eq_true] at hpre
      obtain ⟨-, d, hst, -, -, -, hsound, -, -, htab⟩ := exec_inStep_completes hd hs hpre.1 hpre.2
      cases hst.symm.trans h
      exact ⟨hsound, htab⟩
  | _ => cases hi

/-- Every step keeps both invariants of the inflate side. -/
theorem step_holds {s t : State} (hd : s.inf.Sound) (h : step s = .next t) : s.inf.Holds t.inf := by
  obtain ⟨hs, h⟩ | ⟨-, -, h⟩ | ⟨hs, -, rfl | ⟨cs, i, hi, h⟩⟩ := step_next h
  · obtain ⟨u, hu, hg⟩ := hd.stepsOn hs
    cases hu.symm.trans h
    exact ⟨hg.sound, hg.tables⟩
  · rw [(stepToken_next h).1]
    exact ⟨hd, id⟩
  · exact ⟨hd, id⟩
  · exact exec_command_holds (s := { s with commands := cs }) hi hd hs h

/-- Settles O58: by the kind of step; inside `Decode()` each step answers a state that may follow. -/
theorem stepKeepsInflateSound : Obligations.StepKeepsInflateSound := by
  unfold Obligations.StepKeepsInflateSound
  intro s hd
  refine ⟨fun t h => (step_holds hd h).1, fun hs => ?_⟩
  obtain ⟨u, hu, -⟩ := hd.stepsOn hs
  exact ⟨_, (step_of_decoding hs).trans hu⟩

/-- Settles O59: by the kind of step; a header builds its tables from checked code lengths. -/
theorem stepKeepsTables : Obligations.StepKeepsTables := by
  unfold Obligations.StepKeepsTables
  intro s t hd ht h
  exact (step_holds hd h).2 ht

end Sys2Proof.Machine
end

section
/-! PROOFS. The encode accumulator: what `putbits`, the flush, the drain and the guard append to the output, composed
over bit groups and over a token (rules R170 to R175, R341, R383). -/

namespace Sys2Proof.Machine

/-- `d'` is `d` after the `n` bits of `v` have been appended to the output, drained or not: nothing but the accumulator,
`OUT` and the sink has changed. -/
structure Deflate.Emits (n v : Nat) (d d' : Deflate) : Prop where
  acc : d'.AccOk
  bits : d'.outBits = d.outBits + n
  num : d'.outNum = d.outNum + 2 ^ d.outBits * v
  willing : d.sink.willing → d'.sink.willing
  same : d' = { d with
    ebits := d'.ebits, ebitLen := d'.ebitLen, oidx := d'.oidx, outBuf := d'.outBuf, sink := d'.sink }

theorem Deflate.Emits.refl {d : Deflate} (h : d.AccOk) : Deflate.Emits 0 0 d d := ⟨h, rfl, by simp, id, rfl⟩

theorem Deflate.Emits.oend {n v : Nat} {d d' : Deflate} (h : Deflate.Emits n v d d') : d'.oend = d.oend := by
  rw [h.same]

theorem Deflate.Emits.trans {n v k w : Nat} {a b c : Deflate} (h1 : Deflate.Emits n v a b) (h2 : Deflate.Emits k w b c) :
    Deflate.Emits (n + k) (v + 2 ^ n * w) a c := by
  refine ⟨h2.acc, by rw [h2.bits, h1.bits, Nat.add_assoc], ?_, fun h => h2.willing (h1.willing h), ?_⟩
  · rw [h2.num, h1.num, h1.bits, Nat.pow_add]
    ring
  · have hs := h2.same
    rw [h1.same] at hs
    exact hs

/-- Appending `x` bytes of `OUT` and moving the rest of the accumulator behind them. -/
theorem Deflate.outNum_of_written {d : Deflate} {m : Memory} {n k v : Nat} {e : Wide}
    (hnew : ∀ j, j < n → m.get? (d.oidx + j) = some (BitVec.ofNat 8 (v / 2 ^ (8 * j))))
    (hold : ∀ a, a < d.oidx → m.get? a = d.outBuf.get? a) :
    Deflate.outNum { d with outBuf := m, oidx := d.oidx + n, ebitLen := k, ebits := e }
      = leValue (d.sink.bytes ++ d.outBuf.window 0 d.oidx)
        + 2 ^ (8 * (d.sink.bytes.length + d.oidx)) * (v % 2 ^ (8 * n) + 2 ^ (8 * n) * e.toNat) := by
  have hwin : m.window d.oidx n = leBytes n v := by
    refine List.ext_getElem (by simp) fun j h1 h2 => ?_
    rw [Cells.window_length] at h1
    rw [leBytes_getElem]
    simp [Cells.window, tabulateFrom_getElem, hnew j h1]
  have hkept : m.window 0 d.oidx = d.outBuf.window 0 d.oidx :=
    Cells.window_congr fun k _ hk => hold k (by omega)
  show leValue (d.sink.bytes ++ m.window 0 (d.oidx + n)) + 2 ^ (8 * (d.sink.bytes.length + (d.oidx + n))) * e.toNat = _
  rw [Cells.window_append, Nat.zero_add, hkept, hwin, ← List.append_assoc, leValue_append, leValue_leBytes,
    List.length_append, Cells.window_length, show 8 * (d.sink.bytes.length + (d.oidx + n))
      = 8 * (d.sink.bytes.length + d.oidx) + 8 * n by ring, Nat.pow_add]
  ring

theorem readable_of_appended {m m0 : Memory} {a n v : Nat} (h0 : m0.readable 0 a)
    (hnew : ∀ j, j < n → m.get? (a + j) = some (BitVec.ofNat 8 (v / 2 ^ (8 * j))))
    (hold : ∀ k, k < a → m.get? k = m0.get? k) : m.readable 0 (a + n) :=
  readable_of_written h0 (fun j hj => by rw [hnew j hj]; rfl) hold

/-- The code above the bits the accumulator holds, in 64 bits. -/
theorem accumulate_toNat {e : Wide} {k code : Nat} (h : e.toNat < 2 ^ k) :
    (e ||| (BitVec.ofNat 64 code <<< k)).toNat = (e.toNat + 2 ^ k * code) % 2 ^ 64 := by
  rw [BitVec.toNat_or, BitVec.toNat_shiftLeft, BitVec.toNat_ofNat, Nat.shiftLeft_eq, ← or_shift_eq_add code h,
    Nat.or_mod_two_pow, Nat.mod_eq_of_lt e.isLt, Nat.shiftLeft_eq, Nat.mod_mul_mod]

/-- `putbits` of a group of up to 64 bits (rules R170, R171). -/
theorem Deflate.putbits_emits {d : Deflate} {code len : Nat} (h : d.AccOk) (hlen : len ≤ 64) (hcode : code < 2 ^ len)
    (hroom : 64 < d.ebitLen + len → d.oidx + 8 ≤ d.oend) :
    ∃ d', d.putbits code len = .ok d' ∧ Deflate.Emits len code d d' ∧ d'.sink = d.sink
      ∧ (d'.oidx = d.oidx ∨ d'.oidx = d.oidx + 8) := by
  have hval := accumulate_toNat (code := code) h.bits
  have hpos := Nat.two_pow_pos d.ebitLen
  have hsum : d.ebits.toNat + 2 ^ d.ebitLen * code < 2 ^ (d.ebitLen + len) :=
    calc d.ebits.toNat + 2 ^ d.ebitLen * code < 2 ^ d.ebitLen + 2 ^ d.ebitLen * code := Nat.add_lt_add_right h.bits _
      _ = 2 ^ d.ebitLen * (code + 1) := by ring
      _ ≤ 2 ^ d.ebitLen * 2 ^ len := Nat.mul_le_mul_left _ hcode
      _ = 2 ^ (d.ebitLen + len) := (Nat.pow_add _ _ _).symm
  unfold Deflate.putbits
  dsimp only
  split
  · rename_i hover
    have hroom := hroom hover
    obtain ⟨m, hm, hnew, hold⟩ := writeLE_spec .out d.oend d.outBuf d.oidx 8
      (d.ebits ||| (BitVec.ofNat 64 code <<< d.ebitLen)).toNat (.inr hroom)
    simp only [hm, except_ok_bind]
    have hshift : len - (d.ebitLen + len - 64) = 64 - d.ebitLen := by have := h.len; omega
    have hcode64 : code < 2 ^ 64 := lt_of_lt_of_le hcode (Nat.pow_le_pow_right (by omega) hlen)
    have hrest : (BitVec.ofNat 64 code >>> (len - (d.ebitLen + len - 64))).toNat
        = (d.ebits.toNat + 2 ^ d.ebitLen * code) / 2 ^ 64 := by
      rw [hshift, BitVec.toNat_ushiftRight, BitVec.toNat_ofNat, Nat.mod_eq_of_lt hcode64, Nat.shiftRight_eq_div_pow]
      rw [show (2 : Nat) ^ 64 = 2 ^ d.ebitLen * 2 ^ (64 - d.ebitLen) by rw [← Nat.pow_add]; congr 1; have := h.len; omega,
        ← Nat.div_div_eq_div_mul, Nat.add_mul_div_left _ _ hpos, Nat.div_eq_of_lt h.bits, Nat.zero_add]
    refine ⟨_, rfl, ⟨⟨?_, ?_, hroom, readable_of_appended h.written hnew fun k hk => hold k (.inl hk)⟩, ?_, ?_, id, rfl⟩,
      rfl, .inr rfl⟩
    · show d.ebitLen + len - 64 ≤ 64
      have := h.len
      omega
    · show (BitVec.ofNat 64 code >>> (len - (d.ebitLen + len - 64))).toNat < 2 ^ (d.ebitLen + len - 64)
      rw [hrest]
      refine Nat.div_lt_of_lt_mul ?_
      rwa [← Nat.pow_add, show 64 + (d.ebitLen + len - 64) = d.ebitLen + len by omega]
    · show 8 * (d.sink.bytes.length + (d.oidx + 8)) + (d.ebitLen + len - 64) = 8 * (d.sink.bytes.length + d.oidx) + d.ebitLen + len
      omega
    · rw [Deflate.outNum_of_written hnew fun a ha => hold a (.inl ha), hval, hrest, Nat.mod_mod, Nat.mod_add_div]
      show _ = leValue _ + 2 ^ (8 * (d.sink.bytes.length + d.oidx)) * d.ebits.toNat
        + 2 ^ (8 * (d.sink.bytes.length + d.oidx) + d.ebitLen) * code
      rw [Nat.pow_add]
      ring
  · rename_i hfit
    have hlt : d.ebits.toNat + 2 ^ d.ebitLen * code < 2 ^ 64 :=
      lt_of_lt_of_le hsum (Nat.pow_le_pow_right (by omega) (by omega))
    rw [Nat.mod_eq_of_lt hlt] at hval
    refine ⟨_, rfl, ⟨⟨by show d.ebitLen + len ≤ 64; omega, ?_, h.cursor, h.written⟩, ?_, ?_, id, rfl⟩, rfl, .inl rfl⟩
    · show (d.ebits ||| _).toNat < 2 ^ (d.ebitLen + len)
      rwa [hval]
    · exact (Nat.add_assoc _ _ _).symm
    · show leValue _ + 2 ^ (8 * (d.sink.bytes.length + d.oidx)) * (d.ebits ||| _).toNat
        = leValue _ + 2 ^ (8 * (d.sink.bytes.length + d.oidx)) * d.ebits.toNat
          + 2 ^ (8 * (d.sink.bytes.length + d.oidx) + d.ebitLen) * code
      rw [hval, Nat.pow_add]
      ring

/-- Settles O13: the group goes above the bits held, and a full accumulator is stored. -/
theorem putbitsAppends : Obligations.PutbitsAppends := by
  unfold Obligations.PutbitsAppends
  intro d code len h hlen hcode hroom
  obtain ⟨d', hp, he, hsink, -⟩ := Deflate.putbits_emits h (by omega) hcode hroom
  refine ⟨d', hp, he.acc, he.bits, he.num, ?_⟩
  have hs := he.same
  rw [hsink] at hs
  exact hs

/-- `flush_to_byte` pads to a byte boundary (rule R173). -/
theorem Deflate.flushToByte_emits {d : Deflate} (h : d.AccOk) (hroom : d.oidx + 8 ≤ d.oend) :
    ∃ d', d.flushToByte = .ok d' ∧ Deflate.Emits (8 * ((d.ebitLen + 7) / 8) - d.ebitLen) 0 d d' ∧ d'.sink = d.sink
      ∧ d'.ebits = 0 ∧ d'.ebitLen = 0 := by
  have hlen := h.len
  obtain ⟨m, hm, hnew, hold⟩ := writeLE_spec .out d.oend d.outBuf d.oidx ((d.ebitLen + 7) / 8) d.ebits.toNat
    (.inr (by omega))
  have hfit : d.ebits.toNat % 2 ^ (8 * ((d.ebitLen + 7) / 8)) = d.ebits.toNat :=
    Nat.mod_eq_of_lt (lt_of_lt_of_le h.bits (Nat.pow_le_pow_right (by omega) (by omega)))
  simp only [Deflate.flushToByte, hm, except_ok_bind]
  refine ⟨_, rfl, ⟨⟨Nat.zero_le _, Nat.one_pos, by show d.oidx + _ ≤ d.oend; omega,
    readable_of_appended h.written hnew fun k hk => hold k (.inl hk)⟩, ?_, ?_, id, rfl⟩, rfl, rfl, rfl⟩
  · show 8 * (d.sink.bytes.length + (d.oidx + (d.ebitLen + 7) / 8)) + 0 = 8 * (d.sink.bytes.length + d.oidx) + d.ebitLen + _
    omega
  · rw [Deflate.outNum_of_written hnew fun a ha => hold a (.inl ha), hfit]
    simp [Deflate.outNum]

theorem Deflate.outBits_mod (d : Deflate) : (d.outBits + 7) / 8 = d.sink.bytes.length + d.oidx + (d.ebitLen + 7) / 8 := by
  unfold Deflate.outBits
  omega

/-- Settles O14: the accumulator's bytes are stored, zeros above its bits. -/
theorem flushPadsToByte : Obligations.FlushPadsToByte := by
  unfold Obligations.FlushPadsToByte
  intro d h hroom
  obtain ⟨d', hf, he, hsink, h0, h1⟩ := Deflate.flushToByte_emits h hroom
  refine ⟨d', hf, he.acc, ?_, by simpa using he.num, ?_⟩
  · have := he.bits
    rw [this, d.outBits_mod]
    unfold Deflate.outBits
    omega
  · have hs := he.same
    rw [hsink, h0, h1] at hs
    exact hs

/-! ### The drain and the guard -/

/-- Settles O15: by the sink's answer. -/
theorem drainHandsOver : Obligations.DrainHandsOver := by
  unfold Obligations.DrainHandsOver
  intro d hcur hread
  have hr : readBytes .out d.oend d.outBuf 0 d.oidx = .ok (d.outBuf.window 0 d.oidx) :=
    readBytes_readable (.inr (by omega)) (by simpa using hread)
  refine ⟨fun h => ?_, fun r h => ?_, fun e r h => ⟨{ d with
    oidx := 0, sink := { d.sink with answers := r }, outErr := some e }, ?_, rfl, rfl, rfl, rfl⟩⟩
  all_goals simp only [Deflate.drainOut, hr, orDfFault_ok, except_ok_bind, Sink.accept, h]

/-- The drain with a sink that takes everything (rule R174). -/
theorem Deflate.drainOut_emits {d : Deflate} (h : d.AccOk) (hw : d.sink.willing) :
    ∃ d', d.drainOut = .ok d' ∧ Deflate.Emits 0 0 d d' ∧ d'.oidx = 0 ∧ d'.ebitLen = d.ebitLen
      ∧ d'.sink.bytes = d.sink.bytes ++ d.outBuf.window 0 d.oidx := by
  obtain ⟨h1, h2, -⟩ := drainHandsOver d h.cursor h.written
  have key : ∀ r : List (Option Nat), (∀ a ∈ r, a = none) →
      Deflate.Emits 0 0 d { d with oidx := 0, sink := ⟨d.sink.bytes ++ d.outBuf.window 0 d.oidx, r⟩ } := fun r hr =>
    ⟨⟨h.len, h.bits, Nat.zero_le _, fun k _ hk => absurd hk (Nat.not_lt_zero k)⟩, by simp [Deflate.outBits],
      by simp [Deflate.outNum], fun _ => hr, rfl⟩
  cases hans : d.sink.answers with
  | nil => exact ⟨_, h1 hans, key [] (by simp), rfl, rfl, rfl⟩
  | cons a r =>
    have ha : a = none := hw a (by rw [hans]; exact List.mem_cons_self)
    subst ha
    exact ⟨_, h2 r hans, key r fun b hb => hw b (by rw [hans]; exact List.mem_cons_of_mem _ hb), rfl, rfl, rfl⟩

/-- The guard with a sink that takes everything: room for a store (rules R172, R383). -/
theorem Deflate.guardOut_emits {d : Deflate} (h : d.AccOk) (h16 : 16 ≤ d.oend) (hw : d.sink.willing) :
    ∃ d', d.guardOut = .ok d' ∧ Deflate.Emits 0 0 d d' ∧ d'.oidx + 8 ≤ d'.oend := by
  unfold Deflate.guardOut
  split
  · obtain ⟨d', hd, he, h0, -⟩ := Deflate.drainOut_emits h hw
    exact ⟨d', hd, he, by rw [h0, he.oend]; omega⟩
  · exact ⟨d, rfl, .refl h, by omega⟩

theorem Deflate.hput_emits {d : Deflate} {v n : Nat} (h : d.AccOk) (h16 : 16 ≤ d.oend) (hw : d.sink.willing)
    (hn : n ≤ 64) (hv : v < 2 ^ n) : ∃ d', d.hput v n = .ok d' ∧ Deflate.Emits n v d d' := by
  obtain ⟨e, hg, he, hroom⟩ := Deflate.guardOut_emits h h16 hw
  obtain ⟨d', hp, hd, -⟩ := Deflate.putbits_emits he.acc hn hv fun _ => hroom
  refine ⟨d', by simp only [Deflate.hput, hg, except_ok_bind, hp, orDfFault_ok], ?_⟩
  simpa using he.trans hd

/-- Groups written one after the other (rules R175, R364). -/
theorem Deflate.hputAll_emits {gs : List (Nat × Nat)} (hgs : ∀ g ∈ gs, g.2 ≤ 64 ∧ g.1 < 2 ^ g.2) {d : Deflate} (h : d.AccOk)
    (h16 : 16 ≤ d.oend) (hw : d.sink.willing) :
    ∃ d', Deflate.hputAll gs d = .ok d' ∧ Deflate.Emits (groupsBits gs) (groupsNum gs) d d' := by
  induction gs generalizing d with
  | nil => exact ⟨d, rfl, .refl h⟩
  | cons g gs ih =>
    obtain ⟨hn, hv⟩ := hgs g List.mem_cons_self
    obtain ⟨e, hp, he⟩ := Deflate.hput_emits h h16 hw hn hv
    obtain ⟨d', hd, hr⟩ := ih (fun g hg => hgs g (List.mem_cons_of_mem _ hg)) he.acc (he.oend.symm ▸ h16) (he.willing hw)
    refine ⟨d', by simp only [Deflate.hputAll, hp, except_ok_bind, hd], ?_⟩
    have hall := he.trans hr
    simpa only [groupsBits, List.map_cons, List.sum_cons, groupsNum] using hall

/-- The guarded flush (rules R383, R388, R389). -/
theorem Deflate.hflush_emits {d : Deflate} (h : d.AccOk) (h16 : 16 ≤ d.oend) (hw : d.sink.willing) :
    ∃ d' n, d.hflush = .ok d' ∧ Deflate.Emits n 0 d d' ∧ d'.ebits = 0 ∧ d'.ebitLen = 0
      ∧ d'.outBits = 8 * ((d.outBits + 7) / 8) := by
  obtain ⟨e, hg, he, hroom⟩ := Deflate.guardOut_emits h h16 hw
  obtain ⟨d', hf, hd, -, h0, h1⟩ := Deflate.flushToByte_emits he.acc hroom
  refine ⟨d', _, by simp only [Deflate.hflush, hg, except_ok_bind, hf, orDfFault_ok], by simpa using he.trans hd, h0, h1, ?_⟩
  have hb := he.bits
  rw [Nat.add_zero] at hb
  rw [hd.bits, ← hb, e.outBits_mod]
  unfold Deflate.outBits
  omega

/-- What has been written is at the sink once the accumulator is empty and `OUT` drained. -/
theorem Deflate.sink_of_drained {d : Deflate} (h : d.AccOk) (h0 : d.oidx = 0) (h1 : d.ebitLen = 0) :
    d.sink.bytes = leBytes (d.outBits / 8) d.outNum ∧ d.outBits = 8 * d.sink.bytes.length := by
  have hbits : d.outBits = 8 * d.sink.bytes.length := by rw [Deflate.outBits, h0, h1]; rfl
  have hzero : d.ebits.toNat = 0 := by
    have := h.bits
    rw [h1] at this
    omega
  have hnum : d.outNum = leValue d.sink.bytes := by simp [Deflate.outNum, h0, hzero]
  refine ⟨?_, hbits⟩
  rw [hnum, hbits, Nat.mul_div_cancel_left _ (by omega)]
  exact (leBytes_leValue _).symm

/-- Settles O16: the groups, the flush and the drain each append what they are to append. -/
theorem outputIsBitExact : Obligations.OutputIsBitExact := by
  unfold Obligations.OutputIsBitExact
  intro d gs h h16 hw hgs
  obtain ⟨d1, hp, h1⟩ := Deflate.hputAll_emits (fun g hg => ⟨(hgs g hg).1.trans (by omega), (hgs g hg).2⟩) h h16 hw
  obtain ⟨d2, n, hf, h2, -, hlen, hbits⟩ := Deflate.hflush_emits h1.acc (h1.oend.symm ▸ h16) (h1.willing hw)
  obtain ⟨d3, hd, h3, h0, hlen3, -⟩ := Deflate.drainOut_emits h2.acc (h2.willing (h1.willing hw))
  obtain ⟨hsink, hlast⟩ := Deflate.sink_of_drained h3.acc h0 (hlen3.trans hlen)
  refine ⟨d1, d2, d3, hp, hf, hd, h1.bits, h1.num, ?_, h0, hlen3.trans hlen⟩
  have hb : d3.outBits = 8 * ((d.outBits + groupsBits gs + 7) / 8) := by rw [h3.bits, Nat.add_zero, hbits, h1.bits]
  have hn : d3.outNum = d.outNum + 2 ^ d.outBits * groupsNum gs := by rw [h3.num, h2.num, h1.num]; simp
  rw [hsink, hb, hn, Nat.mul_div_cancel_left _ (by omega)]

/-! ### Tokens -/

/-- A token's three groups (rules R341, R342, R345). -/
theorem Deflate.encodeToken_emits {d : Deflate} {litlen dist extra : Nat} {r q : Word} (h : d.AccOk)
    (hroom : d.oidx + 8 ≤ d.oend) (hr : r = d.litCodes.slot litlen) (hq : q = d.distCodes.slot dist)
    (h1 : litSlotCode r < 2 ^ slotLen r) (h2 : distSlotCode q < 2 ^ slotLen q) (h3 : extra < 2 ^ distSlotExtra q)
    (h64 : slotLen r + slotLen q + distSlotExtra q ≤ 64) :
    ∃ d', d.encodeToken litlen dist extra = .ok d' ∧ d'.sink = d.sink
      ∧ Deflate.Emits (slotLen r + (slotLen q + distSlotExtra q))
        (litSlotCode r + 2 ^ slotLen r * (distSlotCode q + 2 ^ slotLen q * extra)) { d with tokNext := d.tokNext + 1 } d' := by
  subst hr hq
  have hlen := h.len
  obtain ⟨a, ha, hea, hsa, hia⟩ := Deflate.putbits_emits (d := { d with tokNext := d.tokNext + 1 })
    ⟨h.len, h.bits, h.cursor, h.written⟩ (by omega) h1 fun _ => hroom
  have hba : 8 * (a.sink.bytes.length + a.oidx) + a.ebitLen
      = 8 * (d.sink.bytes.length + d.oidx) + d.ebitLen + slotLen (d.litCodes.slot litlen) := hea.bits
  have hsa' : a.sink = d.sink := hsa
  rw [hsa'] at hba
  have hia' : a.oidx = d.oidx ∨ a.oidx = d.oidx + 8 := hia
  have hoa : a.oend = d.oend := hea.oend
  obtain ⟨b, hb, heb, hsb, hib⟩ := Deflate.putbits_emits hea.acc (by omega) h2 fun _ => by omega
  have hbb := heb.bits
  unfold Deflate.outBits at hbb
  rw [hsb] at hbb
  have hob := heb.oend
  obtain ⟨c, hc, hec, hsc, -⟩ := Deflate.putbits_emits heb.acc (by omega) h3 fun _ => by omega
  refine ⟨c, ?_, hsc.trans (hsb.trans hsa'), hea.trans (heb.trans hec)⟩
  unfold Deflate.encodeToken
  dsimp only
  rw [ha, except_ok_bind, hb, except_ok_bind, hc]

theorem exec_token {s : State} {i : Instr} {litlen dist extra : Nat}
    (hi : (∃ b, i = .tlit b ∧ litlen = b.toNat ∧ dist = 30 ∧ extra = 0) ∨ (i = .teob ∧ litlen = 256 ∧ dist = 30 ∧ extra = 0)
      ∨ ∃ l d x, i = .tmatch l d x ∧ litlen = l.toNat ∧ dist = d.toNat ∧ extra = x.toNat) :
    exec i s = s.onDf (s.df.encodeToken litlen dist extra) := by
  obtain ⟨b, rfl, rfl, rfl, rfl⟩ | ⟨rfl, rfl, rfl, rfl⟩ | ⟨l, d, x, rfl, rfl, rfl, rfl⟩ := hi
  · rfl
  · rfl
  · rfl

/-- Settles O46: the three groups of the token, one `putbits` each. -/
theorem tokensEmitBits : Obligations.TokensEmitBits := by
  unfold Obligations.TokensEmitBits
  intro s i litlen dist extra r q hi h hroom hr hq h1 h2 h3 h64
  obtain ⟨d, hd, hsink, he⟩ := Deflate.encodeToken_emits h hroom hr hq h1 h2 h3 h64
  refine ⟨d, by rw [exec_token hi, hd, State.onDf_ok], he.acc, ?_, he.num, ?_⟩
  · rw [Nat.add_assoc]
    exact he.bits
  · have hs := he.same
    rw [hsink] at hs
    exact hs

end Sys2Proof.Machine
end

section
/-! PROOFS. The code slots built from the records, and the run-length code of a header's lengths (rules R344, R358 to
R361). -/

namespace Sys2Proof.Machine

/-! ### Code slots -/

theorem slotsFrom_lookup (i : Nat) (vs : List Word) {a : Nat} (h : i ≤ a) :
    (Cells.lookup (slotsFrom i vs) a).getD 0 = vs.getD (a - i) 0 := by
  induction vs generalizing i with
  | nil => rfl
  | cons v vs ih =>
    have hbelow := Cells.lookup_below (slotsFrom_rising (i + 1) vs).1 (Nat.lt_succ_self i)
    obtain rfl | hlt := Nat.eq_or_lt_of_le h
    · rw [Nat.sub_self, List.getD_cons_zero, slotsFrom]
      split
      · rename_i hv
        rw [hbelow, hv]
        rfl
      · rw [Cells.lookup, if_pos rfl]
        rfl
    · obtain ⟨k, rfl⟩ := Nat.exists_eq_add_of_lt hlt
      have hrest := ih (i + 1) (by omega)
      rw [show i + k + 1 - (i + 1) = k by omega] at hrest
      rw [show i + k + 1 - i = k + 1 by omega, List.getD_cons_succ, slotsFrom]
      split
      · exact hrest
      · rw [Cells.lookup, if_neg (by omega), if_neg (by omega)]
        exact hrest

/-- A slot of a table built from a list. -/
theorem slotsFrom_slot (vs : List Word) (a : Nat) : (⟨slotsFrom 0 vs⟩ : Cells 32).slot a = vs.getD a 0 :=
  slotsFrom_lookup 0 vs (Nat.zero_le a)

theorem getD_append_left {α : Type} (as bs : List α) (d : α) {i : Nat} (h : i < as.length) :
    (as ++ bs).getD i d = as.getD i d := by
  simp [List.getD, List.getElem?_append_left h]

theorem getD_append_right {α : Type} (as bs : List α) (d : α) {i k : Nat} (h : i = as.length + k) :
    (as ++ bs).getD i d = bs.getD k d := by
  subst h
  simp [List.getD, List.getElem?_append_right]

theorem tabulateFrom_getD {α : Type} (f : Nat → α) (d : α) (n i : Nat) {j : Nat} (h : j < n) :
    (tabulateFrom f n i).getD j d = f (i + j) := by
  rw [List.getD_eq_getElem _ _ (by simpa using h), tabulateFrom_getElem]

/-- Settles O47: each slot by where it stands in the lists the slots are built from. -/
theorem codesFromRecords : Obligations.CodesFromRecords := by
  unfold Obligations.CodesFromRecords
  intro d recLL recD hLL hD
  have hlen : (recLL.take 257).length = 257 := by rw [List.length_take, hLL]; rfl
  refine ⟨fun i hi => ?_, fun len h1 h2 => ?_, fun k hk => ?_, ?_⟩
  · refine (slotsFrom_slot _ i).trans ?_
    rw [getD_append_left _ _ _ (by omega)]
    simp [List.getD, show i < 257 by omega]
  · refine (slotsFrom_slot _ _).trans ?_
    rw [getD_append_right _ _ _ (k := len - 3) (by omega), tabulateFrom_getD _ _ _ _ (by omega),
      show 3 + (len - 3) = len by omega]
    rfl
  · exact (slotsFrom_slot _ k).trans (tabulate_getD _ _ hk)
  · refine (slotsFrom_slot _ 30).trans ?_
    rw [List.getD_eq_default]
    simp [tabulate]

/-! ### Run lengths -/

theorem expandRleSymbol_length {v : Nat} (hv : v < 16) (acc : List Nat) (x n : Nat) :
    expandRleSymbol acc (v, x, n) = acc ++ [v] := if_pos hv

theorem expandRleSymbol_copies (acc : List Nat) (x n : Nat) :
    expandRleSymbol acc (16, x, n) = acc ++ List.replicate (3 + x) (acc.getLastD 0) := rfl

theorem expandRleSymbol_zeros3 (acc : List Nat) (x n : Nat) :
    expandRleSymbol acc (17, x, n) = acc ++ List.replicate (3 + x) 0 := rfl

theorem expandRleSymbol_zeros11 (acc : List Nat) (x n : Nat) :
    expandRleSymbol acc (18, x, n) = acc ++ List.replicate (11 + x) 0 := rfl

theorem foldl_expand_replicate (v n : Nat) (hv : v < 16) (acc : List Nat) :
    (List.replicate n ((v, 0, 0) : Rle)).foldl expandRleSymbol acc = acc ++ List.replicate n v := by
  induction n generalizing acc with
  | zero => simp
  | succ n ih =>
    rw [List.replicate_succ, List.foldl_cons, ih, expandRleSymbol_length hv, List.append_assoc]
    rfl

theorem foldl_expand_rleZeros {fuel r : Nat} (h : r ≤ fuel) (acc : List Nat) :
    (rleZeros fuel r).foldl expandRleSymbol acc = acc ++ List.replicate r 0 := by
  induction fuel generalizing r acc with
  | zero => rw [Nat.le_zero.1 h]; simp [rleZeros]
  | succ fuel ih =>
    rw [rleZeros]
    split
    · rw [List.foldl_cons, ih (by omega), expandRleSymbol_zeros11,
        List.append_assoc, List.replicate_append_replicate, show 11 + 127 + (r - 138) = r by omega]
    · split
      · rw [List.foldl_cons, List.foldl_nil, expandRleSymbol_zeros11,
          show 11 + (r - 11) = r by omega]
      · split
        · rw [List.foldl_cons, List.foldl_nil, expandRleSymbol_zeros3,
            show 3 + (r - 3) = r by omega]
        · exact foldl_expand_replicate 0 r (by decide) acc

/-- The rest of a run behind a length of its value. -/
theorem foldl_expand_rleCopies {v fuel rem : Nat} (hv : v < 16) (h : rem ≤ fuel) {acc : List Nat}
    (hlast : acc.getLastD 0 = v) : (rleCopies v fuel rem).foldl expandRleSymbol acc = acc ++ List.replicate rem v := by
  induction fuel generalizing rem acc with
  | zero => rw [Nat.le_zero.1 h]; simp [rleCopies]
  | succ fuel ih =>
    rw [rleCopies]
    split
    · rw [List.foldl_cons, expandRleSymbol_copies, hlast, ih (by omega) (by simp), List.append_assoc,
        List.replicate_append_replicate, show 3 + 3 + (rem - 6) = rem by omega]
    · split
      · rw [List.foldl_cons, List.foldl_nil, expandRleSymbol_copies, hlast,
          show 3 + (rem - 3) = rem by omega]
      · exact foldl_expand_replicate v rem hv acc

theorem foldl_expand_rleRun {v n : Nat} (hv : v < 16) (hn : 1 ≤ n) (acc : List Nat) :
    (rleRun (v, n)).foldl expandRleSymbol acc = acc ++ List.replicate n v := by
  rw [rleRun]
  split
  · rename_i h0
    rw [show v = 0 from h0]
    exact foldl_expand_rleZeros (le_refl _) acc
  · rw [List.foldl_cons, expandRleSymbol_length hv, foldl_expand_rleCopies hv (Nat.sub_le _ _) (by simp), List.append_assoc,
      ← List.replicate_one, List.replicate_append_replicate, show 1 + (n - 1) = n by omega]

/-- The runs of a sequence, one after the other, are the sequence. -/
theorem maximalRuns_spec (seq : List Nat) : (maximalRuns seq).flatMap (fun r => List.replicate r.2 r.1) = seq
    ∧ ∀ r ∈ maximalRuns seq, r.1 ∈ seq ∧ 1 ≤ r.2 := by
  induction seq with
  | nil => exact ⟨rfl, by simp [maximalRuns]⟩
  | cons v vs ih =>
    obtain ⟨hflat, hmem⟩ := ih
    rw [maximalRuns]
    split
    · rename_i hruns
      rw [hruns] at hflat
      rw [← hflat]
      exact ⟨rfl, by simp⟩
    · rename_i u r rs hruns
      rw [hruns, List.flatMap_cons] at hflat
      rw [hruns] at hmem
      split
      · rename_i huv
        subst huv
        refine ⟨by rw [List.flatMap_cons, List.replicate_succ, List.cons_append, hflat], fun x hx => ?_⟩
        obtain rfl | hx := List.mem_cons.1 hx
        · exact ⟨List.mem_cons_self, Nat.succ_pos _⟩
        · exact ⟨List.mem_cons_of_mem _ (hmem x (List.mem_cons_of_mem _ hx)).1, (hmem x (List.mem_cons_of_mem _ hx)).2⟩
      · refine ⟨by rw [List.flatMap_cons, List.flatMap_cons, hflat]; rfl, fun x hx => ?_⟩
        obtain rfl | hx := List.mem_cons.1 hx
        · exact ⟨List.mem_cons_self, le_refl _⟩
        · exact ⟨List.mem_cons_of_mem _ (hmem x hx).1, (hmem x hx).2⟩

theorem foldl_expand_runs {runs : List (Nat × Nat)} (h : ∀ r ∈ runs, r.1 < 16 ∧ 1 ≤ r.2) (acc : List Nat) :
    (runs.flatMap rleRun).foldl expandRleSymbol acc = acc ++ runs.flatMap (fun r => List.replicate r.2 r.1) := by
  induction runs generalizing acc with
  | nil => simp
  | cons r rs ih =>
    obtain ⟨hv, hn⟩ := h r List.mem_cons_self
    rw [List.flatMap_cons, List.foldl_append, foldl_expand_rleRun hv hn, ih fun x hx => h x (List.mem_cons_of_mem _ hx),
      List.flatMap_cons, List.append_assoc]

/-- Settles O48: run by run. -/
theorem runLengthsExpand : Obligations.RunLengthsExpand := by
  unfold Obligations.RunLengthsExpand
  intro seq h
  obtain ⟨hflat, hmem⟩ := maximalRuns_spec seq
  rw [expandRle, rleOf, foldl_expand_runs fun r hr => ⟨h _ (hmem r hr).1, (hmem r hr).2⟩, hflat]
  rfl

end Sys2Proof.Machine
end

section
/-! PROOFS. The matcher: whatever the hash table holds, its tokens stand for the window bytes it moves past (rules R310 to
R327). -/

namespace Sys2Proof.Machine

/-! ### What the matcher keeps -/

/-- The window can be read and there may be room for tokens. -/
structure Deflate.Matchable (d : Deflate) : Prop where
  filled : d.winBuf.readable 0 d.wend
  size : d.wend ≤ d.winSize
  reach : d.windowSize ≤ 32768
  cap : d.tokCount ≤ Config.tokenCap

/-- From `d` to `d'` the matcher has moved from window offset `o` to `o'`: the tokens it has appended stand for the bytes in
between. -/
structure Deflate.Covers (o : Nat) (d : Deflate) (o' : Nat) (d' : Deflate) : Prop where
  same : d' = { d with
    tokBuf := d'.tokBuf, tokCount := d'.tokCount, litCodes := d'.litCodes, distCodes := d'.distCodes,
    hashTable := d'.hashTable }
  le : o ≤ o'
  grow : d.tokCount ≤ d'.tokCount
  rate : d'.tokCount + o ≤ d.tokCount + o'
  cap : d'.tokCount ≤ Config.tokenCap
  kept : ∀ k, k < d.tokCount → d'.tokBuf.get? k = d.tokBuf.get? k
  written : ∀ k, d.tokCount ≤ k → k < d'.tokCount → ∃ t, d'.tokBuf.get? k = some t ∧ isToken t
  expands : expandTokens (d.winBuf.window 0 o) (d'.tokBuf.window d.tokCount (d'.tokCount - d.tokCount))
    = d.winBuf.window 0 o'

theorem Deflate.Covers.rehash {o : Nat} {d : Deflate} (h : d.tokCount ≤ Config.tokenCap) (t : Cells 16) :
    Deflate.Covers o d o { d with hashTable := t } :=
  ⟨rfl, le_refl _, le_refl _, le_refl _, h, fun _ _ => rfl, fun _ h1 h2 => absurd h2 (Nat.not_lt.2 h1), by simp [expandTokens]⟩

theorem Deflate.Covers.refl {o : Nat} {d : Deflate} (h : d.tokCount ≤ Config.tokenCap) : Deflate.Covers o d o d :=
  .rehash h d.hashTable

theorem Deflate.Covers.keeps {o o' : Nat} {d d' : Deflate} (h : Deflate.Covers o d o' d') : d'.winBuf = d.winBuf
    ∧ d'.wend = d.wend ∧ d'.winSize = d.winSize ∧ d'.windowSize = d.windowSize ∧ d'.level = d.level := by
  rw [h.same]
  exact ⟨rfl, rfl, rfl, rfl, rfl⟩

theorem Deflate.Covers.matchable {o o' : Nat} {d d' : Deflate} (h : Deflate.Covers o d o' d') (hm : d.Matchable) :
    d'.Matchable := by
  obtain ⟨h1, h2, h3, h4, -⟩ := h.keeps
  exact ⟨by rw [h1, h2]; exact hm.filled, by rw [h2, h3]; exact hm.size, by rw [h4]; exact hm.reach, h.cap⟩

theorem Deflate.Covers.trans {o o1 o2 : Nat} {a b c : Deflate} (h1 : Deflate.Covers o a o1 b) (h2 : Deflate.Covers o1 b o2 c) :
    Deflate.Covers o a o2 c := by
  have hgrow1 := h1.grow
  have hgrow2 := h2.grow
  refine ⟨?_, h1.le.trans h2.le, hgrow1.trans hgrow2, ?_, h2.cap, fun k hk => ?_, fun k hk1 hk2 => ?_, ?_⟩
  · have hs := h2.same
    rw [h1.same] at hs
    exact hs
  · have := h1.rate
    have := h2.rate
    omega
  · rw [h2.kept k (by omega), h1.kept k hk]
  · rcases Nat.lt_or_ge k b.tokCount with hlt | hge
    · rw [h2.kept k hlt]
      exact h1.written k hk1 hlt
    · exact h2.written k hge hk2
  · have hsplit : c.tokBuf.window a.tokCount (c.tokCount - a.tokCount)
        = b.tokBuf.window a.tokCount (b.tokCount - a.tokCount) ++ c.tokBuf.window b.tokCount (c.tokCount - b.tokCount) := by
      rw [show c.tokCount - a.tokCount = (b.tokCount - a.tokCount) + (c.tokCount - b.tokCount) by omega, Cells.window_append,
        show a.tokCount + (b.tokCount - a.tokCount) = b.tokCount by omega]
      congr 1
      exact Cells.window_congr fun k _ hk => h2.kept k (by omega)
    have hexp := h2.expands
    rw [h1.keeps.1] at hexp
    rw [hsplit, expandTokens, List.foldl_append]
    exact (congrArg (fun l => List.foldl expandToken l _) h1.expands).trans hexp

/-! ### One token -/

/-- One token stored that stands for the bytes from `o` to `o'`. -/
theorem Deflate.covers_of_stored {d e : Deflate} {o o' : Nat} {t : Word} (hcap : d.tokCount < Config.tokenCap)
    (ht : isToken t) (hlt : o < o') (hexp : expandToken (d.winBuf.window 0 o) t = d.winBuf.window 0 o')
    (he : e = { d with
      tokBuf := d.tokBuf.put d.tokCount t, tokCount := d.tokCount + 1, litCodes := e.litCodes, distCodes := e.distCodes }) :
    Deflate.Covers o d o' e := by
  have hbuf : e.tokBuf = d.tokBuf.put d.tokCount t := by rw [he]
  have hcount : e.tokCount = d.tokCount + 1 := by rw [he]
  refine ⟨?_, hlt.le, by omega, by omega, by omega, fun k hk => ?_, fun k hk1 hk2 => ⟨t, ?_, ht⟩, ?_⟩
  · rw [he]
  · rw [hbuf, Cells.get_put_other _ _ (by omega)]
  · rw [hbuf, show k = d.tokCount by omega, Cells.get_put_same]
  · rw [hbuf, hcount, Nat.add_sub_cancel_left, Cells.window_succ, Cells.get_put_same]
    exact hexp

theorem tokenFields {t : Word} {l k x : Nat} (hl : l < 2 ^ 10) (hk : k < 2 ^ 9) (_ : x < 2 ^ 13)
    (h : t.toNat = l + 2 ^ 10 * k + 2 ^ 19 * x) : tokenLitlen t = l ∧ tokenDist t = k ∧ tokenExtra t = x := by
  simp only [tokenLitlen, tokenDist, tokenExtra, field, h, Nat.shiftRight_eq_div_pow]
  omega

theorem expandToken_litToken (out : List Byte) (b : Byte) : expandToken out (litToken b) = out ++ [b] := by
  obtain ⟨h1, h2, -⟩ := tokenFields (t := litToken b) (l := b.toNat) (k := 30) (x := 0) (by have := b.isLt; omega) (by omega)
    (by omega) (by rw [litToken_toNat]; omega)
  rw [expandToken, h2, if_pos rfl, h1, BitVec.ofNat_toNat, BitVec.setWidth_eq]

theorem expandToken_matchToken {len dist : Nat} (h3 : 3 ≤ len) (h258 : len ≤ 258) (h1 : 1 ≤ dist) (hd : dist ≤ 32768)
    (out : List Byte) : expandToken out (matchToken len dist) = copyBack dist len out := by
  obtain ⟨hl, hs, hx⟩ := matchToken_fields_lt h3 h258 h1 hd
  obtain ⟨e1, e2, e3⟩ := tokenFields hl hs hx (matchToken_toNat h3 h258 h1 hd)
  obtain ⟨hinv, h29, -⟩ := distSym_inverts h1 hd
  have hne : (distSym dist).sym ≠ Config.invalidDist := by
    have : Config.invalidDist = 30 := rfl
    omega
  have hlen : len + 254 - Config.lenOffset = len := Nat.add_sub_cancel _ _
  rw [expandToken, e2, if_neg hne, e1, e3, hinv, hlen]

theorem Cells.window_snoc (m : Memory) (n : Nat) : m.window 0 (n + 1) = m.window 0 n ++ [(m.get? n).getD 0] := by
  rw [Cells.window_append, Nat.zero_add, Cells.window_succ, Cells.window_zero]

/-- A copy back over a window whose bytes repeat at the distance. -/
theorem copyBack_window {m : Memory} {dist : Nat} (h1 : 1 ≤ dist) (n : Nat) {o : Nat} (hd : dist ≤ o)
    (h : ∀ k, k < n → m.get? (o + k - dist) = m.get? (o + k)) :
    copyBack dist n (m.window 0 o) = m.window 0 (o + n) := by
  induction n generalizing o with
  | zero => rfl
  | succ n ih =>
    have hbyte : (m.window 0 o).getD ((m.window 0 o).length - dist) 0 = (m.get? o).getD 0 := by
      rw [Cells.window_length, Cells.window, tabulateFrom_getD _ _ _ _ (by omega), Nat.zero_add]
      have := h 0 (Nat.succ_pos n)
      rw [Nat.add_zero] at this
      rw [this]
    rw [copyBack, hbyte, ← Cells.window_snoc, ih (by omega) fun k hk => ?_, show o + 1 + n = o + (n + 1) by omega]
    have := h (k + 1) (by omega)
    rwa [show o + (k + 1) = o + 1 + k by omega] at this

theorem isToken_litToken (b : Byte) : isToken (litToken b) := ⟨_, decode_litToken b⟩

theorem Deflate.storeToken_of_room {d : Deflate} (t : Word) (h : d.tokCount < Config.tokenCap) :
    d.storeToken t = .ok { d with tokBuf := d.tokBuf.put d.tokCount t, tokCount := d.tokCount + 1 } := by
  rw [Deflate.storeToken_ok]
  exact ⟨lt_trans h (by decide), rfl⟩

/-- A literal of the window. -/
theorem Deflate.emitWinByte_covers {d : Deflate} {o : Nat} (hm : d.Matchable) (ho : o < d.wend)
    (hcap : d.tokCount < Config.tokenCap) : ∃ d', d.emitWinByte o = .ok d' ∧ Deflate.Covers o d (o + 1) d' := by
  have hread : readCell .win d.winSize d.winBuf o = .ok ((d.winBuf.get? o).getD 0) :=
    readCell_readable (lt_of_lt_of_le ho hm.size) (hm.filled o (Nat.zero_le o) ho)
  refine ⟨Deflate.countLit { d with
      tokBuf := d.tokBuf.put d.tokCount (litToken ((d.winBuf.get? o).getD 0)), tokCount := d.tokCount + 1 } _,
    by simp only [Deflate.emitWinByte, hread, except_ok_bind, Deflate.emitLiteral, Deflate.storeToken_of_room _ hcap]; rfl,
    Deflate.covers_of_stored hcap (isToken_litToken _) (Nat.lt_succ_self o) ?_ rfl⟩
  rw [expandToken_litToken, Cells.window_snoc]

/-- The bytes from `o` on repeat those `dist` before, for `n` bytes. -/
def Deflate.Repeats (d : Deflate) (dist o n : Nat) : Prop :=
  1 ≤ dist ∧ dist ≤ 32768 ∧ dist ≤ o ∧ ∀ k, k < n → d.winBuf.get? (o + k - dist) = d.winBuf.get? (o + k)

theorem Deflate.Repeats.drop {d : Deflate} {dist o n : Nat} (h : d.Repeats dist o n) {j : Nat} :
    d.Repeats dist (o + j) (n - j) := by
  obtain ⟨h1, h2, h3, h4⟩ := h
  refine ⟨h1, h2, by omega, fun k hk => ?_⟩
  have := h4 (j + k) (by omega)
  rwa [← Nat.add_assoc] at this

theorem Deflate.Repeats.congr {d e : Deflate} {dist o n : Nat} (h : d.Repeats dist o n) (he : e.winBuf = d.winBuf) :
    e.Repeats dist o n := by
  rw [Deflate.Repeats, he]
  exact h

/-- A match token (rule R321). -/
theorem Deflate.emitMatch_covers {d : Deflate} {o n len dist : Nat} (hcap : d.tokCount < Config.tokenCap)
    (hr : d.Repeats dist o n) (hn : len ≤ n) (h3 : 3 ≤ len) (h258 : len ≤ 258) :
    ∃ d', d.emitMatch len dist = .ok d' ∧ Deflate.Covers o d (o + len) d' := by
  obtain ⟨h1, h2, hd, hrep⟩ := hr
  refine ⟨(Deflate.countLit { d with
      tokBuf := d.tokBuf.put d.tokCount (matchToken len dist), tokCount := d.tokCount + 1 } (lenSym len)).countDist _,
    by simp only [Deflate.emitMatch, Deflate.storeToken_of_room _ hcap, except_ok_bind]; rfl,
    Deflate.covers_of_stored hcap ⟨_, decode_matchToken h3 h258 h1 h2⟩ (by omega) ?_ rfl⟩
  rw [expandToken_matchToken h3 h258 h1 h2, copyBack_window h1 len hd fun k hk => hrep k (by omega)]

/-! ### Matches -/

theorem Deflate.emitLong_covers {matchLen dist fuel n o : Nat} {d : Deflate} (hcap : d.tokCount ≤ Config.tokenCap)
    (hr : d.Repeats dist o (matchLen - n)) (hn : n ≤ matchLen) : ∃ n' d', Deflate.emitLong matchLen dist fuel n d = .ok (n', d')
      ∧ n ≤ n' ∧ n' ≤ matchLen ∧ Deflate.Covers o d (o + (n' - n)) d' := by
  induction fuel generalizing n o d with
  | zero => exact ⟨n, d, rfl, le_refl _, hn, by rw [Nat.sub_self]; exact .refl hcap⟩
  | succ fuel ih =>
    have hmax : Config.maxMatch = 258 := rfl
    unfold Deflate.emitLong
    split
    · rename_i hc
      obtain ⟨e, he, hce⟩ := Deflate.emitMatch_covers (len := 258) hc.2 hr hc.1 (by omega) (by omega)
      obtain ⟨n', d', hl, h1, h2, hcov⟩ := ih (n := n + 258) (o := o + 258) hce.cap
        (by rw [← Nat.sub_sub]; exact (hr.drop (j := 258)).congr hce.keeps.1) (by omega)
      refine ⟨n', d', ?_, by omega, h2, ?_⟩
      · rw [hmax, he, except_ok_bind]
        exact hl
      · rw [show o + (n' - n) = o + 258 + (n' - (n + 258)) by omega]
        exact hce.trans hcov
    · exact ⟨n, d, rfl, le_refl _, hn, by rw [Nat.sub_self]; exact .refl hcap⟩

theorem Deflate.emitMatches_covers {matchLen dist o : Nat} {d : Deflate} (hcap : d.tokCount ≤ Config.tokenCap)
    (hr : d.Repeats dist o matchLen) : ∃ n d', d.emitMatches matchLen dist = .ok (n, d') ∧ n ≤ matchLen
      ∧ Deflate.Covers o d (o + n) d' := by
  obtain ⟨n, e, he, -, hn, hce⟩ := Deflate.emitLong_covers (fuel := matchLen) (n := 0) hcap hr (Nat.zero_le _)
  rw [Nat.sub_zero] at hce
  simp only [Deflate.emitMatches, he, except_ok_bind]
  have hmax : Config.maxMatch = 258 := rfl
  split
  · rename_i hc
    obtain ⟨d', hd, hcd⟩ := Deflate.emitMatch_covers (o := o + n) hc.2.2 ((hr.drop (j := n)).congr hce.keeps.1) (le_refl _)
      hc.1 (by omega)
    exact ⟨n + (matchLen - n), d', by rw [hd, except_ok_bind], by omega, by rw [← Nat.add_assoc]; exact hce.trans hcd⟩
  · exact ⟨n, e, rfl, hn, hce⟩

/-! ### Hashing -/

theorem readLE_window {d : Deflate} (hm : d.Matchable) {p n : Nat} (h : p + n ≤ d.wend) :
    readLE .win d.winSize d.winBuf p n = .ok (leValue (d.winBuf.window p n)) := by
  have hr : readBytes .win d.winSize d.winBuf p n = .ok (d.winBuf.window p n) :=
    readBytes_readable (.inr (h.trans hm.size)) fun k _ hk => hm.filled k (Nat.zero_le _) (by omega)
  simp only [readLE, hr, except_ok_bind]

theorem Deflate.hashIndex_total {d : Deflate} (hm : d.Matchable) {p : Nat} (h : p + 4 ≤ d.wend) :
    ∃ i, d.hashIndex p = .ok i := by
  refine ⟨hash4 (leValue (d.winBuf.window p 4)) &&& d.hashMask, ?_⟩
  simp only [Deflate.hashIndex, readLE_window hm h, except_ok_bind]

theorem Deflate.enterHash_covers {d : Deflate} (hm : d.Matchable) (relative : Int) {p o : Nat} (h : p + 4 ≤ d.wend) :
    ∃ d', Deflate.enterHash relative p d = .ok d' ∧ Deflate.Covers o d o d' := by
  obtain ⟨i, hi⟩ := Deflate.hashIndex_total hm h
  exact ⟨{ d with hashTable := d.hashTable.setSlot i (fingerprint relative p) },
    by simp only [Deflate.enterHash, hi, except_ok_bind], .rehash hm.cap _⟩

theorem Deflate.updateHash3_covers {d : Deflate} (hm : d.Matchable) (relative : Int) {offset o : Nat}
    (h : offset + 7 ≤ d.wend) : ∃ d', Deflate.updateHash3 relative offset d = .ok d' ∧ Deflate.Covers o d o d' := by
  obtain ⟨a, ha, hca⟩ := Deflate.enterHash_covers (o := o) hm relative (p := offset + 1) (by omega)
  have hma := hca.matchable hm
  have hwa := hca.keeps.2.1
  obtain ⟨b, hb, hcb⟩ := Deflate.enterHash_covers (o := o) hma relative (p := offset + 2) (by omega)
  have hmb := hcb.matchable hma
  have hwb := hcb.keeps.2.1
  obtain ⟨c, hc, hcc⟩ := Deflate.enterHash_covers (o := o) hmb relative (p := offset + 3) (by omega)
  exact ⟨c, by simp only [Deflate.updateHash3, ha, hb, hc, except_ok_bind], (hca.trans hcb).trans hcc⟩

/-- The candidate a position's slot gives (rules R312 to R315). -/
theorem Deflate.candidate_covers {d : Deflate} (hm : d.Matchable) (relative : Int) {o : Nat} (h : o + 4 ≤ d.wend) :
    ∃ c d', Deflate.candidate relative o d = .ok (c, d') ∧ Deflate.Covers o d o d'
      ∧ ∀ dist, c = some dist → 1 ≤ dist ∧ dist ≤ 32768 ∧ dist ≤ o := by
  obtain ⟨i, hi⟩ := Deflate.hashIndex_total hm h
  unfold Deflate.candidate
  simp only [hi, except_ok_bind]
  split
  · rename_i hc
    refine ⟨_, _, rfl, .rehash hm.cap _, fun dist hd => ?_⟩
    cases hd
    exact ⟨hc.1, hc.2.1.trans hm.reach, hc.2.2⟩
  · exact ⟨none, _, rfl, .rehash hm.cap _, fun _ hd => by cases hd⟩

/-! ### Match lengths -/

theorem ctzUpTo_dvd (n v : Nat) : 2 ^ ctzUpTo n v ∣ v := by
  induction n generalizing v with
  | zero => simp [ctzUpTo]
  | succ n ih =>
    rw [ctzUpTo]
    split
    · simp
    · rename_i hodd
      rw [Nat.pow_succ, Nat.mul_comm]
      have := Nat.mul_dvd_mul_left 2 (ih (v / 2))
      rwa [show 2 * (v / 2) = v by omega] at this

theorem ctzUpTo_le (n v : Nat) : ctzUpTo n v ≤ n := by
  induction n generalizing v with
  | zero => exact le_refl _
  | succ n ih =>
    rw [ctzUpTo]
    split
    · exact Nat.zero_le _
    · exact Nat.succ_le_succ (ih _)

theorem mod_eq_of_xor_dvd {u v k : Nat} (h : 2 ^ k ∣ u ^^^ v) : u % 2 ^ k = v % 2 ^ k := by
  have h0 : (u ^^^ v) % 2 ^ k = 0 := Nat.mod_eq_zero_of_dvd h
  rw [Nat.xor_mod_two_pow] at h0
  exact Nat.xor_eq_zero_iff.1 h0

/-- The bytes that the trailing zeros of the difference of two 8-byte values count are equal (rule R316). -/
theorem window_eq_of_ctz {m : Memory} {a b j : Nat} {x : Wide}
    (hx : x = BitVec.ofNat 64 (leValue (m.window a 8)) ^^^ BitVec.ofNat 64 (leValue (m.window b 8)))
    (hj : j < if x = 0 then 8 else ctz64 x / 8) (h8 : j < 8) : (m.get? (a + j)).getD 0 = (m.get? (b + j)).getD 0 := by
  have hu := leValue_lt (m.window a 8)
  have hv := leValue_lt (m.window b 8)
  rw [Cells.window_length] at hu hv
  have hnat : x.toNat = leValue (m.window a 8) ^^^ leValue (m.window b 8) := by
    rw [hx, BitVec.toNat_xor, BitVec.toNat_ofNat, BitVec.toNat_ofNat, Nat.mod_eq_of_lt hu, Nat.mod_eq_of_lt hv]
  have hdvd : 2 ^ (8 * (j + 1)) ∣ leValue (m.window a 8) ^^^ leValue (m.window b 8) := by
    rw [← hnat]
    split at hj
    · rename_i h0
      rw [h0]
      exact dvd_zero _
    · refine (Nat.pow_dvd_pow 2 ?_).trans (ctzUpTo_dvd 64 x.toNat)
      have : ctz64 x = ctzUpTo 64 x.toNat := rfl
      omega
  have hbyte := byte_of_mod (mod_eq_of_xor_dvd hdvd)
  rw [byte_of_leValue (by simpa using h8), byte_of_leValue (by simpa using h8)] at hbyte
  simpa [Cells.window, tabulateFrom_getElem] using hbyte

theorem Deflate.compareFrom_spec {d : Deflate} (hm : d.Matchable) (n : Nat) {a b : Nat} (ha : a + n ≤ d.wend)
    (hb : b + n ≤ d.wend) : ∃ c, d.compareFrom n a b = .ok c ∧ c ≤ n
      ∧ ∀ k, k < c → (d.winBuf.get? (a + k)).getD 0 = (d.winBuf.get? (b + k)).getD 0 := by
  induction n generalizing a b with
  | zero => exact ⟨0, rfl, le_refl _, fun k hk => absurd hk (Nat.not_lt_zero k)⟩
  | succ n ih =>
    have hread : ∀ p, p < d.wend → readCell .win d.winSize d.winBuf p = .ok ((d.winBuf.get? p).getD 0) := fun p hp =>
      readCell_readable (lt_of_lt_of_le hp hm.size) (hm.filled p (Nat.zero_le p) hp)
    simp only [Deflate.compareFrom, hread a (by omega), hread b (by omega), except_ok_bind]
    split
    · rename_i heq
      obtain ⟨c, hc, hle, hall⟩ := ih (a := a + 1) (b := b + 1) (by omega) (by omega)
      refine ⟨c + 1, by rw [hc, except_ok_bind], by omega, fun k hk => ?_⟩
      cases k with
      | zero => exact heq
      | succ k =>
        have := hall k (by omega)
        rwa [show a + 1 + k = a + (k + 1) by omega, show b + 1 + k = b + (k + 1) by omega] at this
    · exact ⟨0, rfl, Nat.zero_le _, fun k hk => absurd hk (Nat.not_lt_zero k)⟩

theorem Deflate.readable_eq {d : Deflate} (hm : d.Matchable) {a b : Nat} (ha : a < d.wend) (hb : b < d.wend)
    (h : (d.winBuf.get? a).getD 0 = (d.winBuf.get? b).getD 0) : d.winBuf.get? a = d.winBuf.get? b := by
  obtain ⟨x, hx⟩ := Option.isSome_iff_exists.1 (hm.filled a (Nat.zero_le a) ha)
  obtain ⟨y, hy⟩ := Option.isSome_iff_exists.1 (hm.filled b (Nat.zero_le b) hb)
  rw [hx, hy] at h ⊢
  exact congrArg some h

/-- `MatchLength` counts equal bytes (rules R316, R317). -/
theorem Deflate.matchLength_spec {d : Deflate} (hm : d.Matchable) {o dist : Nat} (h1 : 1 ≤ dist) (h2 : dist ≤ 32768)
    (hd : dist ≤ o) (ho : o + 8 ≤ d.wend) : ∃ n, d.matchLength (o - dist) o = .ok n ∧ o + n ≤ d.wend ∧ d.Repeats dist o n := by
  obtain ⟨x, hx⟩ : ∃ x : Wide, x = BitVec.ofNat 64 (leValue (d.winBuf.window (o - dist) 8))
      ^^^ BitVec.ofNat 64 (leValue (d.winBuf.window o 8)) := ⟨_, rfl⟩
  obtain ⟨m, hmx⟩ : ∃ m, m = if x = 0 then 8 else ctz64 x / 8 := ⟨_, rfl⟩
  have hfirst : ∀ k, k < m → k < 8 → (d.winBuf.get? (o - dist + k)).getD 0 = (d.winBuf.get? (o + k)).getD 0 :=
    fun k hk h8 => window_eq_of_ctz hx (hmx ▸ hk) h8
  have hrepeats : ∀ n, o + n ≤ d.wend → (∀ k, k < n → (d.winBuf.get? (o - dist + k)).getD 0 = (d.winBuf.get? (o + k)).getD 0) →
      d.Repeats dist o n := fun n hn hall => ⟨h1, h2, hd, fun k hk => by
    rw [show o + k - dist = o - dist + k by omega]
    exact Deflate.readable_eq hm (by omega) (by omega) (hall k hk)⟩
  have hle : m ≤ 8 := by
    rw [hmx]
    split
    · exact le_refl _
    · have : ctz64 x ≤ 64 := ctzUpTo_le 64 x.toNat
      omega
  unfold Deflate.matchLength
  simp only [readLE_window hm (show o - dist + 8 ≤ d.wend by omega), readLE_window hm ho, except_ok_bind, ← hx, ← hmx]
  split
  · rename_i h8
    obtain ⟨c, hc, hcle, hall⟩ := Deflate.compareFrom_spec hm (d.wend - (o + 8)) (a := o - dist + 8) (b := o + 8) (by omega)
      (by omega)
    refine ⟨8 + c, by rw [hc, except_ok_bind], by omega, hrepeats _ (by omega) fun k hk => ?_⟩
    rcases Nat.lt_or_ge k 8 with hlt | hge
    · exact hfirst k (by omega) hlt
    · have := hall (k - 8) (by omega)
      rwa [show o - dist + 8 + (k - 8) = o - dist + k by omega, show o + 8 + (k - 8) = o + k by omega] at this
  · exact ⟨m, rfl, by omega, hrepeats _ (by omega) fun k hk => hfirst k hk (by omega)⟩

end Sys2Proof.Machine
end

section
/-! PROOFS. The loops of the matcher, and what a round of it leaves (rules R310, R311, R319, R325 to R327). -/

namespace Sys2Proof.Machine

/-- A candidate tried (rules R315, R316, R319, R324). -/
theorem Deflate.tryMatch_covers {d : Deflate} (hm : d.Matchable) (relative : Int) {o dist : Nat} (h1 : 1 ≤ dist)
    (h2 : dist ≤ 32768) (hd : dist ≤ o) (ho : o + 8 ≤ d.wend) :
    ∃ n d', Deflate.tryMatch relative o dist d = .ok (n, d') ∧ o + n ≤ d.wend ∧ Deflate.Covers o d (o + n) d' := by
  obtain ⟨len, hlen, hend, hr⟩ := Deflate.matchLength_spec hm h1 h2 hd ho
  simp only [Deflate.tryMatch, hlen, except_ok_bind]
  split
  · obtain ⟨n, e, he, hn, hce⟩ := Deflate.emitMatches_covers hm.cap hr
    simp only [he, except_ok_bind]
    split
    · obtain ⟨d', hd', hcd⟩ := Deflate.updateHash3_covers (o := o + n) (hce.matchable hm) relative (offset := o)
        (by rw [hce.keeps.2.1]; omega)
      exact ⟨n, d', by rw [hd', except_ok_bind], by omega, hce.trans hcd⟩
    · rename_i h0
      obtain rfl : n = 0 := by omega
      exact ⟨0, e, rfl, by omega, hce⟩
  · exact ⟨0, d, rfl, by omega, .refl hm.cap⟩

/-- One position: at least one byte is covered (rule R310). -/
theorem Deflate.matchStep_covers {d : Deflate} (hm : d.Matchable) (relative : Int) {o : Nat} (ho : o + 8 < d.wend)
    (hcap : d.tokCount < Config.tokenCap) : ∃ o' d', Deflate.matchStep relative o d = .ok (o', d') ∧ o < o'
      ∧ o' ≤ d.wend ∧ Deflate.Covers o d o' d' := by
  obtain ⟨c, e, hc, hce, hcand⟩ := Deflate.candidate_covers hm relative (o := o) (by omega)
  have hme := hce.matchable hm
  have hwe := hce.keeps.2.1
  have htry : ∃ n f, Deflate.tryCandidate relative o c e = .ok (n, f) ∧ o + n ≤ d.wend ∧ Deflate.Covers o e (o + n) f := by
    cases c with
    | none => exact ⟨0, e, rfl, by omega, .refl hme.cap⟩
    | some dist =>
      obtain ⟨h1, h2, h3⟩ := hcand dist rfl
      obtain ⟨n, f, hf, hn, hcf⟩ := Deflate.tryMatch_covers hme relative h1 h2 h3 (by omega)
      exact ⟨n, f, hf, by omega, hcf⟩
  obtain ⟨n, f, hf, hn, hcf⟩ := htry
  rw [Deflate.matchStep_eq, hc, except_ok_bind, hf, except_ok_bind, Deflate.stepBy]
  split
  · exact ⟨o + n, f, rfl, by omega, hn, hce.trans hcf⟩
  · rename_i h0
    obtain rfl : n = 0 := by omega
    have hmf := hcf.matchable hme
    have hwf := hcf.keeps.2.1
    have hrate := (hce.trans hcf).rate
    obtain ⟨g, hg, hcg⟩ := Deflate.emitWinByte_covers (o := o) hmf (by omega) (by omega)
    exact ⟨o + 1, g, by rw [hg, except_ok_bind], by omega, by omega, (hce.trans hcf).trans hcg⟩

/-- The loop of matches stops where the window ends or the tokens are full (rules R310, R311). -/
theorem Deflate.matchLoop_covers (relative : Int) (fuel : Nat) {o : Nat} {d : Deflate} (hm : d.Matchable)
    (ho : o ≤ d.wend) : ∃ o' d', Deflate.matchLoop relative fuel o d = .ok (o', d') ∧ o' ≤ d.wend
      ∧ Deflate.Covers o d o' d' ∧ (d.wend ≤ o + fuel → d.wend ≤ o' + 8 ∨ d'.tokCount = Config.tokenCap) := by
  induction fuel generalizing o d with
  | zero => exact ⟨o, d, rfl, ho, .refl hm.cap, fun h => .inl (by omega)⟩
  | succ fuel ih =>
    unfold Deflate.matchLoop
    split
    · rename_i hc
      obtain ⟨o1, e, he, hlt, hle, hce⟩ := Deflate.matchStep_covers hm relative hc.1 hc.2
      have hwe := hce.keeps.2.1
      obtain ⟨o', d', hd, hend, hcd, hstop⟩ := ih (o := o1) (hce.matchable hm) (by omega)
      rw [hwe] at hend hstop
      exact ⟨o', d', by rw [he, except_ok_bind]; exact hd, hend, hce.trans hcd, fun h => hstop (by omega)⟩
    · rename_i hc
      refine ⟨o, d, rfl, ho, .refl hm.cap, fun _ => ?_⟩
      by_cases h8 : o + 8 < d.wend
      · exact .inr (Nat.le_antisymm hm.cap (Nat.le_of_not_lt fun h => hc ⟨h8, h⟩))
      · exact .inl (by omega)

/-- The loop of literals stops where the window ends or the tokens are full (rules R325, R326). -/
theorem Deflate.literalLoop_covers (fuel : Nat) {o : Nat} {d : Deflate} (hm : d.Matchable) (ho : o ≤ d.wend) :
    ∃ o' d', Deflate.literalLoop fuel o d = .ok (o', d') ∧ o' ≤ d.wend ∧ Deflate.Covers o d o' d'
      ∧ (d.wend ≤ o + fuel → o' = d.wend ∨ d'.tokCount = Config.tokenCap) := by
  induction fuel generalizing o d with
  | zero => exact ⟨o, d, rfl, ho, .refl hm.cap, fun h => .inl (by omega)⟩
  | succ fuel ih =>
    unfold Deflate.literalLoop
    split
    · rename_i hc
      obtain ⟨e, he, hce⟩ := Deflate.emitWinByte_covers hm hc.1 hc.2
      have hwe := hce.keeps.2.1
      obtain ⟨o', d', hd, hend, hcd, hstop⟩ := ih (o := o + 1) (hce.matchable hm) (by omega)
      rw [hwe] at hend hstop
      exact ⟨o', d', by rw [he, except_ok_bind]; exact hd, hend, hce.trans hcd, fun h => hstop (by omega)⟩
    · rename_i hc
      refine ⟨o, d, rfl, ho, .refl hm.cap, fun _ => ?_⟩
      by_cases hlt : o < d.wend
      · exact .inr (Nat.le_antisymm hm.cap (Nat.le_of_not_lt fun h => hc ⟨hlt, h⟩))
      · exact .inl (by omega)

/-- The matcher stops where its input is exhausted or the tokens are full. -/
theorem Deflate.matchFrom_covers (flush : Bool) {d : Deflate} (hm : d.Matchable) (hw : d.widx ≤ d.wend) :
    ∃ o d', d.matchFrom flush = .ok (o, d') ∧ o ≤ d.wend ∧ Deflate.Covers d.widx d o d'
      ∧ ((if flush = true ∨ d.level = -2 then o = d.wend else d.wend ≤ o + 8) ∨ d'.tokCount = Config.tokenCap) := by
  unfold Deflate.matchFrom
  dsimp only
  split
  · rename_i hlevel
    obtain ⟨o, e, he, hend, hce, hstop⟩ := Deflate.literalLoop_covers (d.wend - d.widx) hm hw
    exact ⟨o, e, he, hend, hce, by rw [if_pos (.inr hlevel)]; exact hstop (by omega)⟩
  · rename_i hlevel
    obtain ⟨o, e, he, hend, hce, hstop⟩ := Deflate.matchLoop_covers ((d.processed : Int) - d.widx) (d.wend - d.widx) hm hw
    have hwe := hce.keeps.2.1
    have hstop := hstop (by omega)
    simp only [he, except_ok_bind]
    cases flush with
    | false =>
      exact ⟨o, e, rfl, hend, hce, by rw [if_neg (by simpa using hlevel)]; exact hstop⟩
    | true =>
      simp only [if_true]
      obtain ⟨o', f, hf, hend', hcf, hstop'⟩ := Deflate.literalLoop_covers (e.wend - o) (hce.matchable hm) (hwe.symm ▸ hend)
      rw [hwe] at hend' hstop'
      exact ⟨o', f, hf, hend', hce.trans hcf, by rw [if_pos (.inl trivial)]; exact hstop' (by omega)⟩

theorem Deflate.Sound.matchable {d : Deflate} (h : d.Sound) : d.Matchable := by
  have hfill : d.fill = 2 * d.windowSize + 258 := rfl
  have hsize : d.winSize = 2 * d.windowSize + 258 + 3 := rfl
  have h1 : Config.windowFull = 32768 := rfl
  have h2 : Config.window4k = 4096 := rfl
  refine ⟨h.filled, ?_, ?_, h.tokens.1⟩
  · have := h.cursors.2
    omega
  · have := h.window
    omega

/-- A round of the matcher (rules R310, R327): what it covers, and where it stops. -/
theorem Deflate.runMatcher_covers (flush : Bool) {d : Deflate} (hm : d.Matchable) (hw : d.widx ≤ d.wend) :
    ∃ o e, d.runMatcher flush = .ok { e with processed := d.processed + (o - d.widx), widx := o }
      ∧ o ≤ d.wend ∧ Deflate.Covers d.widx d o e
      ∧ ((if flush = true ∨ d.level = -2 then o = d.wend else d.wend ≤ o + 8) ∨ e.tokCount = Config.tokenCap) := by
  obtain ⟨o, e, he, hend, hce, hstop⟩ := Deflate.matchFrom_covers flush hm hw
  refine ⟨o, e, ?_, hend, hce, hstop⟩
  have hp : e.processed = d.processed := by rw [hce.same]
  simp only [Deflate.runMatcher, he, except_ok_bind, hp]

/-- Settles O49: a round of the matcher covers the bytes it moves past. -/
theorem matcherTokensExpand : Obligations.MatcherTokensExpand := by
  unfold Obligations.MatcherTokensExpand
  intro flush d h
  obtain ⟨o, e, he, hend, hce, -⟩ := Deflate.runMatcher_covers flush h.matchable h.cursors.1
  exact ⟨_, he, hce.le, hend, hce.grow, hce.cap, rfl, hce.keeps.1, hce.kept, hce.expands⟩

end Sys2Proof.Machine
end

section
/-! PROOFS. What a block writes fits the accumulator: the header's groups, the code slots, the tokens (rules R343, R355 to
R368, R386). -/

namespace Sys2Proof.Machine

/-! ### Records and code lengths -/

/-- A canonical code fits its length (rules R107, R181). -/
theorem generateCode_fits {maxLen : Nat} {lens : List Nat} (hm : maxLen ≤ 15) (h : ∀ l ∈ lens, l ≤ maxLen) (i : Nat) :
    recLen ((generateCode maxLen lens).getD i 0) ≤ maxLen
      ∧ recCode ((generateCode maxLen lens).getD i 0) < 2 ^ recLen ((generateCode maxLen lens).getD i 0) := by
  have hzero : recLen (0 : Word) ≤ maxLen ∧ recCode (0 : Word) < 2 ^ recLen (0 : Word) := by
    refine ⟨?_, by decide⟩
    rw [show recLen (0 : Word) = 0 by decide]
    exact Nat.zero_le _
  rcases Nat.lt_or_ge i lens.length with hi | hi
  · obtain ⟨hlen, hcode⟩ := generateCode_fields hm h hi
    rcases Nat.eq_zero_or_pos (lens.getD i 0) with h0 | hpos
    · have hrec : (generateCode maxLen lens).getD i 0 = 0 := by
        rw [generateCode, assignCodes_getD _ hi, if_pos h0]
        intro l hl
        rw [nextCodes_length]
        exact Nat.lt_succ_of_le (h l hl)
      rw [hrec]
      exact hzero
    · rw [hlen, hcode hpos]
      refine ⟨?_, bitrev_lt _ _⟩
      rw [List.getD_eq_getElem _ _ hi]
      exact h _ (List.getElem_mem hi)
  · rw [List.getD_eq_default _ _ (by rw [generateCode_length]; exact hi)]
    exact hzero

/-- The generated lengths, as many as asked for and within the limit (rules R186, R192). -/
theorem limitedLengths_bounds (p : Config.Params) {limit : Nat} (n : Nat) (freq : List Nat) (hl : 1 ≤ limit) :
    (limitedLengths p limit n freq).length = n ∧ ∀ l ∈ limitedLengths p limit n freq, l ≤ limit := by
  obtain ⟨h1, h2, -⟩ := lengthsWithinLimit p limit n _ freq _ hl rfl rfl
  exact ⟨h1, h2⟩

theorem usedLength_le (ls : List Nat) : usedLength ls ≤ ls.length := by
  induction ls with
  | nil => exact le_refl _
  | cons l ls ih =>
    have hcons : usedLength (l :: ls) = if usedLength ls = 0 then (if l = 0 then 0 else 1) else usedLength ls + 1 := rfl
    rw [hcons, List.length_cons]
    split
    · split <;> omega
    · omega

theorem forcedDLen_bounds {ls : List Nat} {n : Nat} (hn : 1 ≤ n) (h : ∀ l ∈ ls, l ≤ n) :
    (forcedDLen ls).length = ls.length ∧ ∀ l ∈ forcedDLen ls, l ≤ n := by
  unfold forcedDLen
  split
  · refine ⟨List.length_set, fun l hl => ?_⟩
    obtain hl | rfl := List.mem_or_eq_of_mem_set hl
    · exact h l hl
    · exact hn
  · exact ⟨rfl, h⟩

/-! ### The groups of a header -/

/-- A group that `putbits` takes. -/
def Fits (g : Nat × Nat) : Prop := g.2 ≤ 64 ∧ g.1 < 2 ^ g.2

theorem rleCopies_fit (v fuel rem : Nat) : ∀ t ∈ rleCopies v fuel rem, Fits t.2 := by
  induction fuel generalizing rem with
  | zero => simp [rleCopies]
  | succ fuel ih =>
    intro t ht
    rw [rleCopies] at ht
    split at ht
    · obtain rfl | ht := List.mem_cons.1 ht
      · exact ⟨by decide, by decide⟩
      · exact ih _ t ht
    · split at ht
      · rw [List.mem_singleton] at ht
        subst ht
        exact ⟨by show 2 ≤ 64; omega, by show rem - 3 < 2 ^ 2; omega⟩
      · rw [List.eq_of_mem_replicate ht]
        exact ⟨by show 0 ≤ 64; omega, by show 0 < 2 ^ 0; omega⟩

theorem rleZeros_fit (fuel r : Nat) : ∀ t ∈ rleZeros fuel r, Fits t.2 := by
  induction fuel generalizing r with
  | zero => simp [rleZeros]
  | succ fuel ih =>
    intro t ht
    rw [rleZeros] at ht
    split at ht
    · obtain rfl | ht := List.mem_cons.1 ht
      · exact ⟨by decide, by decide⟩
      · exact ih _ t ht
    · split at ht
      · rw [List.mem_singleton] at ht
        subst ht
        exact ⟨by show 7 ≤ 64; omega, by show r - 11 < 2 ^ 7; omega⟩
      · split at ht
        · rw [List.mem_singleton] at ht
          subst ht
          exact ⟨by show 3 ≤ 64; omega, by show r - 3 < 2 ^ 3; omega⟩
        · rw [List.eq_of_mem_replicate ht]
          exact ⟨by decide, by decide⟩

theorem rleOf_fit (seq : List Nat) : ∀ t ∈ rleOf seq, Fits t.2 := by
  intro t ht
  obtain ⟨run, -, ht⟩ := List.mem_flatMap.1 ht
  rw [rleRun] at ht
  split at ht
  · exact rleZeros_fit _ _ t ht
  · obtain rfl | ht := List.mem_cons.1 ht
    · exact ⟨by show 0 ≤ 64; omega, by show 0 < 2 ^ 0; omega⟩
    · exact rleCopies_fit _ _ _ t ht

theorem inClcOrder_le {clLen : List Nat} (h : ∀ l ∈ clLen, l ≤ 7) : ∀ l ∈ inClcOrder clLen, l ≤ 7 := by
  intro l hl
  obtain ⟨s, -, rfl⟩ := List.mem_map.1 hl
  rcases Nat.lt_or_ge s clLen.length with hs | hs
  · rw [List.getD_eq_getElem _ _ hs]
    exact h _ (List.getElem_mem hs)
  · rw [List.getD_eq_default _ _ hs]
    exact Nat.zero_le _

/-- Every group of a header fits (rule R368). -/
theorem headerGroups_fit {bfinal : Bool} {llLen dLen clLen : List Nat} {rle : List Rle} (hll : llLen.length = 286)
    (hd : dLen.length = 30) (hcl : ∀ l ∈ clLen, l ≤ 7) (hrle : ∀ t ∈ rle, Fits t.2) :
    ∀ g ∈ headerGroups bfinal llLen dLen clLen (generateCode 7 clLen) rle, Fits g := by
  intro g hg
  have h1 := usedLength_le llLen
  have h2 := usedLength_le dLen
  have h3 := usedLength_le (inClcOrder clLen)
  have h19 : (inClcOrder clLen).length = 19 := by rw [inClcOrder, List.length_map]; rfl
  have hnlit : headerNlit llLen = max 257 (usedLength llLen) := rfl
  have hndist : headerNdist dLen = usedLength dLen := rfl
  have hnclen : headerNclen clLen = max 4 (usedLength (inClcOrder clLen)) := rfl
  rw [headerGroups, List.mem_append, List.mem_append] at hg
  obtain (hg | hg) | hg := hg
  · simp only [List.mem_cons, List.not_mem_nil, or_false] at hg
    obtain rfl | rfl | rfl | rfl := hg
    · exact ⟨by decide +revert, by cases bfinal <;> decide⟩
    · exact ⟨by show 5 ≤ 64; omega, by show _ < 2 ^ 5; omega⟩
    · exact ⟨by show 5 ≤ 64; omega, by show _ < 2 ^ 5; omega⟩
    · exact ⟨by show 4 ≤ 64; omega, by show _ < 2 ^ 4; omega⟩
  · obtain ⟨l, hl, rfl⟩ := List.mem_map.1 hg
    have := inClcOrder_le hcl l (List.mem_of_mem_take hl)
    exact ⟨by show 3 ≤ 64; omega, by show l < 2 ^ 3; omega⟩
  · obtain ⟨t, ht, hg⟩ := List.mem_flatMap.1 hg
    obtain ⟨hlen, hcode⟩ := generateCode_fits (by omega) hcl t.1
    simp only [List.mem_cons, List.not_mem_nil, or_false] at hg
    obtain rfl | rfl := hg
    · exact ⟨by show recLen _ ≤ 64; omega, hcode⟩
    · exact hrle t ht

/-! ### Code slots -/

/-- What the slots of a block keep (rules R132, R343, R344). -/
structure Deflate.SlotsOk (d : Deflate) : Prop where
  lit : ∀ i, i ≤ 512 → litSlotCode (d.litCodes.slot i) < 2 ^ slotLen (d.litCodes.slot i) ∧ slotLen (d.litCodes.slot i) ≤ 20
  dist : ∀ k, k < 30 → distSlotCode (d.distCodes.slot k) < 2 ^ slotLen (d.distCodes.slot k)
    ∧ slotLen (d.distCodes.slot k) ≤ 15 ∧ distSlotExtra (d.distCodes.slot k) = distExtraBits k
  none : d.distCodes.slot 30 = 0

theorem distanceSlot_fields {c x l : Nat} (hc : c < 2 ^ 16) (hx : x < 2 ^ 8) (hl : l < 2 ^ 8) {q : Word}
    (hq : q = BitVec.ofNat 32 (c ||| (x <<< 16) ||| (l <<< 24))) :
    distSlotCode q = c ∧ distSlotExtra q = x ∧ slotLen q = l := by
  have hnat : q.toNat = c + 2 ^ 16 * x + 2 ^ 24 * l := by
    rw [hq, BitVec.toNat_ofNat, or_shift_eq_add x hc, or_shift_eq_add l (by omega), Nat.mod_eq_of_lt (by omega)]
  simp only [distSlotCode, distSlotExtra, slotLen, field, hnat, Nat.shiftRight_eq_div_pow]
  omega

theorem slotLen_eq_recLen (r : Word) : slotLen r = recLen r ∧ litSlotCode r = recCode r := ⟨rfl, rfl⟩

/-- A length's slot: the symbol's code with the extra bits above it (rule R344). -/
theorem lengthSlot_fits {recLL : List Word} (h : ∀ i, recLen (recLL.getD i 0) ≤ 15
    ∧ recCode (recLL.getD i 0) < 2 ^ recLen (recLL.getD i 0)) {len : Nat} (h3 : 3 ≤ len) (h258 : len ≤ 258) {r : Word}
    (hr : r = BitVec.ofNat 32 ((recCode (recLL.getD (lenSym len) 0)
        ||| ((len - lenBase (lenSym len)) <<< recLen (recLL.getD (lenSym len) 0)))
      ||| ((recLen (recLL.getD (lenSym len) 0) + lenExtra (lenSym len)) <<< 24))) :
    litSlotCode r < 2 ^ slotLen r ∧ slotLen r ≤ 20 := by
  obtain ⟨hlen, hcode⟩ := h (lenSym len)
  obtain ⟨-, -, hbase, hlt⟩ := lenSym_inverts h3 h258
  have hextra := (lenRow_bounds (lenSym len)).1
  generalize recLen (recLL.getD (lenSym len) 0) = l at *
  generalize recCode (recLL.getD (lenSym len) 0) = c at *
  have hval : c ||| ((len - lenBase (lenSym len)) <<< l) < 2 ^ (l + lenExtra (lenSym len)) := by
    rw [or_shift_eq_add _ hcode, Nat.pow_add]
    calc c + 2 ^ l * (len - lenBase (lenSym len)) < 2 ^ l + 2 ^ l * (len - lenBase (lenSym len)) := Nat.add_lt_add_right hcode _
      _ = 2 ^ l * (len - lenBase (lenSym len) + 1) := by ring
      _ ≤ 2 ^ l * 2 ^ lenExtra (lenSym len) := Nat.mul_le_mul_left _ (by omega)
  have h24 : (2 : Nat) ^ (l + lenExtra (lenSym len)) ≤ 2 ^ 24 := Nat.pow_le_pow_right (by omega) (by omega)
  obtain ⟨e1, e2⟩ := huffRec_fields (c := c ||| ((len - lenBase (lenSym len)) <<< l)) (l := l + lenExtra (lenSym len))
    (lt_of_lt_of_le hval h24) (by omega)
  have hrec : r = huffRec (c ||| ((len - lenBase (lenSym len)) <<< l)) (l + lenExtra (lenSym len)) := hr
  obtain ⟨s1, s2⟩ := slotLen_eq_recLen r
  rw [s1, s2, hrec, e1, e2]
  exact ⟨hval, by omega⟩

theorem distExtraBits_lt {k : Nat} (h : k < 30) : distExtraBits k < 2 ^ 8 := by
  have := distExtraBits_le h
  omega

/-- The slots built from canonical codes. -/
theorem Deflate.buildCodes_slotsOk (d : Deflate) {ll dl : List Nat} (hll : ll.length = 286) (hdl : dl.length = 30)
    (h1 : ∀ l ∈ ll, l ≤ 15) (h2 : ∀ l ∈ dl, l ≤ 15) :
    (d.buildCodes (generateCode 15 ll) (generateCode 15 dl)).SlotsOk := by
  obtain ⟨c1, c2, c3, c4⟩ := codesFromRecords d (generateCode 15 ll) (generateCode 15 dl)
    (by rw [generateCode_length, hll]) (by rw [generateCode_length, hdl])
  have f1 := generateCode_fits (le_refl 15) h1
  have f2 := generateCode_fits (le_refl 15) h2
  refine ⟨fun i hi => ?_, fun k hk => ?_, c4⟩
  · rcases Nat.lt_or_ge 256 i with hgt | hle
    · obtain ⟨len, rfl⟩ : ∃ len, i = 254 + len := ⟨i - 254, by omega⟩
      exact lengthSlot_fits f1 (by omega) (by omega) (c2 len (by omega) (by omega))
    · rw [c1 i hle]
      exact ⟨(f1 i).2, (f1 i).1.trans (by omega)⟩
  · obtain ⟨hlen, hcode⟩ := f2 k
    obtain ⟨e1, e2, e3⟩ := distanceSlot_fields
      (lt_of_lt_of_le hcode (Nat.pow_le_pow_right (by omega) (by omega : _ ≤ 16)))
      (distExtraBits_lt hk) (by omega) (c3 k hk)
    rw [e1, e2, e3]
    exact ⟨hcode, hlen, rfl⟩

/-! ### Tokens -/

/-- The three fields of a token with the groups they take (rules R129, R343). -/
theorem Deflate.SlotsOk.token {d : Deflate} (h : d.SlotsOk) {t : Word} (ht : isToken t) :
    ∃ i litlen dist extra, decode ⟨.token, t.toNat, {}⟩ = .ok i
      ∧ (∀ s, runToken i s = s.onDf (s.df.encodeToken litlen dist extra))
      ∧ litSlotCode (d.litCodes.slot litlen) < 2 ^ slotLen (d.litCodes.slot litlen)
      ∧ distSlotCode (d.distCodes.slot dist) < 2 ^ slotLen (d.distCodes.slot dist)
      ∧ extra < 2 ^ distSlotExtra (d.distCodes.slot dist)
      ∧ slotLen (d.litCodes.slot litlen) + slotLen (d.distCodes.slot dist) + distSlotExtra (d.distCodes.slot dist) ≤ 64 := by
  have hnone : distSlotCode (d.distCodes.slot 30) < 2 ^ slotLen (d.distCodes.slot 30)
      ∧ 0 < 2 ^ distSlotExtra (d.distCodes.slot 30)
      ∧ slotLen (d.distCodes.slot 30) = 0 ∧ distSlotExtra (d.distCodes.slot 30) = 0 := by
    rw [h.none]
    decide
  obtain ⟨hn1, hn2, hn3, hn4⟩ := hnone
  obtain ⟨i, hi⟩ := ht
  obtain ⟨b, rfl⟩ | rfl | ⟨len, dist, h3, h258, h1, hd, rfl⟩ := token_kinds hi
  · obtain ⟨hl1, hl2⟩ := h.lit b.toNat (by have := b.isLt; omega)
    exact ⟨_, b.toNat, 30, 0, decode_litToken b, fun _ => rfl, hl1, hn1, hn2, by rw [hn3, hn4]; omega⟩
  · obtain ⟨hl1, hl2⟩ := h.lit 256 (by omega)
    exact ⟨_, 256, 30, 0, decode_eobToken, fun _ => rfl, hl1, hn1, hn2, by rw [hn3, hn4]; omega⟩
  · obtain ⟨-, h29, -, hextra⟩ := distSym_inverts h1 hd
    obtain ⟨b1, b2, b3⟩ := matchToken_fields_lt h3 h258 h1 hd
    obtain ⟨hl1, hl2⟩ := h.lit (len + 254) (by omega)
    obtain ⟨hd1, hd2, hd3⟩ := h.dist (distSym dist).sym (by omega)
    have h13 := distExtraBits_le (show (distSym dist).sym < 30 by omega)
    refine ⟨_, len + 254, (distSym dist).sym, (distSym dist).extra, decode_matchToken h3 h258 h1 hd, fun s => ?_, hl1, hd1,
      by rw [hd3]; exact hextra, by omega⟩
    show s.onDf (s.df.encodeToken (BitVec.ofNat 10 (len + 254)).toNat (BitVec.ofNat 9 (distSym dist).sym).toNat
      (BitVec.ofNat 13 (distSym dist).extra).toNat) = _
    rw [BitVec.toNat_ofNat, BitVec.toNat_ofNat, BitVec.toNat_ofNat, Nat.mod_eq_of_lt b1, Nat.mod_eq_of_lt b2,
      Nat.mod_eq_of_lt b3]

end Sys2Proof.Machine
end

section
/-! PROOFS. A block is emitted whole when the sink takes everything (rules R341, R346, R386, R387). -/

namespace Sys2Proof.Machine

/-! ### The token loop -/

/-- The deflate side inside the token loop (rules R130, R341, R343, R397). -/
structure Deflate.Emitting (d : Deflate) : Prop where
  acc : d.AccOk
  room : 16 ≤ d.oend
  willing : d.sink.willing
  slots : d.SlotsOk
  count : d.tokCount ≤ Config.tokBufSize
  kinds : ∀ k, k < d.tokCount → ∃ t, d.tokBuf.get? k = some t ∧ isToken t

/-- What `EmitBlock` may change: the accumulator, `OUT`, the sink, and the block itself (rule R386). -/
def Deflate.EmitsOnly (d e : Deflate) : Prop :=
  e = { d with
    litCodes := e.litCodes, distCodes := e.distCodes, scratch := e.scratch, ebits := e.ebits, ebitLen := e.ebitLen,
    oidx := e.oidx, outBuf := e.outBuf, tokBuf := e.tokBuf, tokCount := e.tokCount, tokNext := e.tokNext,
    stage := e.stage, sink := e.sink }

theorem Deflate.EmitsOnly.trans {a b c : Deflate} (h1 : a.EmitsOnly b) (h2 : b.EmitsOnly c) : a.EmitsOnly c := by
  unfold Deflate.EmitsOnly at *
  rw [h2, h1]

theorem Deflate.Emits.emitsOnly {n v : Nat} {d e : Deflate} (h : Deflate.Emits n v d e) : d.EmitsOnly e := by
  have hs := h.same
  unfold Deflate.EmitsOnly
  rw [hs]

/-- The token loop goes on behind bits that were written, whatever token is next. -/
theorem Deflate.Emitting.of_emits {n v k : Nat} {d e : Deflate} (h : d.Emitting)
    (he : Deflate.Emits n v { d with tokNext := k } e) : e.Emitting := by
  have hacc := he.acc
  have hw := he.willing h.willing
  have hs := he.same
  generalize e.ebits = x1, e.ebitLen = x2, e.oidx = x3, e.outBuf = x4, e.sink = x5 at hs hw
  subst hs
  exact ⟨hacc, h.room, hw, ⟨h.slots.lit, h.slots.dist, h.slots.none⟩, h.count, h.kinds⟩

/-- A token that is next is fetched and written (rules R341, R346). -/
theorem tokenStep_emits {s : State} (h : s.df.Emitting) (hn : s.df.tokNext < s.df.tokCount) :
    ∃ e, tokenStep s = .ok { s with df := e } ∧ e.Emitting ∧ s.df.EmitsOnly e := by
  obtain ⟨g, hg, hge, hgroom⟩ := Deflate.guardOut_emits h.acc h.room h.willing
  have hgem : g.Emitting := h.of_emits (k := s.df.tokNext) hge
  obtain ⟨hnext, hcount⟩ : g.tokNext = s.df.tokNext ∧ g.tokCount = s.df.tokCount := by
    rw [hge.same]
    exact ⟨rfl, rfl⟩
  obtain ⟨t, ht, htok⟩ := hgem.kinds g.tokNext (by omega)
  obtain ⟨i, litlen, dist, extra, hi, hrun, h1, h2, h3, h4⟩ := hgem.slots.token htok
  obtain ⟨e, he, -, hee⟩ := Deflate.encodeToken_emits hgem.acc hgroom rfl rfl h1 h2 h3 h4
  have hfetch : s.df.fetchToken = .ok (t, g) := by
    have hlt : g.tokNext < Config.tokBufSize := lt_of_lt_of_le (by omega) hgem.count
    simp only [Deflate.fetchToken, hg, except_ok_bind, readCell_ok.2 ⟨hlt, ht⟩, orDfFault]
  refine ⟨e, ?_, hgem.of_emits hee, hge.emitsOnly.trans ?_⟩
  · simp only [tokenStep, hfetch, hi, hrun, he]
    rfl
  · exact Deflate.EmitsOnly.trans (b := { g with tokNext := g.tokNext + 1 }) rfl hee.emitsOnly

theorem tokenLoop_emits (n : Nat) {s : State} (h : s.df.Emitting) :
    ∃ e, tokenLoop n s = .ok { s with df := e } ∧ e.Emitting ∧ s.df.EmitsOnly e := by
  induction n generalizing s with
  | zero => exact ⟨s.df, rfl, h, rfl⟩
  | succ n ih =>
    rw [tokenLoop]
    split
    · next hn =>
      obtain ⟨e, he, hem, hse⟩ := tokenStep_emits h hn
      obtain ⟨f, hf, hfm, hef⟩ := ih (s := { s with df := e }) hem
      exact ⟨f, by rw [he]; exact hf, hfm, hse.trans hef⟩
    · exact ⟨s.df, rfl, h, rfl⟩

/-! ### The block -/

theorem isToken_eobToken : isToken eobToken := ⟨_, decode_eobToken⟩

/-- What the driver keeps inside a command while the sink takes everything: `Deflate.Sound` but for a full window that
still has to be tokenised (rules R51, R53, R375, R397). -/
structure Deflate.Ready (d : Deflate) : Prop where
  stage : d.stage = .idle
  acc : d.AccOk
  room : 16 ≤ d.oend
  window : d.windowSize = Config.windowFull ∨ d.windowSize = Config.window4k
  cursors : d.widx ≤ d.wend ∧ d.wend ≤ d.fill
  filled : d.winBuf.readable 0 d.wend
  cap : d.tokCount ≤ Config.tokenCap
  fresh : d.wend = 0 → d.tokCount = 0
  kinds : ∀ k, k < d.tokCount → ∃ t, d.tokBuf.get? k = some t ∧ isToken t
  willing : d.sink.willing
  outErr : d.outErr = none
  closed : d.closed = false

/-- Bits written behind the header of a block. -/
theorem Deflate.writeDynamicHeader_emits (bfinal : Bool) (p : Config.Params) {d : Deflate} (h : d.AccOk) (h16 : 16 ≤ d.oend)
    (hw : d.sink.willing) (hll : d.scratch.llLen.length = 286) (hdl : d.scratch.dLen.length = 30) :
    ∃ (e : Deflate) (n v : Nat), d.writeDynamicHeader bfinal p = .ok e
      ∧ Deflate.Emits n v { d with scratch := e.scratch } e
      ∧ e.scratch.llLen = d.scratch.llLen ∧ e.scratch.dLen = forcedDLen d.scratch.dLen := by
  have hdl' : (forcedDLen d.scratch.dLen).length = 30 := by
    unfold forcedDLen
    split
    · rw [List.length_set, hdl]
    · exact hdl
  obtain ⟨-, hcl⟩ := limitedLengths_bounds p Config.clcSyms
    (clFreqOf (rleOf (headerSeq d.scratch.llLen (forcedDLen d.scratch.dLen)))) (limit := 7) (by omega)
  have hfit := headerGroups_fit (bfinal := bfinal) hll hdl' hcl
    (rleOf_fit (headerSeq d.scratch.llLen (forcedDLen d.scratch.dLen)))
  obtain ⟨e, he, hee⟩ := Deflate.hputAll_emits hfit
    (d := { d with scratch := { d.scratch.afterLimited p Config.maxClcLen
        (clFreqOf (rleOf (headerSeq d.scratch.llLen (forcedDLen d.scratch.dLen)))) with
      dLen := forcedDLen d.scratch.dLen
      rle := rleOf (headerSeq d.scratch.llLen (forcedDLen d.scratch.dLen))
      clFreq := clFreqOf (rleOf (headerSeq d.scratch.llLen (forcedDLen d.scratch.dLen)))
      clRec := generateCode Config.maxClcLen (limitedLengths p Config.maxClcLen Config.clcSyms
        (clFreqOf (rleOf (headerSeq d.scratch.llLen (forcedDLen d.scratch.dLen)))))
      nextCode := nextCodeAfter Config.maxClcLen (limitedLengths p Config.maxClcLen Config.clcSyms
        (clFreqOf (rleOf (headerSeq d.scratch.llLen (forcedDLen d.scratch.dLen))))) d.scratch.nextCode } })
    ⟨h.len, h.bits, h.cursor, h.written⟩ h16 hw
  have hscr := congrArg Deflate.scratch hee.same
  dsimp only at hscr
  exact ⟨e, _, _, he, by rw [hscr]; exact hee, by rw [hscr]; rfl, by rw [hscr]⟩

/-- A token stored behind those that were there (rules R322, R386). -/
theorem kinds_put {m : Cells 32} {n : Nat} {t : Word} (h : ∀ k, k < n → ∃ u, m.get? k = some u ∧ isToken u) (ht : isToken t) :
    ∀ k, k < n + 1 → ∃ u, (m.put n t).get? k = some u ∧ isToken u := by
  intro k hk
  rw [Cells.get_put]
  split
  · exact ⟨t, rfl, ht⟩
  · exact h k (by omega)

/-- Code lengths as the header and the slots of a block take them (rules R186, R357). -/
def BlockLengths (n : Nat) (ls : List Nat) : Prop := ls.length = n ∧ ∀ l ∈ ls, l ≤ 15

/-- The lengths generated and the header written (rules R355 to R368, R386). -/
theorem Deflate.generateLengths_header (bfinal : Bool) (p : Config.Params) {d : Deflate} (h : d.AccOk) (h16 : 16 ≤ d.oend)
    (hw : d.sink.willing) :
    ∃ (e : Deflate) (n v : Nat), (d.generateLengths p).writeDynamicHeader bfinal p = .ok e
      ∧ Deflate.Emits n v { d with scratch := e.scratch } e
      ∧ BlockLengths 286 e.scratch.llLen ∧ BlockLengths 30 e.scratch.dLen := by
  have hll : BlockLengths 286 (d.generateLengths p).scratch.llLen := limitedLengths_bounds p 286 _ (by decide)
  have hdl : BlockLengths 30 (d.generateLengths p).scratch.dLen := limitedLengths_bounds p 30 _ (by decide)
  obtain ⟨e, n, v, he, hee, hel, hed⟩ := Deflate.writeDynamicHeader_emits bfinal p
    (d := d.generateLengths p) ⟨h.len, h.bits, h.cursor, h.written⟩ h16 hw hll.1 hdl.1
  obtain ⟨hfl, hfb⟩ := forcedDLen_bounds (by decide) hdl.2
  exact ⟨e, n, v, he, hee, by rw [hel]; exact hll, by rw [hed]; exact ⟨hfl.trans hdl.1, hfb⟩⟩

theorem Deflate.appendEob_of_room {d : Deflate} (h : d.tokCount < Config.tokBufSize) :
    ∃ lits, d.appendEob = .ok { d with
      tokBuf := d.tokBuf.put d.tokCount eobToken, tokCount := d.tokCount + 1, litCodes := lits } := by
  refine ⟨d.litCodes.setSlot Config.eobSymbol (d.litCodes.slot Config.eobSymbol + 1), ?_⟩
  rw [Deflate.appendEob, Deflate.storeToken_ok.2 ⟨h, rfl⟩]
  rfl

/-- The end-of-block token stored, the header written, the slots built (rule R386). -/
theorem Deflate.beginBlock_emitting (bfinal : Bool) (p : Config.Params) {d : Deflate} (h : d.Ready) :
    ∃ e, d.beginBlock bfinal p = .ok e ∧ e.Emitting ∧ d.EmitsOnly e := by
  have hlt : d.tokCount < Config.tokBufSize := Nat.lt_succ_of_le h.cap
  obtain ⟨lits, ha⟩ := Deflate.appendEob_of_room hlt
  obtain ⟨f, n, v, hf, hfe, ⟨hl1, hl2⟩, hd1, hd2⟩ := Deflate.generateLengths_header bfinal p
    (d := { d with tokBuf := d.tokBuf.put d.tokCount eobToken, tokCount := d.tokCount + 1, litCodes := lits })
    ⟨h.acc.len, h.acc.bits, h.acc.cursor, h.acc.written⟩ h.room h.willing
  have hslots := Deflate.buildCodes_slotsOk f hl1 hd1 hl2 hd2
  have hsame := hfe.same
  obtain ⟨scratch, hb⟩ : ∃ scratch, d.beginBlock bfinal p = .ok
      { f.buildCodes (generateCode 15 f.scratch.llLen) (generateCode 15 f.scratch.dLen) with
        scratch := scratch, tokNext := 0, stage := .tokens } :=
    ⟨{ f.scratch with
        nextCode := nextCodeAfter 15 f.scratch.dLen (nextCodeAfter 15 f.scratch.llLen f.scratch.nextCode) }, by
      simp only [Deflate.beginBlock, ha, orDfFault, except_ok_bind, hf]⟩
  refine ⟨_, hb, ?_, ?_⟩
  · refine ⟨⟨hfe.acc.len, hfe.acc.bits, hfe.acc.cursor, hfe.acc.written⟩, ?_, hfe.willing h.willing,
      ⟨hslots.lit, hslots.dist, hslots.none⟩, ?_, ?_⟩
    · show 16 ≤ f.oend
      rw [hfe.oend]
      exact h.room
    · show f.tokCount ≤ _
      rw [hsame]
      exact hlt
    · show ∀ k, k < f.tokCount → ∃ t, f.tokBuf.get? k = some t ∧ isToken t
      rw [hsame]
      exact kinds_put h.kinds isToken_eobToken
  · have hd : d.EmitsOnly { d with
        tokBuf := d.tokBuf.put d.tokCount eobToken, tokCount := d.tokCount + 1, litCodes := lits, scratch := f.scratch } := rfl
    exact (hd.trans hfe.emitsOnly).trans rfl

theorem Deflate.EmitsOnly.keeps {d e : Deflate} (h : d.EmitsOnly e) : e.level = d.level ∧ e.windowSize = d.windowSize
    ∧ e.oend = d.oend ∧ e.winBuf = d.winBuf ∧ e.widx = d.widx ∧ e.wend = d.wend ∧ e.closed = d.closed
    ∧ e.outErr = d.outErr ∧ e.ret = d.ret := by
  unfold Deflate.EmitsOnly at h
  rw [h]
  exact ⟨rfl, rfl, rfl, rfl, rfl, rfl, rfl, rfl, rfl⟩

/-- Between two blocks, whatever has been written. -/
theorem Deflate.Ready.of_emitsOnly {d e : Deflate} (h : d.Ready) (he : d.EmitsOnly e) (hstage : e.stage = .idle)
    (hacc : e.AccOk) (hw : e.sink.willing)
    (htok : e.tokCount = 0 ∨ e.tokCount = d.tokCount ∧ e.tokBuf = d.tokBuf) : e.Ready := by
  obtain ⟨-, h2, h3, h4, h5, h6, h7, h8, -⟩ := he.keeps
  have hfill : e.fill = d.fill := by rw [Deflate.fill, Deflate.fill, h2]
  refine ⟨hstage, hacc, by rw [h3]; exact h.room, by rw [h2]; exact h.window, by rw [h5, h6, hfill]; exact h.cursors,
    by rw [h4, h6]; exact h.filled, ?_, fun h0 => ?_, fun k hk => ?_, hw, by rw [h8]; exact h.outErr,
    by rw [h7]; exact h.closed⟩
  all_goals obtain htok | ⟨htok, hbuf⟩ := htok
  · rw [htok]
    exact Nat.zero_le _
  · rw [htok]
    exact h.cap
  · exact htok
  · rw [htok]
    exact h.fresh (h6 ▸ h0)
  · omega
  · rw [hbuf]
    exact h.kinds k (by omega)

/-- `EmitBlock` leaves an empty block behind and the window alone (rule R386). -/
theorem emitBlock_ready (bfinal : Bool) {s : State} (h : s.df.Ready) :
    ∃ e, emitBlock bfinal s = .ok { s with df := e } ∧ e.Ready ∧ e.tokCount = 0 ∧ s.df.EmitsOnly e := by
  obtain ⟨a, ha, ham, hae⟩ := Deflate.beginBlock_emitting bfinal s.params h
  obtain ⟨b, hb, hbm, hbe⟩ := tokenLoop_emits a.tokCount (s := { s with df := a }) ham
  have hsame : s.df.EmitsOnly b.finishBlock := (hae.trans hbe).trans rfl
  refine ⟨b.finishBlock, ?_, ?_, rfl, hsame⟩
  · simp only [emitBlock, ha, State.drive, except_ok_bind, hb]
  · exact h.of_emitsOnly hsame rfl ⟨hbm.acc.len, hbm.acc.bits, hbm.acc.cursor, hbm.acc.written⟩ hbm.willing (.inl rfl)

/-- Bits written between two blocks (rules R387 to R389). -/
theorem Deflate.Ready.of_emits {n v : Nat} {d e : Deflate} (h : d.Ready) (he : Deflate.Emits n v d e) : e.Ready := by
  have hs := he.same
  exact h.of_emitsOnly he.emitsOnly (by rw [hs]; exact h.stage) he.acc (he.willing h.willing)
    (.inr (by rw [hs]; exact ⟨rfl, rfl⟩))

end Sys2Proof.Machine
end

section
/-! PROOFS. The driver completes when the sink takes everything (rules R379 to R381, R385, R388, R389). -/

namespace Sys2Proof.Machine

/-! ### `compressBlock` -/

/-- The matcher's tokens behind those that were there (rules R310, R327). -/
theorem Deflate.Ready.of_covers {d e : Deflate} {o k : Nat} (h : d.Ready) (ho : o ≤ d.wend)
    (he : Deflate.Covers d.widx d o e) : Deflate.Ready { e with processed := k, widx := o } := by
  have hcap := he.cap
  have hkinds : ∀ k, k < e.tokCount → ∃ t, e.tokBuf.get? k = some t ∧ isToken t := fun k hk => by
    rcases Nat.lt_or_ge k d.tokCount with hlt | hge
    · rw [he.kept k hlt]
      exact h.kinds k hlt
    · exact he.written k hge hk
  have hfresh : d.wend = 0 → e.tokCount = 0 := fun h0 => by
    have h1 := h.fresh h0
    have h2 := he.rate
    omega
  have hs := he.same
  generalize e.tokBuf = x1, e.tokCount = x2, e.litCodes = x3, e.distCodes = x4, e.hashTable = x5 at *
  subst hs
  exact ⟨h.stage, ⟨h.acc.len, h.acc.bits, h.acc.cursor, h.acc.written⟩, h.room, h.window, ⟨ho, h.cursors.2⟩, h.filled,
    hcap, hfresh, hkinds, h.willing, h.outErr, h.closed⟩

theorem Deflate.Ready.windowSize_bounds {d : Deflate} (h : d.Ready) : 0 < d.windowSize ∧ d.windowSize ≤ 32768 := by
  obtain hw | hw := h.window
  · rw [hw]
    decide
  · rw [hw]
    decide

theorem Deflate.Ready.matchable {d : Deflate} (h : d.Ready) : d.Matchable where
  filled := h.filled
  size := h.cursors.2.trans (Nat.le_add_right _ _)
  reach := h.windowSize_bounds.2
  cap := h.cap

theorem Deflate.exhausted_eq {d e : Deflate} (flush : Bool) (h1 : e.level = d.level) (h2 : e.widx = d.widx)
    (h3 : e.wend = d.wend) : e.exhausted flush = d.exhausted flush := by
  rw [Deflate.exhausted, Deflate.exhausted, h1, h2, h3]

/-- A round that does not exhaust the window has moved on, unless the token memory was full (rules R327, R385, log 19). -/
theorem Deflate.Ready.runMatcher_progress (flush : Bool) {d : Deflate} (h : d.Ready) :
    ∃ e, d.runMatcher flush = .ok e ∧ e.Ready ∧ e.ret = d.ret ∧ e.wend = d.wend
      ∧ (e.exhausted flush = true ∨ d.tokCount = Config.tokenCap ∨ d.widx < e.widx) ∧ d.widx ≤ e.widx := by
  obtain ⟨o, e, he, ho, hce, hstop⟩ := Deflate.runMatcher_covers flush h.matchable h.cursors.1
  have hs := hce.same
  have hkeep : e.ret = d.ret ∧ e.wend = d.wend ∧ e.level = d.level := by
    rw [hs]
    exact ⟨rfl, rfl, rfl⟩
  obtain ⟨hret, hwend, hlevel⟩ := hkeep
  refine ⟨_, he, h.of_covers ho hce, hret, hwend, ?_, hce.le⟩
  obtain hstop | hfull := hstop
  · refine .inl ?_
    simp only [Deflate.exhausted, hlevel, hwend]
    split at hstop
    · next hc => rw [if_pos hc]; exact decide_eq_true hstop
    · next hc => rw [if_neg hc]; exact decide_eq_true hstop
  · have h1 := hce.rate
    have h2 := h.cap
    show _ ∨ _ ∨ d.widx < o
    omega

/-- The block of a round, where one is due (rule R385). -/
theorem blockIfDue_ready (flush final : Bool) {s : State} (h : s.df.Ready) :
    ∃ e, blockIfDue flush final s = .ok { s with df := e } ∧ e.Ready ∧ s.df.EmitsOnly e ∧ e.tokCount < Config.tokenCap
      ∧ (flush = true → s.df.exhausted flush = true → e.tokCount = 0) := by
  have hcap := h.cap
  unfold blockIfDue
  split
  · next bfinal _ =>
    obtain ⟨e, he, her, h0, hse⟩ := emitBlock_ready bfinal h
    exact ⟨e, he, her, hse, by rw [h0]; decide, fun _ _ => h0⟩
  · next hnone =>
    refine ⟨s.df, rfl, h, rfl, ?_, fun hf hx => ?_⟩ <;> rw [Deflate.blockDue] at hnone <;> split at hnone
    · cases hnone
    · omega
    · cases hnone
    · simp_all

/-- The loop of `compressBlock` ends with the window exhausted (rule R385, log 19). -/
theorem compressLoop_completes (flush final : Bool) (n : Nat) {s : State} (h : s.df.Ready)
    (hn : s.df.wend + 1 + (if s.df.tokCount = Config.tokenCap then 1 else 0) ≤ s.df.widx + n) :
    ∃ e, compressLoop flush final n s = .ok { s with df := e } ∧ e.Ready ∧ e.ret = s.df.ret
      ∧ e.exhausted flush = true ∧ (flush = true → e.tokCount = 0) := by
  induction n generalizing s with
  | zero =>
    have := h.cursors.1
    omega
  | succ n ih =>
    obtain ⟨d, hd, hdr, hret, hwend, hprog, hle⟩ := h.runMatcher_progress flush
    obtain ⟨e, he, her, hde, hcap, hempty⟩ := blockIfDue_ready flush final (s := { s with df := d }) hdr
    obtain ⟨k1, -, -, -, k5, k6, -, -, k9⟩ := hde.keeps
    have hx : e.exhausted flush = d.exhausted flush := Deflate.exhausted_eq flush k1 k5 k6
    have hround : compressLoop flush final (n + 1) s =
        if d.exhausted flush then .ok { s with df := e } else compressLoop flush final n { s with df := e } := by
      rw [compressLoop_succ, hd]
      show (blockIfDue flush final { s with df := d } >>= fun u => _) = _
      rw [he]
      rfl
    rw [hround]
    split
    · next hex => exact ⟨e, rfl, her, k9.trans hret, hx.trans hex, fun hf => hempty hf hex⟩
    · next hex =>
      obtain ⟨f, hf, hfr, hfret, hfx, hf0⟩ := ih (s := { s with df := e }) her (by
        show e.wend + 1 + (if e.tokCount = Config.tokenCap then 1 else 0) ≤ e.widx + n
        rw [if_neg (Nat.ne_of_lt hcap), k6, k5]
        show d.wend + 1 + 0 ≤ d.widx + n
        split at hn
        · omega
        · obtain hp | hp | hp := hprog
          · exact absurd hp hex
          · contradiction
          · omega)
      exact ⟨f, hf, hfr, hfret.trans (k9.trans hret), hfx, hf0⟩

theorem Deflate.emptyFinal_emits {d : Deflate} (h : d.Ready) :
    ∃ e n v, d.emptyFinal = .ok e ∧ Deflate.Emits n v d e := by
  obtain ⟨a, ha, hae⟩ := Deflate.hput_emits (v := 0b011) (n := 3) h.acc h.room h.willing (by decide) (by decide)
  have har := h.of_emits hae
  obtain ⟨b, hb, hbe⟩ := Deflate.hput_emits (v := 0) (n := 7) har.acc har.room har.willing (by decide) (by decide)
  exact ⟨b, _, _, by simp only [Deflate.emptyFinal, ha, except_ok_bind, hb], hae.trans hbe⟩

/-- `compressBlock` leaves the window exhausted and, at a flush, no token behind (rules R385, R387). -/
theorem compressBlock_completes (flush final : Bool) {s : State} (h : s.df.Ready) :
    ∃ e, compressBlock flush final s = .ok { s with df := e } ∧ e.Ready ∧ e.ret = s.df.ret
      ∧ e.exhausted flush = true ∧ (flush = true → e.tokCount = 0) := by
  have hcur := h.cursors.1
  unfold compressBlock
  split
  · next hc =>
    obtain ⟨-, h0⟩ := hc
    obtain ⟨e, n, v, he, hee⟩ := Deflate.emptyFinal_emits h
    obtain ⟨-, -, -, -, k5, k6, -, -, k9⟩ := hee.emitsOnly.keeps
    have htok : e.tokCount = s.df.tokCount := by rw [hee.same]
    refine ⟨e, by rw [he]; rfl, h.of_emits hee, k9, ?_, fun _ => by rw [htok, h.fresh h0]⟩
    simp only [Deflate.exhausted, k5, k6]
    split
    · exact decide_eq_true (by omega)
    · exact decide_eq_true (by omega)
  · exact compressLoop_completes flush final _ h (by split <;> omega)

/-! ### The window (rules R379, R380) -/

/-- How far the shift moves the window (rule R379). -/
def Deflate.shiftBy (d : Deflate) : Nat := if 2 * d.windowSize ≤ d.widx then d.widx - d.windowSize else 0

/-- The shift keeps the last `W` tokenised bytes and all that follow them (rule R379). -/
theorem Deflate.Ready.shift_spec {d : Deflate} (h : d.Ready) :
    ∃ m : Memory, (∀ r, Deflate.shift { d with ret := r } = .ok
        { d with winBuf := m, widx := d.widx - d.shiftBy, wend := d.wend - d.shiftBy, ret := r })
      ∧ (∀ j, j < d.wend - d.shiftBy → m.get? j = d.winBuf.get? (d.shiftBy + j))
      ∧ ∀ a, d.wend - d.shiftBy ≤ a → m.get? a = d.winBuf.get? a := by
  obtain ⟨hle, -⟩ := h.cursors
  have hsize := h.matchable.size
  unfold Deflate.shiftBy
  split
  · next hdue =>
    obtain ⟨m, hm, -, hcopy, hrest⟩ := copyAscending_spec .win d.winSize d.winBuf (d.widx - d.windowSize) 0
      (d.wend - (d.widx - d.windowSize)) (by omega)
      (fun k _ hk _ => h.filled k (Nat.zero_le _) (by omega))
      (.inr (.inr ⟨Nat.zero_le _, fun k _ hk => h.filled k (Nat.zero_le _) (by omega)⟩))
    refine ⟨m, fun r => ?_, fun j hj => ?_, fun a ha => hrest a (by omega)⟩
    · have hw : d.widx - (d.widx - d.windowSize) = d.windowSize := by omega
      have hm' : copyAscending .win (Deflate.winSize { d with ret := r }) d.winBuf (d.widx - d.windowSize) 0
        (d.wend - (d.widx - d.windowSize)) = .ok m := hm
      simp only [Deflate.shift, if_pos hdue, hm', except_ok_bind, hw]
    · have := hcopy (Nat.zero_le _) j hj
      rwa [Nat.zero_add] at this
  · next hdue =>
    refine ⟨d.winBuf, fun r => ?_, fun j _ => by rw [Nat.zero_add], fun _ _ => rfl⟩
    simp only [Deflate.shift, if_neg hdue, Nat.sub_zero]

/-- `Accumulate`: the bytes go behind what the shift keeps, as many as fit (rule R380). -/
theorem Deflate.Ready.accumulate_spec {d : Deflate} (h : d.Ready) (data : List Byte) {n : Nat}
    (hn : n = min data.length (d.fill - (d.wend - d.shiftBy))) :
    ∃ m : Memory, (∀ r, Deflate.accumulate data { d with ret := r } = .ok (n,
        { d with winBuf := m, widx := d.widx - d.shiftBy, wend := d.wend - d.shiftBy + n, ret := r }))
      ∧ (∀ j, j < d.wend - d.shiftBy → m.get? j = d.winBuf.get? (d.shiftBy + j))
      ∧ (∀ j, j < n → m.get? (d.wend - d.shiftBy + j) = data[j]?)
      ∧ ∀ a, d.wend - d.shiftBy + n ≤ a → m.get? a = d.winBuf.get? a := by
  obtain ⟨-, hfill⟩ := h.cursors
  obtain ⟨m0, hshift, hkeep, hrest0⟩ := h.shift_spec
  have hsize : d.winSize = d.fill + 3 := rfl
  have hlen : (data.take n).length = n := by rw [List.length_take]; omega
  obtain ⟨m, hm, hnew, hrest⟩ := writeBytes_spec .win d.winSize m0 (d.wend - d.shiftBy) (data.take n) (.inr (by omega))
  rw [hlen] at hrest
  refine ⟨m, fun r => ?_, fun j hj => ?_, fun j hj => ?_, fun a ha => ?_⟩
  · have hm' : writeBytes .win (Deflate.winSize { d with
        winBuf := m0, widx := d.widx - d.shiftBy, wend := d.wend - d.shiftBy, ret := r }) m0 (d.wend - d.shiftBy)
        (data.take n) = .ok m := hm
    have hn' : min data.length (Deflate.fill { d with
        winBuf := m0, widx := d.widx - d.shiftBy, wend := d.wend - d.shiftBy, ret := r } - (d.wend - d.shiftBy)) = n := hn.symm
    simp only [Deflate.accumulate, hshift r, except_ok_bind, hn', hm']
  · rw [hrest j (.inl hj), hkeep j hj]
  · rw [hnew j (by omega), List.getElem_take, List.getElem?_eq_getElem]
  · rw [hrest a (.inr ha), hrest0 a (by omega)]

/-- The window is taken to be full only once it has been tokenised (rules R51, R380). -/
def Deflate.Shiftable (d : Deflate) : Prop := d.wend = d.fill → 2 * d.windowSize ≤ d.widx

theorem Deflate.Sound.ready {d : Deflate} (h : d.Sound) (ho : d.outErr = none) (hc : d.closed = false)
    (hw : d.sink.willing) : d.Ready where
  stage := h.stage
  acc := h.acc
  room := h.room
  window := h.window
  cursors := h.cursors
  filled := h.filled
  cap := h.tokens.1
  fresh := h.fresh
  kinds := fun k hk => by
    obtain ⟨t, ht⟩ := Option.isSome_iff_exists.1 (h.tokens.2 k (Nat.zero_le _) hk)
    exact ⟨t, ht, h.kinds k hk t ht⟩
  willing := hw
  outErr := ho
  closed := hc

theorem Deflate.Ready.sound {d : Deflate} (h : d.Ready) (hs : d.Shiftable) : d.Sound where
  stage := h.stage
  acc := h.acc
  room := h.room
  window := h.window
  cursors := h.cursors
  shiftable := hs
  filled := h.filled
  tokens := ⟨h.cap, fun k _ hk => by
    obtain ⟨t, ht, -⟩ := h.kinds k hk
    rw [ht]
    rfl⟩
  fresh := h.fresh
  kinds := fun k hk t ht => by
    obtain ⟨u, hu, htok⟩ := h.kinds k hk
    rwa [Option.some.inj (ht.symm.trans hu)]

/-- An exhausted window can be shifted when it is full. -/
theorem Deflate.shiftable_of_exhausted {d : Deflate} {flush : Bool} (h : d.exhausted flush = true) : d.Shiftable := by
  intro hfull
  have hfill : d.fill = 2 * d.windowSize + 258 := rfl
  rw [Deflate.exhausted] at h
  split at h
  · have := of_decide_eq_true h
    omega
  · have := of_decide_eq_true h
    omega

theorem Deflate.Ready.of_returns {d : Deflate} (h : d.Ready) (st : Status) (k : Nat) : (d.returns st k).Ready :=
  ⟨h.stage, ⟨h.acc.len, h.acc.bits, h.acc.cursor, h.acc.written⟩, h.room, h.window, h.cursors, h.filled, h.cap, h.fresh,
    h.kinds, h.willing, h.outErr, h.closed⟩

theorem Deflate.Ready.accumulate_ready {d : Deflate} (h : d.Ready) {data : List Byte} {n : Nat} {m : Memory}
    (hn : n = min data.length (d.fill - (d.wend - d.shiftBy)))
    (hkeep : ∀ j, j < d.wend - d.shiftBy → m.get? j = d.winBuf.get? (d.shiftBy + j))
    (hnew : ∀ j, j < n → m.get? (d.wend - d.shiftBy + j) = data[j]?) :
    Deflate.Ready { d with winBuf := m, widx := d.widx - d.shiftBy, wend := d.wend - d.shiftBy + n } := by
  obtain ⟨hle, hfill⟩ := h.cursors
  have hfilled : m.readable 0 (d.wend - d.shiftBy + n) := fun k _ hk => by
    rcases Nat.lt_or_ge k (d.wend - d.shiftBy) with hlt | hge
    · rw [hkeep k hlt]
      exact h.filled _ (Nat.zero_le _) (by omega)
    · obtain ⟨j, rfl⟩ := Nat.exists_eq_add_of_le hge
      rw [hnew j (by omega), List.getElem?_eq_getElem (by omega)]
      rfl
  have hpos := h.windowSize_bounds.1
  have hfresh : d.wend - d.shiftBy + n = 0 → d.tokCount = 0 := fun h0 => by
    refine h.fresh ?_
    unfold Deflate.shiftBy at h0
    split at h0 <;> omega
  refine ⟨h.stage, ⟨h.acc.len, h.acc.bits, h.acc.cursor, h.acc.written⟩, h.room, h.window, ⟨?_, ?_⟩, hfilled, h.cap, hfresh,
    h.kinds, h.willing, h.outErr, h.closed⟩
  · show d.widx - d.shiftBy ≤ d.wend - d.shiftBy + n
    omega
  · show d.wend - d.shiftBy + n ≤ d.fill
    omega

/-- There is room behind what the shift keeps (rules R51, R379, R380). -/
theorem Deflate.Ready.room_behind_shift {d : Deflate} (h : d.Ready) (hs : d.Shiftable) : d.wend - d.shiftBy < d.fill := by
  obtain ⟨hle, hfill⟩ := h.cursors
  have hpos := h.windowSize_bounds.1
  unfold Deflate.Shiftable at hs
  unfold Deflate.shiftBy
  split <;> omega

/-! ### The commands -/

theorem writeLoop_nil (n pos : Nat) (s : State) : writeLoop n pos [] s = .ok s := by
  cases n <;> exact if_pos rfl

/-- `DF_WRITE` takes all its bytes, at least one in each round (rules R380, R381). -/
theorem writeLoop_completes (n pos : Nat) {data : List Byte} {s : State} (h : s.df.Ready) (hs : s.df.Shiftable)
    (hn : data.length ≤ n) (hret : s.df.ret = ⟨.ok, pos⟩) :
    ∃ e, writeLoop n pos data s = .ok { s with df := e } ∧ e.Ready ∧ e.Shiftable ∧ e.ret = ⟨.ok, pos + data.length⟩ := by
  induction n generalizing pos data s with
  | zero =>
    obtain rfl := List.length_eq_zero_iff.1 (Nat.le_zero.1 hn)
    exact ⟨s.df, writeLoop_nil _ _ _, h, hs, hret⟩
  | succ n ih =>
    rcases eq_or_ne data [] with rfl | hdata
    · exact ⟨s.df, writeLoop_nil _ _ _, h, hs, hret⟩
    obtain ⟨m, hacc, hkeep, hnew, -⟩ := h.accumulate_spec data rfl
    have hready := h.accumulate_ready rfl hkeep hnew
    have hroom := h.room_behind_shift hs
    have hlen := List.length_pos_iff.2 hdata
    generalize hk : min data.length (s.df.fill - (s.df.wend - s.df.shiftBy)) = k at *
    generalize hd : ({ s.df with
      winBuf := m, widx := s.df.widx - s.df.shiftBy, wend := s.df.wend - s.df.shiftBy + k } : Deflate) = d at *
    have hacc' : s.df.accumulate data = .ok (k, d) := by rw [← hd]; exact hacc s.df.ret
    obtain ⟨e, he, her, hes, heret⟩ : ∃ e, (if d.wend = d.fill then
          compressBlock false false { s with df := d.returns .ok (pos + k) }
        else .ok { s with df := d.returns .ok (pos + k) }) = .ok { s with df := e } ∧ e.Ready ∧ e.Shiftable
        ∧ e.ret = ⟨.ok, pos + k⟩ := by
      split
      · obtain ⟨e, he, her, heret, hex, -⟩ := compressBlock_completes false false
          (s := { s with df := d.returns .ok (pos + k) }) (hready.of_returns .ok (pos + k))
        exact ⟨e, he, her, Deflate.shiftable_of_exhausted hex, heret⟩
      · next hnot => exact ⟨_, rfl, hready.of_returns .ok (pos + k), fun hfull => absurd hfull hnot, rfl⟩
    obtain ⟨f, hf, hfr, hfs, hfret⟩ := ih (pos + k) (data := data.drop k) (s := { s with df := e }) her hes
      (by rw [List.length_drop]; omega) heret
    refine ⟨f, ?_, hfr, hfs, ?_⟩
    · rw [writeLoop_of_accumulate hdata hacc', he]
      exact hf
    · rw [hfret, List.length_drop, Nat.add_assoc, Nat.add_sub_cancel' (by omega)]

theorem Deflate.Emits.outNum_eq {n : Nat} {d e : Deflate} (h : Deflate.Emits n 0 d e) : e.outNum = d.outNum := by
  rw [h.num, Nat.mul_zero, Nat.add_zero]

/-- Bytes that are whole at the accumulator, with no bit left in it. -/
theorem Deflate.outNum_of_aligned {d : Deflate} (h0 : d.ebits = 0) (h1 : d.ebitLen = 0) :
    d.outNum = leValue (d.sink.bytes ++ d.outBuf.window 0 d.oidx)
      ∧ d.outBits = 8 * (d.sink.bytes ++ d.outBuf.window 0 d.oidx).length := by
  rw [Deflate.outNum, Deflate.outBits, h0, h1, List.length_append, Cells.window_length]
  exact ⟨by simp, rfl⟩

theorem syncMarker_value : leValue [0x00, 0x00, 0xFF, 0xFF] = 0xFFFF0000 := by decide

/-- The sync marker: the padded header bits, then `00 00 FF FF`, all of it at the sink (rule R388). -/
theorem Deflate.syncMarker_emits {d : Deflate} (h : d.Ready) :
    ∃ e n v, d.syncMarker = .ok e ∧ Deflate.Emits n v d e ∧ e.ebitLen = 0 ∧ e.oidx = 0
      ∧ ∃ before, e.sink.bytes = before ++ [0x00, 0x00, 0xFF, 0xFF] := by
  obtain ⟨a, ha, hae⟩ := Deflate.hput_emits (v := 0b000) (n := 3) h.acc h.room h.willing (by decide) (by decide)
  have har := h.of_emits hae
  obtain ⟨b, nb, hb, hbe, hb0, hb1, -⟩ := Deflate.hflush_emits har.acc har.room har.willing
  have hbr := har.of_emits hbe
  obtain ⟨c, hc, hce⟩ := Deflate.hput_emits (v := leValue [0x00, 0x00, 0xFF, 0xFF]) (n := 32) hbr.acc hbr.room hbr.willing
    (by decide) (leValue_lt _)
  rw [syncMarker_value] at hc
  have hcr := hbr.of_emits hce
  obtain ⟨f, nf, hf, hfe, -, hf0, hfb⟩ := Deflate.hflush_emits hcr.acc hcr.room hcr.willing
  have hfr := hcr.of_emits hfe
  obtain ⟨e, he, hee, he0, hel, -⟩ := Deflate.drainOut_emits hfr.acc hfr.willing
  refine ⟨e, _, _, ?_, ((hae.trans hbe).trans hce).trans (hfe.trans hee), hel.trans hf0, he0, ?_⟩
  · simp only [Deflate.syncMarker, ha, hb, hc, hf, except_ok_bind, he]
  · obtain ⟨hnum, hbits⟩ := Deflate.outNum_of_aligned hb0 hb1
    generalize b.sink.bytes ++ b.outBuf.window 0 b.oidx = before at hnum hbits
    have hnum' : e.outNum = leValue (before ++ [0x00, 0x00, 0xFF, 0xFF]) := by
      rw [hee.outNum_eq, hfe.outNum_eq, hce.num, hnum, hbits, leValue_append]
    have hbits' : e.outBits / 8 = (before ++ [0x00, 0x00, 0xFF, 0xFF] : List Byte).length := by
      rw [hee.bits, hfb, hce.bits, hbits, List.length_append]
      show _ = before.length + 4
      omega
    refine ⟨before, ?_⟩
    rw [(Deflate.sink_of_drained hee.acc he0 (hel.trans hf0)).1, hbits', hnum', leBytes_leValue]

/-- Everything drained and the stream closed (rule R389). -/
theorem Deflate.sealStream_emits {d : Deflate} (h : d.Ready) :
    ∃ e n v, d.sealStream = .ok { e with closed := true } ∧ Deflate.Emits n v d e ∧ e.ebitLen = 0 ∧ e.oidx = 0 := by
  obtain ⟨a, n, ha, hae, -, ha0, -⟩ := Deflate.hflush_emits h.acc h.room h.willing
  have har := h.of_emits hae
  obtain ⟨e, he, hee, he0, hel, -⟩ := Deflate.drainOut_emits har.acc har.willing
  exact ⟨e, _, _, by simp only [Deflate.sealStream, ha, except_ok_bind, he], hae.trans hee, hel.trans ha0, he0⟩

/-- `DF_FLUSH` leaves everything tokenised and drained, the sync marker last at the sink (rule R388). -/
theorem exec_dfFlush_completes {s : State} (h : s.df.Ready) :
    ∃ d, exec .dfFlush s = .next { s with df := d } ∧ d.Sound ∧ d.ret = ⟨.ok, 0⟩ ∧ d.outErr = none
      ∧ d.closed = false ∧ d.widx = d.wend ∧ d.ebitLen = 0 ∧ d.oidx = 0 ∧ d.tokCount = 0
      ∧ ∃ before, d.sink.bytes = before ++ [0x00, 0x00, 0xFF, 0xFF] := by
  obtain ⟨a, ha, har, haret, hax, hat⟩ := compressBlock_completes true false
    (s := { s with df := s.df.returns .ok 0 }) (h.of_returns .ok 0)
  obtain ⟨e, n, v, he, hee, hlen, hidx, hbytes⟩ := Deflate.syncMarker_emits har
  have her := har.of_emits hee
  obtain ⟨k1, -, -, -, k5, k6, -, -, k9⟩ := hee.emitsOnly.keeps
  have hx : e.exhausted true = true := (Deflate.exhausted_eq true k1 k5 k6).trans hax
  have htok : e.tokCount = a.tokCount := by rw [hee.same]
  refine ⟨e, ?_, her.sound (Deflate.shiftable_of_exhausted hx), k9.trans haret, her.outErr, her.closed, ?_, hlen, hidx,
    htok.trans (hat rfl), hbytes⟩
  · rw [exec_dfFlush_of_open (Deflate.barred_of_open h.outErr h.closed), ha]
    show finishDf (State.drive _ a.syncMarker) = _
    rw [he]
    rfl
  · exact of_decide_eq_true hx

/-- `DF_CLOSE` leaves everything drained and the stream closed (rule R389). -/
theorem exec_dfClose_completes {s : State} (h : s.df.Ready) :
    ∃ d, exec .dfClose s = .next { s with df := d } ∧ d.Sound ∧ d.ret = ⟨.ok, 0⟩ ∧ d.outErr = none
      ∧ d.closed = true ∧ d.ebitLen = 0 ∧ d.oidx = 0 ∧ d.tokCount = 0 := by
  obtain ⟨a, ha, har, haret, hax, hat⟩ := compressBlock_completes true true
    (s := { s with df := s.df.returns .ok 0 }) (h.of_returns .ok 0)
  obtain ⟨e, n, v, he, hee, hlen, hidx⟩ := Deflate.sealStream_emits har
  have her := har.of_emits hee
  obtain ⟨k1, -, -, -, k5, k6, -, -, k9⟩ := hee.emitsOnly.keeps
  have hx : e.exhausted true = true := (Deflate.exhausted_eq true k1 k5 k6).trans hax
  have htok : e.tokCount = a.tokCount := by rw [hee.same]
  have hs := her.sound (Deflate.shiftable_of_exhausted hx)
  refine ⟨{ e with closed := true }, ?_, ?_, k9.trans haret, her.outErr, rfl, hlen, hidx, htok.trans (hat rfl)⟩
  · rw [exec_dfClose_of_open (Deflate.barred_of_open h.outErr h.closed), ha]
    show finishDf (State.drive _ a.sealStream) = _
    rw [he]
    rfl
  · exact ⟨hs.stage, ⟨hs.acc.len, hs.acc.bits, hs.acc.cursor, hs.acc.written⟩, hs.room, hs.window, hs.cursors,
      hs.shiftable, hs.filled, hs.tokens, hs.fresh, hs.kinds⟩

theorem exec_dfWrite_completes {s : State} (h : s.df.Ready) (hs : s.df.Shiftable) (data : List Byte) :
    ∃ d, exec (.dfWrite data) s = .next { s with df := d } ∧ d.Sound ∧ d.ret = ⟨.ok, data.length⟩
      ∧ d.outErr = none ∧ d.closed = false := by
  obtain ⟨e, he, her, hes, heret⟩ := writeLoop_completes (2 * data.length + 2) 0 (data := data)
    (s := { s with df := s.df.returns .ok 0 }) (h.of_returns .ok 0) hs (by omega) rfl
  refine ⟨e, ?_, her.sound hes, by rw [heret, Nat.zero_add], her.outErr, her.closed⟩
  rw [exec_dfWrite_of_open data (Deflate.barred_of_open h.outErr h.closed), he]
  rfl

/-- `DF_WRITE` of bytes that do not fill the window: the window takes them, and that is all (rules R380, R381). -/
theorem exec_dfWrite_of_unfilled {s : State} {data : List Byte} {n : Nat} {d : Deflate} (ho : s.df.outErr = none)
    (hc : s.df.closed = false) (hacc : (s.df.returns .ok 0).accumulate data = .ok (n, d)) (hdata : data ≠ [])
    (hn : data.length ≤ n) (hfill : d.wend ≠ d.fill) :
    exec (.dfWrite data) s = .next { s with df := d.returns .ok n } := by
  rw [exec_dfWrite_of_open data (Deflate.barred_of_open ho hc),
    writeLoop_of_accumulate (s := { s with df := s.df.returns .ok 0 }) hdata hacc, if_neg hfill, Nat.zero_add,
    List.drop_eq_nil_of_le hn]
  show finishDf (writeLoop _ n [] _) = _
  rw [writeLoop_nil]
  rfl

/-- Settles O52: the driver's loops end because each round of DF_WRITE takes a byte and each round of `compressBlock` but
the last moves on in the window; every token of a block is written, because the codes built for it fit. -/
theorem deflateCompletes : Obligations.DeflateCompletes := by
  intro s hsound ho hc hw
  have h := hsound.ready ho hc hw
  refine ⟨?_, exec_dfWrite_completes h hsound.shiftable, exec_dfFlush_completes h, exec_dfClose_completes h⟩
  intro data b n hb hn
  have hb' : b = s.df.shiftBy := hb
  subst hb'
  obtain ⟨m, hacc, hkeep, hnew, hrest⟩ := h.accumulate_spec data hn
  refine ⟨_, m, hacc s.df.ret, rfl, hkeep, hnew, hrest, fun hdata hroom => ?_⟩
  have hrun := exec_dfWrite_of_unfilled ho hc (hacc ⟨.ok, 0⟩) hdata (by omega) (Nat.ne_of_lt hroom)
  exact hrun

end Sys2Proof.Machine
end
